-- ==== Sys2Proof/Word.lean ====
section
/-! DEFINITION. The word and byte types of the F7 (R4, R18): the plainest things every other file uses. -/

namespace Sys2Proof

/-- A 64-bit register, address or memory word (R4, R18). -/
abbrev Word := BitVec 64

/-- One byte of memory (R4). -/
abbrev Byte := BitVec 8

end Sys2Proof
end

