-- ==== Sys2Proof/Syntax.lean ====
section
/-! DEFINITION. The instructions of R113 to R115 and the steps of the operations table, one constructor of `Instr` per row
of spec/opcode_table.json. An instruction's constructor carries every field of its word (R95, R105); a step of the device
carries what names the unit it happens in. -/

namespace Sys2Proof

/-! ### Numbers of units (R12, R346, R347) -/

/-- A strand's global number: strand 4n + c runs on control core c of Pod n (R12). -/
abbrev StrandId := Fin 256
/-- A Pod's number (R12). -/
abbrev PodId := Fin 64
/-- A partition's number (R345). -/
abbrev PartId := Fin 48
/-- A virtual function's number (R347). -/
abbrev VfId := Fin 384
/-- A compute die's number (R12). -/
abbrev DieId := Fin 4

/-! ### Register numbers and small codes (R102, R103) -/

abbrev SReg := Fin 64
abbrev VReg := Fin 32
abbrev PReg := Fin 8
abbrev KReg := Fin 8

/-- A strand's four queues, in ring order L, M, V, S (R13, R15). -/
inductive QName where | L | M | V | S
  deriving DecidableEq, Repr, Inhabited

/-- The engines a Pod shares among its strands (R12, R345). -/
inductive EngineKind where | matrix | load | store | copy
  deriving DecidableEq, Repr, Inhabited

/-- A guard: the sense bit and the predicate number (R97). -/
structure Guard where
  sense : Bool
  pred : PReg
  deriving DecidableEq, Repr, Inhabited

/-- The fields every instruction word shares besides KIND, OP, MOD and the operands: both guards, STOP, TOK, SC (R95). -/
structure Mods where
  ga : Guard
  gb : Guard
  stop : Bool
  tok : BitVec 4
  sc : BitVec 3
  deriving DecidableEq, Repr, Inhabited

/-- Rounding modes RM (R53). -/
inductive Rm where | rne | rtz | rdn | rup | rna
  deriving DecidableEq, Repr, Inhabited

/-- MOD of layout arith: RM, SAT and OPX (R53, R101). -/
structure Arith where
  rm : Rm
  sat : Bool
  opx : BitVec 2
  deriving DecidableEq, Repr, Inhabited

/-- MOD of layout mem: CLS and HINT (R101, R102). -/
structure MemMod where
  cls : BitVec 4
  hint : BitVec 2
  deriving DecidableEq, Repr, Inhabited

/-- ORD of layout atom (R102). -/
inductive Ord where | relaxed | acquire | release | acqrel
  deriving DecidableEq, Repr, Inhabited

/-- MOD of layout atom: CLS and ORD (R101, R102). -/
structure AtomMod where
  cls : BitVec 4
  ord : Ord
  deriving DecidableEq, Repr, Inhabited

/-- SCOPE (R102, R223). -/
inductive Scope where | strand | pod | die | package | domain
  deriving DecidableEq, Repr, Inhabited

/-- WID of layout T: false is four bytes, true is eight (R102). -/
abbrev Wid := Bool

/-- TY, the element type of a vector instruction (R102). -/
inductive Ty where | fp32 | bf16 | fp16 | e4m3 | e5m2 | int8 | int4 | int32
  deriving DecidableEq, Repr, Inhabited

/-- FMT, the element format of a tile (R30). -/
inductive Fmt where | fp32 | bf16 | fp16 | e4m3 | e5m2 | int8 | int4 | int32 | acc56
  deriving DecidableEq, Repr, Inhabited

/-- SCL, the scale layout of a tile (R31). -/
inductive Scl where | none | tensor | row | block
  deriving DecidableEq, Repr, Inhabited

/-- SPN, the sparsity encoding of a tile (R32). -/
inductive Spn where | dense | n8 | n12 | n16 | n24 | n32
  deriving DecidableEq, Repr, Inhabited

/-- A pending result of the device naming a cached line: a physical line of HBM or second tier, or a line of the
fabric window (R243). The number is the line's first byte address. -/
inductive LineRef where
  | phys (pa : Nat)
  | fabric (f : Nat) (home : Option Nat)
  deriving DecidableEq, Repr, Inhabited

/-- Who sent a COMMAND message: the node, the virtual function it acts for, and the message's SEQ (R353). -/
structure Cmd where
  node : Nat
  vf : VfId
  seq : BitVec 16
  deriving DecidableEq, Repr, Inhabited

/-- The access a host or fabric message asks for (R349, R350). -/
inductive MsgOp where
  | read (n : Nat)
  | write (data : List Byte)
  /-- An 8-byte or 4-byte atomic, its operation numbered in R113 order (R364). -/
  | atomic (op : Fin 8) (wide : Bool) (x c : Word)
  /-- A CMO request from another package for its own copies (R233): op and level of R232. -/
  | cmo (op level : Nat) (len : Nat)
  deriving DecidableEq, Repr, Inhabited

/-- The instructions and steps of the F7. A first part holds the instructions, in the order of R113, R114 and R115; a
second part holds the steps that the device, the management core, the host and the fabric take. -/
inductive Instr where
  -- R120, R121: layout A
  | add (m : Mods) (sd sa sb : SReg)
  | sub (m : Mods) (sd sa sb : SReg)
  | mul (m : Mods) (sd sa sb : SReg)
  | mulh (m : Mods) (sd sa sb : SReg)
  | mulhu (m : Mods) (sd sa sb : SReg)
  | div (m : Mods) (sd sa sb : SReg)
  | divu (m : Mods) (sd sa sb : SReg)
  | rem (m : Mods) (sd sa sb : SReg)
  | remu (m : Mods) (sd sa sb : SReg)
  | and (m : Mods) (sd sa sb : SReg)
  | or (m : Mods) (sd sa sb : SReg)
  | xor (m : Mods) (sd sa sb : SReg)
  | andn (m : Mods) (sd sa sb : SReg)
  | shl (m : Mods) (sd sa sb : SReg)
  | shr (m : Mods) (sd sa sb : SReg)
  | sar (m : Mods) (sd sa sb : SReg)
  | rol (m : Mods) (sd sa sb : SReg)
  | ror (m : Mods) (sd sa sb : SReg)
  | min (m : Mods) (sd sa sb : SReg)
  | max (m : Mods) (sd sa sb : SReg)
  | minu (m : Mods) (sd sa sb : SReg)
  | maxu (m : Mods) (sd sa sb : SReg)
  -- R122: layout U
  | clz (m : Mods) (sd sa : SReg)
  | ctz (m : Mods) (sd sa : SReg)
  | popc (m : Mods) (sd sa : SReg)
  -- R123: layout I
  | addi (m : Mods) (sd sa : SReg) (imm : BitVec 12)
  | andi (m : Mods) (sd sa : SReg) (imm : BitVec 12)
  | ori (m : Mods) (sd sa : SReg) (imm : BitVec 12)
  | xori (m : Mods) (sd sa : SReg) (imm : BitVec 12)
  | shli (m : Mods) (sd sa : SReg) (imm : BitVec 12)
  | shri (m : Mods) (sd sa : SReg) (imm : BitVec 12)
  | sari (m : Mods) (sd sa : SReg) (imm : BitVec 12)
  -- R124: layout H; the width code is the width less one
  | bfx (m : Mods) (sd sa : SReg) (pos wcode : BitVec 6)
  | bfxu (m : Mods) (sd sa : SReg) (pos wcode : BitVec 6)
  | bfi (m : Mods) (sd sa sb : SReg) (pos wcode : BitVec 6)
  -- R125
  | movi (m : Mods) (sd : SReg) (imm : BitVec 18)
  | movl (m : Mods) (sd : SReg) (lit : Word)
  | addl (m : Mods) (sd sa : SReg) (lit : Word)
  -- R126: layouts P and Q
  | cmpeq (m : Mods) (pd : PReg) (sa sb : SReg)
  | cmpne (m : Mods) (pd : PReg) (sa sb : SReg)
  | cmplt (m : Mods) (pd : PReg) (sa sb : SReg)
  | cmple (m : Mods) (pd : PReg) (sa sb : SReg)
  | cmpltu (m : Mods) (pd : PReg) (sa sb : SReg)
  | cmpleu (m : Mods) (pd : PReg) (sa sb : SReg)
  | cmpeqi (m : Mods) (pd : PReg) (sa : SReg) (imm : BitVec 12)
  | cmpnei (m : Mods) (pd : PReg) (sa : SReg) (imm : BitVec 12)
  | cmplti (m : Mods) (pd : PReg) (sa : SReg) (imm : BitVec 12)
  | cmplei (m : Mods) (pd : PReg) (sa : SReg) (imm : BitVec 12)
  | cmpltui (m : Mods) (pd : PReg) (sa : SReg) (imm : BitVec 12)
  | cmpleui (m : Mods) (pd : PReg) (sa : SReg) (imm : BitVec 12)
  -- R127
  | pand (m : Mods) (pd pa pb : PReg)
  | por (m : Mods) (pd pa pb : PReg)
  | pxor (m : Mods) (pd pa pb : PReg)
  | pandn (m : Mods) (pd pa pb : PReg)
  | pset (m : Mods) (pd : PReg) (sa : SReg)
  | pget (m : Mods) (sd : SReg) (pa : PReg)
  -- R128 to R132
  | lea (m : Mods) (sd sa sb : SReg) (sh : BitVec 6)
  | apcv (m : Mods) (sd sa : SReg) (f : BitVec 6)
  | apts (m : Mods) (sd sa : SReg)
  | hget (m : Mods) (sd sa : SReg) (sel : BitVec 6)
  | hchk (m : Mods) (pd : PReg) (sa : SReg)
  -- R133
  | br (m : Mods) (off : BitVec 18)
  | call (m : Mods) (off : BitVec 18)
  | jmp (m : Mods) (sa : SReg)
  | callr (m : Mods) (sa : SReg)
  | ret (m : Mods)
  | brl (m : Mods) (lit : Word)
  | calll (m : Mods) (lit : Word)
  -- R134
  | loopp (m : Mods) (sa : SReg) (idx : BitVec 6) (off : BitVec 12)
  | endl (m : Mods)
  -- R136 to R142
  | next (m : Mods)
  | lnch (m : Mods) (sa : SReg)
  | wait (m : Mods) (sd sa sb : SReg)
  | trap (m : Mods) (imm : BitVec 12)
  | brk (m : Mods) (imm : BitVec 12)
  | tack (m : Mods)
  | eret (m : Mods)
  | halt (m : Mods)
  | nop (m : Mods)
  -- R143, R144: the register number is the word's uimm12; a register with a rule of its own has its own constructor
  | srd (m : Mods) (sd : SReg) (num : BitVec 12)
  | srdVstat (m : Mods) (sd : SReg)
  | srdTags (m : Mods) (sd : SReg)
  | swr (m : Mods) (num : BitVec 12) (sa : SReg)
  | swrVstat (m : Mods) (sa : SReg)
  | swrStklim (m : Mods) (sa : SReg)
  | swrTsquota (m : Mods) (sa : SReg)
  | swrOrdmode (m : Mods) (sa : SReg)
  | swrTdeleg (m : Mods) (sa : SReg)
  | swrRole (m : Mods) (sa : SReg)
  | swrLeasectl (m : Mods) (sa : SReg)
  /-- SWR of QMIN (`cap` false) or QCAP (`cap` true), R318. -/
  | swrQminQcap (m : Mods) (cap : Bool) (sa : SReg)
  | swrTags (m : Mods) (sa : SReg)
  /-- SWR of LOGBASE (0), MOBASE (1) or STAMPBASE (2): a move of that log (R360, R370). -/
  | logMove (m : Mods) (which : Fin 3) (sa : SReg)
  -- R147, R149
  | iclk (m : Mods) (sd sa sb : SReg)
  | icul (m : Mods) (sd sa sb : SReg)
  | logw (m : Mods) (sa sb : SReg)
  -- R224: layout M; the data register, the base, the index and the byte offset
  | ldb (m : Mods) (mm : MemMod) (sd sa sc : SReg) (imm : BitVec 12)
  | ldh (m : Mods) (mm : MemMod) (sd sa sc : SReg) (imm : BitVec 12)
  | ldw (m : Mods) (mm : MemMod) (sd sa sc : SReg) (imm : BitVec 12)
  | ldd (m : Mods) (mm : MemMod) (sd sa sc : SReg) (imm : BitVec 12)
  | ldbu (m : Mods) (mm : MemMod) (sd sa sc : SReg) (imm : BitVec 12)
  | ldhu (m : Mods) (mm : MemMod) (sd sa sc : SReg) (imm : BitVec 12)
  | ldwu (m : Mods) (mm : MemMod) (sd sa sc : SReg) (imm : BitVec 12)
  | stb (m : Mods) (mm : MemMod) (sd sa sc : SReg) (imm : BitVec 12)
  | sth (m : Mods) (mm : MemMod) (sd sa sc : SReg) (imm : BitVec 12)
  | stw (m : Mods) (mm : MemMod) (sd sa sc : SReg) (imm : BitVec 12)
  | std (m : Mods) (mm : MemMod) (sd sa sc : SReg) (imm : BitVec 12)
  -- R226: layout N
  | ldaqw (m : Mods) (cls : BitVec 4) (sd sa : SReg) (scope : Scope)
  | ldaqd (m : Mods) (cls : BitVec 4) (sd sa : SReg) (scope : Scope)
  | strlw (m : Mods) (cls : BitVec 4) (sd sa : SReg) (scope : Scope)
  | strld (m : Mods) (cls : BitVec 4) (sd sa : SReg) (scope : Scope)
  -- R227: layout T
  | aadd (m : Mods) (am : AtomMod) (sd sa sb : SReg) (wid : Wid) (scope : Scope)
  | afadd (m : Mods) (am : AtomMod) (sd sa sb : SReg) (wid : Wid) (scope : Scope)
  | amin (m : Mods) (am : AtomMod) (sd sa sb : SReg) (wid : Wid) (scope : Scope)
  | amax (m : Mods) (am : AtomMod) (sd sa sb : SReg) (wid : Wid) (scope : Scope)
  | aand (m : Mods) (am : AtomMod) (sd sa sb : SReg) (wid : Wid) (scope : Scope)
  | aor (m : Mods) (am : AtomMod) (sd sa sb : SReg) (wid : Wid) (scope : Scope)
  | axch (m : Mods) (am : AtomMod) (sd sa sb : SReg) (wid : Wid) (scope : Scope)
  | acas (m : Mods) (am : AtomMod) (sd sa sb sc : SReg) (wid : Wid) (scope : Scope)
  -- R230 to R234
  | fence (m : Mods) (scope : Scope) (eng : Bool) (cm : BitVec 16)
  | cmo (m : Mods) (cls : BitVec 4) (op : BitVec 6) (sa sb : SReg) (level : BitVec 6)
  | bar (m : Mods) (imm : BitVec 12)
  -- R109
  | dbnd (c2 c1 c0 : BitVec 16)
  -- R163
  | vadd (m : Mods) (a : Arith) (vd va vb : VReg) (ty : Ty) (k : KReg)
  | vsub (m : Mods) (a : Arith) (vd va vb : VReg) (ty : Ty) (k : KReg)
  | vmul (m : Mods) (a : Arith) (vd va vb : VReg) (ty : Ty) (k : KReg)
  | vfma (m : Mods) (a : Arith) (vd va vb vc : VReg) (ty : Ty) (k : KReg)
  | vfms (m : Mods) (a : Arith) (vd va vb vc : VReg) (ty : Ty) (k : KReg)
  | vdiv (m : Mods) (a : Arith) (vd va vb : VReg) (ty : Ty) (k : KReg)
  | vmin (m : Mods) (a : Arith) (vd va vb : VReg) (ty : Ty) (k : KReg)
  | vmax (m : Mods) (a : Arith) (vd va vb : VReg) (ty : Ty) (k : KReg)
  | vabs (m : Mods) (a : Arith) (vd va : VReg) (ty : Ty) (k : KReg)
  | vneg (m : Mods) (a : Arith) (vd va : VReg) (ty : Ty) (k : KReg)
  -- R164, R165
  | vand (m : Mods) (a : Arith) (vd va vb : VReg) (ty : Ty) (k : KReg)
  | vor (m : Mods) (a : Arith) (vd va vb : VReg) (ty : Ty) (k : KReg)
  | vxor (m : Mods) (a : Arith) (vd va vb : VReg) (ty : Ty) (k : KReg)
  | vnot (m : Mods) (a : Arith) (vd va : VReg) (ty : Ty) (k : KReg)
  | vshl (m : Mods) (a : Arith) (vd va vb : VReg) (ty : Ty) (k : KReg)
  | vshr (m : Mods) (a : Arith) (vd va vb : VReg) (ty : Ty) (k : KReg)
  | vsar (m : Mods) (a : Arith) (vd va vb : VReg) (ty : Ty) (k : KReg)
  | vfshl (m : Mods) (a : Arith) (vd va vb vc : VReg) (ty : Ty) (k : KReg)
  | vfshr (m : Mods) (a : Arith) (vd va vb vc : VReg) (ty : Ty) (k : KReg)
  -- R166 to R168
  | vcmpeq (m : Mods) (a : Arith) (kd : KReg) (va vb : VReg) (ty : Ty) (k : KReg)
  | vcmpne (m : Mods) (a : Arith) (kd : KReg) (va vb : VReg) (ty : Ty) (k : KReg)
  | vcmplt (m : Mods) (a : Arith) (kd : KReg) (va vb : VReg) (ty : Ty) (k : KReg)
  | vcmple (m : Mods) (a : Arith) (kd : KReg) (va vb : VReg) (ty : Ty) (k : KReg)
  | vsel (m : Mods) (a : Arith) (vd va vb : VReg) (kc : KReg) (ty : Ty) (k : KReg)
  | kand (m : Mods) (kd ka kb : KReg)
  | kor (m : Mods) (kd ka kb : KReg)
  | kxor (m : Mods) (kd ka kb : KReg)
  | knot (m : Mods) (kd ka : KReg)
  -- R169: the target type stands in FD, the source type in FE
  | vcvt (m : Mods) (a : Arith) (vd va : VReg) (tt ty : Ty) (k : KReg)
  | vwid (m : Mods) (a : Arith) (vd va : VReg) (tt ty : Ty) (k : KReg)
  | vnar (m : Mods) (a : Arith) (vd va : VReg) (tt ty : Ty) (k : KReg)
  -- R170 to R174
  | vbcst (m : Mods) (vd : VReg) (sa : SReg) (ty : Ty) (k : KReg)
  | vext (m : Mods) (sd : SReg) (va : VReg) (sb : SReg) (ty : Ty)
  | vperm (m : Mods) (vd va vb : VReg) (ty : Ty) (k : KReg)
  | vshuf (m : Mods) (vd va vb : VReg) (pat : BitVec 6) (ty : Ty) (k : KReg)
  | vlrot (m : Mods) (vd va : VReg) (sb : SReg) (ty : Ty) (k : KReg)
  -- R175 to R177
  | vrsum (m : Mods) (a : Arith) (vd va : VReg) (ty : Ty) (k : KReg)
  | vrmax (m : Mods) (a : Arith) (vd va : VReg) (ty : Ty) (k : KReg)
  | vrmin (m : Mods) (a : Arith) (vd va : VReg) (ty : Ty) (k : KReg)
  | vgsum (m : Mods) (a : Arith) (vd va : VReg) (g : BitVec 6) (ty : Ty) (k : KReg)
  | vgmax (m : Mods) (a : Arith) (vd va : VReg) (g : BitVec 6) (ty : Ty) (k : KReg)
  | vgmin (m : Mods) (a : Arith) (vd va : VReg) (g : BitVec 6) (ty : Ty) (k : KReg)
  | vscan (m : Mods) (a : Arith) (vd va : VReg) (ty : Ty) (k : KReg)
  | vscanm (m : Mods) (a : Arith) (vd va : VReg) (ty : Ty) (k : KReg)
  -- R178, R179
  | vsin (m : Mods) (a : Arith) (vd va : VReg) (ty : Ty) (k : KReg)
  | vcos (m : Mods) (a : Arith) (vd va : VReg) (ty : Ty) (k : KReg)
  | vexp (m : Mods) (a : Arith) (vd va : VReg) (ty : Ty) (k : KReg)
  | vlog (m : Mods) (a : Arith) (vd va : VReg) (ty : Ty) (k : KReg)
  | vrcp (m : Mods) (a : Arith) (vd va : VReg) (ty : Ty) (k : KReg)
  | vrsq (m : Mods) (a : Arith) (vd va : VReg) (ty : Ty) (k : KReg)
  | vqnt (m : Mods) (a : Arith) (vd va vs : VReg) (slice : BitVec 6) (ty : Ty)
  -- R180: layout VM
  | vld (m : Mods) (mm : MemMod) (vd : VReg) (sa : SReg) (imm : BitVec 6) (ty : Ty) (k : KReg)
  | vst (m : Mods) (mm : MemMod) (vd : VReg) (sa : SReg) (imm : BitVec 6) (ty : Ty) (k : KReg)
  | vldu (m : Mods) (mm : MemMod) (vd : VReg) (sa : SReg) (imm : BitVec 6) (ty : Ty) (k : KReg)
  | vstm (m : Mods) (mm : MemMod) (vd : VReg) (sa : SReg) (imm : BitVec 6) (ty : Ty) (k : KReg)
  | vgath (m : Mods) (mm : MemMod) (vd : VReg) (sa : SReg) (vc : VReg) (imm : BitVec 6) (ty : Ty) (k : KReg)
  | vscat (m : Mods) (mm : MemMod) (vd : VReg) (sa : SReg) (vc : VReg) (imm : BitVec 6) (ty : Ty) (k : KReg)
  -- R183
  | vdec (m : Mods) (vd : VReg)
  -- R78, R79
  | tdup (m : Mods)
  | tdrop (m : Mods)
  | tswap (m : Mods)
  | tover (m : Mods)
  | tpick (m : Mods) (n : BitVec 6)
  | trot (m : Mods) (n : BitVec 6)
  | tbury (m : Mods) (n : BitVec 6)
  | tmarkOpen (m : Mods) (sd : SReg) (n : BitVec 12)
  | tmarkClose (m : Mods) (ss : SReg)
  -- R189 to R191
  | tld (m : Mods) (mm : MemMod) (sa : SReg)
  | tldh (m : Mods) (mm : MemMod) (sh so sx : SReg)
  | tldr (m : Mods) (mm : MemMod) (fmt : Fmt) (sa sx sp : SReg)
  -- R209 to R218
  | cpy (m : Mods) (mm : MemMod) (tag : BitVec 6) (sd ss sn : SReg)
  | cpyg (m : Mods) (mm : MemMod) (tag : BitVec 6) (sd sb sl : SReg) (lg : BitVec 6)
  | cpyd (m : Mods) (mm : MemMod) (tag : BitVec 6) (ss sn : SReg)
  | cpye (m : Mods) (mm : MemMod) (tag : BitVec 6) (sd ss sn : SReg) (wc : BitVec 6)
  | coll (m : Mods) (mm : MemMod) (tag : BitVec 6) (sa : SReg)
  | wtall (m : Mods) (sm : SReg)
  | wtany (m : Mods) (sm : SReg)
  | tagff (m : Mods) (sd sm : SReg)
  | tagcl (m : Mods) (sm : SReg)
  -- R194
  | tst (m : Mods) (mm : MemMod) (sa : SReg)
  | tstk (m : Mods) (mm : MemMod) (sa : SReg)
  -- R199 to R208
  | mma (m : Mods)
  | mmac (m : Mods)
  | madd (m : Mods) (a : Arith)
  | msub (m : Mods) (a : Arith)
  | mmul (m : Mods) (a : Arith)
  | mscal (m : Mods) (a : Arith) (sf : SReg)
  | mcvt (m : Mods) (a : Arith) (fmt : Fmt) (scl : Scl)
  | mtrn (m : Mods)
  | mzero (m : Mods) (fmt : Fmt) (sx : SReg) (acci : BitVec 6)
  | mhdr (m : Mods) (su : SReg)
  | mspar (m : Mods) (spn : Spn)
  | mrsum (m : Mods)
  | mchk (m : Mods)
  | lacq (m : Mods)
  | lrel (m : Mods)
  -- R195 to R197
  | tbeg (m : Mods) (fmt : Fmt) (sx : SReg)
  | trow (m : Mods) (a : Arith) (va : VReg) (ty : Ty)
  | tend (m : Mods)
  | trv (m : Mods) (a : Arith) (vd : VReg) (sr sc : SReg) (ty : Ty)
  | tcv (m : Mods) (a : Arith) (vd : VReg) (sc : SReg) (ty : Ty)
  -- steps of dispatch and the engines
  | dispatchResume (n : StrandId)
  | engineInstructionStart (n : StrandId) (q : QName)
  /-- The started instruction of queue `q` with program-order number `seq` makes up to `portion` further accesses, and
  completes when none is left (R188, R252). -/
  | engineInstructionComplete (n : StrandId) (q : QName) (seq portion : Nat)
  | pendingWriteLand (n : StrandId)
  | tileSink (n : StrandId) (id : Nat)
  | tileRaise (n : StrandId) (id : Nat)
  | cpydBlockDecode (n : StrandId)
  -- steps of the ordering machine (R244, R250, R237)
  | bind (n : StrandId) (c : BitVec 4)
  | leave (n : StrandId) (c : BitVec 4)
  | push (n : StrandId) (c : BitVec 4)
  | commit (n : StrandId) (c : BitVec 4)
  | atom (n : StrandId) (c : BitVec 4)
  | fill (n : StrandId) (line : LineRef)
  | drop (n : StrandId) (line : LineRef)
  | evict (pa : Nat)
  | fenceComplete (n : StrandId) (seq : Nat)
  | barComplete (pod : PodId) (memb : BitVec 4)
  | orderedEntryApply (line : Nat)
  | logRecordWrite (p : PartId) (k : Nat)
  -- steps of the sequencer (R309 to R314, R20, R271)
  | launchStart (p : PartId)
  | unitHandOut (p : PartId) (slot : Fin 4) (die : DieId)
  | coverCursorVisit (p : PartId) (slot : Fin 4)
  | iterationSkip (p : PartId) (slot : Fin 4) (ordinal : Nat)
  | launchDone (p : PartId) (slot : Fin 4)
  | preemptEvaluate (p : PartId)
  | drain (n : StrandId)
  | checkpointStop (n : StrandId)
  | kill (p : PartId) (slot : Fin 4)
  | preemptStopTimeout (p : PartId)
  | launchResume (p : PartId)
  -- the lease and the shared engines (R316, R317)
  | leaseGrant (pod : PodId)
  | leaseRunEnd (pod : PodId)
  | leaseIdleSurrender (pod : PodId)
  | requestAged (n : StrandId) (q : QName)
  | engineArbitrate (pod : PodId) (e : EngineKind) (num : Fin 2)
  -- traps and context switch (R321 to R332)
  | trapEntry (n : StrandId)
  | asyncTrapDeliver (n : StrandId)
  | lateErrorReread (n : StrandId) (k : Nat) (correct : Bool)
  | switchOut (n : StrandId)
  | restore (n : StrandId) (ctx : Nat) (record : Nat)
  | worldSwitch (p : PartId)
  /-- A walk for the strand's control core (`engine` false) or for its Pod's engines (`engine` true). -/
  | pageWalk (n : StrandId) (engine : Bool) (va : Word)
  -- firmware commands (R353)
  | partitionPrepare (c : Cmd) (image : List Byte)
  | partitionCommit (c : Cmd)
  | vfBind (c : Cmd) (vf : Nat) (part : Nat) (node : Nat) (sliceUs : Nat)
  | pageGrant (c : Cmd) (frame count : Nat) (part : Nat)
  | dedupJoin (c : Cmd) (a b : Nat)
  | errinj (c : Cmd) (kind target flags : Word)
  | counterPolicy (c : Cmd) (v : Word)
  | fwUpdate (c : Cmd) (image : List Byte)
  | contextCreate (c : Cmd) (area ptroot htbase htlen sup service expt : Word)
  | contextDestroy (c : Cmd) (ctx : Word)
  /-- `place` is the address at which firmware puts the object's allocated sections. -/
  | loadCode (c : Cmd) (ctx addr place : Word)
  | start (c : Cmd) (ctx addr : Word)
  | stop (c : Cmd) (ctx : Word)
  | resume (c : Cmd) (ctx : Word)
  | tlbInval (c : Cmd) (ctx va len : Word)
  | collGroup (c : Cmd) (entry addr : Word)
  | logConfig (c : Cmd) (w1 w2 w3 w4 w5 w6 w7 : Word)
  | attest (c : Cmd) (nonce quote ctx : Word)
  -- messages and their time limits (R344, R350 to R352)
  | hostAccessMessage (node tenant offset : Nat) (op : MsgOp)
  /-- A host's bulk read of so many bytes, or bulk write of bytes, at an offset in a tenant's export. -/
  | bulkAccess (node tenant offset : Nat) (data : Nat ⊕ List Byte)
  /-- A rendezvous message; `src` is the member's SRC, which the fabric carries to this package. -/
  | rdv (node group tenant sequence : Nat) (src : List Byte)
  | abort (node group tenant : Nat) (sequence : Option Nat)
  | rendezvousLimitExpiry (n : StrandId) (seq : Nat)
  | rendezvousSwitchTimeout (n : StrandId)
  | partialWriteIndirectionFetch (n : StrandId) (c : BitVec 4) (bad : Bool)
  -- replay, counters (R366, R367, R375, R376)
  | replayDecision (p : PartId)
  | replayWindowExpiry (p : PartId) (n : Option StrandId)
  | counterWrap (p : PartId) (n : Option StrandId) (c : Nat)
  | counterRefresh (p : PartId)
  -- errors (R384 to R397)
  | patrolScrub (die : DieId) (pa : Nat)
  | scDataError (pa : Nat)
  | scTagError (die : DieId) (set way : Nat)
  | pgpois (v : Word)
  | scquar (v : Word)
  | ctxterm (v : Word)
  | sceinfoRelease (v : Word)
  | tileStoreError (n : StrandId) (id : Nat)
  | podClockLower (island : Fin 16)
  -- starts (R391 to R393)
  | coldRstN
  | warmRstN
  | warmStartTimeout
  | watchdogReset
  | linkLevelRetry (port : Fin 24)
  | fabricAccessMessage (node tenant offset : Nat) (op : MsgOp)
  | switchOutStopTimeout (p : PartId)
  -- safe-point events (R279)
  | debugStop (n : StrandId)
  | sample (n : StrandId)
  | traceRecord (n : StrandId)
  | commandOtherCode (c : Cmd) (code : BitVec 16)
  deriving DecidableEq, Repr, Inhabited

end Sys2Proof
end

