-- ==== Sys2Proof/Config.lean ====
section
/-! DEFINITION. What the spec leaves open and the model fixes for no one: every constant here is opaque, so that a statement
holds whatever its value is. Each one names the log entry that declares it. -/

namespace Sys2Proof

/-- Whose move the machine makes: a strand fetches and dispatches, or a step of the device happens. -/
inductive Turn where
  | strand (n : StrandId)
  | event (i : Instr)
  deriving DecidableEq, Repr, Inhabited

/-- The order in which strands, engines, buffers, the management core and the outside move (R246 lets any enabled step
come next): who moves at tick `k`. Free value, log entry 1, DESIGN CHOICE, safe. -/
opaque Config.turn : Nat → Turn

/-- The nanoseconds of GTS that tick `k` takes (R145; R48 keeps every result independent of them). Free value, log entry 2, DESIGN CHOICE, safe. -/
opaque Config.elapsed : Nat → Nat

/-- What a package at the other end of the fabric answers to access number `k` of node, tenant and offset (R344): 0 accepts,
1 fails translation, 2 lacks the right. Free value, log entry 3, DESIGN CHOICE, unsafe. -/
opaque Config.remoteAnswer : Nat → Nat → Nat → Nat

/-- The way a full set gives up for a fill of a line (R339 names none). Free value, log entry 4, DESIGN CHOICE, safe. -/
opaque Config.victimWay : Nat → Nat → Nat

/-- Whether a firmware image carries a good LMS signature (R355, R391). Free value, log entry 5, DESIGN CHOICE, safe. -/
opaque Config.lmsValid : List Byte → Bool

/-- The build number in a firmware image's signed contents (R145). Free value, log entry 5, DESIGN CHOICE, safe. -/
opaque Config.imageBuild : List Byte → BitVec 16

/-- The HSS signature bytes over a quote, for attestation leaf `k` (R355). Free value, log entry 5, DESIGN CHOICE, safe. -/
opaque Config.hssSign : Nat → List Byte → List Byte

/-- The firmware image and the ROM's digest the package is made with (R355, R391). Free values, log entry 5, DESIGN CHOICE, safe. -/
opaque Config.factoryImage : List Byte
opaque Config.romDigest : List Byte

/-- The package's node number, 0 to 4,095 (R349). Free value, log entry 5, DESIGN CHOICE, safe. -/
opaque Config.nodeNumber : BitVec 12

/-- Which host adapter is the operator's, the holder of the operator credential (R349, R353). Free value, log entry 5, DESIGN CHOICE,
safe. -/
opaque Config.operatorAdapter : Fin 4096

/-- The operator's host node: host adapters have the node numbers 4,096 to 8,191 (R349). -/
def Config.operatorNode : Nat := 4096 + Config.operatorAdapter.val

/-- The address of the page ownership table in the management core's own space: POWNBASE's reset is "ROM" (R395).
Free value, log entry 5, DESIGN CHOICE, safe. -/
opaque Config.pownBase : Word

/-- A strand counter as the snapshot of a partition of several strands shows it, at a tick (R377 names no strand). Free value, log
entry 7, DESIGN CHOICE, safe. -/
opaque Config.snapshotValue : Nat → Nat → Word

/-- Which of the 26 causes of R11 TERMINATED carries for a context that a warm start ends (R392 names none). Free value, log entry 8, DESIGN CHOICE, safe. -/
opaque Config.warmCause : Fin 26

/-- Which of the 26 causes of R11 TERMINATED carries where CTXTERM names a byte that R11 does not list. Free value, log entry 70, DESIGN CHOICE, safe. -/
opaque Config.termCause : Nat → Fin 26

/-- Whether the word of an ACC56 tile in which an uncorrectable error is found at a tick is one that R206 repairs (R384). Free value, log entry 68, DESIGN CHOICE, safe. -/
opaque Config.accRepairs : Nat → Bool

/-- The clock in MHz that the management core would give a Pod island at a tick (R394). Free value, log entry 9, DESIGN CHOICE, safe. -/
opaque Config.podClock : Nat → Nat → Nat

/-- The clock in MHz of an island that R394 counts beside the Pods', by its number, 16 to 31: the spec gives none. Free value, log entry 9, DESIGN CHOICE, safe. -/
opaque Config.islandClock : Nat → Nat

/-- The port set that firmware's routing table gives a node, the ports that have trained, and the hash that spreads lines over a set (R349). Free values, log entry 59, DESIGN CHOICE, safe. -/
opaque Config.route : Nat → BitVec 24
opaque Config.portsTrained : BitVec 24
opaque Config.lineHash : Nat → Nat

/-- The copies that the deduplicating store can hold (R348 gives no number). Free value, log entry 59, DESIGN CHOICE, safe. -/
opaque Config.dedupCapacity : Nat

/-- The place of the translation that a full TLB gives up for a new one (R341 names none). Free value, log entry 59, DESIGN CHOICE, safe. -/
opaque Config.tlbVictim : Nat → Nat

/-- Bytes of installed second-tier memory behind a CXL port, at most 512 GiB (R334). Free value, log entry 6, DESIGN CHOICE, safe. -/
opaque Config.tierBytes : Fin 16 → Nat

/-- Whether step `k` of a start, or the unit it tests, passes (R391, R392). Free value, log entry 5, DESIGN CHOICE, safe. -/
opaque Config.startStepOk : Nat → Nat → Bool

/-- Whether the second read of a line whose data memory returned uncorrectable is correct, at a tick (R327). Free value, log entry 72, DESIGN CHOICE, safe. -/
opaque Config.rereadGood : Nat → Bool

end Sys2Proof
end

