-- ==== Sys2Proof/WellFormed.lean ====
section
/-! DEFINITION. Which instructions the decoder accepts beyond what the types of `Instr` say: the RESERVED conditions of step 4
of R112 that concern several fields at once, and the ILLEGAL conditions of step 5. A step of the device has no word, and
every one of them is well-formed. -/

namespace Sys2Proof

/-- TY is a floating-point type: the set F of R163. -/
def Ty.isFloat : Ty → Bool
  | .fp32 | .bf16 | .fp16 | .e4m3 | .e5m2 => true
  | .int8 | .int4 | .int32 => false

/-- The element width w of R150. -/
def Ty.width : Ty → Nat
  | .fp32 | .int32 => 32
  | .bf16 | .fp16 => 16
  | .e4m3 | .e5m2 | .int8 => 8
  | .int4 => 4

/-- The lane count L of R150. -/
def Ty.lanes (t : Ty) : Nat := 4096 / t.width

/-- log2 of the lane count. -/
def Ty.logLanes : Ty → Nat
  | .fp32 | .int32 => 7
  | .bf16 | .fp16 => 8
  | .e4m3 | .e5m2 | .int8 => 9
  | .int4 => 10

/-- How an instruction uses RM (R53, R162, R178, R185). -/
inductive RmUse where | unused | floatTy | anyTy | halfTy
  deriving DecidableEq, Repr

/-- How an instruction uses SAT (R162, R163, R175). -/
inductive SatUse where | unused | used | intTy
  deriving DecidableEq, Repr

/-- The RESERVED conditions on MOD of layout arith: RM, SAT and OPX where the instruction's table does not use them
(R53, R162). `opx` holds the OPX bits the table names. RM of a transcendental is used with BF16 and FP16 alone, so that a nonzero RM
with an 8-bit type raises RESERVED before the ILLEGAL of its TY, which R53's list leaves open. (Log entry 71, DEDUCED, unsafe.)
SAT of VABS, VNEG, VRSUM, VGSUM and VSCAN is used with an integer TY, as R162's column says, and with a float TY a nonzero SAT
raises RESERVED. (Log entry 77, DEDUCED, unsafe.) -/
def arithOk (ru : RmUse) (su : SatUse) (opx : BitVec 2) (a : Arith) (ty : Ty) : Bool :=
  (a.rm == .rne || (match ru with
    | .unused => false
    | .floatTy => ty.isFloat
    | .anyTy => true
    | .halfTy => ty == .bf16 || ty == .fp16)) &&
  (!a.sat || (match su with
    | .unused => false
    | .used => true
    | .intTy => !ty.isFloat)) &&
  (a.opx &&& ~~~opx) == 0

/-- TOK is zero, as R15 demands of control and stack-manipulation instructions. -/
def Mods.noTok (m : Mods) : Bool := m.tok == 0

/-- OPX bit 30, the ZM or ABS bit of an instruction that names it. -/
def Arith.bit30 (a : Arith) : Bool := a.opx.getLsbD 0
/-- OPX bit 31, the U or EX bit of an instruction that names it. -/
def Arith.bit31 (a : Arith) : Bool := a.opx.getLsbD 1

/-- U is accepted only for INT8 and INT32 (R163). -/
def uOk (a : Arith) (ty : Ty) : Bool := !a.bit31 || ty == .int8 || ty == .int32

/-- ABS is accepted for the F types only (R175). -/
def absOk (a : Arith) (ty : Ty) : Bool := !a.bit30 || ty.isFloat

/-- The special registers of R144. -/
def isSpecialReg (n : BitVec 12) : Bool :=
  let v := n.toNat
  v ≤ 0x002 || v == 0x008 || (0x010 ≤ v && v ≤ 0x014) || (0x020 ≤ v && v ≤ 0x025) || (0x030 ≤ v && v ≤ 0x037) ||
  v == 0x040 || v == 0x041 || (0x050 ≤ v && v ≤ 0x053) || v == 0x060 || (0x070 ≤ v && v ≤ 0x072) ||
  (0x080 ≤ v && v ≤ 0x085) || (0x088 ≤ v && v ≤ 0x08D) || (0x100 ≤ v && v ≤ 0x1FF)

/-- The registers whose write level is "ILL" in R144: i0 to i5 and e0 to e5. -/
def isIndexReg (n : BitVec 12) : Bool :=
  let v := n.toNat
  (0x080 ≤ v && v ≤ 0x085) || (0x088 ≤ v && v ≤ 0x08D)

/-- The registers whose SRD has a constructor of its own. -/
def srdHasOwn (n : BitVec 12) : Bool := n == 0x040 || n == 0x041

/-- The registers whose SWR has a constructor of its own. -/
def swrHasOwn (n : BitVec 12) : Bool :=
  n == 0x002 || n == 0x012 || n == 0x014 || n == 0x025 || n == 0x030 || n == 0x033 || n == 0x034 || n == 0x040 ||
  n == 0x041 || n == 0x050 || n == 0x051 || n == 0x052 || n == 0x053

/-- The conditions of step 4 of R112 that the types of `Instr` leave open. A breach raises RESERVED.
(Log entry 40, DEDUCED, unsafe.) -/
def Instr.reservedOk : Instr → Bool
  | .add m _ _ _ | .sub m _ _ _ | .mul m _ _ _ | .mulh m _ _ _ | .mulhu m _ _ _ | .div m _ _ _ | .divu m _ _ _
  | .rem m _ _ _ | .remu m _ _ _ | .and m _ _ _ | .or m _ _ _ | .xor m _ _ _ | .andn m _ _ _ | .shl m _ _ _
  | .shr m _ _ _ | .sar m _ _ _ | .rol m _ _ _ | .ror m _ _ _ | .min m _ _ _ | .max m _ _ _ | .minu m _ _ _
  | .maxu m _ _ _ => m.noTok
  | .clz m _ _ | .ctz m _ _ | .popc m _ _ => m.noTok
  | .addi m _ _ _ | .andi m _ _ _ | .ori m _ _ _ | .xori m _ _ _ | .shli m _ _ _ | .shri m _ _ _ | .sari m _ _ _ => m.noTok
  | .bfx m _ _ _ _ | .bfxu m _ _ _ _ | .bfi m _ _ _ _ _ => m.noTok
  | .movi m _ _ | .movl m _ _ | .addl m _ _ _ => m.noTok
  | .cmpeq m _ _ _ | .cmpne m _ _ _ | .cmplt m _ _ _ | .cmple m _ _ _ | .cmpltu m _ _ _ | .cmpleu m _ _ _
  | .cmpeqi m _ _ _ | .cmpnei m _ _ _ | .cmplti m _ _ _ | .cmplei m _ _ _ | .cmpltui m _ _ _ | .cmpleui m _ _ _ => m.noTok
  | .pand m _ _ _ | .por m _ _ _ | .pxor m _ _ _ | .pandn m _ _ _ | .pset m _ _ | .pget m _ _ => m.noTok
  | .lea m _ _ _ _ | .apcv m _ _ _ | .apts m _ _ | .hget m _ _ _ | .hchk m _ _ => m.noTok
  | .br m _ | .call m _ | .jmp m _ | .callr m _ | .ret m | .brl m _ | .calll m _ => m.noTok
  | .loopp m _ _ _ | .endl m | .next m | .lnch m _ | .wait m _ _ _ | .trap m _ | .brk m _ | .tack m | .eret m
  | .halt m | .nop m => m.noTok
  | .srd m _ _ | .srdVstat m _ | .srdTags m _ | .swr m _ _ | .swrVstat m _ | .swrStklim m _ | .swrTsquota m _
  | .swrOrdmode m _ | .swrTdeleg m _ | .swrRole m _ | .swrLeasectl m _ | .swrQminQcap m _ _ | .swrTags m _
  | .logMove m _ _ | .iclk m _ _ _ | .icul m _ _ _ | .logw m _ _ => m.noTok
  | .ldb m _ _ _ _ _ | .ldh m _ _ _ _ _ | .ldw m _ _ _ _ _ | .ldd m _ _ _ _ _ | .ldbu m _ _ _ _ _ | .ldhu m _ _ _ _ _
  | .ldwu m _ _ _ _ _ | .stb m _ _ _ _ _ | .sth m _ _ _ _ _ | .stw m _ _ _ _ _ | .std m _ _ _ _ _ => m.noTok
  | .ldaqw m _ _ _ _ | .ldaqd m _ _ _ _ | .strlw m _ _ _ _ | .strld m _ _ _ _ => m.noTok
  | .aadd m _ _ _ _ _ _ | .afadd m _ _ _ _ _ _ | .amin m _ _ _ _ _ _ | .amax m _ _ _ _ _ _ | .aand m _ _ _ _ _ _
  | .aor m _ _ _ _ _ _ | .axch m _ _ _ _ _ _ | .acas m _ _ _ _ _ _ _ => m.noTok
  | .fence m _ _ _ | .cmo m _ _ _ _ _ | .bar m _ => m.noTok
  | .tdup m | .tdrop m | .tswap m | .tover m | .tpick m _ | .trot m _ | .tbury m _ | .tmarkOpen m _ _
  | .tmarkClose m _ => m.noTok
  | .vadd _ a _ _ _ ty _ | .vsub _ a _ _ _ ty _ | .vmul _ a _ _ _ ty _ | .vdiv _ a _ _ _ ty _ => arithOk .floatTy .used 1 a ty
  | .vfma _ a _ _ _ _ ty _ | .vfms _ a _ _ _ _ ty _ => arithOk .floatTy .used 1 a ty
  | .vmin _ a _ _ _ ty _ | .vmax _ a _ _ _ ty _ => arithOk .unused .unused 3 a ty
  | .vabs _ a _ _ ty _ | .vneg _ a _ _ ty _ => arithOk .unused .intTy 1 a ty
  | .vand _ a _ _ _ ty _ | .vor _ a _ _ _ ty _ | .vxor _ a _ _ _ ty _ | .vshr _ a _ _ _ ty _
  | .vsar _ a _ _ _ ty _ => arithOk .unused .unused 1 a ty
  | .vnot _ a _ _ ty _ => arithOk .unused .unused 1 a ty
  | .vshl _ a _ _ _ ty _ => arithOk .unused .used 1 a ty
  | .vfshl _ a _ _ _ _ ty _ | .vfshr _ a _ _ _ _ ty _ => arithOk .unused .unused 1 a ty
  | .vcmpeq _ a _ _ _ ty _ | .vcmpne _ a _ _ _ ty _ | .vcmplt _ a _ _ _ ty _
  | .vcmple _ a _ _ _ ty _ => arithOk .unused .unused 3 a ty
  | .vsel _ a _ _ _ _ ty _ => arithOk .unused .unused 1 a ty
  | .vcvt _ a _ _ _ ty _ | .vwid _ a _ _ _ ty _ | .vnar _ a _ _ _ ty _ => arithOk .floatTy .used 1 a ty
  | .vrsum _ a _ _ ty _ => arithOk .floatTy .intTy 0 a ty
  | .vgsum _ a _ _ _ ty _ => arithOk .floatTy .intTy 0 a ty
  | .vrmax _ a _ _ ty _ | .vrmin _ a _ _ ty _ => arithOk .unused .unused 3 a ty
  | .vgmax _ a _ _ _ ty _ | .vgmin _ a _ _ _ ty _ => arithOk .unused .unused 3 a ty
  | .vscan _ a _ _ ty _ => arithOk .floatTy .intTy 3 a ty
  | .vscanm _ a _ _ ty _ => arithOk .unused .unused 3 a ty
  | .vsin _ a _ _ ty _ | .vcos _ a _ _ ty _ | .vexp _ a _ _ ty _ | .vlog _ a _ _ ty _ | .vrcp _ a _ _ ty _
  | .vrsq _ a _ _ ty _ => arithOk .halfTy .unused 1 a ty
  | .vqnt _ a _ _ _ _ ty => arithOk .floatTy .unused 0 a ty
  | .madd _ a | .msub _ a | .mmul _ a => a.opx == 0
  | .mscal _ a _ => a.opx == 0
  | .mcvt _ a _ _ => a.opx == 0
  | .trow _ a _ _ => a.opx == 0
  | .trv _ a _ _ _ _ => a.opx == 0
  | .tcv _ a _ _ _ => a.opx == 0
  | _ => true

/-- The width rule and register alignment of VWID (R169, R154). -/
def vwidOk (vd : VReg) (tt ty : Ty) : Bool :=
  let f := tt.width / ty.width
  (f == 2 || f == 4) && f * ty.width == tt.width && vd.val % f == 0

/-- The width rule and register alignment of VNAR (R169, R154). -/
def vnarOk (va : VReg) (tt ty : Ty) : Bool :=
  let f := ty.width / tt.width
  (f == 2 || f == 4) && f * tt.width == ty.width && va.val % f == 0

/-- How many registers hold VPERM's indices (R172). -/
def permRegs (ty : Ty) : Nat := if ty.lanes ≤ 256 then 1 else ty.lanes / 256

/-- How many registers hold the offsets of VGATH and VSCAT (R180). -/
def gathRegs (ty : Ty) : Nat := ty.lanes / 128

/-- The targets of a quantisation (R64, R179). -/
def Ty.isNarrow : Ty → Bool
  | .e4m3 | .e5m2 | .int8 | .int4 => true
  | _ => false

/-- The types the transcendentals accept (R178). -/
def Ty.isTrans : Ty → Bool
  | .fp32 | .bf16 | .fp16 => true
  | _ => false

/-- The limits of step 5 of R112. A breach raises ILLEGAL. -/
def Instr.limitsOk : Instr → Bool
  | .shli _ _ _ imm | .shri _ _ _ imm | .sari _ _ _ imm => imm.toNat < 64
  | .bfx _ _ _ pos c | .bfxu _ _ _ pos c => pos.toNat + c.toNat + 1 ≤ 64
  | .bfi _ _ _ _ pos c => pos.toNat + c.toNat + 1 ≤ 64
  | .apcv _ _ _ f => f.toNat ≤ 5
  | .srd _ _ n => isSpecialReg n && !srdHasOwn n
  | .swr _ n _ => isSpecialReg n && !isIndexReg n && !swrHasOwn n
  | .afadd _ _ _ _ _ wid _ => !wid
  | .cmo _ _ op _ _ level => op.toNat ≤ 2 && level.toNat ≤ 3
  | .bar _ imm => imm.toNat < 32
  | .vdiv _ _ _ _ _ ty _ => ty.isFloat
  | .vmin _ a _ _ _ ty _ | .vmax _ a _ _ _ ty _ => uOk a ty
  | .vshl _ _ _ _ _ ty _ | .vshr _ _ _ _ _ ty _ | .vsar _ _ _ _ _ ty _ => !ty.isFloat
  | .vfshl _ _ _ _ _ _ ty _ | .vfshr _ _ _ _ _ _ ty _ => ty == .int8 || ty == .int32
  | .vcmpeq _ a _ _ _ ty _ | .vcmpne _ a _ _ _ ty _ | .vcmplt _ a _ _ _ ty _ | .vcmple _ a _ _ _ ty _ => uOk a ty
  | .vcvt _ _ _ _ tt ty _ => tt.width == ty.width
  | .vwid _ _ vd _ tt ty _ => vwidOk vd tt ty
  | .vnar _ _ _ va tt ty _ => vnarOk va tt ty
  | .vperm _ _ _ vb ty _ => vb.val % permRegs ty == 0
  | .vshuf _ _ _ _ pat _ _ => pat.toNat ≤ 3
  | .vrmax _ a _ _ ty _ | .vrmin _ a _ _ ty _ => uOk a ty && absOk a ty
  | .vgsum _ _ _ _ g ty _ => 1 ≤ g.toNat && g.toNat ≤ ty.logLanes
  | .vgmax _ a _ _ g ty _ | .vgmin _ a _ _ g ty _ => 1 ≤ g.toNat && g.toNat ≤ ty.logLanes && uOk a ty && absOk a ty
  | .vsin _ _ _ _ ty _ | .vcos _ _ _ _ ty _ | .vexp _ _ _ _ ty _ | .vlog _ _ _ _ ty _ | .vrcp _ _ _ _ ty _
  | .vrsq _ _ _ _ ty _ => ty.isTrans
  | .vqnt _ _ vd _ vs n ty => ty.isNarrow && n.toNat < ty.lanes / 128 && vd != vs
  | .vstm _ _ _ _ _ ty _ => ty == .int8
  | .vgath _ _ _ _ vc _ ty _ | .vscat _ _ _ _ vc _ ty _ => ty != .int4 && vc.val % gathRegs ty == 0
  | .cpyg _ _ _ _ _ _ lg => lg.toNat ≤ 12
  | .cpye _ _ _ _ _ _ wc => wc.toNat ≤ 2
  | .mzero _ _ _ acci => acci.toNat ≤ 1
  | .mspar _ spn => spn != .dense
  | _ => true

/-- An instruction the decoder accepts. -/
def Instr.wf (i : Instr) : Bool := i.reservedOk && i.limitsOk

/-- `Instr.wf` as a proposition. -/
def WellFormed (i : Instr) : Prop := i.wf = true

end Sys2Proof
end

