-- ==== Sys2Proof/Decode.lean ====
section
/-! DEFINITION. The decoder and the encoder: the fields of the word (R95), the operand layouts (R105) and the opcode maps
(R113 to R115), read from bits to `Instr` in the order of steps 3 to 5 of R112, and written back from `Instr` to bits. -/

namespace Sys2Proof

/-- The cause of a word the decoder refuses (R112, R116). -/
inductive DecodeErr where
  /-- OP not assigned, or a limit of the instruction broken: steps 3 and 5 of R112. -/
  | illegal
  /-- A zero field, a register's high bits, MOD, TOK or a reserved code: step 4 of R112. -/
  | reserved
  /-- Fewer bytes than the instruction has. The machine never asks for this: it fetches whole words. -/
  | short
  deriving DecidableEq, Repr

/-- The fields of R95. -/
structure Fields where
  kind : BitVec 2
  op : BitVec 10
  ga : BitVec 4
  gb : BitVec 4
  stop : BitVec 1
  tok : BitVec 4
  sc : BitVec 3
  mod : BitVec 6
  fa : BitVec 6
  fb : BitVec 6
  fc : BitVec 6
  fd : BitVec 6
  fe : BitVec 6
  deriving DecidableEq, Repr

/-- The ruler of R95 read from a word. -/
def Fields.ofWord (w : Word) : Fields where
  kind := w.extractLsb' 62 2
  op := w.extractLsb' 52 10
  ga := w.extractLsb' 48 4
  gb := w.extractLsb' 44 4
  stop := w.extractLsb' 43 1
  tok := w.extractLsb' 39 4
  sc := w.extractLsb' 36 3
  mod := w.extractLsb' 30 6
  fa := w.extractLsb' 24 6
  fb := w.extractLsb' 18 6
  fc := w.extractLsb' 12 6
  fd := w.extractLsb' 6 6
  fe := w.extractLsb' 0 6

/-- The ruler of R95 written to a word. -/
def Fields.toWord (f : Fields) : Word :=
  f.kind ++ f.op ++ f.ga ++ f.gb ++ f.stop ++ f.tok ++ f.sc ++ f.mod ++ f.fa ++ f.fb ++ f.fc ++ f.fd ++ f.fe

/-! ### Operand fields (R102 to R104) -/

def sreg (x : BitVec 6) : SReg := ⟨x.toNat, x.isLt⟩

/-- A v field: bit 5 must be zero (R103). -/
def vreg? (x : BitVec 6) : Option VReg := if h : x.toNat < 32 then some ⟨x.toNat, h⟩ else none

/-- A p or k field: bits 5:3 must be zero (R103). -/
def reg8? (x : BitVec 6) : Option (Fin 8) := if h : x.toNat < 8 then some ⟨x.toNat, h⟩ else none

def encS (r : SReg) : BitVec 6 := BitVec.ofNat 6 r.val
def encV (r : VReg) : BitVec 6 := BitVec.ofNat 6 r.val
def enc8 (r : Fin 8) : BitVec 6 := BitVec.ofNat 6 r.val

/-- A field that a layout marks 0 (R105). -/
def zero? (x : BitVec 6) : Option Unit := if x = 0 then some () else none

def ty? (x : BitVec 3) : Ty :=
  match x.toNat with
  | 0 => .fp32 | 1 => .bf16 | 2 => .fp16 | 3 => .e4m3 | 4 => .e5m2 | 5 => .int8 | 6 => .int4 | _ => .int32

def Ty.code : Ty → BitVec 3
  | .fp32 => 0 | .bf16 => 1 | .fp16 => 2 | .e4m3 => 3 | .e5m2 => 4 | .int8 => 5 | .int4 => 6 | .int32 => 7

/-- TY and K in FE (R102). -/
def tyk (fe : BitVec 6) : Ty × KReg := (ty? (fe.extractLsb' 3 3), ⟨(fe.extractLsb' 0 3).toNat, (fe.extractLsb' 0 3).isLt⟩)

def encTyk (t : Ty) (k : KReg) : BitVec 6 := t.code ++ BitVec.ofNat 3 k.val

/-- TY in FE bits 5:3 with bits 2:0 zero (R161, R185). -/
def tyOnly? (fe : BitVec 6) : Option Ty := if fe.extractLsb' 0 3 = 0 then some (ty? (fe.extractLsb' 3 3)) else none

def encTy (t : Ty) : BitVec 6 := t.code ++ 0#3

/-- A target TY in FD bits 2:0 with bits 5:3 zero (R161). -/
def tyTarget? (fd : BitVec 6) : Option Ty := if fd.extractLsb' 3 3 = 0 then some (ty? (fd.extractLsb' 0 3)) else none

def encTarget (t : Ty) : BitVec 6 := 0#3 ++ t.code

/-- FMT in FA: a code not in R30 is reserved, 0x00 included (R41, R185). -/
def fmt? (x : BitVec 6) : Option Fmt :=
  match x.toNat with
  | 1 => some .fp32 | 2 => some .bf16 | 3 => some .fp16 | 4 => some .e4m3 | 5 => some .e5m2 | 6 => some .int8
  | 7 => some .int4 | 8 => some .int32 | 9 => some .acc56 | _ => none

def Fmt.code : Fmt → Nat
  | .fp32 => 1 | .bf16 => 2 | .fp16 => 3 | .e4m3 => 4 | .e5m2 => 5 | .int8 => 6 | .int4 => 7 | .int32 => 8 | .acc56 => 9

/-- SCL in FE bits 2:0 with bits 5:3 zero; codes 4 to 7 are reserved (R31, R185). -/
def scl? (x : BitVec 6) : Option Scl :=
  match x.toNat with
  | 0 => some .none | 1 => some .tensor | 2 => some .row | 3 => some .block | _ => Option.none

def Scl.code : Scl → Nat
  | .none => 0 | .tensor => 1 | .row => 2 | .block => 3

/-- SPN in FA: 6 to 63 raises RESERVED (R185). -/
def spn? (x : BitVec 6) : Option Spn :=
  match x.toNat with
  | 0 => some .dense | 1 => some .n8 | 2 => some .n12 | 3 => some .n16 | 4 => some .n24 | 5 => some .n32 | _ => none

def Spn.code : Spn → Nat
  | .dense => 0 | .n8 => 1 | .n12 => 2 | .n16 => 3 | .n24 => 4 | .n32 => 5

/-- SCOPE in bits 2:0 with 5:3 zero; 5 to 7 are reserved (R102). -/
def scope? (x : BitVec 6) : Option Scope :=
  match x.toNat with
  | 0 => some .strand | 1 => some .pod | 2 => some .die | 3 => some .package | 4 => some .domain | _ => none

def Scope.code : Scope → Nat
  | .strand => 0 | .pod => 1 | .die => 2 | .package => 3 | .domain => 4

/-- WID in bits 5:4, bit 3 zero, SCOPE in bits 2:0 (R102, layout T). -/
def widScope? (x : BitVec 6) : Option (Wid × Scope) := do
  let sc ← scope? (0#3 ++ x.extractLsb' 0 3)
  if x.getLsbD 5 && !x.getLsbD 3 then some (x.getLsbD 4, sc) else none

def encWidScope (w : Wid) (s : Scope) : BitVec 6 := (if w then 3#2 else 2#2) ++ 0#1 ++ BitVec.ofNat 3 s.code

/-- RM (R53). -/
def rm? (x : BitVec 3) : Option Rm :=
  match x.toNat with
  | 0 => some .rne | 1 => some .rtz | 2 => some .rdn | 3 => some .rup | 4 => some .rna | _ => none

def Rm.code : Rm → BitVec 3
  | .rne => 0 | .rtz => 1 | .rdn => 2 | .rup => 3 | .rna => 4

def arith? (x : BitVec 6) : Option Arith := do
  let rm ← rm? (x.extractLsb' 3 3)
  some ⟨rm, x.getLsbD 2, x.extractLsb' 0 2⟩

def Arith.code (a : Arith) : BitVec 6 := a.rm.code ++ (if a.sat then 1#1 else 0#1) ++ a.opx

def memMod (x : BitVec 6) : MemMod := ⟨x.extractLsb' 2 4, x.extractLsb' 0 2⟩

def MemMod.code (a : MemMod) : BitVec 6 := a.cls ++ a.hint

/-- CLS of layout mem where HINT must be zero (R101, R232). -/
def clsOnly? (x : BitVec 6) : Option (BitVec 4) := if x.extractLsb' 0 2 = 0 then some (x.extractLsb' 2 4) else none

def ord? (x : BitVec 2) : Ord :=
  match x.toNat with
  | 0 => .relaxed | 1 => .acquire | 2 => .release | _ => .acqrel

def Ord.code : Ord → BitVec 2
  | .relaxed => 0 | .acquire => 1 | .release => 2 | .acqrel => 3

def atomMod (x : BitVec 6) : AtomMod := ⟨x.extractLsb' 2 4, ord? (x.extractLsb' 0 2)⟩

def AtomMod.code (a : AtomMod) : BitVec 6 := a.cls ++ a.ord.code

/-- A guard: sense in the high bit, predicate number below (R95). -/
def guard (x : BitVec 4) : Guard := ⟨x.getLsbD 3, ⟨(x.extractLsb' 0 3).toNat, (x.extractLsb' 0 3).isLt⟩⟩

def Guard.code (g : Guard) : BitVec 4 := (if g.sense then 1#1 else 0#1) ++ BitVec.ofNat 3 g.pred.val

def Fields.mods (f : Fields) : Mods := ⟨guard f.ga, guard f.gb, f.stop == 1, f.tok, f.sc⟩

/-- The 12-bit immediate over FD:FE (R104). -/
def Fields.imm12 (f : Fields) : BitVec 12 := f.fd ++ f.fe
/-- The 18-bit immediate over FC:FD:FE (R104). -/
def Fields.imm18 (f : Fields) : BitVec 18 := f.fc ++ f.fd ++ f.fe

/-- How a row of an opcode map reads its word and the literal behind it: none where step 4 of R112 raises RESERVED. -/
abbrev Build := Fields → Word → Option Instr

/-- A row of an opcode map. -/
structure Row where
  op : BitVec 10
  build : Build

/-! ### The layouts of R105 -/

def noMod? (f : Fields) : Option Unit := zero? f.mod

def layZ (c : Mods → Instr) : Build := fun f _ => do
  noMod? f; zero? f.fa; zero? f.fb; zero? f.fc; zero? f.fd; zero? f.fe; some (c f.mods)

def layZL (c : Mods → Word → Instr) : Build := fun f lit => do
  noMod? f; zero? f.fa; zero? f.fb; zero? f.fc; zero? f.fd; zero? f.fe; some (c f.mods lit)

def layA (c : Mods → SReg → SReg → SReg → Instr) : Build := fun f _ => do
  noMod? f; zero? f.fd; zero? f.fe; some (c f.mods (sreg f.fa) (sreg f.fb) (sreg f.fc))

def layU (c : Mods → SReg → SReg → Instr) : Build := fun f _ => do
  noMod? f; zero? f.fc; zero? f.fd; zero? f.fe; some (c f.mods (sreg f.fa) (sreg f.fb))

/-- Layout U as a long form with FB 0 (MOVL). -/
def layUL0 (c : Mods → SReg → Word → Instr) : Build := fun f lit => do
  noMod? f; zero? f.fb; zero? f.fc; zero? f.fd; zero? f.fe; some (c f.mods (sreg f.fa) lit)

def layUL (c : Mods → SReg → SReg → Word → Instr) : Build := fun f lit => do
  noMod? f; zero? f.fc; zero? f.fd; zero? f.fe; some (c f.mods (sreg f.fa) (sreg f.fb) lit)

def layG (c : Mods → SReg → SReg → Instr) : Build := fun f _ => do
  noMod? f; zero? f.fa; zero? f.fd; zero? f.fe; some (c f.mods (sreg f.fb) (sreg f.fc))

/-- Layout G with FC 0, and the engine words whose one register stands in FB. -/
def layG1 (c : Mods → SReg → Instr) : Build := fun f _ => do
  noMod? f; zero? f.fa; zero? f.fc; zero? f.fd; zero? f.fe; some (c f.mods (sreg f.fb))

def layI (c : Mods → SReg → SReg → BitVec 12 → Instr) : Build := fun f _ => do
  noMod? f; zero? f.fc; some (c f.mods (sreg f.fa) (sreg f.fb) f.imm12)

/-- Layout H with FC 0. -/
def layH2 (c : Mods → SReg → SReg → BitVec 6 → BitVec 6 → Instr) : Build := fun f _ => do
  noMod? f; zero? f.fc; some (c f.mods (sreg f.fa) (sreg f.fb) f.fd f.fe)

def layH3 (c : Mods → SReg → SReg → SReg → BitVec 6 → BitVec 6 → Instr) : Build := fun f _ => do
  noMod? f; some (c f.mods (sreg f.fa) (sreg f.fb) (sreg f.fc) f.fd f.fe)

/-- Layout H with FE 0 (LEA). -/
def layHLea (c : Mods → SReg → SReg → SReg → BitVec 6 → Instr) : Build := fun f _ => do
  noMod? f; zero? f.fe; some (c f.mods (sreg f.fa) (sreg f.fb) (sreg f.fc) f.fd)

/-- Layout H with FC and FE 0 (APCV, HGET). -/
def layHSel (c : Mods → SReg → SReg → BitVec 6 → Instr) : Build := fun f _ => do
  noMod? f; zero? f.fc; zero? f.fe; some (c f.mods (sreg f.fa) (sreg f.fb) f.fd)

def layJ (c : Mods → SReg → BitVec 18 → Instr) : Build := fun f _ => do
  noMod? f; zero? f.fb; some (c f.mods (sreg f.fa) f.imm18)

def layB (c : Mods → BitVec 18 → Instr) : Build := fun f _ => do
  noMod? f; zero? f.fa; zero? f.fb; some (c f.mods f.imm18)

def layO (c : Mods → SReg → BitVec 6 → BitVec 12 → Instr) : Build := fun f _ => do
  noMod? f; zero? f.fc; some (c f.mods (sreg f.fa) f.fb f.imm12)

def layS (c : Mods → SReg → BitVec 12 → Instr) : Build := fun f _ => do
  noMod? f; zero? f.fb; zero? f.fc; some (c f.mods (sreg f.fa) f.imm12)

def layW (c : Mods → BitVec 12 → SReg → Instr) : Build := fun f _ => do
  noMod? f; zero? f.fa; zero? f.fc; some (c f.mods f.imm12 (sreg f.fb))

def layY (c : Mods → BitVec 12 → Instr) : Build := fun f _ => do
  noMod? f; zero? f.fa; zero? f.fb; zero? f.fc; some (c f.mods f.imm12)

def layP (c : Mods → PReg → SReg → SReg → Instr) : Build := fun f _ => do
  noMod? f; let pd ← reg8? f.fa; zero? f.fd; zero? f.fe; some (c f.mods pd (sreg f.fb) (sreg f.fc))

/-- Layout P with FC 0 (PSET, HCHK). -/
def layP1 (c : Mods → PReg → SReg → Instr) : Build := fun f _ => do
  noMod? f; let pd ← reg8? f.fa; zero? f.fc; zero? f.fd; zero? f.fe; some (c f.mods pd (sreg f.fb))

def layQ (c : Mods → PReg → SReg → BitVec 12 → Instr) : Build := fun f _ => do
  noMod? f; let pd ← reg8? f.fa; zero? f.fc; some (c f.mods pd (sreg f.fb) f.imm12)

/-- Layout PL, and the K instructions of R161, which have the same fields. -/
def layPL (c : Mods → Fin 8 → Fin 8 → Fin 8 → Instr) : Build := fun f _ => do
  noMod? f; let pd ← reg8? f.fa; let pa ← reg8? f.fb; let pb ← reg8? f.fc; zero? f.fd; zero? f.fe
  some (c f.mods pd pa pb)

/-- KNOT (R161). -/
def layK2 (c : Mods → KReg → KReg → Instr) : Build := fun f _ => do
  noMod? f; let kd ← reg8? f.fa; let ka ← reg8? f.fb; zero? f.fc; zero? f.fd; zero? f.fe; some (c f.mods kd ka)

def layPG (c : Mods → SReg → PReg → Instr) : Build := fun f _ => do
  noMod? f; let pa ← reg8? f.fb; zero? f.fc; zero? f.fd; zero? f.fe; some (c f.mods (sreg f.fa) pa)

def layM (c : Mods → MemMod → SReg → SReg → SReg → BitVec 12 → Instr) : Build := fun f _ =>
  some (c f.mods (memMod f.mod) (sreg f.fa) (sreg f.fb) (sreg f.fc) f.imm12)

def layN (c : Mods → BitVec 4 → SReg → SReg → Scope → Instr) : Build := fun f _ => do
  let cls ← clsOnly? f.mod; zero? f.fc; zero? f.fd; let sc ← scope? f.fe
  some (c f.mods cls (sreg f.fa) (sreg f.fb) sc)

/-- Layout T with FD 0 (R227). -/
def layT (c : Mods → AtomMod → SReg → SReg → SReg → Wid → Scope → Instr) : Build := fun f _ => do
  zero? f.fd; let ws ← widScope? f.fe
  some (c f.mods (atomMod f.mod) (sreg f.fa) (sreg f.fb) (sreg f.fc) ws.1 ws.2)

/-- Layout T with the compare register (ACAS). -/
def layTC (c : Mods → AtomMod → SReg → SReg → SReg → SReg → Wid → Scope → Instr) : Build := fun f _ => do
  let ws ← widScope? f.fe
  some (c f.mods (atomMod f.mod) (sreg f.fa) (sreg f.fb) (sreg f.fc) (sreg f.fd) ws.1 ws.2)

/-- Layout F: bit 17 of the mask must be zero (R230). -/
def layF (c : Mods → Scope → Bool → BitVec 16 → Instr) : Build := fun f _ => do
  noMod? f; let sc ← scope? f.fa; zero? f.fb
  if f.imm18.getLsbD 17 then none else some (c f.mods sc (f.imm18.getLsbD 16) (f.imm18.extractLsb' 0 16))

/-- Layout C (CMO). -/
def layC (c : Mods → BitVec 4 → BitVec 6 → SReg → SReg → BitVec 6 → Instr) : Build := fun f _ => do
  let cls ← clsOnly? f.mod; zero? f.fe; some (c f.mods cls f.fa (sreg f.fb) (sreg f.fc) f.fd)

/-! Layout V, by the rows of R161. -/

def layV3 (c : Mods → Arith → VReg → VReg → VReg → Ty → KReg → Instr) : Build := fun f _ => do
  let a ← arith? f.mod; let vd ← vreg? f.fa; let va ← vreg? f.fb; let vb ← vreg? f.fc; zero? f.fd
  some (c f.mods a vd va vb (tyk f.fe).1 (tyk f.fe).2)

def layV2 (c : Mods → Arith → VReg → VReg → Ty → KReg → Instr) : Build := fun f _ => do
  let a ← arith? f.mod; let vd ← vreg? f.fa; let va ← vreg? f.fb; zero? f.fc; zero? f.fd
  some (c f.mods a vd va (tyk f.fe).1 (tyk f.fe).2)

def layV4 (c : Mods → Arith → VReg → VReg → VReg → VReg → Ty → KReg → Instr) : Build := fun f _ => do
  let a ← arith? f.mod; let vd ← vreg? f.fa; let va ← vreg? f.fb; let vb ← vreg? f.fc; let vc ← vreg? f.fd
  some (c f.mods a vd va vb vc (tyk f.fe).1 (tyk f.fe).2)

def layVCmp (c : Mods → Arith → KReg → VReg → VReg → Ty → KReg → Instr) : Build := fun f _ => do
  let a ← arith? f.mod; let kd ← reg8? f.fa; let va ← vreg? f.fb; let vb ← vreg? f.fc; zero? f.fd
  some (c f.mods a kd va vb (tyk f.fe).1 (tyk f.fe).2)

def layVSel (c : Mods → Arith → VReg → VReg → VReg → KReg → Ty → KReg → Instr) : Build := fun f _ => do
  let a ← arith? f.mod; let vd ← vreg? f.fa; let va ← vreg? f.fb; let vb ← vreg? f.fc; let kc ← reg8? f.fd
  some (c f.mods a vd va vb kc (tyk f.fe).1 (tyk f.fe).2)

def layVCvt (c : Mods → Arith → VReg → VReg → Ty → Ty → KReg → Instr) : Build := fun f _ => do
  let a ← arith? f.mod; let vd ← vreg? f.fa; let va ← vreg? f.fb; zero? f.fc; let tt ← tyTarget? f.fd
  some (c f.mods a vd va tt (tyk f.fe).1 (tyk f.fe).2)

def layVGrp (c : Mods → Arith → VReg → VReg → BitVec 6 → Ty → KReg → Instr) : Build := fun f _ => do
  let a ← arith? f.mod; let vd ← vreg? f.fa; let va ← vreg? f.fb; zero? f.fc
  some (c f.mods a vd va f.fd (tyk f.fe).1 (tyk f.fe).2)

def layVBcst (c : Mods → VReg → SReg → Ty → KReg → Instr) : Build := fun f _ => do
  noMod? f; let vd ← vreg? f.fa; zero? f.fc; zero? f.fd
  some (c f.mods vd (sreg f.fb) (tyk f.fe).1 (tyk f.fe).2)

def layVExt (c : Mods → SReg → VReg → SReg → Ty → Instr) : Build := fun f _ => do
  noMod? f; let va ← vreg? f.fb; zero? f.fd; let ty ← tyOnly? f.fe
  some (c f.mods (sreg f.fa) va (sreg f.fc) ty)

def layVPerm (c : Mods → VReg → VReg → VReg → Ty → KReg → Instr) : Build := fun f _ => do
  noMod? f; let vd ← vreg? f.fa; let va ← vreg? f.fb; let vb ← vreg? f.fc; zero? f.fd
  some (c f.mods vd va vb (tyk f.fe).1 (tyk f.fe).2)

def layVShuf (c : Mods → VReg → VReg → VReg → BitVec 6 → Ty → KReg → Instr) : Build := fun f _ => do
  noMod? f; let vd ← vreg? f.fa; let va ← vreg? f.fb; let vb ← vreg? f.fc
  some (c f.mods vd va vb f.fd (tyk f.fe).1 (tyk f.fe).2)

def layVRot (c : Mods → VReg → VReg → SReg → Ty → KReg → Instr) : Build := fun f _ => do
  noMod? f; let vd ← vreg? f.fa; let va ← vreg? f.fb; zero? f.fd
  some (c f.mods vd va (sreg f.fc) (tyk f.fe).1 (tyk f.fe).2)

def layVQnt (c : Mods → Arith → VReg → VReg → VReg → BitVec 6 → Ty → Instr) : Build := fun f _ => do
  let a ← arith? f.mod; let vd ← vreg? f.fa; let va ← vreg? f.fb; let vs ← vreg? f.fc; let ty ← tyOnly? f.fe
  some (c f.mods a vd va vs f.fd ty)

def layVDec (c : Mods → VReg → Instr) : Build := fun f _ => do
  noMod? f; let vd ← vreg? f.fa; zero? f.fb; zero? f.fc; zero? f.fd; zero? f.fe; some (c f.mods vd)

/-- Layout VM, contiguous forms: FC 0 (R180). -/
def layVM (c : Mods → MemMod → VReg → SReg → BitVec 6 → Ty → KReg → Instr) : Build := fun f _ => do
  let vd ← vreg? f.fa; zero? f.fc
  some (c f.mods (memMod f.mod) vd (sreg f.fb) f.fd (tyk f.fe).1 (tyk f.fe).2)

/-- Layout VM with the offset register (VGATH, VSCAT). -/
def layVMO (c : Mods → MemMod → VReg → SReg → VReg → BitVec 6 → Ty → KReg → Instr) : Build := fun f _ => do
  let vd ← vreg? f.fa; let vc ← vreg? f.fc
  some (c f.mods (memMod f.mod) vd (sreg f.fb) vc f.fd (tyk f.fe).1 (tyk f.fe).2)

/-! Layouts D and E, by the rows of R185. -/

def layD (c : Mods → BitVec 6 → Instr) : Build := fun f _ => do
  noMod? f; zero? f.fb; zero? f.fc; zero? f.fd; zero? f.fe; some (c f.mods f.fa)

def layETld (c : Mods → MemMod → SReg → Instr) : Build := fun f _ => do
  zero? f.fa; zero? f.fc; zero? f.fd; zero? f.fe; some (c f.mods (memMod f.mod) (sreg f.fb))

def layETldh (c : Mods → MemMod → SReg → SReg → SReg → Instr) : Build := fun f _ => do
  zero? f.fa; zero? f.fe; some (c f.mods (memMod f.mod) (sreg f.fb) (sreg f.fc) (sreg f.fd))

def layETldr (c : Mods → MemMod → Fmt → SReg → SReg → SReg → Instr) : Build := fun f _ => do
  let fmt ← fmt? f.fa; zero? f.fe; some (c f.mods (memMod f.mod) fmt (sreg f.fb) (sreg f.fc) (sreg f.fd))

def layECpy (c : Mods → MemMod → BitVec 6 → SReg → SReg → SReg → Instr) : Build := fun f _ => do
  zero? f.fe; some (c f.mods (memMod f.mod) f.fa (sreg f.fb) (sreg f.fc) (sreg f.fd))

def layECpyI (c : Mods → MemMod → BitVec 6 → SReg → SReg → SReg → BitVec 6 → Instr) : Build := fun f _ =>
  some (c f.mods (memMod f.mod) f.fa (sreg f.fb) (sreg f.fc) (sreg f.fd) f.fe)

def layECpyd (c : Mods → MemMod → BitVec 6 → SReg → SReg → Instr) : Build := fun f _ => do
  zero? f.fc; zero? f.fe; some (c f.mods (memMod f.mod) f.fa (sreg f.fb) (sreg f.fd))

def layEColl (c : Mods → MemMod → BitVec 6 → SReg → Instr) : Build := fun f _ => do
  zero? f.fc; zero? f.fd; zero? f.fe; some (c f.mods (memMod f.mod) f.fa (sreg f.fb))

/-- The matrix words without operands that use RM and SAT. -/
def layEAr (c : Mods → Arith → Instr) : Build := fun f _ => do
  let a ← arith? f.mod; zero? f.fa; zero? f.fb; zero? f.fc; zero? f.fd; zero? f.fe; some (c f.mods a)

def layEScal (c : Mods → Arith → SReg → Instr) : Build := fun f _ => do
  let a ← arith? f.mod; zero? f.fa; zero? f.fc; zero? f.fd; zero? f.fe; some (c f.mods a (sreg f.fb))

def layECvt (c : Mods → Arith → Fmt → Scl → Instr) : Build := fun f _ => do
  let a ← arith? f.mod; let fmt ← fmt? f.fa; zero? f.fb; zero? f.fc; zero? f.fd; let scl ← scl? f.fe
  some (c f.mods a fmt scl)

def layEZero (c : Mods → Fmt → SReg → BitVec 6 → Instr) : Build := fun f _ => do
  noMod? f; let fmt ← fmt? f.fa; zero? f.fc; zero? f.fd; some (c f.mods fmt (sreg f.fb) f.fe)

def layESpar (c : Mods → Spn → Instr) : Build := fun f _ => do
  noMod? f; let spn ← spn? f.fa; zero? f.fb; zero? f.fc; zero? f.fd; zero? f.fe; some (c f.mods spn)

def layETbeg (c : Mods → Fmt → SReg → Instr) : Build := fun f _ => do
  noMod? f; let fmt ← fmt? f.fa; zero? f.fc; zero? f.fd; zero? f.fe; some (c f.mods fmt (sreg f.fb))

def layETrow (c : Mods → Arith → VReg → Ty → Instr) : Build := fun f _ => do
  let a ← arith? f.mod; let va ← vreg? f.fa; zero? f.fb; zero? f.fc; zero? f.fd; let ty ← tyOnly? f.fe
  some (c f.mods a va ty)

def layETrv (c : Mods → Arith → VReg → SReg → SReg → Ty → Instr) : Build := fun f _ => do
  let a ← arith? f.mod; let vd ← vreg? f.fa; zero? f.fd; let ty ← tyOnly? f.fe
  some (c f.mods a vd (sreg f.fb) (sreg f.fc) ty)

def layETcv (c : Mods → Arith → VReg → SReg → Ty → Instr) : Build := fun f _ => do
  let a ← arith? f.mod; let vd ← vreg? f.fa; zero? f.fc; zero? f.fd; let ty ← tyOnly? f.fe
  some (c f.mods a vd (sreg f.fb) ty)

/-! SRD and SWR: a register with a constructor of its own is read and written through it. -/

def srdOf (m : Mods) (sd : SReg) (n : BitVec 12) : Instr :=
  if n = 0x041 then .srdVstat m sd else if n = 0x040 then .srdTags m sd else .srd m sd n

def swrOf (m : Mods) (n : BitVec 12) (sa : SReg) : Instr :=
  if n = 0x002 then .swrOrdmode m sa
  else if n = 0x012 then .swrStklim m sa
  else if n = 0x014 then .swrTsquota m sa
  else if n = 0x025 then .swrTdeleg m sa
  else if n = 0x030 then .logMove m 0 sa
  else if n = 0x034 then .logMove m 1 sa
  else if n = 0x033 then .logMove m 2 sa
  else if n = 0x040 then .swrTags m sa
  else if n = 0x041 then .swrVstat m sa
  else if n = 0x050 then .swrRole m sa
  else if n = 0x051 then .swrLeasectl m sa
  else if n = 0x052 then .swrQminQcap m false sa
  else if n = 0x053 then .swrQminQcap m true sa
  else .swr m n sa

/-- The numbers of LOGBASE, MOBASE and STAMPBASE (R144). -/
def logNum (which : Fin 3) : BitVec 12 :=
  match which.val with
  | 0 => 0x030 | 1 => 0x034 | _ => 0x033

/-! ### The opcode maps (R113 to R115) -/

/-- R113, register forms and counts: R120 to R122. -/
def mapAlu : List Row :=
  [ ⟨0x001, layA .add⟩
  , ⟨0x002, layA .sub⟩
  , ⟨0x003, layA .mul⟩
  , ⟨0x004, layA .mulh⟩
  , ⟨0x005, layA .mulhu⟩
  , ⟨0x006, layA .div⟩
  , ⟨0x007, layA .divu⟩
  , ⟨0x008, layA .rem⟩
  , ⟨0x009, layA .remu⟩
  , ⟨0x00A, layA .and⟩
  , ⟨0x00B, layA .or⟩
  , ⟨0x00C, layA .xor⟩
  , ⟨0x00D, layA .andn⟩
  , ⟨0x00E, layA .shl⟩
  , ⟨0x00F, layA .shr⟩
  , ⟨0x010, layA .sar⟩
  , ⟨0x011, layA .rol⟩
  , ⟨0x012, layA .ror⟩
  , ⟨0x013, layA .min⟩
  , ⟨0x014, layA .max⟩
  , ⟨0x015, layA .minu⟩
  , ⟨0x016, layA .maxu⟩
  , ⟨0x018, layU .clz⟩
  , ⟨0x019, layU .ctz⟩
  , ⟨0x01A, layU .popc⟩ ]

/-- R113, immediate, bitfield and constant forms: R123 to R125. -/
def mapImm : List Row :=
  [ ⟨0x021, layI .addi⟩
  , ⟨0x02A, layI .andi⟩
  , ⟨0x02B, layI .ori⟩
  , ⟨0x02C, layI .xori⟩
  , ⟨0x02E, layI .shli⟩
  , ⟨0x02F, layI .shri⟩
  , ⟨0x030, layI .sari⟩
  , ⟨0x034, layH2 .bfx⟩
  , ⟨0x035, layH2 .bfxu⟩
  , ⟨0x036, layH3 .bfi⟩
  , ⟨0x037, layJ .movi⟩
  , ⟨0x03C, layUL0 .movl⟩
  , ⟨0x03D, layUL .addl⟩ ]

/-- R113, compares, predicates, addresses and handles: R126 to R132. -/
def mapPred : List Row :=
  [ ⟨0x040, layP .cmpeq⟩
  , ⟨0x041, layP .cmpne⟩
  , ⟨0x042, layP .cmplt⟩
  , ⟨0x043, layP .cmple⟩
  , ⟨0x044, layP .cmpltu⟩
  , ⟨0x045, layP .cmpleu⟩
  , ⟨0x048, layQ .cmpeqi⟩
  , ⟨0x049, layQ .cmpnei⟩
  , ⟨0x04A, layQ .cmplti⟩
  , ⟨0x04B, layQ .cmplei⟩
  , ⟨0x04C, layQ .cmpltui⟩
  , ⟨0x04D, layQ .cmpleui⟩
  , ⟨0x050, layPL .pand⟩
  , ⟨0x051, layPL .por⟩
  , ⟨0x052, layPL .pxor⟩
  , ⟨0x053, layPL .pandn⟩
  , ⟨0x054, layP1 .pset⟩
  , ⟨0x055, layPG .pget⟩
  , ⟨0x058, layHLea .lea⟩
  , ⟨0x05A, layHSel .apcv⟩
  , ⟨0x05B, layU .apts⟩
  , ⟨0x05C, layHSel .hget⟩
  , ⟨0x05D, layP1 .hchk⟩ ]

/-- R113, branches, loops, launches, traps and special registers: R133 to R149. -/
def mapFlow : List Row :=
  [ ⟨0x060, layB .br⟩
  , ⟨0x061, layB .call⟩
  , ⟨0x062, layG1 .jmp⟩
  , ⟨0x063, layG1 .callr⟩
  , ⟨0x064, layZ .ret⟩
  , ⟨0x065, layZL .brl⟩
  , ⟨0x066, layZL .calll⟩
  , ⟨0x068, layO .loopp⟩
  , ⟨0x069, layZ .endl⟩
  , ⟨0x06A, layZ .next⟩
  , ⟨0x06B, layG1 .lnch⟩
  , ⟨0x06C, layA .wait⟩
  , ⟨0x070, layY .trap⟩
  , ⟨0x071, layZ .tack⟩
  , ⟨0x072, layZ .eret⟩
  , ⟨0x073, layZ .halt⟩
  , ⟨0x074, layS srdOf⟩
  , ⟨0x075, layW swrOf⟩
  , ⟨0x076, layA .iclk⟩
  , ⟨0x077, layA .icul⟩
  , ⟨0x078, layG .logw⟩
  , ⟨0x07A, layY .brk⟩
  , ⟨0x07F, layZ .nop⟩ ]

/-- R113, memory, atomic and synchronisation: R224 to R234. -/
def mapMem : List Row :=
  [ ⟨0x100, layM .ldb⟩
  , ⟨0x101, layM .ldh⟩
  , ⟨0x102, layM .ldw⟩
  , ⟨0x103, layM .ldd⟩
  , ⟨0x104, layM .ldbu⟩
  , ⟨0x105, layM .ldhu⟩
  , ⟨0x106, layM .ldwu⟩
  , ⟨0x108, layM .stb⟩
  , ⟨0x109, layM .sth⟩
  , ⟨0x10A, layM .stw⟩
  , ⟨0x10B, layM .std⟩
  , ⟨0x10C, layN .ldaqw⟩
  , ⟨0x10D, layN .ldaqd⟩
  , ⟨0x10E, layN .strlw⟩
  , ⟨0x10F, layN .strld⟩
  , ⟨0x110, layT .aadd⟩
  , ⟨0x111, layT .afadd⟩
  , ⟨0x112, layT .amin⟩
  , ⟨0x113, layT .amax⟩
  , ⟨0x114, layT .aand⟩
  , ⟨0x115, layT .aor⟩
  , ⟨0x116, layT .axch⟩
  , ⟨0x117, layTC .acas⟩
  , ⟨0x118, layF .fence⟩
  , ⟨0x119, layC .cmo⟩
  , ⟨0x11A, layY .bar⟩ ]

/-- The control opcodes (R113). -/
def controlMap : List Row := mapAlu ++ mapImm ++ mapPred ++ mapFlow ++ mapMem

/-- R114, lane arithmetic, logic, compares and masks: R163 to R168. -/
def mapVecA : List Row :=
  [ ⟨0x001, layV3 .vadd⟩
  , ⟨0x002, layV3 .vsub⟩
  , ⟨0x003, layV3 .vmul⟩
  , ⟨0x004, layV4 .vfma⟩
  , ⟨0x005, layV4 .vfms⟩
  , ⟨0x006, layV3 .vdiv⟩
  , ⟨0x007, layV3 .vmin⟩
  , ⟨0x008, layV3 .vmax⟩
  , ⟨0x009, layV2 .vabs⟩
  , ⟨0x00A, layV2 .vneg⟩
  , ⟨0x010, layV3 .vand⟩
  , ⟨0x011, layV3 .vor⟩
  , ⟨0x012, layV3 .vxor⟩
  , ⟨0x013, layV2 .vnot⟩
  , ⟨0x014, layV3 .vshl⟩
  , ⟨0x015, layV3 .vshr⟩
  , ⟨0x016, layV3 .vsar⟩
  , ⟨0x017, layV4 .vfshl⟩
  , ⟨0x018, layV4 .vfshr⟩
  , ⟨0x020, layVCmp .vcmpeq⟩
  , ⟨0x021, layVCmp .vcmpne⟩
  , ⟨0x022, layVCmp .vcmplt⟩
  , ⟨0x023, layVCmp .vcmple⟩
  , ⟨0x024, layVSel .vsel⟩
  , ⟨0x026, layPL .kand⟩
  , ⟨0x027, layPL .kor⟩
  , ⟨0x028, layPL .kxor⟩
  , ⟨0x029, layK2 .knot⟩ ]

/-- R114, conversions, moves, reductions, transcendentals and memory: R169 to R183. -/
def mapVecB : List Row :=
  [ ⟨0x030, layVCvt .vcvt⟩
  , ⟨0x031, layVCvt .vwid⟩
  , ⟨0x032, layVCvt .vnar⟩
  , ⟨0x034, layVBcst .vbcst⟩
  , ⟨0x035, layVExt .vext⟩
  , ⟨0x038, layVPerm .vperm⟩
  , ⟨0x039, layVShuf .vshuf⟩
  , ⟨0x03A, layVRot .vlrot⟩
  , ⟨0x040, layV2 .vrsum⟩
  , ⟨0x041, layV2 .vrmax⟩
  , ⟨0x042, layV2 .vrmin⟩
  , ⟨0x044, layVGrp .vgsum⟩
  , ⟨0x045, layVGrp .vgmax⟩
  , ⟨0x046, layVGrp .vgmin⟩
  , ⟨0x048, layV2 .vscan⟩
  , ⟨0x049, layV2 .vscanm⟩
  , ⟨0x050, layV2 .vsin⟩
  , ⟨0x051, layV2 .vcos⟩
  , ⟨0x052, layV2 .vexp⟩
  , ⟨0x053, layV2 .vlog⟩
  , ⟨0x054, layV2 .vrcp⟩
  , ⟨0x055, layV2 .vrsq⟩
  , ⟨0x058, layVQnt .vqnt⟩
  , ⟨0x060, layVM .vld⟩
  , ⟨0x061, layVM .vst⟩
  , ⟨0x062, layVM .vldu⟩
  , ⟨0x063, layVM .vstm⟩
  , ⟨0x064, layVMO .vgath⟩
  , ⟨0x065, layVMO .vscat⟩
  , ⟨0x068, layVDec .vdec⟩ ]

/-- The vector opcodes (R114). -/
def vectorMap : List Row := mapVecA ++ mapVecB

/-- R115, stack manipulation, tile loads and stores, copies and tags. -/
def mapEngA : List Row :=
  [ ⟨0x001, layZ .tdup⟩
  , ⟨0x002, layZ .tdrop⟩
  , ⟨0x003, layZ .tswap⟩
  , ⟨0x004, layZ .tover⟩
  , ⟨0x005, layD .tpick⟩
  , ⟨0x006, layD .trot⟩
  , ⟨0x007, layD .tbury⟩
  , ⟨0x008, layS .tmarkOpen⟩
  , ⟨0x009, layG1 .tmarkClose⟩
  , ⟨0x010, layETld .tld⟩
  , ⟨0x011, layETldh .tldh⟩
  , ⟨0x012, layETldr .tldr⟩
  , ⟨0x020, layECpy .cpy⟩
  , ⟨0x021, layECpyI .cpyg⟩
  , ⟨0x022, layECpyd .cpyd⟩
  , ⟨0x023, layECpyI .cpye⟩
  , ⟨0x024, layEColl .coll⟩
  , ⟨0x028, layG1 .wtall⟩
  , ⟨0x029, layG1 .wtany⟩
  , ⟨0x02A, layU .tagff⟩
  , ⟨0x02B, layG1 .tagcl⟩
  , ⟨0x030, layETld .tst⟩
  , ⟨0x031, layETld .tstk⟩ ]

/-- R115, matrix, lease and tile-builder opcodes. -/
def mapEngB : List Row :=
  [ ⟨0x040, layZ .mma⟩
  , ⟨0x041, layZ .mmac⟩
  , ⟨0x042, layEAr .madd⟩
  , ⟨0x043, layEAr .msub⟩
  , ⟨0x044, layEAr .mmul⟩
  , ⟨0x045, layEScal .mscal⟩
  , ⟨0x046, layECvt .mcvt⟩
  , ⟨0x047, layZ .mtrn⟩
  , ⟨0x048, layEZero .mzero⟩
  , ⟨0x049, layG1 .mhdr⟩
  , ⟨0x04A, layESpar .mspar⟩
  , ⟨0x04B, layZ .mrsum⟩
  , ⟨0x04C, layZ .mchk⟩
  , ⟨0x050, layZ .lacq⟩
  , ⟨0x051, layZ .lrel⟩
  , ⟨0x058, layETbeg .tbeg⟩
  , ⟨0x059, layETrow .trow⟩
  , ⟨0x05A, layZ .tend⟩
  , ⟨0x05B, layETrv .trv⟩
  , ⟨0x05C, layETcv .tcv⟩ ]

/-- The engine opcodes (R115). -/
def engineMap : List Row := mapEngA ++ mapEngB

/-- The row of an opcode, if assigned. -/
def rowOf (rows : List Row) (op : BitVec 10) : Option Build := (rows.find? (fun r => r.op == op)).map Row.build

/-- The map KIND selects (R96). -/
def mapOf (kind : BitVec 2) : List Row :=
  match kind.toNat with
  | 0 => controlMap
  | 1 => vectorMap
  | _ => engineMap

/-- Steps 4 and 5 of R112 on an instruction already read from its fields. -/
def checkInstr (i : Instr) : Except DecodeErr Instr :=
  if i.reservedOk then (if i.limitsOk then .ok i else .error .illegal) else .error .reserved

/-- A bundle word (R109): bits 61:48 must be zero. -/
def decodeBundle (w : Word) : Except DecodeErr Instr :=
  if w.extractLsb' 48 14 = 0 then .ok (.dbnd (w.extractLsb' 32 16) (w.extractLsb' 16 16) (w.extractLsb' 0 16))
  else .error .reserved

/-- The instruction of a word, with the word that follows it as the literal a long form reads (R106, R112). -/
def decodeWord (w lit : Word) : Except DecodeErr Instr :=
  if w.extractLsb' 62 2 = 3#2 then decodeBundle w
  else
    match rowOf (mapOf (Fields.ofWord w).kind) (Fields.ofWord w).op with
    | none => .error .illegal
    | some build =>
      match build (Fields.ofWord w) lit with
      | none => .error .reserved
      | some i => checkInstr i

/-- A word is a long form: MOVL, ADDL, BRL or CALLL (R106). -/
def isLong (w : Word) : Bool :=
  w.extractLsb' 62 2 == 0#2 &&
    (w.extractLsb' 52 10 == 0x03C || w.extractLsb' 52 10 == 0x03D || w.extractLsb' 52 10 == 0x065 ||
      w.extractLsb' 52 10 == 0x066)

/-- The word of a dictionary slot: the entry, its FA replaced unless OVR is 0x3F (R110). -/
def slotWord (code : BitVec 16) (entry : Word) : Word :=
  if code.extractLsb' 10 6 = 0x3F#6 then entry
  else entry.extractLsb' 30 34 ++ code.extractLsb' 10 6 ++ entry.extractLsb' 0 24

/-- A slot's instruction: a bundle or a long form in the dictionary is ILLEGAL (R111). -/
def decodeSlot (code : BitVec 16) (entry : Word) : Except DecodeErr Instr :=
  if entry.extractLsb' 62 2 = 3#2 || isLong entry then .error .illegal else decodeWord (slotWord code entry) 0

/-- The little-endian word at the front of a byte list (R4), absent bytes reading zero. -/
def leWord : List Byte → Nat
  | [] => 0
  | b :: bs => b.toNat + 256 * leWord bs

/-- The instruction at the front of a byte list and the bytes behind it. -/
def decode (bs : List Byte) : Except DecodeErr (Instr × List Byte) :=
  if bs.length < 8 then .error .short
  else
    let w : Word := BitVec.ofNat 64 (leWord (bs.take 8))
    let n := if isLong w then 16 else 8
    if bs.length < n then .error .short
    else
      match decodeWord w (BitVec.ofNat 64 (leWord ((bs.drop 8).take 8))) with
      | .ok i => .ok (i, bs.drop n)
      | .error e => .error e

/-- The bytes of a number, least significant first (R4). -/
def leBytes : Nat → Nat → List Byte
  | 0, _ => []
  | k + 1, v => BitVec.ofNat 8 v :: leBytes k (v / 256)

/-- The instruction the decoder reads from an instruction whose bits are `w`, numbered as the opcode table numbers them: the
first word is bits 63:0 and a long form's literal bits 127:64. Bits from `nbits` up are zero. -/
def decodeTableWord (nbits w : Nat) : Option Instr :=
  match decode (leBytes 16 (w % 2 ^ nbits)) with
  | .ok (i, _) => some i
  | .error _ => none

/-! ### The encoder -/

/-- The shared fields of a word. -/
def hd (kind : BitVec 2) (op : BitVec 10) (m : Mods) (mod : BitVec 6) (fa fb fc fd fe : BitVec 6) : Fields :=
  ⟨kind, op, m.ga.code, m.gb.code, if m.stop then 1 else 0, m.tok, m.sc, mod, fa, fb, fc, fd, fe⟩

def hi6 (x : BitVec 12) : BitVec 6 := x.extractLsb' 6 6
def lo6 (x : BitVec 12) : BitVec 6 := x.extractLsb' 0 6

/-- The fields of an instruction's word (none for a bundle, whose word has no such fields, and for a step of the device). -/
def Instr.fields : Instr → Option Fields
  | .add m sd sa sb => some (hd 0 0x001 m 0 (encS sd) (encS sa) (encS sb) 0 0)
  | .sub m sd sa sb => some (hd 0 0x002 m 0 (encS sd) (encS sa) (encS sb) 0 0)
  | .mul m sd sa sb => some (hd 0 0x003 m 0 (encS sd) (encS sa) (encS sb) 0 0)
  | .mulh m sd sa sb => some (hd 0 0x004 m 0 (encS sd) (encS sa) (encS sb) 0 0)
  | .mulhu m sd sa sb => some (hd 0 0x005 m 0 (encS sd) (encS sa) (encS sb) 0 0)
  | .div m sd sa sb => some (hd 0 0x006 m 0 (encS sd) (encS sa) (encS sb) 0 0)
  | .divu m sd sa sb => some (hd 0 0x007 m 0 (encS sd) (encS sa) (encS sb) 0 0)
  | .rem m sd sa sb => some (hd 0 0x008 m 0 (encS sd) (encS sa) (encS sb) 0 0)
  | .remu m sd sa sb => some (hd 0 0x009 m 0 (encS sd) (encS sa) (encS sb) 0 0)
  | .and m sd sa sb => some (hd 0 0x00A m 0 (encS sd) (encS sa) (encS sb) 0 0)
  | .or m sd sa sb => some (hd 0 0x00B m 0 (encS sd) (encS sa) (encS sb) 0 0)
  | .xor m sd sa sb => some (hd 0 0x00C m 0 (encS sd) (encS sa) (encS sb) 0 0)
  | .andn m sd sa sb => some (hd 0 0x00D m 0 (encS sd) (encS sa) (encS sb) 0 0)
  | .shl m sd sa sb => some (hd 0 0x00E m 0 (encS sd) (encS sa) (encS sb) 0 0)
  | .shr m sd sa sb => some (hd 0 0x00F m 0 (encS sd) (encS sa) (encS sb) 0 0)
  | .sar m sd sa sb => some (hd 0 0x010 m 0 (encS sd) (encS sa) (encS sb) 0 0)
  | .rol m sd sa sb => some (hd 0 0x011 m 0 (encS sd) (encS sa) (encS sb) 0 0)
  | .ror m sd sa sb => some (hd 0 0x012 m 0 (encS sd) (encS sa) (encS sb) 0 0)
  | .min m sd sa sb => some (hd 0 0x013 m 0 (encS sd) (encS sa) (encS sb) 0 0)
  | .max m sd sa sb => some (hd 0 0x014 m 0 (encS sd) (encS sa) (encS sb) 0 0)
  | .minu m sd sa sb => some (hd 0 0x015 m 0 (encS sd) (encS sa) (encS sb) 0 0)
  | .maxu m sd sa sb => some (hd 0 0x016 m 0 (encS sd) (encS sa) (encS sb) 0 0)
  | .clz m sd sa => some (hd 0 0x018 m 0 (encS sd) (encS sa) 0 0 0)
  | .ctz m sd sa => some (hd 0 0x019 m 0 (encS sd) (encS sa) 0 0 0)
  | .popc m sd sa => some (hd 0 0x01A m 0 (encS sd) (encS sa) 0 0 0)
  | .addi m sd sa imm => some (hd 0 0x021 m 0 (encS sd) (encS sa) 0 (hi6 imm) (lo6 imm))
  | .andi m sd sa imm => some (hd 0 0x02A m 0 (encS sd) (encS sa) 0 (hi6 imm) (lo6 imm))
  | .ori m sd sa imm => some (hd 0 0x02B m 0 (encS sd) (encS sa) 0 (hi6 imm) (lo6 imm))
  | .xori m sd sa imm => some (hd 0 0x02C m 0 (encS sd) (encS sa) 0 (hi6 imm) (lo6 imm))
  | .shli m sd sa imm => some (hd 0 0x02E m 0 (encS sd) (encS sa) 0 (hi6 imm) (lo6 imm))
  | .shri m sd sa imm => some (hd 0 0x02F m 0 (encS sd) (encS sa) 0 (hi6 imm) (lo6 imm))
  | .sari m sd sa imm => some (hd 0 0x030 m 0 (encS sd) (encS sa) 0 (hi6 imm) (lo6 imm))
  | .bfx m sd sa p c => some (hd 0 0x034 m 0 (encS sd) (encS sa) 0 p c)
  | .bfxu m sd sa p c => some (hd 0 0x035 m 0 (encS sd) (encS sa) 0 p c)
  | .bfi m sd sa sb p c => some (hd 0 0x036 m 0 (encS sd) (encS sa) (encS sb) p c)
  | .movi m sd imm => some (hd 0 0x037 m 0 (encS sd) 0 (imm.extractLsb' 12 6) (imm.extractLsb' 6 6) (imm.extractLsb' 0 6))
  | .movl m sd _ => some (hd 0 0x03C m 0 (encS sd) 0 0 0 0)
  | .addl m sd sa _ => some (hd 0 0x03D m 0 (encS sd) (encS sa) 0 0 0)
  | .cmpeq m pd sa sb => some (hd 0 0x040 m 0 (enc8 pd) (encS sa) (encS sb) 0 0)
  | .cmpne m pd sa sb => some (hd 0 0x041 m 0 (enc8 pd) (encS sa) (encS sb) 0 0)
  | .cmplt m pd sa sb => some (hd 0 0x042 m 0 (enc8 pd) (encS sa) (encS sb) 0 0)
  | .cmple m pd sa sb => some (hd 0 0x043 m 0 (enc8 pd) (encS sa) (encS sb) 0 0)
  | .cmpltu m pd sa sb => some (hd 0 0x044 m 0 (enc8 pd) (encS sa) (encS sb) 0 0)
  | .cmpleu m pd sa sb => some (hd 0 0x045 m 0 (enc8 pd) (encS sa) (encS sb) 0 0)
  | .cmpeqi m pd sa imm => some (hd 0 0x048 m 0 (enc8 pd) (encS sa) 0 (hi6 imm) (lo6 imm))
  | .cmpnei m pd sa imm => some (hd 0 0x049 m 0 (enc8 pd) (encS sa) 0 (hi6 imm) (lo6 imm))
  | .cmplti m pd sa imm => some (hd 0 0x04A m 0 (enc8 pd) (encS sa) 0 (hi6 imm) (lo6 imm))
  | .cmplei m pd sa imm => some (hd 0 0x04B m 0 (enc8 pd) (encS sa) 0 (hi6 imm) (lo6 imm))
  | .cmpltui m pd sa imm => some (hd 0 0x04C m 0 (enc8 pd) (encS sa) 0 (hi6 imm) (lo6 imm))
  | .cmpleui m pd sa imm => some (hd 0 0x04D m 0 (enc8 pd) (encS sa) 0 (hi6 imm) (lo6 imm))
  | .pand m pd pa pb => some (hd 0 0x050 m 0 (enc8 pd) (enc8 pa) (enc8 pb) 0 0)
  | .por m pd pa pb => some (hd 0 0x051 m 0 (enc8 pd) (enc8 pa) (enc8 pb) 0 0)
  | .pxor m pd pa pb => some (hd 0 0x052 m 0 (enc8 pd) (enc8 pa) (enc8 pb) 0 0)
  | .pandn m pd pa pb => some (hd 0 0x053 m 0 (enc8 pd) (enc8 pa) (enc8 pb) 0 0)
  | .pset m pd sa => some (hd 0 0x054 m 0 (enc8 pd) (encS sa) 0 0 0)
  | .pget m sd pa => some (hd 0 0x055 m 0 (encS sd) (enc8 pa) 0 0 0)
  | .lea m sd sa sb sh => some (hd 0 0x058 m 0 (encS sd) (encS sa) (encS sb) sh 0)
  | .apcv m sd sa f => some (hd 0 0x05A m 0 (encS sd) (encS sa) 0 f 0)
  | .apts m sd sa => some (hd 0 0x05B m 0 (encS sd) (encS sa) 0 0 0)
  | .hget m sd sa f => some (hd 0 0x05C m 0 (encS sd) (encS sa) 0 f 0)
  | .hchk m pd sa => some (hd 0 0x05D m 0 (enc8 pd) (encS sa) 0 0 0)
  | .br m imm => some (hd 0 0x060 m 0 0 0 (imm.extractLsb' 12 6) (imm.extractLsb' 6 6) (imm.extractLsb' 0 6))
  | .call m imm => some (hd 0 0x061 m 0 0 0 (imm.extractLsb' 12 6) (imm.extractLsb' 6 6) (imm.extractLsb' 0 6))
  | .jmp m sa => some (hd 0 0x062 m 0 0 (encS sa) 0 0 0)
  | .callr m sa => some (hd 0 0x063 m 0 0 (encS sa) 0 0 0)
  | .ret m => some (hd 0 0x064 m 0 0 0 0 0 0)
  | .brl m _ => some (hd 0 0x065 m 0 0 0 0 0 0)
  | .calll m _ => some (hd 0 0x066 m 0 0 0 0 0 0)
  | .loopp m sa idx off => some (hd 0 0x068 m 0 (encS sa) idx 0 (hi6 off) (lo6 off))
  | .endl m => some (hd 0 0x069 m 0 0 0 0 0 0)
  | .next m => some (hd 0 0x06A m 0 0 0 0 0 0)
  | .lnch m sa => some (hd 0 0x06B m 0 0 (encS sa) 0 0 0)
  | .wait m sd sa sb => some (hd 0 0x06C m 0 (encS sd) (encS sa) (encS sb) 0 0)
  | .trap m imm => some (hd 0 0x070 m 0 0 0 0 (hi6 imm) (lo6 imm))
  | .tack m => some (hd 0 0x071 m 0 0 0 0 0 0)
  | .eret m => some (hd 0 0x072 m 0 0 0 0 0 0)
  | .halt m => some (hd 0 0x073 m 0 0 0 0 0 0)
  | .srd m sd n => some (hd 0 0x074 m 0 (encS sd) 0 0 (hi6 n) (lo6 n))
  | .srdVstat m sd => some (hd 0 0x074 m 0 (encS sd) 0 0 (hi6 0x041) (lo6 0x041))
  | .srdTags m sd => some (hd 0 0x074 m 0 (encS sd) 0 0 (hi6 0x040) (lo6 0x040))
  | .swr m n sa => some (hd 0 0x075 m 0 0 (encS sa) 0 (hi6 n) (lo6 n))
  | .swrVstat m sa => some (hd 0 0x075 m 0 0 (encS sa) 0 (hi6 0x041) (lo6 0x041))
  | .swrStklim m sa => some (hd 0 0x075 m 0 0 (encS sa) 0 (hi6 0x012) (lo6 0x012))
  | .swrTsquota m sa => some (hd 0 0x075 m 0 0 (encS sa) 0 (hi6 0x014) (lo6 0x014))
  | .swrOrdmode m sa => some (hd 0 0x075 m 0 0 (encS sa) 0 (hi6 0x002) (lo6 0x002))
  | .swrTdeleg m sa => some (hd 0 0x075 m 0 0 (encS sa) 0 (hi6 0x025) (lo6 0x025))
  | .swrRole m sa => some (hd 0 0x075 m 0 0 (encS sa) 0 (hi6 0x050) (lo6 0x050))
  | .swrLeasectl m sa => some (hd 0 0x075 m 0 0 (encS sa) 0 (hi6 0x051) (lo6 0x051))
  | .swrTags m sa => some (hd 0 0x075 m 0 0 (encS sa) 0 (hi6 0x040) (lo6 0x040))
  | .swrQminQcap m cap sa => some (hd 0 0x075 m 0 0 (encS sa) 0 (hi6 (if cap then 0x053 else 0x052)) (lo6 (if cap then 0x053 else 0x052)))
  | .logMove m which sa => some (hd 0 0x075 m 0 0 (encS sa) 0 (hi6 (logNum which)) (lo6 (logNum which)))
  | .iclk m sd sa sb => some (hd 0 0x076 m 0 (encS sd) (encS sa) (encS sb) 0 0)
  | .icul m sd sa sb => some (hd 0 0x077 m 0 (encS sd) (encS sa) (encS sb) 0 0)
  | .logw m sa sb => some (hd 0 0x078 m 0 0 (encS sa) (encS sb) 0 0)
  | .brk m imm => some (hd 0 0x07A m 0 0 0 0 (hi6 imm) (lo6 imm))
  | .nop m => some (hd 0 0x07F m 0 0 0 0 0 0)
  | .ldb m mm sd sa sc imm => some (hd 0 0x100 m mm.code (encS sd) (encS sa) (encS sc) (hi6 imm) (lo6 imm))
  | .ldh m mm sd sa sc imm => some (hd 0 0x101 m mm.code (encS sd) (encS sa) (encS sc) (hi6 imm) (lo6 imm))
  | .ldw m mm sd sa sc imm => some (hd 0 0x102 m mm.code (encS sd) (encS sa) (encS sc) (hi6 imm) (lo6 imm))
  | .ldd m mm sd sa sc imm => some (hd 0 0x103 m mm.code (encS sd) (encS sa) (encS sc) (hi6 imm) (lo6 imm))
  | .ldbu m mm sd sa sc imm => some (hd 0 0x104 m mm.code (encS sd) (encS sa) (encS sc) (hi6 imm) (lo6 imm))
  | .ldhu m mm sd sa sc imm => some (hd 0 0x105 m mm.code (encS sd) (encS sa) (encS sc) (hi6 imm) (lo6 imm))
  | .ldwu m mm sd sa sc imm => some (hd 0 0x106 m mm.code (encS sd) (encS sa) (encS sc) (hi6 imm) (lo6 imm))
  | .stb m mm sd sa sc imm => some (hd 0 0x108 m mm.code (encS sd) (encS sa) (encS sc) (hi6 imm) (lo6 imm))
  | .sth m mm sd sa sc imm => some (hd 0 0x109 m mm.code (encS sd) (encS sa) (encS sc) (hi6 imm) (lo6 imm))
  | .stw m mm sd sa sc imm => some (hd 0 0x10A m mm.code (encS sd) (encS sa) (encS sc) (hi6 imm) (lo6 imm))
  | .std m mm sd sa sc imm => some (hd 0 0x10B m mm.code (encS sd) (encS sa) (encS sc) (hi6 imm) (lo6 imm))
  | .ldaqw m cls sd sa sc => some (hd 0 0x10C m (cls ++ 0#2) (encS sd) (encS sa) 0 0 (BitVec.ofNat 6 sc.code))
  | .ldaqd m cls sd sa sc => some (hd 0 0x10D m (cls ++ 0#2) (encS sd) (encS sa) 0 0 (BitVec.ofNat 6 sc.code))
  | .strlw m cls sd sa sc => some (hd 0 0x10E m (cls ++ 0#2) (encS sd) (encS sa) 0 0 (BitVec.ofNat 6 sc.code))
  | .strld m cls sd sa sc => some (hd 0 0x10F m (cls ++ 0#2) (encS sd) (encS sa) 0 0 (BitVec.ofNat 6 sc.code))
  | .aadd m am sd sa sb w sc => some (hd 0 0x110 m am.code (encS sd) (encS sa) (encS sb) 0 (encWidScope w sc))
  | .afadd m am sd sa sb w sc => some (hd 0 0x111 m am.code (encS sd) (encS sa) (encS sb) 0 (encWidScope w sc))
  | .amin m am sd sa sb w sc => some (hd 0 0x112 m am.code (encS sd) (encS sa) (encS sb) 0 (encWidScope w sc))
  | .amax m am sd sa sb w sc => some (hd 0 0x113 m am.code (encS sd) (encS sa) (encS sb) 0 (encWidScope w sc))
  | .aand m am sd sa sb w sc => some (hd 0 0x114 m am.code (encS sd) (encS sa) (encS sb) 0 (encWidScope w sc))
  | .aor m am sd sa sb w sc => some (hd 0 0x115 m am.code (encS sd) (encS sa) (encS sb) 0 (encWidScope w sc))
  | .axch m am sd sa sb w sc => some (hd 0 0x116 m am.code (encS sd) (encS sa) (encS sb) 0 (encWidScope w sc))
  | .acas m am sd sa sb c w sc => some (hd 0 0x117 m am.code (encS sd) (encS sa) (encS sb) (encS c) (encWidScope w sc))
  | .fence m sc eng cm => some (hd 0 0x118 m 0 (BitVec.ofNat 6 sc.code) 0 (0#1 ++ (if eng then 1#1 else 0#1) ++ cm.extractLsb' 12 4) (cm.extractLsb' 6 6) (cm.extractLsb' 0 6))
  | .cmo m cls op sa sb lv => some (hd 0 0x119 m (cls ++ 0#2) op (encS sa) (encS sb) lv 0)
  | .bar m imm => some (hd 0 0x11A m 0 0 0 0 (hi6 imm) (lo6 imm))
  | .vadd m a vd va vb ty k => some (hd 1 0x001 m a.code (encV vd) (encV va) (encV vb) 0 (encTyk ty k))
  | .vsub m a vd va vb ty k => some (hd 1 0x002 m a.code (encV vd) (encV va) (encV vb) 0 (encTyk ty k))
  | .vmul m a vd va vb ty k => some (hd 1 0x003 m a.code (encV vd) (encV va) (encV vb) 0 (encTyk ty k))
  | .vfma m a vd va vb vc ty k => some (hd 1 0x004 m a.code (encV vd) (encV va) (encV vb) (encV vc) (encTyk ty k))
  | .vfms m a vd va vb vc ty k => some (hd 1 0x005 m a.code (encV vd) (encV va) (encV vb) (encV vc) (encTyk ty k))
  | .vdiv m a vd va vb ty k => some (hd 1 0x006 m a.code (encV vd) (encV va) (encV vb) 0 (encTyk ty k))
  | .vmin m a vd va vb ty k => some (hd 1 0x007 m a.code (encV vd) (encV va) (encV vb) 0 (encTyk ty k))
  | .vmax m a vd va vb ty k => some (hd 1 0x008 m a.code (encV vd) (encV va) (encV vb) 0 (encTyk ty k))
  | .vabs m a vd va ty k => some (hd 1 0x009 m a.code (encV vd) (encV va) 0 0 (encTyk ty k))
  | .vneg m a vd va ty k => some (hd 1 0x00A m a.code (encV vd) (encV va) 0 0 (encTyk ty k))
  | .vand m a vd va vb ty k => some (hd 1 0x010 m a.code (encV vd) (encV va) (encV vb) 0 (encTyk ty k))
  | .vor m a vd va vb ty k => some (hd 1 0x011 m a.code (encV vd) (encV va) (encV vb) 0 (encTyk ty k))
  | .vxor m a vd va vb ty k => some (hd 1 0x012 m a.code (encV vd) (encV va) (encV vb) 0 (encTyk ty k))
  | .vnot m a vd va ty k => some (hd 1 0x013 m a.code (encV vd) (encV va) 0 0 (encTyk ty k))
  | .vshl m a vd va vb ty k => some (hd 1 0x014 m a.code (encV vd) (encV va) (encV vb) 0 (encTyk ty k))
  | .vshr m a vd va vb ty k => some (hd 1 0x015 m a.code (encV vd) (encV va) (encV vb) 0 (encTyk ty k))
  | .vsar m a vd va vb ty k => some (hd 1 0x016 m a.code (encV vd) (encV va) (encV vb) 0 (encTyk ty k))
  | .vfshl m a vd va vb vc ty k => some (hd 1 0x017 m a.code (encV vd) (encV va) (encV vb) (encV vc) (encTyk ty k))
  | .vfshr m a vd va vb vc ty k => some (hd 1 0x018 m a.code (encV vd) (encV va) (encV vb) (encV vc) (encTyk ty k))
  | .vcmpeq m a kd va vb ty k => some (hd 1 0x020 m a.code (enc8 kd) (encV va) (encV vb) 0 (encTyk ty k))
  | .vcmpne m a kd va vb ty k => some (hd 1 0x021 m a.code (enc8 kd) (encV va) (encV vb) 0 (encTyk ty k))
  | .vcmplt m a kd va vb ty k => some (hd 1 0x022 m a.code (enc8 kd) (encV va) (encV vb) 0 (encTyk ty k))
  | .vcmple m a kd va vb ty k => some (hd 1 0x023 m a.code (enc8 kd) (encV va) (encV vb) 0 (encTyk ty k))
  | .vsel m a vd va vb kc ty k => some (hd 1 0x024 m a.code (encV vd) (encV va) (encV vb) (enc8 kc) (encTyk ty k))
  | .kand m pd pa pb => some (hd 1 0x026 m 0 (enc8 pd) (enc8 pa) (enc8 pb) 0 0)
  | .kor m pd pa pb => some (hd 1 0x027 m 0 (enc8 pd) (enc8 pa) (enc8 pb) 0 0)
  | .kxor m pd pa pb => some (hd 1 0x028 m 0 (enc8 pd) (enc8 pa) (enc8 pb) 0 0)
  | .knot m pd pa => some (hd 1 0x029 m 0 (enc8 pd) (enc8 pa) 0 0 0)
  | .vcvt m a vd va tt ty k => some (hd 1 0x030 m a.code (encV vd) (encV va) 0 (encTarget tt) (encTyk ty k))
  | .vwid m a vd va tt ty k => some (hd 1 0x031 m a.code (encV vd) (encV va) 0 (encTarget tt) (encTyk ty k))
  | .vnar m a vd va tt ty k => some (hd 1 0x032 m a.code (encV vd) (encV va) 0 (encTarget tt) (encTyk ty k))
  | .vbcst m vd sa ty k => some (hd 1 0x034 m 0 (encV vd) (encS sa) 0 0 (encTyk ty k))
  | .vext m sd va sb ty => some (hd 1 0x035 m 0 (encS sd) (encV va) (encS sb) 0 (encTy ty))
  | .vperm m vd va vb ty k => some (hd 1 0x038 m 0 (encV vd) (encV va) (encV vb) 0 (encTyk ty k))
  | .vshuf m vd va vb pat ty k => some (hd 1 0x039 m 0 (encV vd) (encV va) (encV vb) pat (encTyk ty k))
  | .vlrot m vd va sb ty k => some (hd 1 0x03A m 0 (encV vd) (encV va) (encS sb) 0 (encTyk ty k))
  | .vrsum m a vd va ty k => some (hd 1 0x040 m a.code (encV vd) (encV va) 0 0 (encTyk ty k))
  | .vrmax m a vd va ty k => some (hd 1 0x041 m a.code (encV vd) (encV va) 0 0 (encTyk ty k))
  | .vrmin m a vd va ty k => some (hd 1 0x042 m a.code (encV vd) (encV va) 0 0 (encTyk ty k))
  | .vgsum m a vd va g ty k => some (hd 1 0x044 m a.code (encV vd) (encV va) 0 g (encTyk ty k))
  | .vgmax m a vd va g ty k => some (hd 1 0x045 m a.code (encV vd) (encV va) 0 g (encTyk ty k))
  | .vgmin m a vd va g ty k => some (hd 1 0x046 m a.code (encV vd) (encV va) 0 g (encTyk ty k))
  | .vscan m a vd va ty k => some (hd 1 0x048 m a.code (encV vd) (encV va) 0 0 (encTyk ty k))
  | .vscanm m a vd va ty k => some (hd 1 0x049 m a.code (encV vd) (encV va) 0 0 (encTyk ty k))
  | .vsin m a vd va ty k => some (hd 1 0x050 m a.code (encV vd) (encV va) 0 0 (encTyk ty k))
  | .vcos m a vd va ty k => some (hd 1 0x051 m a.code (encV vd) (encV va) 0 0 (encTyk ty k))
  | .vexp m a vd va ty k => some (hd 1 0x052 m a.code (encV vd) (encV va) 0 0 (encTyk ty k))
  | .vlog m a vd va ty k => some (hd 1 0x053 m a.code (encV vd) (encV va) 0 0 (encTyk ty k))
  | .vrcp m a vd va ty k => some (hd 1 0x054 m a.code (encV vd) (encV va) 0 0 (encTyk ty k))
  | .vrsq m a vd va ty k => some (hd 1 0x055 m a.code (encV vd) (encV va) 0 0 (encTyk ty k))
  | .vqnt m a vd va vs n ty => some (hd 1 0x058 m a.code (encV vd) (encV va) (encV vs) n (encTy ty))
  | .vld m mm vd sa imm ty k => some (hd 1 0x060 m mm.code (encV vd) (encS sa) 0 imm (encTyk ty k))
  | .vst m mm vd sa imm ty k => some (hd 1 0x061 m mm.code (encV vd) (encS sa) 0 imm (encTyk ty k))
  | .vldu m mm vd sa imm ty k => some (hd 1 0x062 m mm.code (encV vd) (encS sa) 0 imm (encTyk ty k))
  | .vstm m mm vd sa imm ty k => some (hd 1 0x063 m mm.code (encV vd) (encS sa) 0 imm (encTyk ty k))
  | .vgath m mm vd sa vc imm ty k => some (hd 1 0x064 m mm.code (encV vd) (encS sa) (encV vc) imm (encTyk ty k))
  | .vscat m mm vd sa vc imm ty k => some (hd 1 0x065 m mm.code (encV vd) (encS sa) (encV vc) imm (encTyk ty k))
  | .vdec m vd => some (hd 1 0x068 m 0 (encV vd) 0 0 0 0)
  | .tdup m => some (hd 2 0x001 m 0 0 0 0 0 0)
  | .tdrop m => some (hd 2 0x002 m 0 0 0 0 0 0)
  | .tswap m => some (hd 2 0x003 m 0 0 0 0 0 0)
  | .tover m => some (hd 2 0x004 m 0 0 0 0 0 0)
  | .tpick m n => some (hd 2 0x005 m 0 n 0 0 0 0)
  | .trot m n => some (hd 2 0x006 m 0 n 0 0 0 0)
  | .tbury m n => some (hd 2 0x007 m 0 n 0 0 0 0)
  | .tmarkOpen m sd n => some (hd 2 0x008 m 0 (encS sd) 0 0 (hi6 n) (lo6 n))
  | .tmarkClose m sa => some (hd 2 0x009 m 0 0 (encS sa) 0 0 0)
  | .tld m mm sa => some (hd 2 0x010 m mm.code 0 (encS sa) 0 0 0)
  | .tldh m mm sa so sx => some (hd 2 0x011 m mm.code 0 (encS sa) (encS so) (encS sx) 0)
  | .tldr m mm fmt sa sx sp => some (hd 2 0x012 m mm.code (BitVec.ofNat 6 fmt.code) (encS sa) (encS sx) (encS sp) 0)
  | .cpy m mm tag sd ss sn => some (hd 2 0x020 m mm.code tag (encS sd) (encS ss) (encS sn) 0)
  | .cpyg m mm tag sd ss sn i => some (hd 2 0x021 m mm.code tag (encS sd) (encS ss) (encS sn) i)
  | .cpyd m mm tag ss sn => some (hd 2 0x022 m mm.code tag (encS ss) 0 (encS sn) 0)
  | .cpye m mm tag sd ss sn i => some (hd 2 0x023 m mm.code tag (encS sd) (encS ss) (encS sn) i)
  | .coll m mm tag sa => some (hd 2 0x024 m mm.code tag (encS sa) 0 0 0)
  | .wtall m sa => some (hd 2 0x028 m 0 0 (encS sa) 0 0 0)
  | .wtany m sa => some (hd 2 0x029 m 0 0 (encS sa) 0 0 0)
  | .tagff m sd sa => some (hd 2 0x02A m 0 (encS sd) (encS sa) 0 0 0)
  | .tagcl m sa => some (hd 2 0x02B m 0 0 (encS sa) 0 0 0)
  | .tst m mm sa => some (hd 2 0x030 m mm.code 0 (encS sa) 0 0 0)
  | .tstk m mm sa => some (hd 2 0x031 m mm.code 0 (encS sa) 0 0 0)
  | .mma m => some (hd 2 0x040 m 0 0 0 0 0 0)
  | .mmac m => some (hd 2 0x041 m 0 0 0 0 0 0)
  | .madd m a => some (hd 2 0x042 m a.code 0 0 0 0 0)
  | .msub m a => some (hd 2 0x043 m a.code 0 0 0 0 0)
  | .mmul m a => some (hd 2 0x044 m a.code 0 0 0 0 0)
  | .mscal m a sf => some (hd 2 0x045 m a.code 0 (encS sf) 0 0 0)
  | .mcvt m a fmt scl => some (hd 2 0x046 m a.code (BitVec.ofNat 6 fmt.code) 0 0 0 (BitVec.ofNat 6 scl.code))
  | .mtrn m => some (hd 2 0x047 m 0 0 0 0 0 0)
  | .mzero m fmt sx acci => some (hd 2 0x048 m 0 (BitVec.ofNat 6 fmt.code) (encS sx) 0 0 acci)
  | .mhdr m sa => some (hd 2 0x049 m 0 0 (encS sa) 0 0 0)
  | .mspar m spn => some (hd 2 0x04A m 0 (BitVec.ofNat 6 spn.code) 0 0 0 0)
  | .mrsum m => some (hd 2 0x04B m 0 0 0 0 0 0)
  | .mchk m => some (hd 2 0x04C m 0 0 0 0 0 0)
  | .lacq m => some (hd 2 0x050 m 0 0 0 0 0 0)
  | .lrel m => some (hd 2 0x051 m 0 0 0 0 0 0)
  | .tbeg m fmt sx => some (hd 2 0x058 m 0 (BitVec.ofNat 6 fmt.code) (encS sx) 0 0 0)
  | .trow m a va ty => some (hd 2 0x059 m a.code (encV va) 0 0 0 (encTy ty))
  | .tend m => some (hd 2 0x05A m 0 0 0 0 0 0)
  | .trv m a vd sr sc ty => some (hd 2 0x05B m a.code (encV vd) (encS sr) (encS sc) 0 (encTy ty))
  | .tcv m a vd sc ty => some (hd 2 0x05C m a.code (encV vd) (encS sc) 0 0 (encTy ty))
  | _ => none

/-- The literal of a long form. -/
def Instr.literal : Instr → Option Word
  | .movl _ _ lit | .addl _ _ _ lit | .brl _ lit | .calll _ lit => some lit
  | _ => none

/-- The words of an instruction: none for a step of the device, which has no encoding. -/
def encode (i : Instr) : List Word :=
  match i with
  | .dbnd c2 c1 c0 => [3#2 ++ 0#14 ++ c2 ++ c1 ++ c0]
  | _ =>
    match i.fields with
    | none => []
    | some f => f.toWord :: i.literal.toList

end Sys2Proof
end

