-- ==== Sys2Proof/Machine/Flags.lean ====
section
/-! DEFINITION. The arithmetic flags of VSTAT (R71): one byte of sticky bits, the bit numbers of R71. -/

namespace Sys2Proof.Machine

/-- A set of VSTAT flags, bit for bit as R71 numbers them. -/
abbrev VFlags := BitVec 8

/-- No flag. -/
def noFlags : VFlags := 0
def fINV : VFlags := 0x01
def fDZ : VFlags := 0x02
def fOVF : VFlags := 0x04
def fUNF : VFlags := 0x08
def fINX : VFlags := 0x10
def fSAT : VFlags := 0x20
def fI4R : VFlags := 0x40
def fRANGE : VFlags := 0x80

/-- The flag `f` when `c` holds, else none. -/
def flagIf (c : Bool) (f : VFlags) : VFlags := if c then f else 0

/-- The union of the flags of a list of results. -/
def orFlags {α : Type} (l : List (α × VFlags)) : VFlags := l.foldl (fun acc x => acc ||| x.2) 0

end Sys2Proof.Machine
end

