-- ==== Sys2Proof/Machine/Num.lean ====
section
/-! DEFINITION. Numbers: the formats of R49 to R52, exact values, the rounding of R54 to R56, the special values of R57, the
conversions of R59, scaled inputs (R60), the quantisation of R64 and R65, and the transcendentals of R66 to R70. A finite
value is held exactly as an integer times a power of two, and a quotient is rounded from its two integers. -/

namespace Sys2Proof.Machine

/-! ### Values -/

/-- A value a pattern stands for (R50): NaN, an infinity, or the finite number (−1)^neg · mag · 2^e, whose zero has a sign. -/
inductive Num where
  | nan
  | inf (neg : Bool)
  | fin (neg : Bool) (mag : Nat) (e : Int)
  deriving DecidableEq, Repr, Inhabited

/-- A floating-point format (R49): exponent bits, fraction bits, bias; `inf` is false in E4M3 (R50). -/
structure FFmt where
  ebits : Nat
  m : Nat
  bias : Nat
  inf : Bool
  deriving DecidableEq, Repr

def FFmt.fp32 : FFmt := ⟨8, 23, 127, true⟩
def FFmt.bf16 : FFmt := ⟨8, 7, 127, true⟩
def FFmt.fp16 : FFmt := ⟨5, 10, 15, true⟩
def FFmt.e4m3 : FFmt := ⟨4, 3, 7, false⟩
def FFmt.e5m2 : FFmt := ⟨5, 2, 15, true⟩
def FFmt.acc56 : FFmt := ⟨11, 44, 1023, true⟩

/-- A number format: a float of R49, or a two's complement integer of R51 of 4, 8, 32 or 56 bits. -/
inductive NFmt where
  | flt (f : FFmt)
  | int (w : Nat)
  deriving DecidableEq, Repr

def FFmt.width (f : FFmt) : Nat := 1 + f.ebits + f.m

def NFmt.width : NFmt → Nat
  | .flt f => f.width
  | .int w => w

end Sys2Proof.Machine

namespace Sys2Proof

open Machine in
/-- The format of a vector lane (R30, R102). -/
def Ty.nfmt : Ty → NFmt
  | .fp32 => .flt .fp32 | .bf16 => .flt .bf16 | .fp16 => .flt .fp16 | .e4m3 => .flt .e4m3 | .e5m2 => .flt .e5m2
  | .int8 => .int 8 | .int4 => .int 4 | .int32 => .int 32

open Machine in
/-- The format of a tile's element; an ACC56 cell's mode is its header's ACCI bit (R52). -/
def Fmt.nfmt (acci : Bool) : Fmt → NFmt
  | .fp32 => .flt .fp32 | .bf16 => .flt .bf16 | .fp16 => .flt .fp16 | .e4m3 => .flt .e4m3 | .e5m2 => .flt .e5m2
  | .int8 => .int 8 | .int4 => .int 4 | .int32 => .int 32
  | .acc56 => if acci then .int 56 else .flt .acc56

end Sys2Proof

namespace Sys2Proof.Machine

/-- The greatest significand of a finite number whose last place is the format's coarsest (R49). -/
def FFmt.maxMant (f : FFmt) : Nat := if f.inf then 2 ^ (f.m + 1) - 1 else 2 ^ (f.m + 1) - 2

/-- The weight of the last place of the greatest finite number. -/
def FFmt.maxUlp (f : FFmt) : Int :=
  let top : Int := if f.inf then 2 ^ f.ebits - 2 else 2 ^ f.ebits - 1
  top - f.bias - f.m

def FFmt.maxFinite (f : FFmt) (neg : Bool) : Num := .fin neg f.maxMant f.maxUlp

/-- The least exponent of a normal number. -/
def FFmt.emin (f : FFmt) : Int := 1 - (f.bias : Int)

/-- The canonical NaN (R49, R50). -/
def FFmt.canonicalNan (f : FFmt) : Nat :=
  if f.inf then (2 ^ f.ebits - 1) <<< f.m + 2 ^ (f.m - 1) else 2 ^ (f.ebits + f.m) - 1

/-- The value of a pattern (R50). -/
def FFmt.read (f : FFmt) (p : Nat) : Num :=
  let neg := p.testBit (f.ebits + f.m)
  let e := (p >>> f.m) % 2 ^ f.ebits
  let fr := p % 2 ^ f.m
  if e = 2 ^ f.ebits - 1 ∧ (f.inf ∨ fr = 2 ^ f.m - 1) then
    if fr = 0 then .inf neg else .nan
  else if e = 0 then .fin neg fr (f.emin - f.m)
  else .fin neg (2 ^ f.m + fr) ((e : Int) - f.bias - f.m)

/-- The pattern of a value the format holds exactly; a NaN is the canonical one, and an infinity E4M3 lacks is its NaN. -/
def FFmt.write (f : FFmt) : Num → Nat
  | .nan => f.canonicalNan
  | .inf neg => if f.inf then (neg.toNat <<< (f.ebits + f.m)) + ((2 ^ f.ebits - 1) <<< f.m) else f.canonicalNan
  | .fin neg mag e =>
    let s := neg.toNat <<< (f.ebits + f.m)
    if mag = 0 then s
    else
      let lg := (mag.log2 : Int) + e
      let q := max (lg - f.m) (f.emin - f.m)
      let sig := if e ≥ q then mag <<< (e - q).toNat else mag >>> (q - e).toNat
      if lg < f.emin then s + sig
      else s + (((lg + f.bias).toNat) <<< f.m) + (sig - 2 ^ f.m)

/-! ### Rounding (R54 to R56) -/

/-- The floor of log2 of n/d, for positive n and d. -/
def ratioLog (n d : Nat) : Int :=
  let k : Int := (n.log2 : Int) - d.log2
  let ge := if k ≥ 0 then decide (d <<< k.toNat ≤ n) else decide (d ≤ n <<< (-k).toNat)
  if ge then k else k - 1

/-- The quotient, remainder and divisor of (n/d)·2^s. -/
def scaledDiv (n d : Nat) (s : Int) : Nat × Nat × Nat :=
  if s ≥ 0 then
    let n' := n <<< s.toNat
    (n' / d, n' % d, d)
  else
    let d' := d <<< (-s).toNat
    (n / d', n % d', d')

/-- Whether the magnitude q + r/d rounds up to q + 1 under a rounding mode (R53, R54). -/
def roundsUp (rm : Rm) (neg : Bool) (q r d : Nat) : Bool :=
  match rm with
  | .rne => decide (2 * r > d) || (decide (2 * r = d) && decide (q % 2 = 1))
  | .rna => decide (2 * r ≥ d)
  | .rtz => false
  | .rdn => neg && decide (r ≠ 0)
  | .rup => !neg && decide (r ≠ 0)

/-- The result of an overflow (R55); where the table gives an infinity and E4M3 has none, R57's NaN with INV. -/
def overflowResult (f : FFmt) (rm : Rm) (sat neg : Bool) : Num × VFlags :=
  let toInf := !sat && (match rm with
    | .rne | .rna => true
    | .rtz => false
    | .rdn => neg
    | .rup => !neg)
  if toInf then
    if f.inf then (.inf neg, fOVF ||| fINX) else (.nan, fOVF ||| fINX ||| fINV)
  else (f.maxFinite neg, fOVF ||| fINX)

/-- round of R54 with R55 and R56, of the exact (−1)^neg · (n/d) · 2^e. -/
def roundRatio (f : FFmt) (rm : Rm) (sat neg : Bool) (n d : Nat) (e : Int) : Num × VFlags :=
  if n = 0 then (.fin neg 0 0, 0)
  else
    let lg := ratioLog n d + e
    let q := max (lg - f.m) (f.emin - f.m)
    let (k, r, dv) := scaledDiv n d (e - q)
    let k' := if roundsUp rm neg k r dv then k + 1 else k
    if q > f.maxUlp || (q == f.maxUlp && k' > f.maxMant) then overflowResult f rm sat neg
    else
      let inx := decide (r ≠ 0)
      (.fin neg k' q, flagIf inx fINX ||| flagIf (inx && decide (lg < f.emin)) fUNF)

/-- A value rounded into a format. An infinity passes, or is E4M3's NaN with INV (R57); a NaN passes. -/
def Num.round (f : FFmt) (rm : Rm) (sat : Bool) : Num → Num × VFlags
  | .nan => (.nan, 0)
  | .inf neg => if f.inf then (.inf neg, 0) else (.nan, fINV)
  | .fin neg mag e => roundRatio f rm sat neg mag 1 e

/-- The integer nearest (n/d)·2^e under a rounding mode, and whether it differs. -/
def roundToInt (rm : Rm) (neg : Bool) (n d : Nat) (e : Int) : Int × Bool :=
  let (k, r, dv) := scaledDiv n d e
  let k' := if roundsUp rm neg k r dv then k + 1 else k
  (if neg then -(k' : Int) else k', decide (r ≠ 0))

/-! ### Exact arithmetic with the special values of R57 -/

def Num.isNan : Num → Bool
  | .nan => true
  | _ => false

def Num.isInf : Num → Bool
  | .inf _ => true
  | _ => false

def Num.isZero : Num → Bool
  | .fin _ 0 _ => true
  | _ => false

def Num.neg : Num → Num
  | .nan => .nan
  | .inf n => .inf (!n)
  | .fin n m e => .fin (!n) m e

def Num.abs : Num → Num
  | .nan => .nan
  | .inf _ => .inf false
  | .fin _ m e => .fin false m e

/-- An integer as a value; integer zero is +0. -/
def Num.ofInt (i : Int) : Num := .fin (decide (i < 0)) i.natAbs 0

def Num.one : Num := .fin false 1 0

/-- The signed integer mag · 2^(e − q), for q ≤ e. -/
def alignTo (neg : Bool) (mag : Nat) (e q : Int) : Int :=
  let v : Int := mag <<< (e - q).toNat
  if neg then -v else v

/-- The exact sum. An exact zero from operands of opposite signs is +0, or −0 under RDN (R54); two zeros of one sign keep it. -/
def Num.add (rm : Rm) : Num → Num → Num × VFlags
  | .nan, _ => (.nan, 0)
  | _, .nan => (.nan, 0)
  | .inf a, .inf b => if a = b then (.inf a, 0) else (.nan, fINV)
  | .inf a, .fin _ _ _ => (.inf a, 0)
  | .fin _ _ _, .inf b => (.inf b, 0)
  | .fin na ma ea, .fin nb mb eb =>
    let zero := (Num.fin (rm == .rdn) 0 0)
    if ma = 0 ∧ mb = 0 then (if na = nb then .fin na 0 0 else zero, 0)
    else if ma = 0 then (.fin nb mb eb, 0)
    else if mb = 0 then (.fin na ma ea, 0)
    else
      let q := min ea eb
      let v := alignTo na ma ea q + alignTo nb mb eb q
      if v = 0 then (zero, 0) else (.fin (decide (v < 0)) v.natAbs q, 0)

/-- The exact product (R57). -/
def Num.mul : Num → Num → Num × VFlags
  | .nan, _ => (.nan, 0)
  | _, .nan => (.nan, 0)
  | .inf a, .inf b => (.inf (a != b), 0)
  | .inf a, .fin nb mb _ => if mb = 0 then (.nan, fINV) else (.inf (a != nb), 0)
  | .fin na ma _, .inf b => if ma = 0 then (.nan, fINV) else (.inf (na != b), 0)
  | .fin na ma ea, .fin nb mb eb => (.fin (na != nb) (ma * mb) (ea + eb), 0)

/-- The exact a·b + c: a NaN operand gives NaN and no flag, whatever the product would be (R57). -/
def Num.mulAdd (rm : Rm) (a b c : Num) : Num × VFlags :=
  if a.isNan || b.isNan || c.isNan then (.nan, 0)
  else
    let (p, f1) := a.mul b
    let (s, f2) := Num.add rm p c
    (s, f1 ||| f2)

/-- The exact quotient rounded into a format (R57). -/
def Num.divRound (f : FFmt) (rm : Rm) (sat : Bool) : Num → Num → Num × VFlags
  | .nan, _ => (.nan, 0)
  | _, .nan => (.nan, 0)
  | .inf _, .inf _ => (.nan, fINV)
  | .inf a, .fin nb _ _ => (Num.inf (a != nb)).round f rm sat
  | .fin na _ _, .inf b => (.fin (na != b) 0 0, 0)
  | .fin na ma ea, .fin nb mb eb =>
    if mb = 0 then
      if ma = 0 then (.nan, fINV)
      else
        let (r, g) := (Num.inf (na != nb)).round f rm sat
        (r, fDZ ||| g)
    else roundRatio f rm sat (na != nb) ma mb (ea - eb)

/-- Order of two values that are not NaN, with −0 equal to +0. -/
def Num.lt : Num → Num → Bool
  | .nan, _ => false
  | _, .nan => false
  | .inf a, .inf b => a && !b
  | .inf a, .fin _ _ _ => a
  | .fin _ _ _, .inf b => !b
  | .fin na ma ea, .fin nb mb eb =>
    let q := min ea eb
    decide (alignTo na ma ea q < alignTo nb mb eb q)

/-- Equality of two values that are not NaN. -/
def Num.eqv (a b : Num) : Bool := !a.isNan && !b.isNan && !a.lt b && !b.lt a

/-- The sign bit of a value. -/
def Num.signBit : Num → Bool
  | .nan => false
  | .inf n => n
  | .fin n _ _ => n

/-- The greater of two values, −0 below +0; a NaN operand gives NaN (R57). -/
def Num.maxNum (a b : Num) : Num :=
  if a.isNan || b.isNan then .nan
  else if a.lt b then b
  else if b.lt a then a
  else if a.signBit then b else a

/-- The lesser of two values, −0 below +0; a NaN operand gives NaN (R57). -/
def Num.minNum (a b : Num) : Num :=
  if a.isNan || b.isNan then .nan
  else if a.lt b then a
  else if b.lt a then b
  else if a.signBit then a else b

/-! ### Integers (R51, R52, R58) -/

/-- The least integer a format writes (R51). -/
def intMin (w : Nat) : Int :=
  if w = 4 then -7 else if w = 56 then -(2 ^ 55 - 1) else -(2 ^ (w - 1))

/-- The greatest integer a format writes (R51). -/
def intMax (w : Nat) : Int := 2 ^ (w - 1) - 1

/-- A value clamped to the write range, and SAT when that changes it. -/
def clampInt (w : Nat) (v : Int) : Int × VFlags :=
  if v < intMin w then (intMin w, fSAT) else if intMax w < v then (intMax w, fSAT) else (v, 0)

/-- The two's complement pattern of an integer. -/
def intPattern (w : Nat) (v : Int) : Nat := (v % (2 ^ w : Int)).toNat

/-- The two's complement value of a pattern, with no special reading. -/
def signedOf (w p : Nat) : Int :=
  let p := p % 2 ^ w
  if p < 2 ^ (w - 1) then p else (p : Int) - 2 ^ w

/-- The value the device reads from an integer pattern (R51). -/
def readInt (w p : Nat) : Int × VFlags :=
  let v := signedOf w p
  if w = 4 ∧ v = -8 then (0, fI4R)
  else if w = 56 ∧ v = -(2 ^ 55) then (-(2 ^ 55 - 1), fSAT)
  else (v, 0)

/-- The reduction of an exact integer result to its width (R58): INT4 and ACC56 always clamp. -/
def reduceInt (w : Nat) (sat : Bool) (v : Int) : Nat × VFlags :=
  if sat || w = 4 || w = 56 then
    let (c, f) := clampInt w v
    (intPattern w c, f)
  else (intPattern w v, 0)

/-- The value a pattern stands for, and the flags of reading it (R50, R51). -/
def NFmt.read : NFmt → Nat → Num × VFlags
  | .flt f, p => (f.read p, 0)
  | .int w, p => let (v, g) := readInt w p; (.ofInt v, g)

/-- The integer a finite value holds exactly. -/
def Num.toInt : Num → Int
  | .fin neg mag e => (roundToInt .rtz neg mag 1 e).1
  | _ => 0

/-! ### Conversions (R59) and scaled values (R60) -/

/-- A ratio converted to an integer format: rounded by RM with INX, then clamped with SAT (R59). -/
def ratioToInt (w : Nat) (rm : Rm) (neg : Bool) (n d : Nat) (e : Int) : Nat × VFlags :=
  let (v, inx) := roundToInt rm neg n d e
  let (c, g) := clampInt w v
  (intPattern w c, flagIf inx fINX ||| g)

/-- A value converted to a format (R59). The integer SAT bit of MOD has no effect. -/
def convert (t : NFmt) (rm : Rm) (sat : Bool) (x : Num) : Nat × VFlags :=
  match t with
  | .flt f => let (y, g) := x.round f rm sat; (f.write y, g)
  | .int w =>
    match x with
    | .nan => (0, fINV)
    | .inf neg => (intPattern w (if neg then intMin w else intMax w), fINV)
    | .fin neg mag e =>
      -- A value past 2^64 clamps whatever its low bits are; its exact power of two is not formed.
      if e > 1100 && mag ≠ 0 then (intPattern w (if neg then intMin w else intMax w), fSAT)
      else ratioToInt w rm neg mag 1 e

/-- The canonical NaN of a format, or 0 in an integer format. -/
def NFmt.nanPattern : NFmt → Nat
  | .flt f => f.canonicalNan
  | .int _ => 0

/-- A scaled input (R60): x · s, unrounded. A zero product has the sign of the two factors' signs, so that an integer element 0 under a
negative scale is −0, to which R60 gives no sign. (Log entry 66, DESIGN CHOICE, unsafe.) -/
def scaledValue (x s : Num) : Num × VFlags := x.mul s

/-- An FP32 pattern's value. -/
def fp32 (p : Nat) : Num := FFmt.fp32.read p

/-- round32 of R54. -/
def round32 (x : Num) : Num × VFlags := x.round .fp32 .rne false

/-- round56 of R54. -/
def round56 (x : Num) : Num × VFlags := x.round .acc56 .rne false

/-- sat56 of R52. -/
def sat56 (v : Int) : Int × VFlags := clampInt 56 v

/-! ### Quantisation (R64, R65) -/

/-- fmax of "Quantisation". -/
def quantMax (t : NFmt) : Num :=
  match t with
  | .flt f => f.maxFinite false
  | .int w => .ofInt (intMax w)

/-- The greatest finite magnitude of a block, +0 for none. -/
def finiteMax (xs : List Num) : Num :=
  xs.foldl (fun m x => match x with
    | .fin _ mag e => if m.lt (.fin false mag e) then .fin false mag e else m
    | _ => m) (.fin false 0 0)

/-- The FP32 scale of R64 from a nonzero amax, rounded upward; the flag is OVF when it is clamped. -/
def quantScale (t : NFmt) (amax : Num) : Num × VFlags :=
  match Num.divRound .fp32 .rup false amax (quantMax t) with
  | (.inf _, _) => (FFmt.fp32.maxFinite false, fOVF)
  | (s, _) => (s, 0)

/-- One finite element over a finite nonzero scale, by R64. -/
def quantElement (t : NFmt) (rm : Rm) (scale x : Num) : Nat × VFlags :=
  match x, scale with
  | .fin neg mag e, .fin _ ms es =>
    let fm := quantMax t
    -- |x / scale| > fmax exactly when fmax · scale < |x|
    if ((fm.mul scale).1).lt (.fin false mag e) then
      let (p, _) := convert t rm false (if neg then fm.neg else fm)
      (p, fOVF)
    else match t with
      | .flt f => let (y, g) := roundRatio f rm false neg mag ms (e - es); (f.write y, g)
      | .int w => ratioToInt w rm neg mag ms (e - es)
  | _, _ => (0, 0)

/-- An infinite element of a block (R65). -/
def quantInfinity (t : NFmt) (neg : Bool) : Nat :=
  match t with
  | .flt f => f.write (.inf neg)
  | .int w => intPattern w (if neg then -(intMax w) else intMax w)

/-- A block's scale pattern, element patterns and flags (R64, R65). -/
def quantBlock (t : NFmt) (rm : Rm) (xs : List Num) : Nat × List Nat × VFlags :=
  if xs.any Num.isNan then
    (0x7FC00000, xs.map (fun _ => t.nanPattern), match t with
      | .int _ => fINV
      | .flt _ => 0)
  else
    let amax := finiteMax xs
    let (scale, g) := if amax.isZero then (Num.one, 0) else quantScale t amax
    let els := xs.map (fun x => match x with
      | .inf neg => (quantInfinity t neg, fINV)
      | x => quantElement t rm scale x)
    (FFmt.fp32.write scale, els.map (·.1), g ||| orFlags els)

/-! ### Transcendentals (R66 to R70) -/

/-- The floor of π · 2^320: R67's reduction is by exact real π, to which these bits stand (see the assumption log). -/
def piBits : Nat := 0x3243f6a8885a308d313198a2e03707344a4093822299f31d0082efa98ec4e6c89452821e638d01377

/-- The floor of ln 2 · 2^320, for the reduction of R68. -/
def ln2Bits : Nat := 0xb17217f7d1cf79abc9e3b39803f2f6af40f343267298b62d8a0d175b8baafa2be7b876206debac98

/-- fma of R66: one rounding to FP32 under RNE. -/
def fma32 (a b c : Num) : Num := (round32 (Num.mulAdd .rne a b c).1).1

def mul32 (a b : Num) : Num := (round32 (a.mul b).1).1

/-- x − k · c · 2^-320 rounded once to FP32, for a constant c · 2^-320. -/
def reduceBy (c : Nat) (x : Num) (k : Int) : Num :=
  if k = 0 then (round32 x).1
  else (round32 (Num.add .rne x (.fin (decide (0 < k)) (k.natAbs * c) (-320))).1).1

/-- The Horner chain of R67 to R69: p := fma(p, z, c) over the coefficients in turn. -/
def horner (z : Num) (p : Num) (cs : List Num) : Num := cs.foldl (fun p c => fma32 p z c) p

/-- Sine (`cosine` false) and cosine of R67. -/
def sinCos (cosine : Bool) (x : Num) : Num × VFlags :=
  match x with
  | .nan => (.nan, 0)
  | .inf _ => (.nan, fINV)
  | .fin neg mag e =>
    if !(Num.fin false mag e).lt (.fin false 1 16) then (.nan, fRANGE)
    else
      let k := (roundToInt .rne neg mag piBits (e + 321)).1
      let r := if k = 0 then (round32 x).1
        else (round32 (Num.add .rne x (.fin (decide (0 < k)) (k.natAbs * piBits) (-321))).1).1
      let z := mul32 r r
      let ps := horner z (fp32 0x3638EF1D) [fp32 0xB9500D01, fp32 0x3C088889, fp32 0xBE2AAAAB]
      let sv := if r.isZero then r else fma32 (mul32 z r) ps r
      let pc := horner z (fp32 0x37D00D01) [fp32 0xBAB60B61, fp32 0x3D2AAAAB, fp32 0xBF000000]
      let cv := fma32 z pc .one
      let q := (k % 4).toNat
      (match cosine, q with
        | false, 0 => sv | false, 1 => cv | false, 2 => sv.neg | false, _ => cv.neg
        | true, 0 => cv | true, 1 => sv.neg | true, 2 => cv.neg | true, _ => sv, 0)

/-- The exponential of R68. Past 2^10 in magnitude the result overflows or is zero whatever the polynomial gives, so the
reduction is not formed there. -/
def expNum (x : Num) : Num × VFlags :=
  match x with
  | .nan => (.nan, 0)
  | .inf false => (.inf false, 0)
  | .inf true => (.fin false 0 0, fUNF)
  | .fin neg mag e =>
    let big := !(Num.fin false mag e).lt (.fin false 1 10)
    let k : Int := if big then (if neg then -2000 else 2000) else (roundToInt .rne neg mag ln2Bits (e + 320)).1
    let r := if big then Num.fin false 0 0 else reduceBy ln2Bits x k
    let p := horner r (fp32 0x3C088889) [fp32 0x3D2AAAAB, fp32 0x3E2AAAAB, fp32 0x3F000000, .one]
    let p := fma32 p r .one
    match p with
    | .fin pn pm pe =>
      let (y, g) := round32 (.fin pn pm (pe + k))
      (y, (g &&& fOVF) ||| flagIf (y.lt (.fin false 1 (-126))) fUNF)
    | y => (y, 0)

/-- L1 to L8 of R69: the FP32 values nearest ±1/n. -/
def logCoeff (n : Nat) : Num := (roundRatio .fp32 .rne false (decide (n % 2 = 0)) 1 n 0).1

/-- The natural logarithm of R69. -/
def logNum (x : Num) : Num × VFlags :=
  match x with
  | .nan => (.nan, 0)
  | .inf true => (.nan, fINV)
  | .inf false => (.inf false, 0)
  | .fin neg mag e =>
    if mag = 0 then (.inf true, fDZ)
    else if neg then (.nan, fINV)
    else
      let lg := mag.log2
      -- the significand mag / 2^lg lies in [1, 2); it is halved when its square reaches 2
      let half := decide (2 * 2 ^ (2 * lg) ≤ mag * mag)
      let ex : Int := e + lg + (if half then 1 else 0)
      let mm := Num.fin false mag (-(lg : Int) - (if half then 1 else 0))
      let f := (round32 (Num.add .rne mm (.fin true 1 0)).1).1
      let p := horner f (logCoeff 8) ([7, 6, 5, 4, 3, 2, 1].map logCoeff)
      (fma32 (.ofInt ex) (fp32 0x3F317218) (mul32 p f), 0)

/-- The greatest r with r² ≤ n, bit by bit from bit `k` down. -/
def isqrt (n : Nat) : Nat → Nat → Nat
  | 0, r => r
  | k + 1, r => let t := r + 2 ^ k; isqrt n k (if t * t ≤ n then t else r)

/-- The reciprocal of R70, correctly rounded. (Log entry 47, DEDUCED, unsafe.) -/
def rcpNum (x : Num) : Num × VFlags :=
  match x with
  | .fin neg 0 _ => (.inf neg, fDZ)
  | x => ((Num.divRound .fp32 .rne false .one x).1, 0)

/-- The reciprocal square root of R70, correctly rounded: 1/√(m·2^e) to over sixty bits with a sticky bit below them. -/
def rsqNum (x : Num) : Num × VFlags :=
  match x with
  | .nan => (.nan, 0)
  | .inf true => (.nan, fINV)
  | .inf false => (.fin false 0 0, 0)
  | .fin neg mag e =>
    if mag = 0 then (.inf neg, fDZ)
    else if neg then (.nan, fINV)
    else
      -- make the exponent even: x = a · 2^(2h)
      let odd := decide (e % 2 ≠ 0)
      let a := if odd then 2 * mag else mag
      let h : Int := (e - (if odd then 1 else 0)) / 2
      let t := isqrt (2 ^ 240 / a) 121 0
      let sticky := decide (t * t * a ≠ 2 ^ 240)
      (((round32 (.fin false (2 * t + sticky.toNat) (-121 - h))).1), 0)

end Sys2Proof.Machine
end

