-- ==== Sys2Proof/Machine/Tile.lean ====
section
/-! DEFINITION. Tiles as data: the header (R26 to R33), the canonical image (R34 to R37), sparse metadata (R38), the scaled
value of an element (R60), and the header inference that needs headers alone (R43, R45). -/

namespace Sys2Proof.Machine

/-- The fields of a valid header. HVER is 1, and words 1 and 2 are the canonical layout's (R27, R28, R35). -/
structure Header where
  fmt : Fmt
  scl : Scl
  spn : Spn
  rows : Nat
  cols : Nat
  acci : Bool
  user : Word
  deriving DecidableEq, Repr, Inhabited

/-- A tile: its header; its stored elements' patterns, row by row; its scales' FP32 patterns (R31); its metadata group
entries, row by row (R38); and its parity words (R37). -/
structure Tile where
  hdr : Header
  cells : List (List Nat)
  scales : List Nat
  groups : List (List Nat)
  parity : List Nat
  deriving DecidableEq, Repr, Inhabited

/-! ### Sizes -/

def ceilDiv (a b : Nat) : Nat := (a + b - 1) / b

def roundup32 (n : Nat) : Nat := ceilDiv n 32 * 32

end Sys2Proof.Machine

namespace Sys2Proof

/-- The bits of a cell in the payload (R30). -/
def Fmt.cellBits : Fmt → Nat
  | .fp32 | .int32 => 32
  | .bf16 | .fp16 => 16
  | .e4m3 | .e5m2 | .int8 => 8
  | .int4 => 4
  | .acc56 => 64

/-- The formats that carry scales (R33, sub-code 0x05; R43's 8- and 4-bit families). -/
def Fmt.isNarrow : Fmt → Bool
  | .e4m3 | .e5m2 | .int8 | .int4 => true
  | _ => false

def Fmt.isInt : Fmt → Bool
  | .int8 | .int4 | .int32 => true
  | _ => false

/-- A float format other than ACC56 (R45). -/
def Fmt.isFloat : Fmt → Bool
  | .fp32 | .bf16 | .fp16 | .e4m3 | .e5m2 => true
  | _ => false

/-- Kept elements per group of 48 (R32). -/
def Spn.kept : Spn → Nat
  | .dense => 48 | .n8 => 8 | .n12 => 12 | .n16 => 16 | .n24 => 24 | .n32 => 32

end Sys2Proof

namespace Sys2Proof.Machine

/-- Stored elements of a row (R34). -/
def Header.stored (h : Header) : Nat := if h.spn = .dense then h.cols else h.cols / 48 * h.spn.kept

/-- The row bytes B of R34. -/
def Header.rowBytes (h : Header) : Nat := ceilDiv (h.stored * h.fmt.cellBits) 8

def Header.colGroups (h : Header) : Nat := ceilDiv h.cols 128

/-- The scale count S of R31. -/
def Header.scaleCount (h : Header) : Nat :=
  match h.scl with
  | .none => 0
  | .tensor => 1
  | .row => h.rows * h.colGroups
  | .block => if h.rows > 0 then h.colGroups else 0

/-- Bytes of one group entry (R38). -/
def Header.groupBytes (h : Header) : Nat := 6 * h.spn.kept / 8

/-- Bytes of the metadata area. -/
def Header.metaBytes (h : Header) : Nat := if h.spn = .dense then 0 else h.rows * (h.cols / 48) * h.groupBytes

/-- Bytes of the parity area (R37). -/
def Header.parityBytes (h : Header) : Nat := if h.fmt = .acc56 then 8 * (h.rows + h.cols) else 0

/-- PITCH of the canonical layout (R35). -/
def Header.pitch (h : Header) : Nat := roundup32 h.rowBytes

def Header.payloadEnd (h : Header) : Nat := 32 + h.rows * h.pitch

def Header.scoff (h : Header) : Nat := if h.scl = .none then 0 else h.payloadEnd

def Header.afterScales (h : Header) : Nat :=
  if h.scl = .none then h.payloadEnd else roundup32 (h.payloadEnd + 4 * h.scaleCount)

def Header.mdoff (h : Header) : Nat := if h.spn = .dense then 0 else h.afterScales

def Header.afterMeta (h : Header) : Nat := if h.spn = .dense then h.afterScales else roundup32 (h.afterScales + h.metaBytes)

def Header.paoff (h : Header) : Nat := if h.fmt = .acc56 then h.afterMeta else 0

/-- The canonical image size (R35). -/
def Header.imageSize (h : Header) : Nat := if h.fmt = .acc56 then roundup32 (h.afterMeta + h.parityBytes) else h.afterMeta

/-- The space a resident tile occupies, in bytes (R85). -/
def Header.space (h : Header) : Nat := ceilDiv h.imageSize 1024 * 1024

/-- Sub-code 0x05 of R33. -/
def Header.consistent (h : Header) : Bool :=
  (!h.acci || h.fmt == .acc56) && (h.scl == .none || h.fmt.isNarrow) &&
  (h.spn == .dense || !(h.fmt == .int32 || h.fmt == .acc56))

/-- Sub-code 0x06 of R33. The payload bound counts ROWS × COLS × cell size. -/
def Header.withinLimits (h : Header) : Bool :=
  h.rows ≤ 128 && h.cols ≤ 384 && (h.fmt != .acc56 || h.cols ≤ 128) && (h.spn == .dense || h.cols % 48 == 0) &&
  h.rows * h.cols * h.fmt.cellBits ≤ 8 * 196608

/-- The header meets R33 in every condition that its fields can break. -/
def Header.valid (h : Header) : Bool := h.consistent && h.withinLimits

/-- The lowest sub-code of R33 that the header's fields break. -/
def Header.badSub (h : Header) : Option Nat := if !h.consistent then some 5 else if !h.withinLimits then some 6 else none

/-- Integer-valued (R30). -/
def Header.intValued (h : Header) : Bool :=
  (h.fmt.isInt || (h.fmt == .acc56 && h.acci)) && h.scl == .none

/-- An empty shape (R46). -/
def Header.isEmpty (h : Header) : Bool := h.rows == 0 || h.cols == 0

/-! ### The header's words (R27 to R29) -/

/-- One byte through CRC-16/CCITT, most significant bit first (R29). -/
def crcByte (crc : BitVec 16) (b : Byte) : BitVec 16 :=
  (List.range 8).foldl (fun (c : BitVec 16) _ => if c.msb then (c <<< 1) ^^^ 0x1021 else c <<< 1)
    (crc ^^^ (b.setWidth 16 <<< 8))

/-- CRC-16/CCITT with initial value 0xFFFF (R29). -/
def crc16 (bs : List Byte) : BitVec 16 := bs.foldl crcByte 0xFFFF

/-- The bytes of a number, least significant first. -/
def natBytes : Nat → Nat → List Byte
  | 0, _ => []
  | k + 1, n => BitVec.ofNat 8 n :: natBytes k (n / 256)

/-- The number little-endian bytes hold (R4). -/
def bytesNat : List Byte → Nat
  | [] => 0
  | b :: bs => b.toNat + 256 * bytesNat bs

/-- Word 0 without its HCRC (R27). -/
def Header.word0 (h : Header) : Nat :=
  1 <<< 60 + h.fmt.code <<< 55 + h.scl.code <<< 52 + h.spn.code <<< 48 + h.rows <<< 40 + h.cols <<< 31 +
  h.acci.toNat <<< 30

def Header.word1 (h : Header) : Nat := h.pitch <<< 32 + h.scoff
def Header.word2 (h : Header) : Nat := h.mdoff <<< 32 + h.paoff

/-- The 32 header bytes, HCRC computed afresh (R29). -/
def Header.bytes (h : Header) : List Byte :=
  let body := natBytes 8 h.word0 ++ natBytes 8 h.word1 ++ natBytes 8 h.word2 ++ natBytes 8 h.user.toNat
  let body := body.drop 2
  natBytes 2 (crc16 body).toNat ++ body

/-- The numbers an image header's words 1 and 2 hold (R28). -/
structure Offsets where
  pitch : Nat
  scoff : Nat
  mdoff : Nat
  paoff : Nat
  deriving DecidableEq, Repr, Inhabited

def Header.offsets (h : Header) : Offsets := ⟨h.pitch, h.scoff, h.mdoff, h.paoff⟩

def bits (n lo len : Nat) : Nat := (n >>> lo) % 2 ^ len

def fmtOf (n : Nat) : Option Fmt := if n < 10 then fmt? (BitVec.ofNat 6 n) else none
def spnOf (n : Nat) : Option Spn := spn? (BitVec.ofNat 6 n)
def sclOf (n : Nat) : Option Scl := scl? (BitVec.ofNat 6 n)

/-- The header 32 image bytes hold, or the lowest sub-code of R33 they fail. -/
def parseHeader (bs : List Byte) : Except Nat (Header × Offsets) :=
  let w0 := bytesNat (bs.take 8)
  let w1 := bytesNat ((bs.drop 8).take 8)
  let w2 := bytesNat ((bs.drop 16).take 8)
  let w3 := bytesNat ((bs.drop 24).take 8)
  if (crc16 ((bs.drop 2).take 30)).toNat ≠ w0 % 65536 then .error 1
  else if bits w0 60 4 ≠ 1 then .error 2
  else match fmtOf (bits w0 55 5), sclOf (bits w0 52 3), spnOf (bits w0 48 4) with
    | some fmt, some scl, some spn =>
      if bits w0 16 14 ≠ 0 then .error 4
      else
        let h : Header := ⟨fmt, scl, spn, bits w0 40 8, bits w0 31 9, (bits w0 30 1) == 1, BitVec.ofNat 64 w3⟩
        if !h.consistent then .error 5
        else if !h.withinLimits then .error 6
        else .ok (h, ⟨bits w1 32 32, bits w1 0 32, bits w2 32 32, bits w2 0 32⟩)
    | _, _, _ => .error 3

/-- Two byte ranges, given by start and length, share a byte. -/
def rangesMeet (a la b lb : Nat) : Bool := la != 0 && lb != 0 && a < b + lb && b < a + la

/-- The image layout conditions of R36. The payload too must end at or before offset 262,144, whether or not an area follows it: R36 says
so of areas alone. (Log entry 73, DESIGN CHOICE, unsafe.) -/
def layoutOk (h : Header) (o : Offsets) : Bool :=
  let pay := h.rows * o.pitch
  let areas := [(h.scl != Scl.none, o.scoff, 4 * h.scaleCount), (h.spn != Spn.dense, o.mdoff, h.metaBytes),
    (h.fmt == Fmt.acc56, o.paoff, h.parityBytes)]
  o.pitch % 32 == 0 && (o.pitch ≥ h.rowBytes) && 32 + pay ≤ 262144 &&
  areas.all (fun (present, off, len) =>
    if present then off % 32 == 0 && off ≥ 32 + pay && off + len ≤ 262144 else off == 0) &&
  !rangesMeet o.scoff (4 * h.scaleCount) o.mdoff h.metaBytes &&
  !rangesMeet o.scoff (4 * h.scaleCount) o.paoff h.parityBytes &&
  !rangesMeet o.mdoff h.metaBytes o.paoff h.parityBytes

/-! ### The image (R34) -/

/-- Numbers of `bits` bits packed into bytes, the first in the lowest bits. -/
def packBits (width : Nat) (xs : List Nat) : Nat :=
  (xs.foldr (fun x acc => (x % 2 ^ width) + acc <<< width) 0)

/-- `n` numbers of `width` bits from the low bits of a number. -/
def unpackBits (width : Nat) : Nat → Nat → List Nat
  | 0, _ => []
  | n + 1, x => x % 2 ^ width :: unpackBits width n (x >>> width)

/-- The bytes of one payload row, without its padding. A cell's bits above its format's width are zero (R34). -/
def rowImage (h : Header) (cells : List Nat) : List Byte := natBytes h.rowBytes (packBits h.fmt.cellBits cells)

/-- The cells a payload row's bytes hold. Bits 63:56 of an ACC56 cell are ignored. -/
def rowCells (h : Header) (bs : List Byte) : List Nat :=
  let xs := unpackBits h.fmt.cellBits h.stored (bytesNat bs)
  if h.fmt = .acc56 then xs.map (· % 2 ^ 56) else xs

/-- A list padded with zero bytes to a length. -/
def padTo (n : Nat) (bs : List Byte) : List Byte := bs ++ List.replicate (n - bs.length) 0

/-- The canonical image of a tile (R34, R35), header included. -/
def Tile.image (t : Tile) : List Byte :=
  let h := t.hdr
  let pay := (t.cells.map (fun r => padTo h.pitch (rowImage h r))).flatten
  let b := padTo h.payloadEnd (h.bytes ++ pay)
  let b := padTo h.afterScales (b ++ (t.scales.map (natBytes 4)).flatten)
  let b := padTo h.afterMeta (b ++ (t.groups.map (fun r => (r.map (natBytes h.groupBytes)).flatten)).flatten)
  padTo h.imageSize (b ++ (t.parity.map (natBytes 8)).flatten)

/-- A list cut into pieces of `k`, `n` of them. -/
def chunks {α : Type} (k : Nat) : Nat → List α → List (List α)
  | 0, _ => []
  | n + 1, xs => xs.take k :: chunks k n (xs.drop k)

/-- The scale area's patterns from its bytes. -/
def readScales (h : Header) (bs : List Byte) : List Nat := (chunks 4 h.scaleCount bs).map bytesNat

/-- The metadata rows from their bytes. -/
def readGroups (h : Header) (bs : List Byte) : List (List Nat) :=
  if h.spn = .dense then []
  else (chunks (h.cols / 48 * h.groupBytes) h.rows bs).map (fun r => (chunks h.groupBytes (h.cols / 48) r).map bytesNat)

/-- The parity words from their bytes. -/
def readParity (h : Header) (bs : List Byte) : List Nat :=
  if h.fmt = .acc56 then (chunks 8 (h.rows + h.cols) bs).map (fun b => bytesNat b % 2 ^ 56) else []

/-- The tile that a canonical image holds below an already read header: `bs` are the image's bytes, header included. -/
def readCanonical (h : Header) (bs : List Byte) : Tile where
  hdr := h
  cells := (chunks h.pitch h.rows (bs.drop 32)).map (fun r => rowCells h (r.take h.rowBytes))
  scales := readScales h (bs.drop h.scoff)
  groups := readGroups h (bs.drop h.mdoff)
  parity := readParity h (bs.drop h.paoff)

/-- A zero tile of a header: every cell, scale, group and parity word zero. -/
def Tile.zero (h : Header) : Tile where
  hdr := h
  cells := List.replicate h.rows (List.replicate h.stored 0)
  scales := List.replicate h.scaleCount 0
  groups := if h.spn = .dense then [] else List.replicate h.rows (List.replicate (h.cols / 48) 0)
  parity := if h.fmt = .acc56 then List.replicate (h.rows + h.cols) 0 else []

/-! ### Elements (R31, R38, R60) -/

/-- The indices of a group entry (R38). -/
def groupIndices (spn : Spn) (g : Nat) : List Nat := unpackBits 6 spn.kept g

/-- Strictly ascending and below a bound. -/
def ascendingBelow (bound : Nat) : List Nat → Bool
  | [] => true
  | [x] => x < bound
  | x :: y :: r => x < y && ascendingBelow bound (y :: r)

/-- A group entry meets R38. -/
def groupOk (spn : Spn) (g : Nat) : Bool := ascendingBelow 48 (groupIndices spn g)

/-- Every group entry of a tile meets R38. -/
def Tile.groupsOk (t : Tile) : Bool := t.hdr.spn == .dense || t.groups.all (fun r => r.all (groupOk t.hdr.spn))

/-- One group of 48 logical elements: kept element j at its index, absent elsewhere. -/
def expandGroup (spn : Spn) (g : Nat) (kept : List Nat) : List (Option Nat) :=
  let pairs := (groupIndices spn g).zip kept
  (List.range 48).map (fun q => (pairs.find? (fun p => p.1 == q)).map (·.2))

/-- The logical elements of a row, none where sparsity makes one absent (R38). -/
def Tile.logicalRow (t : Tile) (r : Nat) : List (Option Nat) :=
  let cells := t.cells.getD r []
  if t.hdr.spn = .dense then cells.map some
  else
    let gs := t.groups.getD r []
    ((gs.zip (chunks t.hdr.spn.kept gs.length cells)).map (fun p => expandGroup t.hdr.spn p.1 p.2)).flatten

/-- The scale of an element (R31), 1.0 where the tile has none. -/
def Tile.scaleAt (t : Tile) (r c : Nat) : Num :=
  match t.hdr.scl with
  | .none => .one
  | .tensor => fp32 (t.scales.getD 0 0)
  | .row => fp32 (t.scales.getD (r * t.hdr.colGroups + c / 128) 0)
  | .block => fp32 (t.scales.getD (c / 128) 0)

/-- The input value of one element: an absent one is an element +0 (R38), and a scaled one x · s (R60). -/
def Tile.inputOf (t : Tile) (r c : Nat) (p : Option Nat) : Num × VFlags :=
  let (x, f) : Num × VFlags := match p with
    | none => (.fin false 0 0, 0)
    | some p => (t.hdr.fmt.nfmt t.hdr.acci).read p
  if t.hdr.scl = .none then (x, f)
  else
    let (y, g) := scaledValue x (t.scaleAt r c)
    (y, f ||| g)

/-- The input values of a row (R60). -/
def Tile.inputRow (t : Tile) (r : Nat) : List (Num × VFlags) := (t.logicalRow r).mapIdx (fun c p => t.inputOf r c p)

/-- The input values of the whole tile, row by row. -/
def Tile.inputs (t : Tile) : List (List (Num × VFlags)) := (List.range t.hdr.rows).map t.inputRow

/-! ### Parity (R37) -/

/-- The bitwise exclusive-or of a list. -/
def xorAll (xs : List Nat) : Nat := xs.foldl (· ^^^ ·) 0

/-- The parity words of ACC56 cells: the rows', then the columns' (R37). -/
def parityOf (cols : Nat) (cells : List (List Nat)) : List Nat :=
  cells.map xorAll ++ (List.range cols).map (fun c => xorAll (cells.map (fun r => r.getD c 0)))

/-- A dense tile from its patterns, with the parity of its cells when it is ACC56. -/
def Tile.ofCells (h : Header) (cells : List (List Nat)) : Tile where
  hdr := h
  cells := cells
  scales := []
  groups := []
  parity := if h.fmt = .acc56 then parityOf h.cols cells else []

/-! ### Inference on headers (R43, R45) -/

end Sys2Proof.Machine

namespace Sys2Proof

/-- The family of an MMA operand (R43). -/
def Fmt.family : Fmt → Option Nat
  | .e4m3 | .e5m2 => some 0
  | .bf16 => some 1
  | .fp16 => some 2
  | .fp32 => some 3
  | .int8 | .int4 => some 4
  | .int32 | .acc56 => none

end Sys2Proof

namespace Sys2Proof.Machine

/-- The elementwise format of R45. -/
def wideFmt (a b : Header) : Fmt :=
  let either (f : Fmt) := a.fmt == f || b.fmt == f
  if either .acc56 then .acc56
  else if either .fp32 || a.scl != .none || b.scl != .none || (a.fmt == .int32 && b.fmt.isFloat) ||
      (b.fmt == .int32 && a.fmt.isFloat) then .fp32
  else if a.fmt.isInt && b.fmt.isInt then .int32
  else if a.fmt == .bf16 && b.fmt == .bf16 then .bf16
  else if a.fmt == .fp16 && b.fmt == .fp16 then .fp16
  else if either .bf16 && either .fp16 then .fp32
  else if either .bf16 then .bf16
  else if either .fp16 then .fp16
  else .bf16

end Sys2Proof.Machine
end

