-- ==== Sys2Proof/Machine/State.lean ====
section
/-! DEFINITION. The state of one F7 package as plain data: everything the spec gives the machine, from a strand's registers
to the management core's tables, and `State.reset`, the package after a cold start (R391). -/

namespace Sys2Proof.Machine

/-- Why a step stops the model: no meaning does, since the spec gives every instruction an effect or an exception whose entry it
describes. -/
inductive Fault where
  deriving DecidableEq, Repr

/-- Why a step is refused. -/
inductive Refusal where
  /-- `exec` answers it for an instruction that has no meaning yet. Safe: nothing can be proved of the instruction. -/
  | notModelled (mnemonic : String)
  /-- `step` answers it for a turn that names an instruction of R113 to R115 as a step of the device: only a strand
  dispatches those, through its fetch. Safe (log entry 57, DESIGN CHOICE, safe). -/
  | notAnEvent
  deriving DecidableEq, Repr

/-! ### Addresses and accesses -/

/-- Where a translated access goes (R25, R243): a physical address of HBM or second tier, an offset in the fabric window
(with the physical address behind it where the target is this package itself, R344), in a Pod's scratch, or in the strand's
core-local memory, which is a context's on that strand. -/
inductive Loc where
  | glob (pa : Nat)
  | fab (f : Nat) (home : Option Nat)
  | scratch (pod : PodId) (off : Nat)
  | loc (ctx off : Nat)
  deriving DecidableEq, Repr, Inhabited

/-- A trap's cause and report (R322): CODE of R11, TADDR, TINFO. -/
structure TrapInfo where
  cause : BitVec 8
  addr : Word
  info : Word
  deriving DecidableEq, Repr, Inhabited

/-- A log record reserved and not yet written (R359): its log, slot address (none while the log is disabled and only the
replay follows the event), the recorded record it repeats (R367), source, type, SPO, SEQ, words 2 and 3. -/
structure LogSlot where
  mo : Bool
  addr : Option Word
  rep : Option Nat
  src : Nat
  type : Nat
  spo : Nat
  seq : Nat
  w2 : Word
  w3 : Word
  deriving DecidableEq, Repr, Inhabited

/-- A record whose event has happened, or a void or stamp record: four words for a slot (R361). -/
structure Record where
  addr : Word
  words : List Word
  stamp : Bool
  deriving DecidableEq, Repr, Inhabited

/-- A cell of an output region as the walker names it, and an iteration's captured footprint and permit mask (R269, R273). -/
structure Permit where
  out : Word
  rpitch : Nat
  cell : Nat
  ncr : Nat
  ncc : Nat
  rdok : Bool
  foot : List Nat
  permit : List Nat
  part : PartId
  slot : Fin 4
  deriving DecidableEq, Repr, Inhabited

/-! ### The ordering machine (R243) -/

/-- What an entry of a class queue does at its first step. -/
inductive CqKind where
  /-- A load of `n` bytes into `dest`; `acq` carries an acquire's scope. -/
  | load (loc : Loc) (n : Nat) (signed : Bool) (dest : SReg) (acq : Option Scope)
  /-- A store; `rel` carries a release's scope. -/
  | store (loc : Loc) (data : List Byte) (rel : Option Scope)
  | atom (op : Fin 8) (loc : Loc) (wide : Bool) (x c : Word) (dest : SReg) (acq rel : Option Scope) (ordered : Bool)
  | fence (scope : Scope) (eng : Bool)
  /-- A CMO over lines (R233), by op and level, and the DROP and EVICT steps it has still to make (R254): which part of each
  line's order comes next. -/
  | cmo (op level : Nat) (lines : List LineRef) (steps : List (Nat × LineRef))
  deriving DecidableEq, Repr, Inhabited

/-- An entry of a strand's class queues: its program-order number and address, the classes whose queues it stands in, its
record, its iteration ordinal, its fixed-order number j (R237), whether its page is ordered (R257), and the bytes of a store that
the walk of a launch suppresses (R273). -/
structure CqEntry where
  seq : Nat
  pc : Word
  classes : BitVec 16
  kind : CqKind
  log : Option LogSlot
  ordn : Nat
  j : Nat
  opage : Bool
  supp : Option ((PartId × Fin 4) × Nat)
  deriving DecidableEq, Repr, Inhabited

/-- A write that has left its class queue (IB, PB, FT), with its instruction's address, and whether it is a release (R249). -/
structure Write where
  strand : StrandId
  seq : Nat
  pc : Word
  cls : BitVec 4
  loc : Loc
  data : List Byte
  log : Option LogSlot
  rel : Bool
  deriving DecidableEq, Repr, Inhabited

/-- An L1 copy of a 128-byte line (R243). -/
structure L1Line where
  line : LineRef
  data : List Byte
  deriving DecidableEq, Repr, Inhabited

/-- An entry of an ordered-reduction buffer (R237): its launch, its key, what it applies and where, with its instruction's
program-order number and class. -/
structure OEntry where
  strand : StrandId
  seq : Nat
  cls : BitVec 4
  part : PartId
  slot : Fin 4
  o : Nat
  j : Nat
  op : Fin 8
  wide : Bool
  pa : Nat
  x : Word
  acq : Option Scope
  rel : Option Scope
  log : Option LogSlot
  deriving DecidableEq, Repr, Inhabited

/-! ### Tiles of a strand (R74) -/

/-- Why a tile is failed: its header, by the sub-code of R33 (R40), or an uncorrectable word (R89, R384), in the tile store or at
its slot. -/
inductive TileFail where
  | header (sub : Nat)
  | store
  | slot
  deriving DecidableEq, Repr, Inhabited

/-- A tile's stamp slot and times (R370, R371). -/
structure Stamp where
  addr : Word
  pkind : Nat
  ckind : Nat
  spo : Nat
  disp : Nat
  start : Nat
  full : Nat
  last : Nat
  deriving DecidableEq, Repr, Inhabited

/-- One identity in use: full or empty, resident or sunk, its header once its producer has started, and its contents. -/
structure TileRec where
  id : Nat
  full : Bool
  sunk : Bool
  failed : Option TileFail
  hdr : Option Header
  tile : Option Tile
  stamp : Option Stamp
  deriving DecidableEq, Repr, Inhabited

/-- The open tile of the tile builder as the vector engine holds it (R195): its cells so far and its cursor. -/
structure OpenTile where
  id : Nat
  hdr : Header
  cells : List (List Nat)
  row : Nat
  col : Nat
  deriving DecidableEq, Repr, Inhabited

/-- A kept partial tile load (R193): its identity, its instruction's address, its header, image offsets, rows so far,
and the words of its shape record. -/
structure Kept where
  id : Nat
  pc : Word
  slot0 : Bool
  hdr : Header
  offs : Offsets
  rows : List (List Nat)
  stamp : Option Stamp
  nums : List Nat
  deriving DecidableEq, Repr, Inhabited

/-! ### Queues (R13 to R17, R77) -/

/-- What dispatch restores at an unwind (R91, R119): every scalar and predicate, the stack, the builder's tracking, the
VDEC counts and the number that a retried scheduler record takes again. -/
structure Checkpoint where
  s : Vector Word 64
  p : BitVec 8
  image : List Nat
  tfloor : Nat
  openId : Option Nat
  kept : Option Kept
  declared : Nat
  vdecs : Nat
  spo : Option Nat
  atomJ : Nat
  schedCount : Nat
  draining : Option (Word × Word)
  deriving DecidableEq, Repr, Inhabited

/-- How far a queue entry has come: waiting at or behind its queue's head, started, completed. -/
inductive Stage where | waiting | started | done
  deriving DecidableEq, Repr, Inhabited

/-- A cached translation (R341). -/
structure TlbEntry where
  ctx : Nat
  va : Nat
  size : Nat
  pa : Nat
  rd : Bool
  w : Bool
  x : Bool
  dev : Bool
  ord : Bool
  ddp : Bool
  deriving DecidableEq, Repr, Inhabited

/-- A unit of a range, at most 8 aligned bytes, with its place and page (R211, R252). -/
structure Unit8 where
  addr : Word
  loc : Loc
  len : Nat
  page : Option TlbEntry
  deriving DecidableEq, Repr, Inhabited

/-- One write access of a started instruction: its bytes, and which bits of each are written (an INT4 lane moves its own
nibble, R180). -/
structure EWrite where
  loc : Loc
  data : List Byte
  mask : Byte
  deriving DecidableEq, Repr, Inhabited

/-- The accesses of a started instruction (R252): reads still to make with their results so far, then writes, phase by
phase; the units of the ranges it reads and writes later; and what it has made of them: its result tile, its rows and image layout, its flags, and numbers of its own. -/
structure Work where
  phase : Nat
  reads : List (Loc × Nat)
  got : List Byte
  writes : List EWrite
  src : List Unit8
  dst : List Unit8
  tile : Option Tile
  rows : List (List Nat)
  hdr : Option Header
  offs : Option Offsets
  flags : VFlags
  status : Nat
  nums : List Nat
  /-- Suppressed bytes, which SUPP counts at completion (R273). -/
  supp : Nat
  deriving DecidableEq, Repr, Inhabited

/-! ### The vector engine (R150, R156, R159) -/

/-- A destination of a vector result. -/
inductive VDest where
  | v (r : VReg) (value : BitVec 4096)
  | k (r : KReg) (value : BitVec 1024)
  | s (r : SReg) (value : Word)
  deriving DecidableEq, Repr, Inhabited

/-- A pending write (R159): what lands, after how many more engine cycles, with which flags, and the program-order number of
its instruction; `ready` is false while a load's data has not arrived (R156). -/
structure Pending where
  n : Nat
  seq : Nat
  dests : List VDest
  flags : VFlags
  ready : Bool
  deriving DecidableEq, Repr, Inhabited

/-- An item of the decoder FIFO: a vector, or the failed block or stream end that every VDEC for it meets (R215). -/
inductive FifoItem where
  | vec (x : BitVec 4096)
  | bad (sub blk : Nat) (addr : Word)
  deriving DecidableEq, Repr, Inhabited

/-- The vector engine's state as a started vector instruction found it, which an unwind past that instruction restores (R92). -/
structure VSnap where
  v : Vector (BitVec 4096) 32
  k : Vector (BitVec 1024) 8
  vstat : VFlags
  pend : List Pending
  vgap : Nat
  openTile : Option OpenTile
  fifo : List FifoItem
  deriving DecidableEq, Repr, Inhabited

/-- One queued instruction: what dispatch captured, and how far it has come. -/
structure QEntry where
  seq : Nat
  instr : Instr
  pc : Word
  slot0 : Bool
  holds : Bool
  scalars : List Word
  tiles : List Nat
  results : List Nat
  ckpt : Checkpoint
  role : Nat
  leasectl : Word
  ordn : Nat
  permit : Option Permit
  keptLoad : Option Kept
  openBefore : Option OpenTile
  /-- The vector engine before a started vector instruction, and the TAGS bits a started TAGCL has cleared, for an unwind. -/
  snap : Option VSnap
  cleared : Word
  stage : Stage
  granted : Bool
  passed : Bool
  fault : Option TrapInfo
  /-- The token counters it has popped, those it still pushes once complete, and those it has pushed (R15). -/
  pops : List (Fin 8)
  pushes : List (Fin 8)
  pushed : List (Fin 8)
  work : Work
  /-- One more than the tick at which it became ready for its engine, 0 before; and whether it has aged (R316). -/
  asked : Nat
  aged : Bool
  deriving DecidableEq, Repr, Inhabited

/-! ### Decoder streams (R214) -/

/-- An open CPYD stream (R214): the bytes still to decode, where the next block lies, and the counts. -/
structure CpydStream where
  seq : Nat
  tag : Nat
  next : Word
  endAddr : Word
  wc : Nat
  rmax : Nat
  blk : Nat
  blocksLeft : Nat
  vecsLeft : Nat
  mm : MemMod
  deriving DecidableEq, Repr, Inhabited

/-! ### Strands (R18) -/

/-- One level's trap registers (R322). -/
structure TrapRegs where
  pc : Word
  cause : Word
  addr : Word
  info : Word
  deriving DecidableEq, Repr, Inhabited

/-- What a strand is doing: free for the walker, running its stream, stopped at the point a stop asked for, halted at
level 3, or switched out and waiting to be restored. -/
inductive RunState where | free | running | stopped | level3
  deriving DecidableEq, Repr, Inhabited

/-- What a stopped or running strand has been asked to do. -/
inductive StopKind where | none | checkpoint | drain | switch | debug
  deriving DecidableEq, Repr, Inhabited

/-- A locked instruction-cache line and the bytes it holds (R147, R148). -/
structure LockLine where
  addr : Word
  data : List Byte
  deriving DecidableEq, Repr, Inhabited

/-- What the guest view of a strand's counters is taken from (R375): the GTS at which a counter last counted, and for each DLY of
CNTPOL, 0 to 20, the counters as they stood at the last multiple of its refresh period before that. -/
structure Views where
  since : Nat
  vals : Vector (Vector (BitVec 48) 9) 21
  deriving DecidableEq, Repr

def Views.zero : Views := ⟨0, Vector.replicate 21 (Vector.replicate 9 0)⟩

/-- The registers and control state of R18. -/
structure Strand where
  run : RunState
  ctx : Option Nat
  launch : Option (PartId × Fin 4)
  pc : Word
  slot0 : Bool
  s : Vector Word 64
  p : BitVec 8
  k : Vector (BitVec 1024) 8
  v : Vector (BitVec 4096) 32
  idx : Vector Word 6
  ext : Vector Word 6
  ordinal : Nat
  fell : Bool
  permit : Option Permit
  atomJ : Nat
  spo : Option Nat
  image : List Nat
  tfloor : Nat
  tiles : List TileRec
  stklim : Nat
  stkbase : Word
  tsquota : Nat
  tokens : Vector Nat 8
  tags : Word
  vstat : VFlags
  role : Nat
  leasectl : Word
  qmin : Word
  qcap : Word
  traps : Vector TrapRegs 3
  tlock : Bool
  /-- The cause of the trap that set TLOCK, which a double fault reports (R325). -/
  firstCause : BitVec 8
  level : Fin 4
  held : Vector (List Pending) 3
  locks : List LockLine
  openId : Option Nat
  openTile : Option OpenTile
  kept : Option Kept
  declared : Nat
  vdecs : Nat
  fifo : List FifoItem
  streams : List CpydStream
  queues : Vector (List QEntry) 4
  pend : List Pending
  /-- Engine cycles counted since the vector engine's last start (R100, R155). -/
  vgap : Nat
  /-- Cycles of the control core since its last dispatch, and of the load, matrix and store queues since their last starts, as far
  as the SC of R100 counts them: 7, the greatest SC, before any. -/
  gaps : Vector Nat 4
  nseq : Nat
  cq : List CqEntry
  ib : List Write
  l1 : List L1Line
  tlb : List TlbEntry
  fault : Option TrapInfo
  faultPc : Word
  async : List TrapInfo
  stop : StopKind
  stopAt : Nat
  /-- A drain past R283's first ENDL: that ENDL and the program counter to save; all ones for the ENDL once its fall-through
  is reached. -/
  draining : Option (Word × Word)
  /-- The low five bits of a BAR's immediate, once the strand has arrived (R235). -/
  arrived : Option (BitVec 5)
  /-- The record a dispatched BAR has reserved and not yet written; none once reserved while no log is on (R236, R359). -/
  barLog : Option (Option LogSlot)
  waiting : Bool
  moCount : Nat
  /-- Numbers below `moCount` that void records have given up; the retried events take them again, the least first (R357, R359). -/
  moFree : List Nat
  schedCount : Nat
  /-- Lines whose returned data was uncorrectable (R327), and lines of DDP pages whose indirection entries a partial write
  of a class waits for (R389). -/
  late : List Nat
  want : List (Nat × BitVec 4)
  /-- The instruction at the program counter has been found free of a synchronous fault of its own, which an asynchronous trap
  lets go first (R326). -/
  safeChecked : Bool
  debugReq : Bool
  sampleReq : Bool
  traceReq : Bool
  counters : Vector (BitVec 48) 9
  views : Views
  deriving DecidableEq, Repr

/-! ### Pods (R12) -/

/-- The matrix lease of a Pod (R24, R317); `owed` is the reason of a surrender whose record has found no room in the log yet
(R359). -/
structure Lease where
  holder : Option StrandId
  run : Nat
  done : Nat
  idleSince : Nat
  owed : Option Nat
  deriving DecidableEq, Repr, Inhabited

structure Pod where
  lease : Lease
  scratch : List Host.Cell
  pb : List Write
  tlb : List TlbEntry
  /-- Which strand and queue each shared engine serves: the load engines 0 and 1, the store engines 0 and 1, the copy
  engine (R316). -/
  engines : Vector (Option (StrandId × Nat)) 5
  deriving DecidableEq, Repr

/-! ### Sequencer contexts (R308 to R314) and launches -/

/-- A strand's part in a launch: the unit it holds and whether its last NEXT fell through (R21, R22). -/
structure Assign where
  strand : StrandId
  unit : Nat
  ordinal : Nat
  fell : Bool
  halted : Bool
  /-- NEXT has asked for a new unit; the unit the walker has answered with; the iterations it has left whose ordered
  atomics are not accepted yet (R21, R257). -/
  asks : Bool
  granted : Option Nat
  leaving : List Nat
  /-- The strand's next program-order numbers when it joined the launch and when it halted: the writes between are the launch's
  (R264, R313). -/
  joinSeq : Nat
  haltSeq : Nat
  /-- The record that RESTORE has still to load into the strand (R314). -/
  record : Option Nat
  deriving DecidableEq, Repr, Inhabited

/-- A launch the sequencer holds: its record's copy, and the walker's state for it. -/
structure Launch where
  addr : Word
  ctx : Nat
  record : List Byte
  /-- The canonical image size of a whole tile of HND's template (R268). -/
  tile : Nat
  code : Word
  safe : List (Nat × List Byte)
  loops : List (List Byte)
  accepted : Nat
  started : Nat
  runSince : Nat
  state : Nat
  nextUnit : List Nat
  cursor : Nat
  covered : List Nat
  permits : List (Nat × List Nat)
  skipped : List Nat
  endedSet : List Nat
  early : Nat
  skips : Nat
  supp : Nat
  assigns : List Assign
  saved : List (Nat × Nat)
  savedEntries : List OEntry
  /-- MMREV of the launch's kernel descriptor (R302). -/
  mmrev : Nat
  walkAddr : Nat
  deriving DecidableEq, Repr, Inhabited

/-- A pre-emption in progress (R311 to R313). -/
structure Preempt where
  requester : Word
  victim : Fin 4
  row : Nat
  action : Nat
  since : Nat
  deriving DecidableEq, Repr, Inhabited

/-- A log's registers: LOGBASE, LOGPTR and LOGLIM with their fields (R358). -/
structure LogRegs where
  en : Bool
  rpl : Bool
  base : Word
  size : Nat
  ptr : Word
  full : Bool
  lim : Nat
  deriving DecidableEq, Repr, Inhabited

/-- An entry of the collective-group table (R351, R352). -/
structure CollGroup where
  entry : Nat
  members : List Nat
  rank : Nat
  trdv : Nat
  nextSeq : Nat
  aborted : Bool
  /-- Sequences that a rendezvous limit has ended (R352). -/
  lost : List Nat
  deriving DecidableEq, Repr, Inhabited

/-- An RDV received for a group, tenant and sequence, with its member's SRC (R351). -/
structure RdvRec where
  node : Nat
  group : Nat
  tenant : Nat
  sequence : Nat
  src : List Byte
  deriving DecidableEq, Repr, Inhabited

/-- What a virtual function takes with it of a strand: its counters with their views, and its counts of log records (R357, R372). -/
structure VfStrand where
  strand : StrandId
  counters : Vector (BitVec 48) 9
  views : Views
  moCount : Nat
  moFree : List Nat
  schedCount : Nat
  deriving DecidableEq, Repr

/-- What a virtual function takes with it at a world switch (R347, R358, R372): its logs, their counts and replay, and its
counters, its strands' with their refreshed values and log counts. -/
structure VfState where
  sched : LogRegs
  mo : LogRegs
  stamp : LogRegs
  logCtx : Nat
  seqCount : Nat
  snapshots : Option Word
  rwin : Nat
  recSched : List Record
  recMo : List Record
  repPos : Nat
  repTaken : List Nat
  repPerformed : List Nat
  counters : Vector (BitVec 48) 4
  strands : List VfStrand
  /-- Records of decisions about the virtual function's launches made while another is resident, to write once it is back (R358). -/
  ready : List Record
  deriving DecidableEq, Repr

/-- One partition: its sequencer context, its logs, its replay, its collective groups and its counters. -/
structure Part where
  queue : List Launch
  slots : Vector (Option Launch) 4
  preempt : Option Preempt
  /-- Strands that a pre-emption has freed, each with the requester it goes to (R313). -/
  heirs : List (StrandId × Word)
  /-- An acceptance or an end asks for an evaluation, and the last multiple of 10 us at which one was made (R311). -/
  evalDue : Bool
  evalAt : Nat
  lastChoice : Option (Word × Word × Nat)
  stalled : Bool
  sched : LogRegs
  mo : LogRegs
  stamp : LogRegs
  logCtx : Nat
  seqCount : Nat
  ready : List Record
  snapshots : Option Word
  rwin : Nat
  recSched : List Record
  recMo : List Record
  repPos : Nat
  /-- The recorded records of the scheduler log that strands have met, and those of the memory-order log whose events have
  happened (R366, R367). -/
  repTaken : List Nat
  repPerformed : List Nat
  repSince : Nat
  holdSince : List (StrandId × Nat)
  groups : List CollGroup
  rdvs : List RdvRec
  dedup : Nat
  resident : Option VfId
  /-- Launches of ended contexts whose KILLED is still to be written, each with whether its decision is logged (R325, R359, R397). -/
  dying : List (Launch × Bool)
  /-- A world switch is in progress (R347). -/
  switching : Bool
  sliceStart : Nat
  counters : Vector (BitVec 48) 4
  /-- The GTS of the partition's last refresh of stall counters (R375). -/
  lastRefresh : Nat
  exportCtx : Option Nat
  deriving DecidableEq, Repr

/-! ### Contexts (R353) -/

/-- A code object loaded into a context: the load address of its kernel descriptors and its bytes, for the digest (R355). -/
structure CodeObject where
  descs : List Word
  bytes : List Byte
  dict : Bool
  /-- The load report: the sections the loader skipped, by index and type (R303). -/
  report : List (Nat × Nat)
  deriving DecidableEq, Repr, Inhabited

/-- What a switched-out strand leaves in its backing region, and what R329's record has no field for, by the record's address:
its tiles, its open tile and kept load, a failed block at the end of its FIFO, further open streams, its last safe point, its
count of ordered atomics, whether its last NEXT fell through, the cause a double fault would report first, and the records held for
its levels (R159). -/
structure Backing where
  record : Nat
  tiles : List TileRec
  openTile : Option OpenTile
  kept : Option Kept
  bad : Option FifoItem
  more : List CpydStream
  spo : Option Nat
  atomJ : Nat
  fell : Bool
  firstCause : BitVec 8
  held : Vector (List Pending) 3
  deriving DecidableEq, Repr, Inhabited

/-- The settings of a strand that belong to the context it works for (R18): STKLIM, TSQUOTA, QMIN and QCAP. -/
structure Settings where
  stklim : Nat
  tsquota : Nat
  qmin : Word
  qcap : Word
  deriving DecidableEq, Repr, Inhabited

structure Ctx where
  num : Nat
  vf : VfId
  part : PartId
  live : Bool
  terminating : Option (BitVec 8)
  area : Nat
  ptroot : Nat
  htbase : Word
  htlen : Nat
  sup : Word
  service : StrandId
  isExport : Bool
  aploc : Word
  appod : Word
  apfab : Word
  build : BitVec 16
  migr : BitVec 32
  mmrev : Nat
  ordmode : Bool
  tdeleg : Word
  dict : List Word
  objects : List CodeObject
  locals : List (StrandId × List Host.Cell)
  backing : List Backing
  settings : List (StrandId × Settings)
  stopped : Bool
  quiesced : Bool
  stopSince : Nat
  deriving DecidableEq, Repr, Inhabited

/-! ### The shared cache and memory -/

/-- A line of the shared cache: its place, owner tag and data; `bad` marks an uncorrectable error not yet detected, `held` a
line held under R397. -/
structure ScLine where
  pa : Nat
  way : Nat
  tag : PartId
  dirty : Bool
  data : List Byte
  bad : Bool
  held : Bool
  deriving DecidableEq, Repr, Inhabited

/-- A report of SCEPA and SCEINFO waiting or held (R397). -/
structure ScReport where
  pa : Nat
  dirty : Bool
  tag : PartId
  way : Nat
  die : Nat
  set : Nat
  deriving DecidableEq, Repr, Inhabited

/-- A copy of the deduplicating store: domain, data and count (R348). -/
structure DedupCopy where
  domain : Nat
  data : List Byte
  count : Nat
  deriving DecidableEq, Repr, Inhabited

/-! ### The management core -/

/-- The page ownership entries of a run of frames (R338, R396). No two runs share a frame. -/
structure OwnEntry where
  frame : Nat
  count : Nat
  part : PartId
  ctx : Option Nat
  deriving DecidableEq, Repr, Inhabited

/-- A virtual function's binding (R347). -/
structure VfBinding where
  vf : VfId
  part : PartId
  node : Nat
  sliceUs : Nat
  saved : Option VfState
  deriving DecidableEq, Repr, Inhabited

/-- A layout (R346): owner bytes (0xFF for none), colour masks and tenants. -/
structure Layout where
  cores : List Byte
  mats : List Byte
  loads : List Byte
  stores : List Byte
  copies : List Byte
  masks : List Word
  tenants : List (BitVec 16)
  deriving DecidableEq, Repr, Inhabited

/-- The layout journal (R354). -/
inductive Journal where | empty | prepared | swapped | done
  deriving DecidableEq, Repr, Inhabited

/-- A message the package sends: to a node, of a kind of R349, with its words, and a bulk or response payload. -/
inductive OutKind where | reply | event | response | errorResponse | rdv | abort
  deriving DecidableEq, Repr, Inhabited

structure Message where
  node : Nat
  kind : OutKind
  words : List Word
  data : List Byte
  deriving DecidableEq, Repr, Inhabited

/-- A wrap of a counter (R376): its partition, the strand for a strand's counter, the counter, the virtual function that ran on the partition, and the GTS. -/
abbrev Wrap := PartId × Option StrandId × Nat × Option VfId × Nat

/-- A write that the ROM's routine scerr makes of the management core's error registers (R395). -/
inductive RomWrite where
  | pgpois (v : Word)
  | scquar (v : Word)
  | ctxterm (v : Word)
  | release (v : Word)
  deriving DecidableEq, Repr

/-- A record of the trace: its strand, the GTS and the safe-point ordinal (R278, R279). -/
structure TraceRec where
  strand : StrandId
  stamp : Nat
  spo : Nat
  deriving DecidableEq, Repr, Inhabited

structure Mgmt where
  layout : Layout
  shadow : Option Layout
  journal : Journal
  commitSeq : BitVec 16
  /-- PARTITION_COMMIT is executing (R354). -/
  committing : Bool
  vfs : List VfBinding
  owners : List OwnEntry
  poisoned : List Nat
  retired : List Nat
  untilCold : List Nat
  quarantine : List (Nat × Nat × Nat)
  corrected : Vector Nat 5
  outbox : List Message
  reports : List ScReport
  scepa : Word
  sceinfo : Word
  scquar : Word
  pgpois : Word
  ctxterm : Word
  pownbase : Word
  cntpol : Word
  watchdogStopped : Bool
  image : List Byte
  staged : Option (List Byte)
  failedStart : Bool
  warmFails : Nat
  leaf : Nat
  nextCtx : Nat
  fabricRetries : BitVec 48
  errTiles : List (StrandId × Nat × Bool)
  errHbm : List (Nat × Bool)
  /-- Lines of the shared cache with a single-bit data error, and those with a tag error and whether it is uncorrectable. -/
  errLines : List Nat
  errTags : List (Nat × Bool)
  errDedup : List (Nat × Bool)
  poisonedBlocks : List Nat
  /-- The clocks in MHz of the islands of R394: 16 of Pods, four of the shared cache, four of HBM PHYs, four of CXL and fabric, two
  of management, two always on. -/
  clocks : Vector Nat 32
  /-- The routing table (R349), a port set for each node, and which of the 24 ports have trained to their 4 lanes. -/
  routes : Vector (BitVec 24) 8192
  ports : BitVec 24
  /-- The command that the management core has begun and not answered, by its issuer and SEQ (R353). -/
  executing : Option (Nat × Nat)
  /-- Records of strands that RESTORE has refused for their FORMAT (R332): context, strand, address. -/
  badRecords : List (Nat × StrandId × Nat)
  /-- Counters that have wrapped and whose EVENT is not sent (R376). -/
  wraps : List Wrap
  startedAt : Option Nat
  /-- The writes that the management core's routine for a report has still to make (R395 to R397). -/
  scerr : List RomWrite
  deriving DecidableEq, Repr

/-- The fetch latch: the strand that dispatches, and the program counter R107 gives after its instruction. -/
structure Latch where
  strand : StrandId
  next : Word
  deriving DecidableEq, Repr

/-- The whole package. `agenda`, `ticks` and `cur` are the model's own. -/
structure State where
  gts : Nat
  ticks : Nat
  agenda : List Turn
  cur : Latch
  strands : Vector Strand 256
  pods : Vector Pod 64
  parts : Vector Part 48
  ctxs : List Ctx
  mem : List Host.Cell
  sc : List ScLine
  ft : List Write
  remote : List Host.Cell
  orbuf : List OEntry
  /-- The deduplicating store (R348): its copies, the lines that have an indirection entry with their domain, and the DDP
  pages that accesses have met, by base and size. -/
  dedup : List DedupCopy
  dind : List (Nat × Nat)
  ddpPages : List (Nat × Nat)
  /-- The lines on which a synchronising access has been performed in the nanosecond `syncAt` of GTS (R357). -/
  syncAt : Nat
  syncs : List LineRef
  /-- The trace's records, oldest first (R278). -/
  trace : List TraceRec
  mgmt : Mgmt
  deriving DecidableEq, Repr

/-! ### Memory as a canonical list of cells -/

/-- What a byte that no cell lists reads as: a cold start writes every byte of HBM and second tier zero and clears the SRAMs
(R391, step 5). (Log entry 38, DESIGN CHOICE, safe.) -/
abbrev unlisted : Byte := 0

/-- The canonical form: addresses strictly rising, no cell equal to what an unlisted address reads as. -/
def Memory.wfFrom : Option Nat → List Host.Cell → Bool
  | _, [] => true
  | lo, (a, b) :: r => (match lo with
      | none => true
      | some l => decide (l < a)) && b != unlisted && Memory.wfFrom (some a) r

def Memory.wf (m : List Host.Cell) : Bool := Memory.wfFrom none m

/-! ### Reset -/

def TrapRegs.zero : TrapRegs := ⟨0, 0, 0, 0⟩

/-- QMIN's reset value, 16 in each field (R318). -/
def qminReset : Word := 16 ||| (16 <<< 11) ||| (16 <<< 22) ||| (16 <<< 33)
/-- QCAP's reset value, 256 in each field (R318). -/
def qcapReset : Word := 256 ||| (256 <<< 11) ||| (256 <<< 22) ||| (256 <<< 33)
/-- LEASECTL's reset value: AGE 4,096, IDLE 256, RUN 64 (R315). -/
def leasectlReset : Word := 64 ||| (256 <<< 16) ||| (4096 <<< 32)

/-- A strand after a cold start: free, with the register resets of R71, R83, R84, R315, R318 and R322, and zero where R18
gives a value only for a launch's first iteration. (Log entry 10, DESIGN CHOICE, unsafe.) -/
def Strand.reset : Strand where
  run := .free
  ctx := none
  launch := none
  pc := 0
  slot0 := false
  s := Vector.replicate 64 0
  p := 1
  k := (Vector.replicate 8 0).set 0 (BitVec.allOnes 1024)
  v := Vector.replicate 32 0
  idx := Vector.replicate 6 0
  ext := Vector.replicate 6 1
  ordinal := 0
  fell := false
  permit := none
  atomJ := 0
  spo := none
  image := []
  tfloor := 0
  tiles := []
  stklim := 768
  stkbase := 0
  tsquota := 32
  tokens := Vector.replicate 8 0
  tags := 0
  vstat := 0
  role := 1
  leasectl := leasectlReset
  qmin := qminReset
  qcap := qcapReset
  traps := Vector.replicate 3 TrapRegs.zero
  tlock := false
  firstCause := 0
  level := 0
  held := Vector.replicate 3 []
  locks := []
  openId := none
  openTile := none
  kept := none
  declared := 0
  vdecs := 0
  fifo := []
  streams := []
  queues := Vector.replicate 4 []
  pend := []
  vgap := 0
  gaps := Vector.replicate 4 7
  nseq := 0
  cq := []
  ib := []
  l1 := []
  tlb := []
  fault := none
  faultPc := 0
  async := []
  stop := .none
  stopAt := 0
  draining := none
  arrived := none
  barLog := none
  waiting := false
  moCount := 0
  moFree := []
  schedCount := 0
  late := []
  want := []
  safeChecked := false
  debugReq := false
  sampleReq := false
  traceReq := false
  counters := Vector.replicate 9 0
  views := Views.zero

def Pod.reset : Pod where
  lease := ⟨none, 0, 0, 0, none⟩
  scratch := []
  pb := []
  tlb := []
  engines := Vector.replicate 5 none

def LogRegs.reset : LogRegs := ⟨false, false, 0, 0, 0, false, 0⟩

def Part.reset (n : Nat) : Part where
  queue := []
  slots := Vector.replicate 4 none
  preempt := none
  heirs := []
  evalDue := false
  evalAt := 0
  lastChoice := none
  stalled := false
  sched := LogRegs.reset
  mo := LogRegs.reset
  stamp := LogRegs.reset
  logCtx := 0
  seqCount := 0
  ready := []
  snapshots := none
  rwin := 0
  recSched := []
  recMo := []
  repPos := 0
  repTaken := []
  repPerformed := []
  repSince := 0
  holdSince := []
  groups := []
  rdvs := []
  dedup := n
  resident := none
  dying := []
  switching := false
  sliceStart := 0
  counters := Vector.replicate 4 0
  lastRefresh := 0
  exportCtx := none

/-- No engine owned, no colour, no tenant (R391, step 6). -/
def Layout.reset : Layout where
  cores := List.replicate 256 0xFF
  mats := List.replicate 64 0xFF
  loads := List.replicate 128 0xFF
  stores := List.replicate 128 0xFF
  copies := List.replicate 64 0xFF
  masks := List.replicate 48 0
  tenants := List.replicate 48 0

/-- CNTPOL's reset value: DLY 10, QNT 10 (R374). -/
def cntpolReset : Word := 10 ||| (10 <<< 8)

def Mgmt.reset : Mgmt where
  layout := Layout.reset
  shadow := none
  journal := .empty
  commitSeq := 0
  committing := false
  vfs := []
  owners := []
  poisoned := []
  retired := []
  untilCold := []
  quarantine := []
  corrected := Vector.replicate 5 0
  outbox := []
  reports := []
  scepa := 0
  sceinfo := 0
  scquar := 0
  pgpois := 0
  ctxterm := 0
  pownbase := Config.pownBase
  cntpol := cntpolReset
  watchdogStopped := false
  image := Config.factoryImage
  staged := none
  failedStart := false
  warmFails := 0
  leaf := 0
  nextCtx := 1
  fabricRetries := 0
  errTiles := []
  errHbm := []
  errLines := []
  errTags := []
  errDedup := []
  poisonedBlocks := []
  clocks := Vector.ofFn (fun i => if i.val < 16 then 1250 else Config.islandClock i.val)
  routes := Vector.ofFn (fun i => Config.route i.val)
  ports := Config.portsTrained
  executing := none
  badRecords := []
  wraps := []
  startedAt := none
  scerr := []

/-- The package after a cold start (R391): no owner, no context, every byte of memory zero, GTS at 0. -/
def State.reset : State where
  gts := 0
  ticks := 0
  agenda := []
  cur := ⟨0, 0⟩
  strands := Vector.replicate 256 Strand.reset
  pods := Vector.replicate 64 Pod.reset
  parts := Vector.ofFn (fun i => Part.reset i.val)
  ctxs := []
  mem := []
  sc := []
  ft := []
  remote := []
  orbuf := []
  dedup := []
  dind := []
  ddpPages := []
  syncAt := 0
  syncs := []
  trace := []
  mgmt := Mgmt.reset

end Sys2Proof.Machine
end

