-- ==== Sys2Proof/Machine/Mem.lean ====
section
/-! DEFINITION. Memory and the shared cache: the canonical cell list, the physical map (R334, R339), lines and their coherent
values (R243, R254), fills, write-backs with deduplication (R348), and what a strand or its Pod sees (R243, R245). -/

namespace Sys2Proof.Machine

/-! ### Cells -/

/-- The byte at an address. -/
def Memory.read : List Host.Cell → Nat → Byte
  | [], _ => unlisted
  | (x, b) :: r, a => if a = x then b else if a < x then unlisted else Memory.read r a

/-- The memory with one byte written, in canonical form. -/
def Memory.write : List Host.Cell → Nat → Byte → List Host.Cell
  | [], a, b => if b = unlisted then [] else [(a, b)]
  | (x, c) :: r, a, b =>
    if a < x then (if b = unlisted then (x, c) :: r else (a, b) :: (x, c) :: r)
    else if a = x then (if b = unlisted then r else (a, b) :: r)
    else (x, c) :: Memory.write r a b

/-- `n` bytes from an address up. -/
def Memory.readN (m : List Host.Cell) (a : Nat) : Nat → List Byte
  | 0 => []
  | n + 1 => Memory.read m a :: Memory.readN m (a + 1) n

/-- Bytes written from an address up. -/
def Memory.writeN (m : List Host.Cell) (a : Nat) : List Byte → List Host.Cell
  | [] => m
  | b :: bs => Memory.writeN (Memory.write m a b) (a + 1) bs

/-! ### The physical map (R334, R339) -/

def hbmBytes : Nat := 144 * 2 ^ 30

/-- The home die of a physical address, none where no memory is (R334). -/
def homeDie (pa : Nat) : Option DieId :=
  if pa < 2 ^ 40 then
    if pa % 2 ^ 38 < hbmBytes then some (Fin.ofNat 4 (pa / 2 ^ 38)) else none
  else
    let p := (pa - 2 ^ 40) / 2 ^ 39
    if h : p < 16 then
      if (pa - 2 ^ 40) % 2 ^ 39 < min (2 ^ 39) (Config.tierBytes ⟨p, h⟩) then some (Fin.ofNat 4 (p / 4)) else none
    else none

/-- Second tier (R334). -/
def isSecondTier (pa : Nat) : Bool := decide (2 ^ 40 ≤ pa) && (homeDie pa).isSome

/-- The colour of an address (R339). -/
def colourOf (a : Nat) : Nat :=
  bits a 16 6 ^^^ bits a 22 6 ^^^ bits a 28 6 ^^^ bits a 34 6 ^^^ bits a 40 6 ^^^ bits a 46 6

/-- The set of an address (R339). -/
def setOf (a : Nat) : Nat := colourOf a * 512 + bits a 7 9

/-- The slice of an address (R339). -/
def sliceOf (a : Nat) : Nat := bits a 7 3 ^^^ bits a 10 3

/-- The first address of an address's 128-byte line. -/
def lineOf (a : Nat) : Nat := a / 128 * 128

/-! ### Small list updates -/

def setNth {α : Type} (l : List α) (i : Nat) (x : α) : List α := l.set i x

/-- Bytes of a list replaced from an offset up. -/
def splice (l : List Byte) (off : Nat) (bs : List Byte) : List Byte := l.take off ++ bs ++ l.drop (off + bs.length)

/-! ### Units of the package -/

def State.strand (s : State) (n : StrandId) : Strand := s.strands[n.val]'n.isLt

def State.setStrand (s : State) (n : StrandId) (x : Strand) : State := { s with strands := s.strands.set n.val x n.isLt }

def State.modStrand (s : State) (n : StrandId) (f : Strand → Strand) : State := s.setStrand n (f (s.strand n))

/-- The Pod of a strand (R12). -/
def podOf (n : StrandId) : PodId := ⟨n.val / 4, by have := n.isLt; omega⟩

/-- Strand 4n + c (R12). -/
def strandOf (p : PodId) (c : Fin 4) : StrandId := ⟨4 * p.val + c.val, by have := p.isLt; have := c.isLt; omega⟩

/-- The die of a Pod (R12). -/
def dieOfPod (p : PodId) : DieId := ⟨p.val / 16, by have := p.isLt; omega⟩

def State.pod (s : State) (p : PodId) : Pod := s.pods[p.val]'p.isLt

def State.setPod (s : State) (p : PodId) (x : Pod) : State := { s with pods := s.pods.set p.val x p.isLt }

def State.modPod (s : State) (p : PodId) (f : Pod → Pod) : State := s.setPod p (f (s.pod p))

def State.part (s : State) (p : PartId) : Part := s.parts[p.val]'p.isLt

def State.setPart (s : State) (p : PartId) (x : Part) : State := { s with parts := s.parts.set p.val x p.isLt }

def State.modPart (s : State) (p : PartId) (f : Part → Part) : State := s.setPart p (f (s.part p))

/-- The partition an owner byte names (R346). -/
def ownerOf (b : Byte) : Option PartId := if h : b.toNat < 48 then some ⟨b.toNat, h⟩ else none

/-- The partition that owns a strand's control core (R345). -/
def State.partOf (s : State) (n : StrandId) : Option PartId := ownerOf (s.mgmt.layout.cores.getD n.val 0xFF)

/-- A live or terminated context by number. -/
def State.ctx? (s : State) (c : Nat) : Option Ctx := s.ctxs.find? (fun x => x.num == c)

/-- The context a strand runs for. -/
def State.ctxOf (s : State) (n : StrandId) : Option Ctx := (s.strand n).ctx.bind s.ctx?

def State.modCtx (s : State) (c : Nat) (f : Ctx → Ctx) : State :=
  { s with ctxs := s.ctxs.map (fun x => if x.num = c then f x else x) }

/-- The number of one of FILLS, EVICTS, LOGRECS and FTX (R372). -/
def partCounter (c : Fin 4) : Nat := if c.val = 3 then 0x18 else 0x10 + c.val

/-- One of FILLS, EVICTS, LOGRECS and FTX, counted for a partition modulo 2^48 (R372). -/
def State.countPart (s : State) (p : PartId) (c : Fin 4) : State :=
  let v := (s.part p).counters[c.val]'c.isLt + 1
  let s := s.modPart p (fun x => { x with counters := x.counters.set c.val v c.isLt })
  if v = 0 then { s with mgmt := { s.mgmt with wraps := s.mgmt.wraps ++ [(p, none, partCounter c, (s.part p).resident, s.gts)] } } else s

/-- One corrected error of a structure counted; an EVENT at each multiple of 256 (R382, R383). -/
def State.correctedError (s : State) (k : Fin 5) : State :=
  let c := s.mgmt.corrected[k.val]'k.isLt + 1
  let m := { s.mgmt with corrected := s.mgmt.corrected.set k.val c k.isLt }
  let m := if c % 256 = 0 then
      { m with outbox := m.outbox ++ [⟨Config.operatorNode, .event,
        [0x0010, BitVec.ofNat 64 k.val, BitVec.ofNat 64 c], []⟩] }
    else m
  { s with mgmt := m }

/-! ### The shared cache -/

/-- The line of the shared cache that holds an address. -/
def State.scLine? (s : State) (pa : Nat) : Option ScLine := s.sc.find? (fun l => l.pa == lineOf pa)

/-- The data of a line: the shared cache's, or memory's (R254). -/
def State.lineData (s : State) (pa : Nat) : List Byte :=
  match s.scLine? pa with
  | some l => l.data
  | none => Memory.readN s.mem (lineOf pa) 128

/-- The coherent value of a global byte (R243). -/
def State.coh (s : State) (pa : Nat) : Byte :=
  match s.scLine? pa with
  | some l => l.data.getD (pa % 128) 0
  | none => Memory.read s.mem pa

/-- A report of a dirty line is held or waits: accesses to the line wait until its release (R397). -/
def State.reported (s : State) (pa : Nat) : Bool :=
  (s.mgmt.sceinfo.getLsbD 63 && s.mgmt.sceinfo.getLsbD 62 && s.mgmt.scepa.toNat == lineOf pa) ||
  s.mgmt.reports.any (fun r => r.dirty && r.pa == lineOf pa)

/-- A line of the shared cache has an uncorrectable tag error not detected yet: the slice detects it before any access reads the
line (R388, R390). -/
def State.tagBad (s : State) (pa : Nat) : Bool := s.mgmt.errTags.contains (lineOf pa, true)

/-- A line that no access may read now: it is held or reported (R397), or its uncorrectable error is not detected yet (R386). -/
def State.lineBlocked (s : State) (pa : Nat) : Bool :=
  (match s.scLine? pa with
    | some l => l.held || l.bad || s.tagBad l.pa
    | none => false) || s.reported pa

/-- A DDP page that an access has met holds the address (R348). -/
def State.isDdp (s : State) (pa : Nat) : Bool := s.ddpPages.any (fun p => decide (p.1 ≤ pa) && decide (pa < p.1 + p.2))

/-- One count taken from the copy a line of a domain holds; a copy without a count is freed (R348). -/
def dedupDrop (cs : List DedupCopy) (domain : Nat) (data : List Byte) : List DedupCopy :=
  (cs.map (fun c => if c.domain = domain ∧ c.data = data then { c with count := c.count - 1 } else c)).filter
    (fun c => c.count != 0)

/-- One count added to the copy that equals the data in full, or a new copy with count 1; none where the store is full of other
copies and the line is stored without sharing (R348). -/
def dedupAdd (cs : List DedupCopy) (domain : Nat) (data : List Byte) : Option (List DedupCopy) :=
  if cs.any (fun c => c.domain == domain && c.data == data) then
    some (cs.map (fun c => if c.domain = domain ∧ c.data = data then { c with count := c.count + 1 } else c))
  else if cs.length < Config.dedupCapacity then some (cs ++ [⟨domain, data, 1⟩])
  else none

/-- The block of indirection entries that covers a line: eight lines (R389). -/
def blockOf (pa : Nat) : Nat := pa / 1024

/-- Memory takes a line's data; a write-back to a DDP page passes through deduplication, and one whose indirection entry is
poisoned is refused, its data discarded (R244, R348, R389). -/
def State.writeBack (s : State) (l : ScLine) : State :=
  if s.mgmt.poisonedBlocks.contains (blockOf l.pa) && s.isDdp l.pa then s
  else
  let s' := if s.isDdp l.pa then
      let domain := (s.part l.tag).dedup
      let old := Memory.readN s.mem l.pa 128
      let cs := match s.dind.find? (fun d => d.1 == l.pa) with
        | some d => dedupDrop s.dedup d.2 old
        | none => s.dedup
      let others := s.dind.filter (fun d => d.1 != l.pa)
      match dedupAdd cs domain l.data with
      | some cs => { s with dedup := cs, dind := others ++ [(l.pa, domain)] }
      | none => { s with dedup := cs, dind := others }
    else s
  { s' with mem := Memory.writeN s'.mem l.pa l.data }

/-- The line leaves the shared cache, and the single-bit and tag errors still injected in it leave with it. -/
def State.removeLine (s : State) (pa : Nat) : State :=
  { s with
    sc := s.sc.filter (fun l => l.pa != lineOf pa),
    mgmt := { s.mgmt with
      errLines := s.mgmt.errLines.filter (· != lineOf pa), errTags := s.mgmt.errTags.filter (fun e => e.1 != lineOf pa) } }

/-- A single-bit error of a line's data, and one of its tag, are corrected and counted when the line is read (R382, R390). -/
def State.correctLine (s : State) (pa : Nat) : State :=
  let s := if s.mgmt.errLines.contains (lineOf pa) then
      State.correctedError { s with mgmt := { s.mgmt with errLines := s.mgmt.errLines.filter (· != lineOf pa) } } 1
    else s
  if s.mgmt.errTags.contains (lineOf pa, false) then
    State.correctedError { s with mgmt := { s.mgmt with errTags := s.mgmt.errTags.filter (· != (lineOf pa, false)) } } 1
  else s

/-- The line leaves the shared cache after its write-back, and its partition's EVICTS counts (R254, R372). -/
def State.evictLine (s : State) (l : ScLine) : State := (((s.correctLine l.pa).writeBack l).removeLine l.pa).countPart l.tag 1

/-- The ways of a set that hold no line and are not quarantined (R387). -/
def State.freeWays (s : State) (die set : Nat) : List Nat :=
  let used := (s.sc.filter (fun l => (homeDie l.pa).map (·.val) == some die && setOf l.pa == set)).map (·.way)
  (List.range 16).filter (fun w => !used.contains w && !s.mgmt.quarantine.contains (die, set, w))

/-- An injected error in a line of HBM or second tier not yet detected: whether it is uncorrectable (R390). -/
def State.memError (s : State) (pa : Nat) : Option Bool :=
  (s.mgmt.errHbm.find? (fun e => lineOf e.1 == lineOf pa)).map (·.2)

def State.clearMemError (s : State) (pa : Nat) : State :=
  { s with mgmt := { s.mgmt with errHbm := s.mgmt.errHbm.filter (fun e => lineOf e.1 != lineOf pa) } }

/-- An injected error in the block of indirection entries that covers a line, and whether it is uncorrectable (R390). -/
def State.dedupError (s : State) (pa : Nat) : Option Bool :=
  (s.mgmt.errDedup.find? (fun e => blockOf e.1 == blockOf pa)).map (·.2)

/-- A read of a line's indirection entry, which lies in its expander's memory, corrects and counts a single-bit error (R382, R390). -/
def State.correctEntry (s : State) (pa : Nat) : State :=
  if s.isDdp pa && s.dedupError pa == some false then
    State.correctedError { s with mgmt := { s.mgmt with errDedup := s.mgmt.errDedup.filter (fun e => blockOf e.1 != blockOf pa) } } 3
  else s

/-- A read below the shared cache corrects and counts a single-bit error of the line's memory and of its indirection entry (R382). -/
def State.correctMem (s : State) (pa : Nat) : State :=
  let s := s.correctEntry pa
  if s.memError pa = some false then (s.clearMemError pa).correctedError (if isSecondTier pa then 3 else 2) else s

/-- The shared cache holds the line, filled for a partition when it did not, in a way that the device chooses (R340, R372). -/
def State.fillLine (s : State) (pa : Nat) (tag : PartId) : State :=
  if (s.scLine? pa).isSome then s.correctLine pa
  else
    let s := s.correctMem pa
    let die := ((homeDie pa).map (·.val)).getD 0
    let set := setOf pa
    let place (s : State) (w : Nat) : State :=
      ({ s with sc := s.sc ++ [ScLine.mk (lineOf pa) w tag false (Memory.readN s.mem (lineOf pa) 128) false false] }).countPart tag 0
    let free := s.freeWays die set
    if !free.isEmpty then place s (free.getD (Config.victimWay s.ticks pa % free.length) 0)
    else
      let mine := s.sc.filter (fun l => (homeDie l.pa).map (·.val) == some die && setOf l.pa == set && !(l.held || l.bad || s.tagBad l.pa))
      match mine[Config.victimWay s.ticks pa % mine.length]? with
      | some v => place (s.evictLine v) v.way
      | none => s

/-- Bytes within one line become its coherent value, in the shared cache (R244 COMMIT). -/
def State.writeLine (s : State) (pa : Nat) (tag : PartId) (bs : List Byte) : State :=
  let s := s.fillLine pa tag
  if (s.scLine? pa).isSome then
    { s with sc := s.sc.map (fun l =>
        if l.pa = lineOf pa then { l with data := splice l.data (pa % 128) bs, dirty := true } else l) }
  else { s with mem := Memory.writeN s.mem pa bs }

/-! ### Places -/

/-- A place as an address space and a number in it. -/
def Loc.key : Loc → Nat × Nat
  | .glob pa => (0, pa)
  | .fab f _ => (1, f)
  | .scratch p off => (2 + p.val, off)
  | .loc c off => (100 + c, off)

def Loc.shift (l : Loc) (i : Nat) : Loc :=
  match l with
  | .glob pa => .glob (pa + i)
  | .fab f h => .fab (f + i) (h.map (· + i))
  | .scratch p off => .scratch p (off + i)
  | .loc c off => .loc c (off + i)

/-- The physical address behind a place: its own, or that of the export a fabric address of this package reaches (R344). -/
def Loc.home? : Loc → Option Nat
  | .glob pa => some pa
  | .fab _ h => h
  | _ => none

/-- The cached line of a place: global and fabric addresses only (R243). -/
def Loc.line? : Loc → Option LineRef
  | .glob pa => some (.phys (lineOf pa))
  | .fab f h => some (.fabric (lineOf f) (h.map lineOf))
  | _ => none

def Loc.offsetInLine : Loc → Nat
  | .glob pa => pa % 128
  | .fab f _ => f % 128
  | _ => 0

/-- The byte a run of bytes at a place gives another place. -/
def byteAt (at_ : Loc) (data : List Byte) (l : Loc) : Option Byte :=
  if at_.key.1 = l.key.1 ∧ at_.key.2 ≤ l.key.2 then data[l.key.2 - at_.key.2]? else none

/-- Two runs of bytes share a byte. -/
def runsMeet (a : Loc) (la : Nat) (b : Loc) (lb : Nat) : Bool := a.key.1 == b.key.1 && rangesMeet a.key.2 la b.key.2 lb

/-- A byte after writes in order, the last to cover it winning. -/
def overlay (ws : List Write) (l : Loc) (init : Byte) : Byte :=
  ws.foldl (fun b w => (byteAt w.loc w.data l).getD b) init

/-- The core-local memory of a context on a strand (R18, R25). -/
def State.localMem (s : State) (n : StrandId) (c : Nat) : List Host.Cell :=
  match s.ctx? c with
  | some c => ((c.locals.find? (fun x => x.1 == n)).map (·.2)).getD []
  | none => []

def setLocal (ls : List (StrandId × List Host.Cell)) (n : StrandId) (m : List Host.Cell) : List (StrandId × List Host.Cell) :=
  (ls.filter (fun x => x.1 != n)) ++ (if m.isEmpty then [] else [(n, m)])

/-- The last write of CO of a byte (R243). -/
def State.coByte (s : State) (n : StrandId) (l : Loc) : Byte :=
  match l with
  | .glob pa => s.coh pa
  | .fab f none => Memory.read s.remote f
  | .fab _ (some pa) => s.coh pa
  | .scratch p off => Memory.read (s.pod p).scratch off
  | .loc c off => Memory.read (s.localMem n c) off

/-- The last entry of a byte's view from a strand: CO, then its Pod buffer's writes in push order (R243). -/
def State.viewByte (s : State) (n : StrandId) (l : Loc) : Byte :=
  match l with
  | .glob _ => overlay (s.pod (podOf n)).pb l (s.coByte n l)
  | l => s.coByte n l

def State.viewBytes (s : State) (n : StrandId) (l : Loc) : Nat → List Byte
  | 0 => []
  | k + 1 => s.viewByte n l :: s.viewBytes n (l.shift 1) k

/-- The partition whose tag a strand's accesses carry (R340). -/
def State.tagOf (s : State) (n : StrandId) : PartId := (s.partOf n).getD 0

/-- The partition whose context owns a physical address's frame. -/
def State.homeTag (s : State) (pa : Nat) : PartId :=
  ((s.mgmt.owners.find? (fun e => decide (e.frame ≤ pa / 65536) && decide (pa / 65536 < e.frame + e.count))).map (·.part)).getD 0

/-- The bytes of one access appended to CO (R243, R252). -/
def State.appendCo (s : State) (n : StrandId) (l : Loc) (bs : List Byte) : State :=
  match l with
  | .glob pa => s.writeLine pa (s.tagOf n) bs
  | .fab f none => { s with remote := Memory.writeN s.remote f bs }
  | .fab _ (some pa) => s.writeLine pa (s.homeTag pa) bs
  | .scratch p off => s.modPod p (fun x => { x with scratch := Memory.writeN x.scratch off bs })
  | .loc c off => s.modCtx c (fun k => { k with locals := setLocal k.locals n (Memory.writeN (s.localMem n c) off bs) })

/-- A read of global memory fills the shared cache for the strand's partition (R340). -/
def State.touch (s : State) (n : StrandId) (l : Loc) : State :=
  match l with
  | .glob pa => s.fillLine pa (s.tagOf n)
  | .fab _ (some pa) => s.fillLine pa (s.homeTag pa)
  | _ => s

/-- The line of a place whose data a read would find uncorrectable (R327): memory's, the shared cache not holding it. -/
def State.lateAt (s : State) (l : Loc) : Option Nat :=
  match Loc.home? l with
  | some pa => if (s.scLine? pa).isNone && s.memError pa == some true then some (lineOf pa) else none
  | none => none

/-- The access lies in a line that no access may read now: held, or its data uncorrectable. -/
def State.blocked (s : State) (l : Loc) : Bool :=
  (match Loc.home? l with
    | some pa => s.lineBlocked pa
    | none => false) || (s.lateAt l).isSome

/-- A single-bit error waits in what a read of the line takes: the shared cache's data or tag, else memory or its indirection entry. -/
def State.singleBit (s : State) (pa : Nat) : Bool :=
  match s.scLine? pa with
  | some l => s.mgmt.errLines.contains l.pa || s.mgmt.errTags.contains (l.pa, false)
  | none => s.memError pa == some false || (s.isDdp pa && s.dedupError pa == some false)

/-- A read of the line by the sequencer, a page walk, a fetch or firmware must wait: no access may read it now, or an error in it is to
be found first (R390). `State.visitLine` is what the wait does. -/
def State.lineDue (s : State) (pa : Nat) : Bool := s.blocked (.glob pa) || s.singleBit pa

/-- Every line that some error or report names. -/
def State.namedLines (s : State) : List Nat :=
  s.sc.map (·.pa) ++ s.mgmt.reports.map (·.pa) ++ s.mgmt.scepa.toNat :: s.mgmt.errHbm.map (fun e => lineOf e.1) ++
  (s.mgmt.errDedup.map (fun e => (List.range 8).map (fun i => blockOf e.1 * 1024 + 128 * i))).flatten

/-- A line among `len` bytes at a physical address that a test of errors picks. -/
def State.lineIn (s : State) (f : Nat → Bool) (pa len : Nat) : Option Nat :=
  s.namedLines.find? (fun x => decide (lineOf pa ≤ x) && decide (x < pa + len) && f x)

/-- A line that a read of `len` bytes at a physical address waits for. -/
def State.dueIn (s : State) (pa len : Nat) : Option Nat := s.lineIn s.lineDue pa len

/-- A line that a write of them waits for. -/
def State.blockedIn (s : State) (pa len : Nat) : Option Nat := s.lineIn (fun x => s.blocked (.glob x)) pa len

/-- Uncorrectable data has come back for an access of a strand: the access waits for the second read (R327). -/
def State.noteLate (s : State) (n : StrandId) (l : Loc) : State :=
  match s.lateAt l with
  | some pa => s.modStrand n (fun t => if t.late.contains pa then t else { t with late := t.late ++ [pa] })
  | none => s

/-! ### L1 copies (R243 to R245) -/

def l1Find (l1 : List L1Line) (x : LineRef) : Option L1Line := l1.find? (fun c => c.line == x)

def l1Drop (l1 : List L1Line) (x : LineRef) : List L1Line := l1.filter (fun c => c.line != x)

def l1Set (l1 : List L1Line) (x : LineRef) (d : List Byte) : List L1Line := l1Drop l1 x ++ [⟨x, d⟩]

/-- An L1 copy, if present, takes a write's bytes (R244 LEAVE). -/
def l1Take (l1 : List L1Line) (l : Loc) (bs : List Byte) : List L1Line :=
  match l.line? with
  | some x => l1.map (fun c => if c.line = x then { c with data := splice c.data l.offsetInLine bs } else c)
  | none => l1

def LineRef.loc : LineRef → Loc
  | .phys pa => .glob pa
  | .fabric f h => .fab f h

/-- The view of a line. -/
def State.lineView (s : State) (n : StrandId) (x : LineRef) : List Byte := s.viewBytes n (LineRef.loc x) 128

/-- A strand's writes that have left and are not committed, oldest first: IB, its Pod buffer's and the fabric transit's. -/
def State.flying (s : State) (n : StrandId) : List Write :=
  (s.strand n).ib ++ (s.pod (podOf n)).pb.filter (fun w => w.strand == n) ++ s.ft.filter (fun w => w.strand == n)

/-- The youngest write older than `seq` that covers a byte, among writes in flight and stores still in a class queue
(R245, source 1). -/
def State.forward (s : State) (n : StrandId) (seq : Nat) (l : Loc) : Option Byte :=
  let flying := (s.flying n).map (fun w => (w.seq, byteAt w.loc w.data l))
  let queued := (s.strand n).cq.map (fun e => match e.kind with
    | .store loc data _ => (e.seq, byteAt loc data l)
    | _ => (e.seq, none))
  ((flying ++ queued).foldl (fun (best : Option (Nat × Byte)) c =>
    match c.2, best with
    | some b, none => if c.1 < seq then some (c.1, b) else none
    | some b, some (m, _) => if c.1 < seq ∧ m ≤ c.1 then some (c.1, b) else best
    | none, _ => best) none).map (·.2)

/-- One byte of a load and whether it came from the view (R245). `l1` is false for an acquire and for an engine read. -/
def State.bindByte (s : State) (n : StrandId) (seq : Nat) (l1 : Bool) (l : Loc) : Byte × Bool :=
  match s.forward n seq l with
  | some b => (b, false)
  | none =>
    match (if l1 then l.line?.bind (l1Find (s.strand n).l1) else none) with
    | some c => (c.data.getD l.offsetInLine 0, false)
    | none => (s.viewByte n l, true)

def State.bindBytes (s : State) (n : StrandId) (seq : Nat) (l1 : Bool) (l : Loc) : Nat → List (Byte × Bool)
  | 0 => []
  | k + 1 => s.bindByte n seq l1 l :: s.bindBytes n seq l1 (l.shift 1) k

/-- The copy of a line that a bind from the view makes: the line's view, under the strand's own writes that have left and
do not stand in the view yet, which its coherence keeps, the younger ones last: the fabric transit's, then IB's (R245). -/
def State.freshCopy (s : State) (n : StrandId) (x : LineRef) : List Byte :=
  (List.range 128).map (fun i =>
    let l := (LineRef.loc x).shift i
    overlay (s.ft.filter (fun w => w.strand == n) ++ (s.strand n).ib) l (s.viewByte n l))

/-- A load's bytes, and the state after its bind (R245). -/
def State.bindLoad (s : State) (n : StrandId) (seq : Nat) (l1 : Bool) (l : Loc) (k : Nat) : List Byte × State :=
  let bs := s.bindBytes n seq l1 l k
  if bs.any (·.2) then
    let s := s.touch n l
    match l.line? with
    | some x => (bs.map (·.1), s.modStrand n (fun t => { t with l1 := l1Set t.l1 x (s.freshCopy n x) }))
    | none => (bs.map (·.1), s)
  else (bs.map (·.1), s)

/-- A write of the strand has been appended to CO. Its L1 copy of the line goes where a byte of it would lie earlier in the strand's
view than that write, for no bind may take it: a byte that is neither the write's own nor that of a write which follows it, in the Pod
buffer or in the strand's buffers (R245). (Log entry 23, DEDUCED, safe.) -/
def State.cohereL1 (s : State) (n : StrandId) (l : Loc) (data : List Byte) : State :=
  match l.line?.bind (fun x => (l1Find (s.strand n).l1 x)) with
  | none => s
  | some c =>
    let later := (s.pod (podOf n)).pb ++ s.ft.filter (fun w => w.strand == n) ++ (s.strand n).ib
    let fresh (ib : Nat × Byte) : Bool :=
      let here := l.shift ib.1
      let b := c.data.getD here.offsetInLine 0
      b == ib.2 || later.any (fun w => byteAt w.loc w.data here == some b)
    if (data.mapIdx (fun i b => (i, b))).all fresh then s
    else s.modStrand n (fun t => { t with l1 := l1Drop t.l1 c.line })

/-! ### Synchronising accesses of one line (R357) -/

/-- The line as its slice of the shared cache knows it. -/
def LineRef.home : LineRef → LineRef
  | .fabric _ (some pa) => .phys pa
  | x => x

/-- The slice has performed a synchronising access to the line in this nanosecond of GTS: the next one waits (R357). -/
def State.syncBusy (s : State) (l : Loc) : Bool :=
  match l.line? with
  | some x => s.syncAt == s.gts && s.syncs.contains (LineRef.home x)
  | none => false

/-- A synchronising access to the line is performed now. -/
def State.noteSync (s : State) (l : Loc) : State :=
  match l.line? with
  | some x => { s with syncAt := s.gts, syncs := LineRef.home x :: (if s.syncAt = s.gts then s.syncs else []) }
  | none => s

/-- Every L1 copy of the strand dropped (R248). -/
def State.dropL1 (s : State) (n : StrandId) : State := s.modStrand n (fun t => { t with l1 := [] })

end Sys2Proof.Machine
end

