-- ==== Sys2Proof/Machine/Ops.lean ====
section
/-! DEFINITION. The named operations over the state: registers, messages and counters, log reservation (R359), ownership and
translation (R335 to R341), tiles and their retirement (R76), the lease's surrender (R317), termination (R325), taking a trap
with its unwind (R91, R321) and returning from one (R324). -/

namespace Sys2Proof.Machine

/-! ### Registers (R18, R118, R150) -/

/-- A scalar register; s0 reads zero. -/
def Strand.getS (t : Strand) (r : SReg) : Word := if r.val = 0 then 0 else t.s[r.val]'r.isLt

/-- A scalar register written; a write to s0 is discarded. -/
def Strand.setS (t : Strand) (r : SReg) (x : Word) : Strand := if r.val = 0 then t else { t with s := t.s.set r.val x r.isLt }

/-- A predicate; p0 is always true. -/
def Strand.getP (t : Strand) (r : PReg) : Bool := r.val == 0 || t.p.getLsbD r.val

/-- A predicate written; a write to p0 is discarded. -/
def Strand.setP (t : Strand) (r : PReg) (b : Bool) : Strand :=
  if r.val = 0 then t
  else { t with p := if b then t.p ||| (1#8 <<< r.val) else t.p &&& ~~~(1#8 <<< r.val) }

/-- A lane mask; k0 reads all ones. -/
def Strand.getK (t : Strand) (r : KReg) : BitVec 1024 := if r.val = 0 then BitVec.allOnes 1024 else t.k[r.val]'r.isLt

/-- A lane mask written; a write to k0 is discarded. -/
def Strand.setK (t : Strand) (r : KReg) (x : BitVec 1024) : Strand :=
  if r.val = 0 then t else { t with k := t.k.set r.val x r.isLt }

def Strand.getV (t : Strand) (r : VReg) : BitVec 4096 := t.v[r.val]'r.isLt

def Strand.setV (t : Strand) (r : VReg) (x : BitVec 4096) : Strand := { t with v := t.v.set r.val x r.isLt }

/-- The program counter moved; the position within a bundle is then the counter's own (R108). -/
def Strand.setPc (t : Strand) (pc : Word) : Strand := { t with pc := pc, slot0 := false, safeChecked := false }

/-- A guard holds (R97). -/
def Strand.guard (t : Strand) (g : Guard) : Bool := t.getP g.pred != g.sense

/-- Both guards hold (R97). -/
def Strand.holds (t : Strand) (m : Mods) : Bool := t.guard m.ga && t.guard m.gb

/-- A destination of a load or atomic that has not been written (R221). -/
def Strand.busy (t : Strand) (r : SReg) : Bool :=
  r.val != 0 && t.cq.any (fun e => match e.kind with
    | .load _ _ _ d _ => d == r
    | .atom _ _ _ _ _ d _ _ _ => d == r
    | _ => false)

/-- The queues' entries, in the order L, M, V, S. -/
def QName.index : QName → Fin 4
  | .L => 0 | .M => 1 | .V => 2 | .S => 3

def Strand.queue (t : Strand) (q : QName) : List QEntry := t.queues[(QName.index q).val]'(QName.index q).isLt

def Strand.setQueue (t : Strand) (q : QName) (l : List QEntry) : Strand :=
  { t with queues := t.queues.set (QName.index q).val l (QName.index q).isLt }

/-- Every queued instruction of the strand. -/
def Strand.entries (t : Strand) : List QEntry := t.queue .L ++ t.queue .M ++ t.queue .V ++ t.queue .S

/-- A queued instruction replaced by its new form, wherever it stands. -/
def Strand.modEntry (t : Strand) (seq : Nat) (f : QEntry → QEntry) : Strand :=
  { t with queues := t.queues.map (fun l => l.map (fun e => if e.seq = seq then f e else e)) }

def Strand.entry? (t : Strand) (seq : Nat) : Option QEntry := t.entries.find? (fun e => e.seq == seq)

/-- No engine or vector instruction of the strand is outstanding. -/
def Strand.idle (t : Strand) : Bool := t.entries.isEmpty

/-- Every instruction of the queues older than `seq` has passed its last fault point (R92). -/
def Strand.passedBefore (t : Strand) (seq : Nat) : Bool :=
  t.entries.all (fun e => decide (seq ≤ e.seq) || ((e.passed || e.stage == .done) && e.fault.isNone))

/-- Every instruction of the queues older than `seq` has completed. -/
def Strand.doneBefore (t : Strand) (seq : Nat) : Bool := t.entries.all (fun e => decide (seq ≤ e.seq) || e.stage == .done)

/-! ### Messages, counters (Log entry 21, DESIGN CHOICE, safe.) -/
def State.send (s : State) (m : Message) : State := { s with mgmt := { s.mgmt with outbox := s.mgmt.outbox ++ [m] } }

/-- An EVENT of R383 to the operator, and to a virtual function's host node where the code is marked VF. -/
def State.event (s : State) (vf : Option VfId) (words : List Word) : State :=
  let s := s.send ⟨Config.operatorNode, .event, words, []⟩
  match vf.bind (fun v => s.mgmt.vfs.find? (fun b => b.vf == v)) with
  | some b => s.send ⟨b.node, .event, words, []⟩
  | none => s

/-- DLY of CNTPOL (R374), at most 20, and the refresh period of R375 in nanoseconds: 2^DLY us. -/
def polDly (v : Word) : Fin 21 := Fin.ofNat 21 (min 20 (bits v.toNat 8 5))
def dlyPeriod (d : Fin 21) : Nat := 2 ^ d.val * 1000
def refreshPeriod (pol : Word) : Nat := dlyPeriod (polDly pol)

/-- The counters of a strand as they stood at the latest multiple of the refresh period of a DLY (R375): its views where a counter has
counted since, else the counters. -/
def Strand.viewsAt (t : Strand) (gts : Nat) (d : Fin 21) : Vector (BitVec 48) 9 :=
  if t.views.since / dlyPeriod d = gts / dlyPeriod d then t.views.vals[d.val]'d.isLt else t.counters

/-- A strand counter counts `k` modulo 2^48 (R372). -/
def State.countStrand (s : State) (n : StrandId) (c : Fin 9) (k : Nat) : State :=
  let old := (s.strand n).counters[c.val]'c.isLt
  let v := old + BitVec.ofNat 48 k
  let s := s.modStrand n (fun t => { t with
    counters := t.counters.set c.val v c.isLt,
    views := ⟨s.gts, Vector.ofFn (t.viewsAt s.gts)⟩ })
  if v < old then { s with mgmt := { s.mgmt with wraps := s.mgmt.wraps ++ [(s.tagOf n, some n, c.val, (s.part (s.tagOf n)).resident, s.gts)] } } else s

/-! ### Causes (R11) -/

/-- No cause: what the model answers for an access that reads nothing yet because a line it needs is held (R386, R397). The
instruction or unit that makes it waits. -/
def cHeld : BitVec 8 := 0x00
def cIllegal : BitVec 8 := 0x01
def cReserved : BitVec 8 := 0x02
def cPriv : BitVec 8 := 0x03
def cEngineNotOwned : BitVec 8 := 0x04
def cStackUnderflow : BitVec 8 := 0x08
def cStackOverflow : BitVec 8 := 0x09
def cHdrIntegrity : BitVec 8 := 0x10
def cHdrMismatch : BitVec 8 := 0x11
def cHdrUnsupported : BitVec 8 := 0x12
def cFootprint : BitVec 8 := 0x14
def cFootprintRead : BitVec 8 := 0x15
def cRatio : BitVec 8 := 0x18
def cTranslation : BitVec 8 := 0x20
def cPermission : BitVec 8 := 0x21
def cBounds : BitVec 8 := 0x22
def cHandleStale : BitVec 8 := 0x23
def cAlign : BitVec 8 := 0x24
def cMemUe : BitVec 8 := 0x28
def cChecksum : BitVec 8 := 0x29
def cLogOverflow : BitVec 8 := 0x30
def cStampOverflow : BitVec 8 := 0x31
def cReplayDiverge : BitVec 8 := 0x32
def cBreak : BitVec 8 := 0x38
def cTrap : BitVec 8 := 0x39
def cDouble : BitVec 8 := 0x3A
def cPreempt : BitVec 8 := 0x40

/-- A trap that states nothing in TADDR and TINFO (R322). -/
def plainTrap (c : BitVec 8) : TrapInfo := ⟨c, 0, 0⟩

def addrTrap (c : BitVec 8) (a : Word) : TrapInfo := ⟨c, a, 0⟩

/-- An access waits for line `pa`: nothing is raised (R386, R390, R397). -/
def heldAt (pa : Nat) : TrapInfo := addrTrap cHeld (BitVec.ofNat 64 pa)

/-- An access waits, but for no line. -/
def heldTrap : TrapInfo := addrTrap cHeld (BitVec.allOnes 64)

/-- An access waits for the line of a place. -/
def heldOf (l : Loc) : TrapInfo := ((Loc.home? l).map heldAt).getD heldTrap

/-- The 26 causes of R11, the only ones that the device reports. -/
def listedCauses : List (BitVec 8) :=
  [cIllegal, cReserved, cPriv, cEngineNotOwned, cStackUnderflow, cStackOverflow, cHdrIntegrity, cHdrMismatch, cHdrUnsupported,
   cFootprint, cFootprintRead, cRatio, cTranslation, cPermission, cBounds, cHandleStale, cAlign, cMemUe, cChecksum,
   cLogOverflow, cStampOverflow, cReplayDiverge, cBreak, cTrap, cDouble, cPreempt]

def word (n : Nat) : Word := BitVec.ofNat 64 n

/-! ### Logs (R358 to R364) -/

/-- The limit that a log's BASE and SIZE give (R358, R370). -/
def LogRegs.limit (r : LogRegs) : Nat := r.base.toNat + 2 ^ r.size * 4096

/-- The outcome of a reservation: the log is disabled, a slot, or no room (R359). -/
inductive Reserved where
  | off
  | slot (addr : Word) (regs : LogRegs)
  | full (regs : LogRegs)
  deriving DecidableEq, Repr

/-- The reservation of R359 on one log's registers. -/
def LogRegs.reserve (r : LogRegs) : Reserved :=
  if !r.en then .off
  else if r.full || decide (r.lim < r.ptr.toNat + 32) then .full { r with full := true }
  else .slot r.ptr { r with ptr := r.ptr + 32 }

def State.logRegs (s : State) (p : PartId) (mo : Bool) : LogRegs := if mo then (s.part p).mo else (s.part p).sched

def State.setLogRegs (s : State) (p : PartId) (mo : Bool) (r : LogRegs) : State :=
  s.modPart p (fun x => if mo then { x with mo := r } else { x with sched := r })

/-- The trap of a strand whose reservation finds no room (R359). -/
def logOverflow (ptr : Word) (src : Nat) (mo : Bool) : TrapInfo := ⟨cLogOverflow, ptr, word (src + mo.toNat * 512)⟩

/-- All ones of SPO and SEQ (R359, R362). -/
def noSpo : Nat := 0xFFFFFF

/-- Word 1 of a record (R362). -/
def recordWord1 (src type : Nat) (mo : Bool) (spo seq : Nat) : Word :=
  word (src <<< 55 + type <<< 49 + mo.toNat <<< 48 + (spo % 2 ^ 24) <<< 24 + seq % 2 ^ 24)

/-- A reserved record's event happens now: its record is ready to be written into its slot, and the recorded record it
repeats has been performed (R359, R361, R367). -/
def State.logEvent (s : State) (p : PartId) (l : LogSlot) : State :=
  s.modPart p (fun x => { x with
    ready := match l.addr with
      | some a => x.ready ++ [⟨a, [word s.gts, recordWord1 l.src l.type l.mo l.spo l.seq, l.w2, l.w3], false⟩]
      | none => x.ready
    repPerformed := match l.rep with
      | some i => x.repPerformed ++ [i]
      | none => x.repPerformed })

/-- The void record of a reservation, if it has a slot (R359). -/
def LogSlot.void (l : LogSlot) (gts : Nat) : Option Record :=
  l.addr.map (fun a => ⟨a, [word gts, recordWord1 l.src 0 l.mo noSpo (2 ^ 24 - 1), 0, 0], false⟩)

/-- A reserved record whose event never happens: a void record takes its slot (R359). -/
def State.logVoid (s : State) (p : PartId) (l : LogSlot) : State :=
  s.modPart p (fun x => { x with ready := x.ready ++ (l.void s.gts).toList })

/-- The event of an optional record. -/
def State.logEvent? (s : State) (p : PartId) : Option LogSlot → State
  | some l => s.logEvent p l
  | none => s

def State.logVoid? (s : State) (p : PartId) : Option LogSlot → State
  | some l => s.logVoid p l
  | none => s

/-- The number of a strand's next record in a log: in the memory-order log the least one given up, if there is one (R357, R359). -/
def Strand.count (t : Strand) (mo : Bool) : Nat := if mo then (t.moFree.min?).getD t.moCount else t.schedCount

/-- The number is taken. -/
def Strand.countUp (t : Strand) (mo : Bool) : Strand :=
  if mo then
    match t.moFree.min? with
    | some k => { t with moFree := t.moFree.erase k }
    | none => { t with moCount := t.moCount + 1 }
  else { t with schedCount := t.schedCount + 1 }

/-- The count goes back past the numbers at its end that are given up; `fuel` bounds how far. -/
def trimCount (count : Nat) (free : List Nat) : Nat → Nat × List Nat
  | 0 => (count, free)
  | fuel + 1 => if count ≠ 0 ∧ free.contains (count - 1) then trimCount (count - 1) (free.erase (count - 1)) fuel else (count, free)

/-- A count and its free numbers once `seqs` are given up (R357). -/
def giveUpNumbers (count : Nat) (free seqs : List Nat) : Nat × List Nat := trimCount count (free ++ seqs) (free ++ seqs).length

/-- Records of the memory-order log give up their numbers (R357). -/
def Strand.giveUp (t : Strand) (seqs : List Nat) : Strand :=
  let r := giveUpNumbers t.moCount t.moFree seqs
  { t with moCount := r.1, moFree := r.2 }

/-- A strand's reservation at dispatch: its record's slot with its SEQ, or the trap and the state with FULL set (R357,
R359). While the log is disabled a replay still counts its events (R367). -/
def State.reserveStrand (s : State) (n : StrandId) (mo : Bool) (type : Nat) (w2 w3 : Word) (rep : Option Nat) :
    Except (TrapInfo × State) (Option LogSlot × State) :=
  let p := s.tagOf n
  let t := s.strand n
  let slot (a : Option Word) : LogSlot := ⟨mo, a, rep, n.val, type, t.spo.getD noSpo, t.count mo, w2, w3⟩
  match (s.logRegs p mo).reserve with
  | .off => .ok (if (s.logRegs p mo).rpl then (some (slot none), s.modStrand n (fun t => t.countUp mo)) else (none, s))
  | .full r => .error (logOverflow r.ptr n.val mo, s.setLogRegs p mo r)
  | .slot a r => .ok (some (slot (some a)), (s.setLogRegs p mo r).modStrand n (fun t => t.countUp mo))

/-- The source number of a partition's sequencer (R356). -/
def seqSource (p : PartId) : Nat := 256 + p.val

/-- A sequencer decision's record, reserved and made at once; none when the log has no room (R267, R359). -/
def State.logDecision (s : State) (p : PartId) (type : Nat) (w2 w3 : Word) : Option State :=
  let x := s.part p
  match x.sched.reserve with
  | .off => some s
  | .full _ => none
  | .slot a r =>
    let s := (s.setLogRegs p false r).modPart p (fun x => { x with seqCount := x.seqCount + 1 })
    some (s.logEvent p ⟨false, some a, none, seqSource p, type, noSpo, x.seqCount, w2, w3⟩)

/-- A sequencer decision that finds no room: FULL is set, the walker stalls, and LOG_OVERFLOW waits at the service strand of
a context (R267, R326, R359). -/
def State.stallSequencer (s : State) (p : PartId) (c : Nat) : State :=
  let x := s.part p
  let s := s.modPart p (fun x => { x with sched := { x.sched with full := true }, stalled := true })
  if x.stalled then s
  else match s.ctx? c with
    | some k => s.modStrand k.service (fun t => { t with async := t.async ++ [logOverflow x.sched.ptr (seqSource p) false] })
    | none => s

/-- A decision that is made whether or not its record finds room (R326; the end of a context, R325). -/
def State.logDecision! (s : State) (p : PartId) (type : Nat) (w2 w3 : Word) : State :=
  match s.logDecision p type w2 w3 with
  | some s => s
  | none => s.modPart p (fun x => { x with sched := { x.sched with full := true } })

/-! ### The logs of a virtual function that is not resident (R347, R358) -/

/-- The context's virtual function is resident on its partition. -/
def State.isResident (s : State) (k : Ctx) : Bool := (s.part k.part).resident.isNone || (s.part k.part).resident == some k.vf

def State.savedVf (s : State) (v : VfId) : Option VfState := (s.mgmt.vfs.find? (fun b => b.vf == v)).bind (·.saved)

def State.modSaved (s : State) (v : VfId) (f : VfState → VfState) : State :=
  { s with mgmt := { s.mgmt with vfs := s.mgmt.vfs.map (fun b => if b.vf = v then { b with saved := b.saved.map f } else b) } }

/-- A sequencer decision about a launch of the virtual function, in its own log (R358, R363); none where the log has no room. -/
def VfState.logDecision (v : VfState) (gts : Nat) (p : PartId) (type : Nat) (w2 w3 : Word) : Option VfState :=
  match v.sched.reserve with
  | .off => some v
  | .full _ => none
  | .slot a r => some { v with
      sched := r, seqCount := v.seqCount + 1,
      ready := v.ready ++ [⟨a, [word gts, recordWord1 (seqSource p) type false noSpo v.seqCount, w2, w3], false⟩] }

/-- A reserved record of the virtual function becomes a void one, and its number is free again (R357, R359). -/
def VfState.void (v : VfState) (gts : Nat) (n : StrandId) (l : LogSlot) : VfState :=
  { v with
    ready := v.ready ++ (l.void gts).toList,
    strands := v.strands.map (fun e =>
      if e.strand = n then
        let r := giveUpNumbers e.moCount e.moFree [l.seq]
        { e with moCount := r.1, moFree := r.2 }
      else e) }

/-! ### Ownership (R338, R385) -/

/-- How many frames two runs share. -/
def runOverlap (a la b lb : Nat) : Nat := min (a + la) (b + lb) - max a b

/-- Every frame of a run is owned by a partition and a context (R338). -/
def State.framesOwned (s : State) (p : PartId) (c : Nat) (frame count : Nat) : Bool :=
  ((s.mgmt.owners.filter (fun e => e.part == p && e.ctx == some c)).foldl
    (fun acc e => acc + runOverlap e.frame e.count frame count) 0) == count

/-- The run that owns a frame. -/
def State.ownerOf? (s : State) (frame : Nat) : Option OwnEntry :=
  s.mgmt.owners.find? (fun e => decide (e.frame ≤ frame) && decide (frame < e.frame + e.count))

/-- A run of frames taken out of the table, the runs around it kept. -/
def removeFrames (es : List OwnEntry) (frame count : Nat) : List OwnEntry :=
  (es.map (fun e =>
    let e1 := e.frame + e.count
    let f1 := frame + count
    if runOverlap e.frame e.count frame count = 0 then [e]
    else
      (if e.frame < frame then [{ e with count := frame - e.frame }] else []) ++
      (if f1 < e1 then [{ e with frame := f1, count := e1 - f1 }] else []))).flatten

/-! ### Translation (R335 to R337, R341) -/

/-- The index of a level (R335). -/
def pageIndex (va lvl : Nat) : Nat :=
  match lvl with
  | 0 => bits va 48 9 | 1 => bits va 39 9 | 2 => bits va 30 9 | 3 => bits va 21 9 | _ => bits va 16 5

/-- The size of a page at a level (R335). -/
def pageSize (lvl : Nat) : Nat := if lvl = 2 then 2 ^ 30 else if lvl = 3 then 2 ^ 21 else 2 ^ 16

/-- The bytes of a table at a level (R335). -/
def tableBytes (lvl : Nat) : Nat := if lvl = 4 then 256 else 4096

def State.cohN (s : State) (a : Nat) : Nat → List Byte
  | 0 => []
  | k + 1 => s.coh a :: s.cohN (a + 1) k

/-- The frames that hold `len` bytes at a physical address exist and are the context's (R334, R338). -/
def State.bytesOwned (s : State) (c : Ctx) (a len : Nat) : Bool :=
  (homeDie a).isSome && (homeDie (a + len - 1)).isSome &&
  s.framesOwned c.part c.num (a / 65536) ((a + len - 1) / 65536 - a / 65536 + 1)

/-- The walk of R337 from a level with `fuel` levels left; none is TRANSLATION. -/
def State.walkFrom (s : State) (c : Ctx) (va : Nat) : Nat → Nat → Nat → Option TlbEntry
  | 0, _, _ => none
  | fuel + 1, lvl, t =>
    if !s.bytesOwned c t (tableBytes lvl) then none
    else
      let e := bytesNat (s.cohN (t + 8 * pageIndex va lvl) 8)
      let pa := bits e 12 40
      let sub := bits e 8 4
      if bits e 0 1 = 0 || bits e 52 12 ≠ 0 then none
      else if bits e 1 1 = 0 then
        if lvl = 4 || bits e 2 6 ≠ 0 || (lvl ≠ 3 && sub ≠ 0) then none
        else s.walkFrom c va fuel (lvl + 1) (pa * 4096 + (if lvl = 3 then sub * 256 else 0))
      else if lvl < 2 || sub ≠ 0 then none
      else
        let size := pageSize lvl
        let page := pa * 4096
        let ddp := bits e 7 1 = 1
        if page % size ≠ 0 || (ddp && !isSecondTier page) || !s.bytesOwned c page size then none
        else some ⟨c.num, va / size * size, size, page, bits e 2 1 = 1, bits e 3 1 = 1, bits e 4 1 = 1, bits e 5 1 = 1,
          bits e 6 1 = 1, ddp⟩

/-- The line at which the walk of R337 waits: a table entry's line that no access may read now, or whose error is to be found first
(R386, R390, R397). -/
def State.walkDueFrom (s : State) (c : Ctx) (va : Nat) : Nat → Nat → Nat → Option Nat
  | 0, _, _ => none
  | fuel + 1, lvl, t =>
    let at_ := t + 8 * pageIndex va lvl
    if !s.bytesOwned c t (tableBytes lvl) then none
    else if s.lineDue at_ then some (lineOf at_)
    else
      let e := bytesNat (s.cohN at_ 8)
      if bits e 0 2 = 1 && bits e 52 12 = 0 && lvl ≠ 4 && bits e 2 6 = 0 && (lvl = 3 || bits e 8 4 = 0) then
        s.walkDueFrom c va fuel (lvl + 1) (bits e 12 40 * 4096 + (if lvl = 3 then bits e 8 4 * 256 else 0))
      else none

def State.walkDue (s : State) (c : Ctx) (va : Word) : Option Nat :=
  if va.toNat < 2 ^ 57 then s.walkDueFrom c va.toNat 5 0 c.ptroot else none

def State.walkHeld (s : State) (c : Ctx) (va : Word) : Bool := (s.walkDue c va).isSome

/-- The walk of a global virtual address in a context (R335, R337). -/
def State.walk (s : State) (c : Ctx) (va : Word) : Option TlbEntry :=
  if va.toNat ≥ 2 ^ 57 then none else s.walkFrom c va.toNat 5 0 c.ptroot

/-- What an access needs of its page (R336). -/
inductive Need where | read | write | exec
  deriving DecidableEq, Repr

def TlbEntry.covers (e : TlbEntry) (c : Nat) (va : Nat) : Bool :=
  e.ctx == c && decide (e.va ≤ va) && decide (va < e.va + e.size)

/-- A cached translation, else a walk (R341: either may serve an access until TLB_INVAL). -/
def State.lookup (s : State) (tlb : List TlbEntry) (c : Ctx) (va : Word) : Option TlbEntry :=
  match tlb.find? (fun e => e.covers c.num va.toNat) with
  | some e => some e
  | none => s.walk c va

/-- The rights a page gives an access of a strand or an engine (R337). -/
def TlbEntry.allows (e : TlbEntry) : Need → Bool
  | .read => e.rd && !e.dev
  | .write => e.w && !e.dev
  | .exec => e.x && !e.dev

/-- The rights a page gives the tile store: its device-only pages alone, which firmware has mapped writable (R87, R336, R337). -/
def TlbEntry.allowsTiles (e : TlbEntry) : Need → Bool
  | .read => e.dev && e.rd
  | .write => e.dev && e.w
  | .exec => false

/-- MEM_UE of an indirection entry (R384, R389). -/
def indirectionTrap (a : Word) : TrapInfo := ⟨cMemUe, a, 3⟩

/-- The line of a DDP page lies under a poisoned block of indirection entries, and the access reads it or needs its entry
(R389). -/
def State.blockPoisoned (s : State) (e : TlbEntry) (need : Need) (pa : Nat) : Bool :=
  e.ddp && s.mgmt.poisonedBlocks.contains (blockOf pa) && (need != .write || (s.scLine? pa).isNone)

/-- A translated access under the rights `ok`: TRANSLATION, then PERMISSION, then MEM_UE for a poisoned block of indirection
entries or a poisoned frame (R337, R385, R389). (Log entry 24, DEDUCED, safe.) -/
def State.translateAs (s : State) (tlb : List TlbEntry) (c : Ctx) (ok : TlbEntry → Need → Bool) (need : Need) (va : Word) :
    Except TrapInfo (Nat × TlbEntry) :=
  match (if tlb.any (fun e => e.covers c.num va.toNat) then none else s.walkDue c va) with
  | some pa => .error (heldAt pa)
  | none =>
    match s.lookup tlb c va with
    | none => .error (addrTrap cTranslation va)
    | some e =>
      let pa := e.pa + (va.toNat - e.va)
      if !ok e need then .error (addrTrap cPermission va)
      else if s.blockPoisoned e need pa then .error (indirectionTrap va)
      else if s.mgmt.poisoned.contains (pa / 65536) then .error ⟨cMemUe, va, 2⟩
      else .ok (pa, e)

/-- A translated access of a strand or an engine (R337). -/
def State.translate (s : State) (tlb : List TlbEntry) (c : Ctx) (need : Need) (va : Word) : Except TrapInfo (Nat × TlbEntry) :=
  s.translateAs tlb c TlbEntry.allows need va

/-! ### Windows (R25) -/

/-- Which window an address lies in, with R25's precedence (R129's codes). -/
inductive Region where | none | core | pod | fabric
  deriving DecidableEq, Repr

def inWindow (base : Word) (size : Nat) (a : Word) : Bool := decide (base.toNat ≤ a.toNat) && decide (a.toNat < base.toNat + size)

def locSize : Nat := 2 ^ 16
def podSize : Nat := 2 ^ 20
def fabSize : Nat := 2 ^ 48

def Ctx.region (c : Ctx) (a : Word) : Region :=
  if inWindow c.aploc locSize a then .core
  else if inWindow c.appod podSize a then .pod
  else if inWindow c.apfab fabSize a then .fabric
  else .none

/-- The window's base and size. -/
def Ctx.window (c : Ctx) : Region → Word × Nat
  | .core => (c.aploc, locSize)
  | .pod => (c.appod, podSize)
  | .fabric => (c.apfab, fabSize)
  | .none => (0, 0)

/-- Where the strands' backing regions of a context lie, 256 MiB each (R87). The spec gives them no address: from 2^55 up, in
strand order, is the model's choice. (Log entry 39, DESIGN CHOICE, unsafe.) -/
def stackRegion : Nat := 2 ^ 55

def stackBase (n : StrandId) : Word := word (stackRegion + n.val * 2 ^ 28)

/-- An address of some strand's backing region of the context. -/
def inBacking (a : Word) : Bool := decide (stackRegion ≤ a.toNat) && decide (a.toNat < stackRegion + 256 * 2 ^ 28)

/-- The AREA code and line number of an address for the memory-order log (R364). -/
def Ctx.logPlace (c : Ctx) (a : Word) : Nat × Nat :=
  match c.region a with
  | .none => (0, bits a.toNat 7 50)
  | .core => (1, (a.toNat - c.aploc.toNat) / 128)
  | .pod => (2, (a.toNat - c.appod.toNat) / 128)
  | .fabric => (3, (a.toNat - c.apfab.toNat) / 128)

/-- Who makes an access: the control core or vector engine, or a load, store or copy engine of the Pod (R25). -/
inductive Actor where | core | engine
  deriving DecidableEq, Repr

def State.tlbOf (s : State) (n : StrandId) : Actor → List TlbEntry
  | .core => (s.strand n).tlb
  | .engine => (s.pod (podOf n)).tlb

/-- The partition that runs a tenant: one that owns a control core (log entry 36, DEDUCED, unsafe). -/
def State.tenantPart (s : State) (tenant : Nat) : Option PartId :=
  (List.ofFn (fun i : Fin 48 => i)).find? (fun p => (s.mgmt.layout.tenants.getD p.val 0).toNat == tenant &&
    (List.ofFn (fun i : Fin 256 => i)).any (fun n => s.partOf n == some p))

/-- A partition's export context, while it lives (R344). -/
def State.exporter? (s : State) (p : PartId) : Option Ctx := ((s.part p).exportCtx.bind s.ctx?).filter (·.live)

/-- The export context that a strand's accesses to its own package's node reach (R344). (Log entry 25, DEDUCED, unsafe.) -/
def State.ownExport? (s : State) (n : StrandId) : Option Ctx :=
  (s.tenantPart (s.mgmt.layout.tenants.getD (s.tagOf n).val 0).toNat).bind s.exporter?

/-- The physical address behind an offset of the fabric window that names this package. -/
def State.exportAddr (s : State) (n : StrandId) (f : Nat) : Option Nat :=
  (s.ownExport? n).bind (fun k =>
    let va := 2 ^ 56 + f % 2 ^ 36
    (s.walk k (word va)).map (fun e => e.pa + (va - e.va)))

/-- The place behind offset `f` of the fabric window, and the home package's answer: this package's own page tables where it
is the target, the other package's answer elsewhere (R344). -/
def State.fabricPlace (s : State) (n : StrandId) (f : Nat) (need : Need) (a : Word) :
    Except TrapInfo (Loc × Option TlbEntry) :=
  if f / 2 ^ 36 = Config.nodeNumber.toNat then
    match s.ownExport? n with
    | none => .error (addrTrap cPermission a)
    | some k => match s.translate [] k need (word (2 ^ 56 + f % 2 ^ 36)) with
      | .error t => .error { t with addr := a }
      | .ok (pa, e) => .ok (.fab f (some pa), some e)
  else match Config.remoteAnswer s.ticks (f / 2 ^ 36) (f % 2 ^ 36) with
    | 0 => .ok (.fab f none, none)
    | 1 => .error (addrTrap cTranslation a)
    | _ => .error (addrTrap cPermission a)

/-- A byte's place for an access of a strand or its engines: windows first, the backing region refused, then translation.
Crossing a window's end is the caller's check (R25, R87, R220, R344). -/
def State.place (s : State) (n : StrandId) (c : Ctx) (who : Actor) (need : Need) (a : Word) :
    Except TrapInfo (Loc × Option TlbEntry) :=
  match c.region a with
  | .core => if who = .engine then .error (addrTrap cPermission a) else .ok (.loc c.num (a.toNat - c.aploc.toNat), none)
  | .pod => .ok (.scratch (podOf n) (a.toNat - c.appod.toNat), none)
  | .fabric =>
    s.fabricPlace n (a.toNat - c.apfab.toNat) need a
  | .none =>
    if inBacking a then .error (addrTrap cPermission a)
    else match s.translate (s.tlbOf n who) c need a with
      | .ok (pa, e) => .ok (.glob pa, some e)
      | .error t => .error t

/-- A DDP page that an access has met is remembered (R348). -/
def State.noteDdp (s : State) (e : Option TlbEntry) : State :=
  match e with
  | some e => if e.ddp && !s.ddpPages.contains (e.pa, e.size) then { s with ddpPages := s.ddpPages ++ [(e.pa, e.size)] } else s
  | none => s

/-! ### Tiles (R74 to R76, R370, R371) -/

def Strand.tile? (t : Strand) (id : Nat) : Option TileRec := t.tiles.find? (fun r => r.id == id)

def Strand.modTile (t : Strand) (id : Nat) (f : TileRec → TileRec) : Strand :=
  { t with tiles := t.tiles.map (fun r => if r.id = id then f r else r) }

/-- The lowest-numbered free identity (R75). -/
def Strand.freeId? (t : Strand) : Option Nat := (List.range 1024).find? (fun i => (t.tile? i).isNone)

/-- The reference count of R76: the references of the image and the operands of uncompleted instructions. -/
def Strand.refCount (t : Strand) (id : Nat) : Nat :=
  t.image.count id + ((t.entries.filter (fun e => e.stage != .done)).map (fun e => e.tiles.count id)).sum

/-- A tile that an unwind could still reach: the checkpoint of an instruction that has not passed its last fault point
references it (R91, R92). -/
def Strand.reachable (t : Strand) (id : Nat) : Bool :=
  t.entries.any (fun e => e.stage != .done && (!e.passed) && e.ckpt.image.contains id)

/-- A result is set full now (R80). -/
def State.setFull (s : State) (n : StrandId) (id : Nat) (x : Tile) : State :=
  s.modStrand n (fun t => t.modTile id (fun r =>
    { r with full := true, hdr := some x.hdr, tile := some x,
             stamp := r.stamp.map (fun st => { st with full := s.gts, last := if st.ckind = 0 then s.gts else st.last }) }))

/-- The finished tile of TEND, and of a HALT with an open tile: every unwritten cell is +0 (R195). -/
def OpenTile.close (o : OpenTile) : Tile :=
  Tile.ofCells o.hdr ((List.range o.hdr.rows).map (fun r =>
    let row := o.cells.getD r []
    row ++ List.replicate (o.hdr.cols - row.length) 0))

def sat32 (n : Nat) : Nat := min n (2 ^ 32 - 1)

/-- The stamp record of a tile that retires now (R371). -/
def stampRecord (n : StrandId) (gts : Nat) (r : TileRec) (st : Stamp) : Record :=
  let c := if st.ckind = 0 then st.full else st.last
  ⟨st.addr, [word (n.val <<< 55 + r.id <<< 45 + st.pkind <<< 42 + st.ckind <<< 39 + (st.spo % 2 ^ 24) <<< 15 +
      (match r.hdr with
        | some h => h.fmt.code
        | none => 0) <<< 10),
    word st.disp, word (sat32 (st.start - st.disp) <<< 32 + sat32 (st.full - st.start)),
    word (sat32 (c - st.full) <<< 32 + sat32 (gts - c))], true⟩

/-- The void stamp of a reservation whose tile an unwind released (R370). -/
def voidStamp (n : StrandId) (st : Stamp) (id : Nat) : Record := ⟨st.addr, [word (n.val <<< 55 + id <<< 45), word st.disp, 0, 0], true⟩

def State.addRecord (s : State) (p : PartId) (r : Record) : State := s.modPart p (fun x => { x with ready := x.ready ++ [r] })

/-- Every full tile of the strand whose count is zero retires (R76), unless an unwind could still reach it. -/
def State.sweep (s : State) (n : StrandId) : State :=
  let t := s.strand n
  let dead := t.tiles.filter (fun r => r.full && t.refCount r.id == 0 && !t.reachable r.id)
  let s := dead.foldl (fun s r => match r.stamp with
    | some st => s.addRecord (s.tagOf n) (stampRecord n s.gts r st)
    | none => s) s
  s.modStrand n (fun t => { t with tiles := t.tiles.filter (fun r => !(dead.any (fun d => d.id == r.id))) })

/-! ### The lease (R317) -/

/-- The lease leaves its holder for a reason of R363, logged as a scheduler decision first. Where the log has no room the decision
is not made: the sequencer stalls, and the surrender is owed until the log has room (R267, R359). -/
def State.surrenderLease (s : State) (pod : PodId) (reason : Nat) : State :=
  let l := (s.pod pod).lease
  match l.holder with
  | none => s
  | some h =>
    let p := (ownerOf (s.mgmt.layout.mats.getD pod.val 0xFF)).getD (s.tagOf h)
    match s.logDecision p 0x05 (word (pod.val <<< 56 + reason <<< 12 + h.val)) (word l.done) with
    | some s => s.modPod pod (fun x => { x with lease := ⟨none, 0, 0, 0, none⟩ })
    | none => (s.stallSequencer p ((s.strand h).ctx.getD 0)).modPod pod (fun x => { x with lease := { x.lease with owed := some reason } })

def State.surrenderIfHeld (s : State) (n : StrandId) (reason : Nat) : State :=
  if (s.pod (podOf n)).lease.holder = some n then s.surrenderLease (podOf n) reason else s

/-! ### Tokens (R15) -/

/-- The counter of an ordered pair, in the order of R15: L>M, M>V, V>S, S>L, M>L, V>M, S>V, L>S. -/
def tokenIndex (src dst : QName) : Fin 8 :=
  match src, dst with
  | .L, .M => 0 | .M, .V => 1 | .V, .S => 2 | .S, .L => 3 | .M, .L => 4 | .V, .M => 5 | .S, .V => 6 | .L, .S => 7
  | _, _ => 0

def QName.succ : QName → QName
  | .L => .M | .M => .V | .V => .S | .S => .L

def QName.pred : QName → QName
  | .L => .S | .M => .L | .V => .M | .S => .V

/-- The counters an instruction's TOK pops in a queue (R15). -/
def tokPops (q : QName) (tok : BitVec 4) : List (Fin 8) :=
  (if tok.getLsbD 3 then [tokenIndex (QName.pred q) q] else []) ++ (if tok.getLsbD 2 then [tokenIndex (QName.succ q) q] else [])

/-- The counters an instruction's TOK pushes in a queue (R15). -/
def tokPushes (q : QName) (tok : BitVec 4) : List (Fin 8) :=
  (if tok.getLsbD 1 then [tokenIndex q (QName.pred q)] else []) ++ (if tok.getLsbD 0 then [tokenIndex q (QName.succ q)] else [])

def Strand.token (t : Strand) (i : Fin 8) : Nat := t.tokens[i.val]'i.isLt

def Strand.setToken (t : Strand) (i : Fin 8) (v : Nat) : Strand := { t with tokens := t.tokens.set i.val v i.isLt }

/-- The pushes of a queue's completed instructions that can be made now, in the queue's program order: a push waits while its
counter is at 15, and every later one of the queue waits behind it (R15). `es` are the entries still to look at, oldest
first. -/
def flushPushes (tokens : Vector Nat 8) : List QEntry → Vector Nat 8 × List QEntry
  | [] => (tokens, [])
  | e :: es =>
    if e.pushes.isEmpty then
      let (tk, r) := flushPushes tokens es
      (tk, e :: r)
    else if e.stage != .done then (tokens, e :: es)
    else
      let go := e.pushes.filter (fun i => decide (tokens[i.val] < 15))
      let tk := Vector.ofFn (fun i : Fin 8 => if go.contains i then tokens[i.val] + 1 else tokens[i.val])
      let e' := { e with pushes := e.pushes.filter (fun i => !go.contains i), pushed := e.pushed ++ go }
      if e'.pushes.isEmpty then
        let (tk, r) := flushPushes tk es
        (tk, e' :: r)
      else (tk, e' :: es)

def Strand.flushQueue (t : Strand) (q : QName) : Strand :=
  let (tk, es) := flushPushes t.tokens (t.queue q)
  { t with tokens := tk, queues := t.queues.set (QName.index q).val es (QName.index q).isLt }

/-! ### Writing through a context's page tables -/

/-- One 8-byte store at domain scope through a context's page tables; an error is a failed translation or permission, or a line to
wait for (R264, R360, R390, R397). -/
def State.storeVa (s : State) (c : Ctx) (a : Word) (w : Word) : Except TrapInfo State :=
  match s.translate [] c .write a with
  | .error t => .error t
  | .ok (pa, e) => if s.blocked (.glob pa) then .error (heldAt pa) else .ok ((s.noteDdp (some e)).writeLine pa c.part (natBytes 8 w.toNat))

/-- Bytes stored through a context's page tables. -/
def State.storeBytesVa (s : State) (c : Ctx) (a : Word) : List Byte → Except TrapInfo State
  | [] => .ok s
  | b :: bs =>
    match s.translate [] c .write a with
    | .error t => .error t
    | .ok (pa, e) =>
      if s.blocked (.glob pa) then .error (heldAt pa) else ((s.noteDdp (some e)).writeLine pa c.part [b]).storeBytesVa c (a + 1) bs

/-- Bytes read through a context's page tables. -/
def State.loadBytesVa (s : State) (c : Ctx) (a : Word) : Nat → Except TrapInfo (List Byte)
  | 0 => .ok []
  | k + 1 =>
    match s.translate [] c .read a with
    | .error t => .error t
    | .ok (pa, _) => if s.lineDue pa then .error (heldAt pa) else match s.loadBytesVa c (a + 1) k with
      | .ok bs => .ok (s.coh pa :: bs)
      | .error e => .error e

/-! ### Launches -/

/-- A launch's STATE codes (R264). -/
def stAccepted : Nat := 1
def stRunning : Nat := 2
def stDone : Nat := 3
def stRefused : Nat := 4
def stKilled : Nat := 5
def stSuspended : Nat := 6

/-- The 8-byte word of a record's copy. -/
def Launch.w64 (l : Launch) (off : Nat) : Nat := bytesNat ((l.record.drop off).take 8)

/-- The iterations that have ended (R257, R264). -/
def Launch.ended (l : Launch) : Nat := l.endedSet.length

/-- STATUS of a launch (R264). -/
def Launch.status (l : Launch) (state err : Nat) : Word := word (state <<< 60 + err <<< 56 + l.ended % 2 ^ 48)

/-- The status words of a launch written through its context's page tables: TDONE for a final state, then EARLY and SKIPS,
SUPP, and STATUS last (R264). -/
def State.writeStatus (s : State) (l : Launch) (state err : Nat) : Except TrapInfo State :=
  match s.ctx? l.ctx with
  | none => .ok s
  | some c => do
    let s ← if state = stDone || state = stRefused || state = stKilled then s.storeVa c (l.addr + 8) (word s.gts)
      else .ok s
    let s ← s.storeVa c (l.addr + 0x10) (word ((l.early % 2 ^ 32) <<< 32 + l.skips % 2 ^ 32))
    let s ← s.storeVa c (l.addr + 0x18) (word l.supp)
    s.storeVa c l.addr (l.status state err)

def State.slot (s : State) (p : PartId) (k : Fin 4) : Option Launch := (s.part p).slots[k.val]'k.isLt

def State.setSlot (s : State) (p : PartId) (k : Fin 4) (l : Option Launch) : State :=
  s.modPart p (fun x => { x with slots := x.slots.set k.val l k.isLt })

def State.modLaunch (s : State) (p : PartId) (k : Fin 4) (f : Launch → Launch) : State := s.setSlot p k ((s.slot p k).map f)

/-- The launch a strand works for. -/
def State.launchOf (s : State) (n : StrandId) : Option Launch := (s.strand n).launch.bind (fun pk => s.slot pk.1 pk.2)

/-! ### Ending a strand's work -/

/-- The strand as the walker finds it free: its state is the next launch's to set (R18); its lock list, its cached
translations, its logs' counts and its counters stay. -/
def Strand.freed (t : Strand) : Strand :=
  { Strand.reset with tlb := t.tlb, moCount := t.moCount, moFree := t.moFree, schedCount := t.schedCount, counters := t.counters,
                      views := t.views, vstat := t.vstat, cq := t.cq, ib := t.ib, nseq := t.nseq, ctx := t.ctx,
                      s := t.s, p := t.p, k := t.k, v := t.v, pc := t.pc, async := t.async, locks := t.locks,
                      tags := t.tags, idx := t.idx, ext := t.ext, ordinal := t.ordinal, stkbase := t.stkbase,
                      qmin := t.qmin, qcap := t.qcap, stklim := t.stklim, tsquota := t.tsquota, spo := t.spo, traps := t.traps }

/-- Void records for the reserved slots of a strand's discarded accesses (R359), which give up their numbers (R357). -/
def State.voidLogs (s : State) (n : StrandId) (ls : List (Option LogSlot)) : State :=
  let s := ls.foldl (fun s l => s.logVoid? (s.tagOf n) l) s
  s.modStrand n (fun t => t.giveUp (ls.filterMap (fun l => l.map (·.seq))))

/-- The record that a waiting BAR of the strand has reserved is voided: the BAR has not happened (R359). -/
def State.withdrawBar (s : State) (n : StrandId) : State :=
  let s := s.voidLogs n (s.strand n).barLog.toList
  s.modStrand n (fun t => { t with barLog := none })

/-- A strand's writes that stand in its buffers and that `keep` refuses are discarded, with their records and the L1 copies of
their lines (R91, R359). -/
def State.dropWrites (s : State) (n : StrandId) (keep : Write → Bool) : State :=
  let gone := (s.flying n).filter (fun w => !keep w)
  let s := s.voidLogs n (gone.map (·.log))
  let stays := fun (w : Write) => w.strand != n || keep w
  let s := s.modPod (podOf n) (fun x => { x with pb := x.pb.filter stays })
  let s := { s with ft := s.ft.filter stays }
  s.modStrand n (fun t => { t with
    ib := t.ib.filter stays
    l1 := t.l1.filter (fun c => !gone.any (fun w => Loc.line? w.loc == some c.line)) })

/-- Void stamps for the tiles of a list of identities, which an unwind releases (R370). -/
def State.voidStamps (s : State) (n : StrandId) (ids : List Nat) : State :=
  ids.foldl (fun s id => match ((s.strand n).tile? id).bind (·.stamp) with
    | some st => s.addRecord (s.tagOf n) (voidStamp n st id)
    | none => s) s

/-- The stamps of tiles that a strand gives up: a full one retires with its record, another's slot gets a void stamp (R76,
R370). -/
def State.giveUpStamps (s : State) (n : StrandId) (rs : List TileRec) : State :=
  rs.foldl (fun s r => match r.stamp with
    | some st => s.addRecord (s.tagOf n) (if r.full then stampRecord n s.gts r st else voidStamp n st r.id)
    | none => s) s

/-- The stamp of a kept load that is given up: a void one (R193, R370). -/
def State.giveUpKept (s : State) (n : StrandId) : State :=
  match (s.strand n).kept.bind (fun k => k.stamp.map (fun st => (k.id, st))) with
  | some (id, st) => if ((s.strand n).tile? id).any (fun r => r.stamp.isSome) then s else s.addRecord (s.tagOf n) (voidStamp n st id)
  | none => s

/-- A COLL that waits for its rendezvous (R351, R352). -/
def QEntry.atRendezvous (e : QEntry) : Bool :=
  match e.instr with
  | .coll _ _ _ _ => e.stage == .started && e.work.phase == 2
  | _ => false

/-- A hold of a synchronising access is over (R367). -/
def State.clearHold (s : State) (n : StrandId) : State :=
  s.modPart (s.tagOf n) (fun x => { x with holdSince := x.holdSince.filter (fun h => h.1 != n) })

/-- A matrix command of the strand is executing. -/
def Strand.matrixBusy (t : Strand) : Bool := (t.queue .M).any (fun e => e.stage == .started && e.holds && e.fault.isNone)

/-- The lease of a strand that stops goes once no command of its executes: a command's whole K range runs under one grant (R24, R317). -/
def State.surrenderStopped (s : State) (n : StrandId) : State := if (s.strand n).matrixBusy then s else s.surrenderIfHeld n 5

/-- Dispatch of the strand ends for good: its queued instructions that have not started or have faulted are discarded, started ones
stay to complete but for a COLL that waits for rendezvous and what would write vector registers alone, and every reference is dropped
(R313, R325, R352). -/
def State.stopStrand (s : State) (n : StrandId) : State :=
  let t := s.strand n
  let keep := fun (e : QEntry) => e.stage != .waiting && e.fault.isNone && !e.atRendezvous &&
    !(e.work.writes.isEmpty && (t.queue .V).any (fun x => x.seq == e.seq))
  let needed := fun (r : TileRec) => t.entries.any (fun e => keep e && (e.tiles.contains r.id || e.results.contains r.id))
  let s := s.giveUpStamps n (t.tiles.filter (fun r => !needed r))
  let s := ((s.giveUpKept n).withdrawBar n).clearHold n
  let s := s.modStrand n (fun t =>
    { t with run := .level3, image := [], tfloor := 0, fault := none, arrived := none, stop := .none, waiting := false,
             openId := none, openTile := none, kept := none, pend := [], fifo := [], declared := 0, vdecs := 0,
             queues := t.queues.map (fun l => l.filter keep),
             tiles := t.tiles.filter needed })
  s.surrenderStopped n

/-- A strand whose context or launch has ended gives up its lease with its last command, and becomes free once its started
instructions are complete, the stamps of its last tiles given up (R317, R370). -/
def State.settle (s : State) (n : StrandId) : State :=
  let t := s.strand n
  let live := match s.ctxOf n with
    | some c => c.live
    | none => false
  if t.run ≠ .level3 then s
  else
    let s := s.surrenderStopped n
    if t.idle ∧ (!live ∨ t.launch.isNone) then
      (s.giveUpStamps n t.tiles).modStrand n (fun t => { (Strand.freed t) with ctx := none, locks := [], pend := [] })
    else s

/-! ### Termination (R325, R352, R385, R398) -/

def allStrands : List StrandId := List.ofFn (fun i : Fin 256 => i)
def allSlots : List (Fin 4) := [0, 1, 2, 3]
def allParts : List PartId := List.ofFn (fun i : Fin 48 => i)

/-- The address of a strand's oldest instruction that has not completed: of the queued ones, the scalar accesses that have steps
to take, and the stores not committed yet, else the next to dispatch (R398). -/
def State.oldestPc (s : State) (n : StrandId) : Word :=
  let t := s.strand n
  let open_ := (t.entries.filter (fun e => e.stage != .done)).map (fun e => (e.seq, e.pc)) ++ t.cq.map (fun e => (e.seq, e.pc)) ++
    (s.flying n).map (fun w => (w.seq, w.pc))
  match open_ with
  | [] => t.pc
  | e :: es => (es.foldl (fun m x => if x.1 < m.1 then x else m) e).2

/-- The record that LAUNCH_RESUME has set aside for a strand and RESTORE has not loaded yet (R314). -/
def State.awaitedRecord (s : State) (n : StrandId) : Option Nat :=
  (s.launchOf n).bind (fun l => (l.assigns.find? (fun a => a.strand == n)).bind (·.record))

/-- TPC of a TERMINATED EVENT (R398). A strand whose record is not loaded yet stands at the record's program counter (R329). -/
def State.terminatedPc (s : State) (c : Nat) : Word :=
  match allStrands.find? (fun n => (s.strand n).ctx == some c && ((s.strand n).launch.isSome || (s.strand n).level.val != 0)) with
  | some n => match s.awaitedRecord n with
    | some a => word (bytesNat (s.cohN (a + 8) 8))
    | none => s.oldestPc n
  | none => 0

/-- ABORT to every other member of each group of a partition, which stays aborted here too until COLL_GROUP rewrites it (R352). -/
def State.abortGroups (s : State) (p : PartId) : State :=
  let tenant := (s.mgmt.layout.tenants.getD p.val 0).toNat
  let s := (s.part p).groups.foldl (fun s g =>
    (g.members.mapIdx (fun i m => (i, m))).foldl (fun s im =>
      if im.1 = g.rank then s else s.send ⟨im.2, .abort, [word g.entry, word tenant], []⟩) s) s
  s.modPart p (fun x => { x with groups := x.groups.map (fun g => { g with aborted := true }) })

/-- The poisoned frames of a context that ends are revoked and listed as retired, while the list has room (R385). Their entries
keep the POISON mark without an owner (R396). -/
def State.revokePoisoned (s : State) (c : Nat) : State :=
  let mine := s.mgmt.poisoned.filter (fun f => match s.ownerOf? f with
    | some e => e.ctx == some c
    | none => false)
  mine.foldl (fun s f =>
    let m : Mgmt := { s.mgmt with owners := removeFrames s.mgmt.owners f 1 }
    if m.retired.length < 8192 then { s with mgmt := { m with retired := m.retired ++ [f] } }
    else ({ s with mgmt := { m with untilCold := m.untilCold ++ [f] } }).event none [0x0014, word m.retired.length]) s

/-- KILLED of a launch of an ended context waits: for room in the log, or, its decision logged, for a line of its record. -/
def State.addDying (s : State) (p : PartId) (l : Launch) (logged : Bool) : State :=
  s.modPart p (fun x => { x with dying := x.dying ++ [(l, logged)] })

/-- KILLED written into a launch's record once the decision is logged; where the record does not allow it, it is not written
(R264, R397). -/
def State.writeKilled (s : State) (k : Ctx) (l : Launch) : State :=
  match s.writeStatus l stKilled 0 with
  | .ok s1 => s1
  | .error e => if e.cause = cHeld then s.addDying k.part l true else s

/-- One launch of a context that ends is KILLED: the decision is reserved first in the log of its virtual function, and where that has
no room the sequencer stalls and KILLED waits (R264, R325, R358, R359, R363). (Log entry 60, DEDUCED, safe.) -/
def State.killRecord (s : State) (k : Ctx) (l : Launch) : State :=
  if s.isResident k then
    match s.logDecision k.part 0x07 (word stKilled) l.addr with
    | some s1 => s1.writeKilled k l
    | none => (s.stallSequencer k.part k.num).addDying k.part l false
  else
    match s.savedVf k.vf with
    | none => s.writeKilled k l
    | some v =>
      match v.logDecision s.gts k.part 0x07 (word stKilled) l.addr with
      | some v1 => (s.modSaved k.vf (fun _ => v1)).writeKilled k l
      | none => (s.modSaved k.vf (fun v => { v with sched := { v.sched with full := true } })).addDying k.part l false

/-- A discarded entry of the fixed-order buffer voids its record in the log of its virtual function (R258, R359). -/
def State.voidEntry (s : State) (k : Ctx) (e : OEntry) : State :=
  if s.isResident k then s.voidLogs e.strand [e.log]
  else match e.log with
    | some l => s.modSaved k.vf (fun v => v.void s.gts e.strand l)
    | none => s

/-- A frame gains its POISON mark, and PAGE_RETIRED is sent (R385, stage 1; R395). -/
def State.poisonFrame (s : State) (frame : Nat) : State :=
  let o := s.ownerOf? frame
  let s := { s with mgmt := { s.mgmt with
    poisoned := if s.mgmt.poisoned.contains frame then s.mgmt.poisoned else s.mgmt.poisoned ++ [frame] } }
  let vf := (o.bind (·.ctx)).bind (fun c => (s.ctx? c).map (·.vf))
  s.event vf [0x0011, word (frame * 65536), match o with
      | some e => word e.part.val
      | none => 0xFF,
    match o.bind (·.ctx) with
      | some c => word c
      | none => BitVec.allOnes 64]

/-- A frame that is not poisoned yet is retired (R385, stage 1). -/
def State.retireFrame (s : State) (frame : Nat) : State := if s.mgmt.poisoned.contains frame then s else s.poisonFrame frame

/-- Accesses of an ending context's strand to held lines are discarded with it: the started instructions that make them and its
buffered writes (R397). -/
def State.dropHeld (s : State) (n : StrandId) : State :=
  let held := fun (l : Loc) => match Loc.home? l with
    | some pa => s.lineBlocked pa
    | none => false
  let stuck := fun (e : QEntry) => e.stage == .started && (e.work.reads.any (fun r => held r.1) || e.work.writes.any (fun w => held w.loc))
  (s.dropWrites n (fun w => !held w.loc)).modStrand n (fun t => { t with queues := t.queues.map (fun l => l.filter (fun e => !stuck e)) })

/-- Termination of a context (R325): its strands stop, its launches are written KILLED, its fixed-order entries go, and the
cause is reported unless a CONTEXT_DESTROY ends it. -/
def State.terminate (s : State) (c : Nat) (cause : BitVec 8) (report : Bool) : State :=
  match s.ctx? c with
  | none => s
  | some k =>
    if !k.live then s
    else
      let tpc := s.terminatedPc c
      let p := k.part
      let queued := (s.part p).queue.filter (fun l => l.ctx == c)
      let running := allSlots.filterMap (fun i => (s.slot p i).bind (fun l => if l.ctx = c then some (i, l) else none))
      let s := (queued ++ running.map (·.2)).foldl (fun s l => s.killRecord k l) s
      let s := ((queued.map (·.savedEntries)).flatten).foldl (fun s e => s.voidEntry k e) s
      let gone := running.map (·.1)
      let s := s.modPart p (fun x => { x with queue := x.queue.filter (fun l => l.ctx != c) })
      let s := gone.foldl (fun s i => s.setSlot p i none) s
      let dead := s.orbuf.filter (fun e => e.part == p && gone.contains e.slot)
      let s := { s with orbuf := s.orbuf.filter (fun e => !(e.part == p && gone.contains e.slot)) }
      let s := dead.foldl (fun s e => s.voidLogs e.strand [e.log]) s
      let mine := allStrands.filter (fun n => (s.strand n).ctx == some c)
      let s := mine.foldl (fun s n => s.voidLogs n ((s.strand n).cq.map (·.log))) s
      let s := mine.foldl State.dropHeld s
      let s := mine.foldl State.stopStrand s
      let s := mine.foldl (fun s n => s.modStrand n (fun t => { t with cq := [], launch := none })) s
      let s := s.modPart p (fun x => { x with
        exportCtx := if x.exportCtx = some c then none else x.exportCtx,
        evalDue := x.evalDue || !running.isEmpty
        preempt := match x.preempt with
          | some q => if gone.contains q.victim then none else some q
          | none => none })
      let s := s.modCtx c (fun k => { k with live := false, terminating := some cause, locals := [], backing := [] })
      let s := mine.foldl State.settle s
      let s := s.revokePoisoned c
      let s := s.abortGroups p
      if report then s.event (some k.vf) [0x0001, word c, BitVec.setWidth 64 cause, tpc] else s

/-! ### Errors that a read finds (R327, R382, R390) -/

/-- The second read of a line whose data memory has returned uncorrectable: either way the error is counted and the frame retired; the
context of the access ends unless the read is correct (R327, R381, R385). -/
def State.reread (s : State) (pa : Nat) (c : Option Nat) (correct : Bool) : State :=
  let s := (s.retireFrame (pa / 65536)).correctedError (if isSecondTier pa then 3 else 2)
  if correct then s.clearMemError pa
  else match c with
    | some c => s.terminate c cMemUe true
    | none => s

/-- A read of a line for a context by what keeps no operand log (a fetch, a page walk, the sequencer, firmware) finds the line's
error: a single-bit one is corrected and counted, and uncorrectable data of memory is read once more. An uncorrectable error of the
shared cache is the slice's to find, and a held line is waited for. (R327, R382, R386, R390; log entry 72, DESIGN CHOICE, safe.) -/
def State.visitLine (s : State) (c : Nat) (pa : Nat) : State :=
  if s.lineBlocked pa then s
  else if (s.scLine? pa).isSome then s.correctLine pa
  else if s.memError pa = some true then s.reread pa (some c) (Config.rereadGood s.ticks)
  else s.correctMem pa

/-- The KILLED of launches of ended contexts that have waited are tried again (R325, R359, R397). -/
def State.retryDying (s : State) (p : PartId) : State :=
  ((s.part p).dying).foldl (fun s d =>
    match s.ctx? d.1.ctx with
    | none => s
    | some k =>
      if !d.2 then s.killRecord k d.1
      else match s.writeStatus d.1 stKilled 0 with
        | .ok s1 => s1
        | .error e => if e.cause = cHeld then (s.visitLine k.num e.addr.toNat).addDying p d.1 true else s)
    (s.modPart p (fun x => { x with dying := [] }))

/-! ### Taking a trap (R91, R319 to R322, R325) -/

/-- DMASK's bit of a cause (R320). -/
def dmaskBit (c : BitVec 8) : Option Nat :=
  ([cIllegal, cReserved, cStackUnderflow, cStackOverflow, cHdrIntegrity, cHdrMismatch, cHdrUnsupported, cFootprint,
    cFootprintRead, cRatio, cBounds, cHandleStale, cAlign, cChecksum, cBreak, cTrap].findIdx? (· == c))

/-- The target level of R319, before its limit of 3. -/
def trapTarget (level : Nat) (tdeleg : Word) (c : BitVec 8) : Nat :=
  if c = cPreempt ∨ c = cDouble then 3
  else if level = 0 ∧ (match dmaskBit c with
      | some b => tdeleg.getLsbD b
      | none => false) = true then 1
  else max 2 (level + 1)

/-- The trap registers of level `L`, 1 to 3; level 0 reaches the level-1 set (R319). -/
def trapIndex (level : Nat) : Fin 3 := if level ≤ 1 then 0 else if level = 2 then 1 else 2

def Strand.trapRegs (t : Strand) (level : Nat) : TrapRegs := t.traps[(trapIndex level).val]'(trapIndex level).isLt

def Strand.setTrapRegs (t : Strand) (level : Nat) (r : TrapRegs) : Strand :=
  { t with traps := t.traps.set (trapIndex level).val r (trapIndex level).isLt }

/-- TCAUSE's fields (R322). -/
def causeWord (plv : Nat) (code : BitVec 8) : Word := word (plv <<< 8 + code.toNat)

/-- A level's entry (R319): CODE + UOFF, or the supervisor entry. -/
def trapEntry (c : Ctx) (code : Word) (level : Nat) : Word :=
  if level = 1 then code + (c.tdeleg >>> 32) else c.sup

/-- Started vector instructions complete at a trap entry or a stop: their tokens are pushed, and only one whose push waits
at a full counter stays in the queue (R157, R159). -/
def Strand.completeVector (t : Strand) : Strand :=
  let t := t.setQueue .V ((t.queue .V).map (fun e => { e with stage := .done }))
  let t := t.flushQueue .V
  t.setQueue .V ((t.queue .V).filter (fun e => !e.pushes.isEmpty))

/-- The pending writes become records held for a level (R159, R321). -/
def Strand.holdPending (t : Strand) (level : Nat) : Strand :=
  { t with held := t.held.set (trapIndex level).val t.pend (trapIndex level).isLt, pend := [] }

/-- Trap entry proper, once the strand is unwound and its older work complete (R321): a double fault while TLOCK is set,
else the registers of the target level, the lease given up, TLOCK and the level set, and the program counter at the
entry. At level 3 the management core acts: it ends the context for every cause but PREEMPT (R319). -/
def State.takeTrap (s : State) (n : StrandId) (tr : TrapInfo) (pc : Word) : State :=
  match s.ctxOf n with
  | none => s.modStrand n (fun t => { t with run := .level3, fault := none })
  | some c =>
    let s := (s.clearHold n).withdrawBar n
    let t := s.strand n
    let lvl := t.level.val
    if t.tlock then
      let r : TrapRegs := ⟨pc &&& ~~~1, causeWord lvl cDouble, tr.addr, word (t.firstCause.toNat + tr.cause.toNat <<< 8)⟩
      let s := s.modStrand n (fun t => { ((t.completeVector.holdPending 3).setTrapRegs 3 r) with
        run := .level3, level := 3, fault := none, arrived := none, waiting := false })
      s.terminate c.num cDouble true
    else
      let L := trapTarget lvl c.tdeleg tr.cause
      if L > 3 then s.terminate c.num tr.cause true
      else
        let r : TrapRegs := ⟨pc &&& ~~~1, causeWord lvl tr.cause, tr.addr, tr.info⟩
        let code := ((s.launchOf n).map (·.code)).getD 0
        let s := s.surrenderIfHeld n 5
        let s := s.modStrand n (fun t => { ((t.completeVector.holdPending L).setTrapRegs L r) with
          tlock := true, firstCause := tr.cause, level := Fin.ofNat 4 L, fault := none, arrived := none, waiting := false,
          pc := if L = 3 then t.pc else trapEntry c code L, slot0 := false,
          run := if L = 3 then .level3 else .running })
        if L = 3 ∧ tr.cause ≠ cPreempt then s.terminate c.num tr.cause true else s

/-- The vector engine as the oldest of some started instructions found it, with the items they took from the decoder FIFO and the
TAGS bits they cleared (R92). -/
def Strand.rewind (t : Strand) (young : List QEntry) : Strand :=
  let took := young.filterMap (fun x => match x.instr with
    | .vdec _ _ => if x.fault.isNone then x.snap.bind (·.fifo.head?) else none
    | _ => none)
  let t := { t with
    fifo := took ++ t.fifo
    tags := (young.map (·.cleared)).foldl (· ||| ·) t.tags }
  match (young.filterMap (fun x => x.snap.map (fun v => (x.seq, v)))) with
  | [] => t
  | x :: xs =>
    let v := (xs.foldl (fun m y => if y.1 < m.1 then y else m) x).2
    { t with v := v.v, k := v.k, vstat := v.vstat, pend := v.pend, vgap := v.vgap, openTile := v.openTile }

/-- The unwind of R91 to a faulting instruction: the checkpoint is restored, it and every younger instruction are
discarded with their tokens, identities, stamps and log slots, and the program counter is its address. A load that kept
its rows keeps its identity (R193). (Log entry 49, DEDUCED, unsafe.) -/
def State.unwind (s : State) (n : StrandId) (e : QEntry) (kept : Option Kept) : State :=
  let t := s.strand n
  let young := t.entries.filter (fun x => decide (e.seq ≤ x.seq))
  let ids := ((young.map (·.results)).flatten).filter (fun i => some i != kept.map (·.id) && some i != e.ckpt.kept.map (·.id))
  let s := s.voidStamps n ids
  let youngCq := t.cq.filter (fun x => decide (e.seq ≤ x.seq))
  let s := ((s.voidLogs n (youngCq.map (·.log))).withdrawBar n).dropWrites n (fun w => decide (w.seq < e.seq))
  s.modStrand n (fun t =>
    let pops := (young.map (·.pops)).flatten
    let pushes := (young.map (·.pushed)).flatten
    let tokens := Vector.ofFn (fun i : Fin 8 => min 15 (t.token i + pops.count i - pushes.count i))
    let t := t.rewind young
    { t with
      s := e.ckpt.s, p := e.ckpt.p, image := e.ckpt.image, tfloor := e.ckpt.tfloor, openId := e.ckpt.openId,
      kept := match kept with
        | some k => some k
        | none => e.ckpt.kept,
      declared := e.ckpt.declared, vdecs := e.ckpt.vdecs, spo := e.ckpt.spo, atomJ := e.ckpt.atomJ,
      schedCount := e.ckpt.schedCount, draining := e.ckpt.draining,
      queues := t.queues.map (fun l => l.filter (fun x => decide (x.seq < e.seq))),
      cq := t.cq.filter (fun x => decide (x.seq < e.seq)), streams := t.streams.filter (fun x => decide (x.seq < e.seq)),
      tiles := (t.tiles.filter (fun r => !ids.contains r.id)).map (fun r =>
        if some r.id = e.ckpt.openId then { r with full := false } else r),
      tokens := tokens, openTile := if e.ckpt.openId.isSome then t.openTile else none, pc := e.pc, slot0 := e.slot0, fault := none })

/-- A trap raised at dispatch: taken at once when no engine work of the strand is outstanding, else once it has drained
(R91, R321). An access that waits for a line raises nothing, and its instruction is tried again (R390, R397). -/
def State.raise (s : State) (n : StrandId) (tr : TrapInfo) (pc : Word) : State :=
  if tr.cause = cHeld then s.visitLine ((s.strand n).ctx.getD 0) tr.addr.toNat
  else if (s.strand n).idle then s.takeTrap n tr pc
  else s.modStrand n (fun t => { t with fault := some tr, faultPc := pc })

/-! ### Returning from a trap (R324) -/

/-- The return of ERET once its checks pass and older work is complete: TLOCK clears, the level and the program counter
come back, the held records are reinstated, and each unit's spacing counts from here (R100). -/
def Strand.returnFrom (t : Strand) : Strand :=
  let r := t.trapRegs t.level.val
  { t with tlock := false, level := Fin.ofNat 4 (bits r.cause.toNat 8 2), pc := r.pc, slot0 := false, vgap := 0, gaps := Vector.replicate 4 0,
           pend := t.held[(trapIndex t.level.val).val]'(trapIndex t.level.val).isLt,
           held := t.held.set (trapIndex t.level.val).val [] (trapIndex t.level.val).isLt }

end Sys2Proof.Machine
end

