-- ==== Sys2Proof/Machine/Operands.lean ====
section
/-! DEFINITION. Operand forms: the address of a scalar access (R224), the checks of an access (R220), the byte rules of an
overwriting walk (R268, R273 to R275), handles and shape records (R131, R132, R342), and shape operands (R185). -/

namespace Sys2Proof.Machine

/-! ### Scalar addresses and accesses -/

/-- a + c · size + simm12 modulo 2^64 (R224). -/
def addrM (a c : Word) (size : Nat) (imm : BitVec 12) : Word := a + c * word size + imm.signExtend 64

/-- The checks of R220 for an access of `size` bytes: ALIGN, then the place. -/
def State.access (s : State) (n : StrandId) (need : Need) (size : Nat) (a : Word) : Except TrapInfo (Loc × Option TlbEntry) :=
  match s.ctxOf n with
  | none => .error (addrTrap cTranslation a)
  | some c => if a.toNat % size ≠ 0 then .error (addrTrap cAlign a) else s.place n c .core need a

/-! ### Indirection entries (R389, R390) -/

/-- The indirection entry of a line of a DDP page cannot be read: its block is poisoned, or its error is uncorrectable.
(Log entry 51, DEDUCED, unsafe.) -/
def State.entryBad (s : State) (l : Loc) (e : Option TlbEntry) : Bool :=
  match Loc.home? l, e with
  | some pa, some e => e.ddp && (s.mgmt.poisonedBlocks.contains (blockOf pa) ||
      ((s.scLine? pa).isNone && s.dedupError pa == some true))
  | _, _ => false

/-- The block of an unreadable entry is poisoned (R389, third point). -/
def State.poisonBlock (s : State) (pa : Nat) : State :=
  { s with mgmt := { s.mgmt with
      errDedup := s.mgmt.errDedup.filter (fun e => blockOf e.1 != blockOf pa)
      poisonedBlocks := if s.mgmt.poisonedBlocks.contains (blockOf pa) then s.mgmt.poisonedBlocks
        else s.mgmt.poisonedBlocks ++ [blockOf pa] } }

/-- The effect of a read's trap over an unreadable indirection entry: the third point of R389 alone. -/
def State.poisonAt (s : State) (l : Loc) : State :=
  match Loc.home? l with
  | some pa => s.poisonBlock pa
  | none => s

/-- The effects of a partial write's trap over an unreadable indirection entry: the block is poisoned and the frame retired (R389). -/
def State.poisonWrite (s : State) (l : Loc) : State :=
  match Loc.home? l with
  | some pa => (s.poisonBlock pa).retireFrame (pa / 65536)
  | none => s

/-- A partial write needs the indirection entry of a line of a DDP page that the shared cache does not hold (R389). -/
def State.wantsEntry (s : State) (l : Loc) (e : Option TlbEntry) : Option Nat :=
  match Loc.home? l, e with
  | some pa, some e => if e.ddp && (s.scLine? pa).isNone then some (lineOf pa) else none
  | _, _ => none

def State.noteWant (s : State) (n : StrandId) (pa : Nat) (c : BitVec 4) : State :=
  s.modStrand n (fun t => if t.want.contains (pa, c) then t else { t with want := t.want ++ [(pa, c)] })

/-! ### Overwriting walks (R268, R273 to R275) -/

/-- The cell of the output region that holds a byte: its row and column (R268). -/
def Permit.cell? (p : Permit) (a : Word) : Option (Nat × Nat) :=
  if a.toNat < p.out.toNat ∨ p.rpitch = 0 ∨ p.cell = 0 then none
  else
    let off := a.toNat - p.out.toNat
    let y := off / p.rpitch
    let x := off % p.rpitch / p.cell
    if y < p.ncr ∧ x < p.ncc then some (y, x) else none

/-- TINFO of FOOTPRINT and FOOTPRINT_READ (R275). -/
def cellInfo (y x : Nat) : Word := word (y <<< 24 + x)

/-- What becomes of a byte that an instruction would write (R273). -/
inductive Verdict where
  | write
  | suppress
  | fault (t : TrapInfo)
  deriving DecidableEq, Repr

def Permit.writeByte (p : Permit) (a : Word) : Verdict :=
  match p.cell? a with
  | none => .write
  | some (y, x) =>
    let k := y * p.ncc + x
    if p.permit.contains k then .write
    else if p.foot.contains k then .suppress
    else .fault ⟨cFootprint, a, cellInfo y x⟩

/-- The verdict on a byte under an optional permit. -/
def writeVerdict (p : Option Permit) (a : Word) : Verdict :=
  match p with
  | some p => p.writeByte a
  | none => .write

/-- The first byte of a run that a read may not touch (R274). -/
def readFault (p : Option Permit) (a : Word) (len : Nat) : Option TrapInfo :=
  match p with
  | none => none
  | some p =>
    if p.rdok then none
    else (List.range len).findSome? (fun i =>
      match p.cell? (a + word i) with
      | some (y, x) => some ⟨cFootprintRead, a + word i, cellInfo y x⟩
      | none => none)

/-- An atomic's byte of the output region raises FOOTPRINT whatever RDOK holds (R274). -/
def atomFault (p : Option Permit) (a : Word) (len : Nat) : Option TrapInfo :=
  match p with
  | none => none
  | some p => (List.range len).findSome? (fun i =>
      match p.cell? (a + word i) with
      | some (y, x) => some ⟨cFootprint, a + word i, cellInfo y x⟩
      | none => none)

/-- The first FOOTPRINT of a run of bytes to be written. -/
def writeFault (p : Option Permit) (a : Word) (len : Nat) : Option TrapInfo :=
  (List.range len).findSome? (fun i => match writeVerdict p (a + word i) with
    | .fault t => some t
    | _ => none)

/-- The bytes of a run that are written, each with its place in the run; the others of a permitted run are suppressed. -/
def keptBytes (p : Option Permit) (a : Word) (bs : List Byte) : List (Nat × Byte) :=
  (bs.mapIdx (fun i b => (i, b))).filter (fun ib => match writeVerdict p (a + word ib.1) with
    | .write => true
    | _ => false)

/-- The launch whose SUPP counts `k` suppressed bytes, and the bytes; none where there are none. -/
def suppOf (p : Option Permit) (k : Nat) : Option ((PartId × Fin 4) × Nat) :=
  if k = 0 then none else p.map (fun p => ((p.part, p.slot), k))

/-- SUPP counts suppressed bytes (R273). (Log entry 55, DEDUCED, unsafe.) -/
def State.addSupp (s : State) : Option ((PartId × Fin 4) × Nat) → State
  | some (pk, k) => s.modLaunch pk.1 pk.2 (fun l => { l with supp := l.supp + k })
  | none => s

def State.countSupp (s : State) (p : Option Permit) (k : Nat) : State := s.addSupp (suppOf p k)

/-- The checks of a read past its translation: FOOTPRINT_READ (R274) and an unreadable indirection entry (R389). -/
def State.readChecks (s : State) (n : StrandId) (size : Nat) (a : Word) (l : Loc) (e : Option TlbEntry) :
    Option (TrapInfo × State) :=
  match readFault (s.strand n).permit a size with
  | some t => some (t, s)
  | none => if s.entryBad l e then some (indirectionTrap a, s.poisonAt l) else none

/-! ### Handles (R131, R342) -/

def handleSlot (h : Word) : Nat := bits h.toNat 12 20
def handleGen (h : Word) : Nat := bits h.toNat 0 12

/-- A slot's record: its thirty-two words. -/
abbrev Shape := List Nat

def Shape.w64 (r : Shape) (off : Nat) : Nat := List.getD r (off / 8) 0
def Shape.rank (r : Shape) : Nat := bits (Shape.w64 r 8) 32 3
/-- The extent of a dimension, 1 beyond the rank (R132). -/
def Shape.extent (r : Shape) (d : Nat) : Nat := if d < Shape.rank r then Shape.w64 r (0x10 + 8 * d) else 1
/-- The stride of a dimension, 0 beyond the rank. -/
def Shape.stride (r : Shape) (d : Nat) : Nat := if d < Shape.rank r then Shape.w64 r (0x40 + 8 * d) else 0
def Shape.template (r : Shape) : Nat := Shape.w64 r 0x70

/-- A record whose reserved fields are zero and whose rank is 1 to 6 (R342). -/
def Shape.ok (r : Shape) : Bool :=
  bits (Shape.w64 r 8) 35 29 == 0 && bits (Shape.w64 r 8) 12 20 == 0 && 1 ≤ Shape.rank r && Shape.rank r ≤ 6 &&
  (List.drop 17 r).all (· == 0)

/-- The handle is current against its slot's record (R131, R342). -/
def Shape.current (r : Shape) (h : Word) : Bool :=
  bits h.toNat 32 32 == 0 && Shape.ok r && bits (Shape.w64 r 8) 0 12 == handleGen h

/-- One field of HGET (R132). -/
def Shape.field (r : Shape) (sel : Nat) : Word :=
  if sel = 0 then word (Shape.w64 r 0)
  else if sel = 1 then word (Shape.rank r)
  else if sel ≤ 7 then word (Shape.extent r (sel - 2))
  else if sel ≤ 13 then word (Shape.stride r (sel - 8))
  else if sel = 14 then word (bits (Shape.template r) 40 8 + bits (Shape.template r) 31 9 <<< 16)
  else word (Shape.template r / 65536 * 65536)

/-- The record's address (R342). -/
def Ctx.slotAddr (c : Ctx) (h : Word) : Word := c.htbase + word (256 * handleSlot h)

/-! ### What holds a class-0 load that binds at dispatch (R132, R138, R222, R248, R342) -/

/-- The bytes an entry touches, if it is an access of bytes. -/
def CqKind.span : CqKind → Option (Loc × Nat)
  | .load l n _ _ _ => some (l, n)
  | .store l d _ => some (l, d.length)
  | .atom _ l w _ _ _ _ _ _ => some (l, if w then 8 else 4)
  | _ => none

def CqKind.meets (k : CqKind) (l : Loc) (n : Nat) : Bool :=
  match k.span with
  | some (a, la) => runsMeet a la l n
  | none => false

def CqKind.acquires : CqKind → Option Scope
  | .load _ _ _ _ acq => acq
  | .atom _ _ _ _ _ _ acq _ _ => acq
  | _ => none

def CqKind.isAtom : CqKind → Bool
  | .atom _ _ _ _ _ _ _ _ _ => true
  | _ => false

/-- An acquire older than `seq` that has not taken its step holds every later access (R248). -/
def Strand.acquireBefore (t : Strand) (seq : Nat) : Bool :=
  t.cq.any (fun e => decide (e.seq < seq) && e.kind.acquires.isSome)

/-- The same with the strand's buffered ordered atomics, whose acquire takes effect when they are applied (R237, R248). -/
def State.acquireBefore (s : State) (n : StrandId) (seq : Nat) : Bool :=
  (s.strand n).acquireBefore seq || s.orbuf.any (fun e => e.strand == n && decide (e.seq < seq) && e.acq.isSome)

/-- An older atomic, in any class, to the same bytes: a load returns its value, and so waits for it (R222).
(Log entry 23, DEDUCED, safe.) -/
def Strand.atomBefore (t : Strand) (seq : Nat) (l : Loc) (n : Nat) : Bool :=
  t.cq.any (fun e => decide (e.seq < seq) && e.kind.isAtom && e.kind.meets l n)

/-- No scalar access of class 0 of the strand waits in its class queue. -/
def Strand.class0Clear (t : Strand) : Bool := t.cq.all (fun e => !e.classes.getLsbD 0)

/-- Nothing of the strand stands before a class-0 load that its next instruction binds: no access of class 0, no acquire, and no
atomic to its bytes. -/
def State.loadFirst (s : State) (n : StrandId) (l : Loc) : Bool :=
  let t := s.strand n
  t.class0Clear && !s.acquireBefore n t.nseq && !t.atomBefore t.nseq l 8

/-- Consecutive 8-byte loads of the strand's control core, class 0 (R342), through its L1 copy (R245), with the checks of a load:
RDOK (R274), its indirection entry (R389), and the waits for a held line (R397) and for what stands before a load. -/
def State.loadWords (s : State) (n : StrandId) (a : Word) : Nat → Except TrapInfo (List Nat × State)
  | 0 => .ok ([], s)
  | k + 1 => do
    let (l, e) ← s.access n .read 8 a
    match s.readChecks n 8 a l e with
    | some (t, _) => .error t
    | none =>
      if s.blocked l then .error (heldOf l)
      else if !s.loadFirst n l then .error heldTrap
      else
      let (bs, s1) := (s.noteDdp e).bindLoad n (s.strand n).nseq true l 8
      let (r, s2) ← s1.loadWords n (a + 8) k
      .ok (bytesNat bs :: r, s2)

/-- A read of the strand's control core that raised MEM_UE over an indirection entry poisons the entry's block (R389). -/
def State.poisonRead (s : State) (n : StrandId) (t : TrapInfo) : State :=
  if t = indirectionTrap t.addr then
    match s.access n .read 8 t.addr with
    | .ok (l, _) => s.poisonAt l
    | .error _ => s
  else s

/-- A shape operand: ROWS in bits 7:0 and COLS in bits 24:16 (R185). -/
def shapeRows (x : Word) : Nat := bits x.toNat 0 8
def shapeCols (x : Word) : Nat := bits x.toNat 16 9

end Sys2Proof.Machine
end

