-- ==== Sys2Proof/Machine/Walk.lean ====
section
/-! DEFINITION. Launches as the sequencer and its walker hold them: the record's fields (R260 to R262), its checks (R263), the
numbering of iterations and units (R265, R266), footprints (R269), the low-water ordinal (R257), the state a strand has at
its first iteration (R18), and acceptance (R308). -/

namespace Sys2Proof.Machine

/-! ### The record -/


def Launch.entry (l : Launch) : Word := word (l.w64 0x20)
def Launch.kdesc (l : Launch) : Word := word (l.w64 0x28)
def Launch.ctl (l : Launch) : Nat := l.w64 0x30
def Launch.nlev (l : Launch) : Nat := bits l.ctl 0 3
def Launch.order (l : Launch) : Nat := bits l.ctl 4 2
def Launch.roleOf (l : Launch) : Nat := bits l.ctl 6 2
def Launch.rdok (l : Launch) : Bool := bits l.ctl 8 1 == 1
def Launch.cg (l : Launch) : Nat := bits l.ctl 10 2
def Launch.polk (l : Launch) : Bool := bits l.ctl 12 1 == 1
def Launch.polc (l : Launch) : Bool := bits l.ctl 13 1 == 1
def Launch.pold (l : Launch) : Bool := bits l.ctl 14 1 == 1
def Launch.prio (l : Launch) : Nat := bits (l.w64 0x38) 32 16
def Launch.est (l : Launch) : Nat := bits (l.w64 0x38) 0 32
def Launch.levelEntry (l : Launch) (k : Nat) : Nat := l.w64 (0x40 + 8 * k)
def Launch.mark (l : Launch) (k : Nat) : Nat := bits (l.levelEntry k) 32 2
/-- The extent of a level, 1 for an absent one (R19). -/
def Launch.extent (l : Launch) (k : Nat) : Nat := if k < l.nlev then bits (l.levelEntry k) 0 32 else 1
def Launch.arg (l : Launch) (k : Nat) : Word := word (l.w64 (0x70 + 8 * k))
def Launch.cover (l : Launch) : Word := word (l.w64 0xB0)
def Launch.out (l : Launch) : Word := word (l.w64 0xB8)
def Launch.hnd (l : Launch) : Word := word (bits (l.w64 0xC0) 32 32)
def Launch.rpitch (l : Launch) : Nat := bits (l.w64 0xC0) 0 32
def Launch.ncr (l : Launch) : Nat := bits (l.w64 0xC8) 32 32
def Launch.ncc (l : Launch) : Nat := bits (l.w64 0xC8) 0 32
def Launch.fy (l : Launch) : Int := signedOf 32 (bits (l.w64 0xD0) 32 32)
def Launch.fx (l : Launch) : Int := signedOf 32 (bits (l.w64 0xD0) 0 32)
def Launch.fh (l : Launch) : Nat := bits (l.w64 0xD8) 8 8
def Launch.fw (l : Launch) : Nat := bits (l.w64 0xD8) 0 8
/-- The twelve coefficients AY0 to AY5, AX0 to AX5, packed low half first (R260). -/
def Launch.coeff (l : Launch) (i : Nat) : Int := signedOf 16 (bits (l.w64 (0xE0 + 8 * (i / 4))) (16 * (i % 4)) 16)
def Launch.overwriting (l : Launch) : Bool := l.order == 2

/-! ### Numbering (R265, R266) -/

def Launch.levels (l : Launch) : List Nat := List.range l.nlev
/-- The product of extents over the levels a test picks. -/
def Launch.extents (l : Launch) (f : Nat → Bool) : Nat := ((l.levels.filter f).map l.extent).foldl (· * ·) 1
def Launch.spatial (l : Launch) (k : Nat) : Bool := l.mark k != 0
/-- N, the number of iterations. -/
def Launch.count (l : Launch) : Nat := l.extents (fun _ => true)
/-- T, the iterations of one unit. -/
def Launch.temporal (l : Launch) : Nat := l.extents (fun k => !l.spatial k)
/-- The number of units. -/
def Launch.units (l : Launch) : Nat := l.extents l.spatial

/-- The indices of a lexicographic rank over the levels given, the last counting fastest: level and index pairs. -/
def rankIndices (l : Launch) : List Nat → Nat → List (Nat × Nat)
  | [], _ => []
  | k :: ks, r =>
    let below := (ks.map l.extent).foldl (· * ·) 1
    (k, r / below % max 1 (l.extent k)) :: rankIndices l ks (r % max 1 below)

/-- The forward rank of an ordinal (R265). -/
def Launch.forward (l : Launch) (o : Nat) : Nat := if l.order = 0 then o else l.count - 1 - o

/-- i0 to i5 of an ordinal, 0 for an absent level (R19, R265). -/
def Launch.index (l : Launch) (o : Nat) (k : Nat) : Nat :=
  let f := l.forward o
  let pairs := rankIndices l (l.levels.filter l.spatial) (f / max 1 l.temporal) ++
    rankIndices l (l.levels.filter (fun k => !l.spatial k)) (f % max 1 l.temporal)
  ((pairs.find? (fun p => p.1 == k)).map (·.2)).getD 0

/-- Units in the order of their least ordinal: unit w holds ordinals wT to wT + T − 1 (R266). -/
def Launch.unitOf (l : Launch) (o : Nat) : Nat := o / max 1 l.temporal
def Launch.firstOrdinal (l : Launch) (w : Nat) : Nat := w * l.temporal

/-- The level marked spatial over dies (R20). -/
def Launch.dieLevel (l : Launch) : Option Nat := l.levels.find? (fun k => l.mark k == 2)

/-- The least ordinal whose iteration has not ended (R257). -/
def Launch.lowWater (l : Launch) : Nat :=
  ((List.range (l.endedSet.length + 1)).find? (fun o => !l.endedSet.contains o)).getD 0

/-! ### Cells (R268, R269) -/

/-- The cell size G; `tile` is the canonical image size of the handle's whole tile (R268). -/
def Launch.cellBytes (l : Launch) (tile : Nat) : Nat :=
  match l.cg with
  | 0 => 64 | 1 => 512 | 2 => 4096 | _ => ceilDiv tile 64 * 64

/-- The cell indices of an iteration's footprint, inside the region (R269). -/
def Launch.footprint (l : Launch) (o : Nat) : List Nat :=
  let sum (base : Int) (off : Nat) : Int := (List.range 6).foldl (fun acc k => acc + l.coeff (off + k) * (l.index o k : Int)) base
  let y0 := sum l.fy 0
  let x0 := sum l.fx 6
  ((List.range l.fh).map (fun (dy : Nat) => (List.range l.fw).filterMap (fun (dx : Nat) =>
    let y := y0 + dy
    let x := x0 + dx
    if 0 ≤ y ∧ y < l.ncr ∧ 0 ≤ x ∧ x < l.ncc then some (y.toNat * l.ncc + x.toNat) else none))).flatten

/-! ### Safe points and loops (R278, R282) -/

/-- The safe-point ordinal of an instruction, when its STOP bit and the table make it one (R99, R278). -/
def Launch.safeOrdinal (l : Launch) (stop : Bool) (pc : Word) : Option Nat :=
  if stop then l.safe.findIdx? (fun e => e.1 == (pc - l.code).toNat) else none

structure LoopEntry where
  pro : Nat
  stg : Nat
  deriving DecidableEq, Repr

/-- A loop-table entry, zero beyond the table (R282, R304). -/
def Launch.loopEntry (l : Launch) (i : Nat) : LoopEntry :=
  let b := l.loops.getD i []
  ⟨bits (bytesNat (b.take 8)) 32 32, bits (bytesNat ((b.drop 8).take 8)) 0 8⟩

/-! ### Die slots (R20) -/

/-- The dies on which a partition owns a control core, ascending. -/
def State.dieSlots (s : State) (p : PartId) : List DieId :=
  ([0, 1, 2, 3] : List DieId).filter (fun d => allStrands.any (fun n => dieOfPod (podOf n) == d && s.partOf n == some p))

/-- The die slot a unit belongs to, 0 when no level is marked over dies (R20, R266). -/
def State.slotOfUnit (s : State) (p : PartId) (l : Launch) (w : Nat) : Nat :=
  match l.dieLevel with
  | none => 0
  | some k => l.index (l.firstOrdinal w) k % max 1 (s.dieSlots p).length

/-- The die slot whose units a strand's die takes. -/
def State.slotOfStrand (s : State) (p : PartId) (l : Launch) (n : StrandId) : Nat :=
  match l.dieLevel with
  | none => 0
  | some _ => ((s.dieSlots p).findIdx? (· == dieOfPod (podOf n))).getD 0

/-- A unit every iteration of which is skipped is never handed out (R272). -/
def Launch.unitSkipped (l : Launch) (w : Nat) : Bool :=
  l.temporal != 0 && (List.range l.temporal).all (fun i => l.skipped.contains (l.firstOrdinal w + i))

/-- The next unit a die slot hands out, from `nextUnit` up (R266). -/
def State.nextUnitFor (s : State) (p : PartId) (l : Launch) (slot : Nat) : Option Nat :=
  let start := l.nextUnit.getD slot 0
  ((List.range (l.units - start)).map (· + start)).find? (fun w => s.slotOfUnit p l w == slot && !l.unitSkipped w)

/-! ### Permits (R271, R273) -/

/-- The iteration may be handed out: the cursor has visited it (R271). -/
def Launch.visited (l : Launch) (o : Nat) : Bool := !l.overwriting || decide (o < l.cursor)

/-- What an iteration of an overwriting walk captures (R273). -/
def Launch.permitOf (l : Launch) (p : PartId) (k : Fin 4) (o : Nat) : Option Permit :=
  if l.overwriting then
    some ⟨l.out, l.rpitch, l.cellBytes l.tile, l.ncr, l.ncc, l.rdok, l.footprint o,
      ((l.permits.find? (fun x => x.1 == o)).map (·.2)).getD [], p, k⟩
  else none

/-- The canonical image size of a whole tile of a handle template (R268). -/
def templateImage (w : Nat) : Nat :=
  match fmtOf (bits w 55 5), sclOf (bits w 52 3), spnOf (bits w 48 4) with
  | some f, some c, some n => (Header.mk f c n (bits w 40 8) (bits w 31 9) (bits w 30 1 == 1) 0).imageSize
  | _, _, _ => 0

/-! ### A strand's first iteration (R18, R19) -/

/-- The iteration's indices, extents and ordinal set in a strand (R19, R21). -/
def Strand.enterIteration (t : Strand) (l : Launch) (o : Nat) (permit : Option Permit) : Strand :=
  { (t.setPc l.entry) with
    idx := Vector.ofFn (fun k : Fin 6 => word (l.index o k.val)),
    ext := Vector.ofFn (fun k : Fin 6 => word (l.extent k.val)),
    ordinal := o, fell := false, permit := permit, atomJ := 0, spo := none, waiting := false }

/-- The settings of R18 that a context has for a strand: what firmware or software has written there, else their resets (R84, R318). -/
def Ctx.settingsOf (c : Ctx) (n : StrandId) : Settings :=
  ((c.settings.find? (fun x => x.1 == n)).map (·.2)).getD ⟨768, 32, qminReset, qcapReset⟩

/-- A strand's settings become its context's too. -/
def Ctx.keepSettings (c : Ctx) (n : StrandId) (t : Strand) : Ctx :=
  { c with settings := (c.settings.filter (fun x => x.1 != n)) ++ [(n, ⟨t.stklim, t.tsquota, t.qmin, t.qcap⟩)] }

/-- A strand's STKLIM, TSQUOTA, QMIN and QCAP as they now stand become the context's settings for it (R18). -/
def State.noteSettings (s : State) (n : StrandId) : State :=
  match (s.strand n).ctx with
  | some c => s.modCtx c (fun k => k.keepSettings n (s.strand n))
  | none => s

/-- The values of R18 at the first iteration of a launch: the argument words, the stack pointer, the context's settings, and zero
elsewhere. R18 gives ROLE from the record and no value for LEASECTL: that it takes its reset value again is the model's choice.
(Log entry 61, DESIGN CHOICE, unsafe.) -/
def Strand.firstIteration (t : Strand) (n : StrandId) (c : Ctx) (p : PartId) (k : Fin 4) (l : Launch) (o : Nat)
    (permit : Option Permit) : Strand :=
  let r : Strand := { Strand.reset with
    run := .running, ctx := some c.num, launch := some (p, k),
    s := Vector.ofFn (fun i : Fin 64 => if 1 ≤ i.val ∧ i.val ≤ 8 then l.arg (i.val - 1)
      else if i.val = 63 then c.aploc + 0x10000 else 0),
    role := l.roleOf, stkbase := stackBase n,
    stklim := (c.settingsOf n).stklim, tsquota := (c.settingsOf n).tsquota,
    qmin := (c.settingsOf n).qmin, qcap := (c.settingsOf n).qcap, leasectl := leasectlReset,
    tlb := t.tlb, counters := t.counters, views := t.views, moCount := t.moCount, moFree := t.moFree, schedCount := t.schedCount,
    nseq := t.nseq, cq := t.cq, ib := t.ib, async := t.async }
  r.enterIteration l o permit

/-! ### Acceptance (R260, R263, R308) -/

/-- The kernel descriptor's address names one loaded into the partition (R263, ERR 5). -/
def State.descLoaded (s : State) (p : PartId) (a : Word) : Bool :=
  s.ctxs.any (fun c => c.live && c.part == p && c.objects.any (fun o => o.descs.contains a))

/-- A reserved field or a field that must be zero is nonzero (R263, ERR 1). -/
def Launch.reservedBad (l : Launch) : Bool :=
  bits l.ctl 15 49 != 0 || bits l.ctl 9 1 != 0 || bits l.ctl 3 1 != 0 || l.order == 3 || l.roleOf == 3 ||
  bits (l.w64 0x38) 48 16 != 0 || bits (l.w64 0xD8) 16 48 != 0 || l.w64 0xF8 != 0 ||
  (List.range (min l.nlev 6)).any (fun k => bits (l.levelEntry k) 34 30 != 0 || l.mark k == 3) ||
  ((List.range 6).filter (fun k => decide (l.nlev ≤ k))).any (fun k => l.levelEntry k != 0 || l.coeff k != 0 || l.coeff (6 + k) != 0) ||
  (l.order != 2 && (l.cg != 0 || l.rdok || (List.range 9).any (fun i => l.w64 (0xB0 + 8 * i) != 0)))

/-- ERR 4: the region and the cover map (R263). -/
def Launch.regionBad (l : Launch) (g : Nat) : Bool :=
  let map0 := l.cover.toNat
  let mapLen := ceilDiv (l.ncr * l.ncc) 8
  l.ncr == 0 || l.ncc == 0 || decide (2 ^ 24 < l.ncr * l.ncc) || l.out.toNat % 64 != 0 || map0 % 64 != 0 ||
  l.rpitch % 64 != 0 || decide (l.rpitch < l.ncc * g) || rangesMeet map0 mapLen l.addr.toNat 256 ||
  (List.range l.ncr).any (fun y => rangesMeet map0 mapLen (l.out.toNat + y * l.rpitch) (l.ncc * g))

/-- The refusal code of a record, 0 for none (R263). `hnd` tells whether HND is current, `tile` its tile's image size. A record that
breaks several conditions gets the lowest of their codes. (Log entry 79, DESIGN CHOICE, unsafe.) -/
def State.recordError (s : State) (p : PartId) (l : Launch) (hnd : Bool) (tile : Nat) : Nat :=
  if bits (l.w64 0) 60 4 ≠ 0 ∨ l.reservedBad then 1
  else if l.nlev = 0 ∨ 6 < l.nlev ∨ 1 < (l.levels.filter (fun k => l.mark k == 2)).length ∨ 2 ^ 48 ≤ l.count then 2
  else if l.order = 2 ∧ (l.fh < 1 ∨ 64 < l.fh ∨ l.fw < 1 ∨ 64 < l.fw ∨ (l.cg = 3 ∧ !hnd)) then 3
  else if l.order = 2 ∧ l.regionBad (l.cellBytes tile) then 4
  else if l.entry.getLsbD 0 ∨ !s.descLoaded p l.kdesc then 5
  else if !(allStrands.any (fun n => s.partOf n == some p)) then 6
  else 0

/-- The place a launch takes in the queue: descending PRIO, then first acceptance (R309). -/
def insertLaunch (q : List Launch) (l : Launch) : List Launch :=
  q.takeWhile (fun x => decide (l.prio < x.prio) || (x.prio == l.prio && decide (x.accepted ≤ l.accepted))) ++
  l :: q.dropWhile (fun x => decide (l.prio < x.prio) || (x.prio == l.prio && decide (x.accepted ≤ l.accepted)))

/-- Bytes read for the sequencer, none of them where the read fails; a line is waited for as R390 and R397 say. -/
def State.readOrNone (s : State) (c : Ctx) (a : Word) (k : Nat) : Except TrapInfo (List Byte) :=
  match s.loadBytesVa c a k with
  | .ok bs => .ok bs
  | .error e => if e.cause = cHeld then .error e else .ok []

/-- The handle of an overwriting record's output tensor, read through the context's tables: whether it is current and its
whole tile's image size (R131, R263, R268). -/
def State.outHandle (s : State) (c : Ctx) (l : Launch) : Except TrapInfo (Bool × Nat) :=
  if handleSlot l.hnd < c.htlen then do
    let bs ← s.readOrNone c (c.slotAddr l.hnd) 256
    let r : Shape := (chunks 8 32 bs).map bytesNat
    .ok (if bs.isEmpty then (false, 0) else (Shape.current r l.hnd, templateImage (Shape.template r)))
  else .ok (false, 0)

/-- What a kernel descriptor names (R304): CODE, the safe-point entries by offset, the loop entries, and MMREV. -/
structure KernelTables where
  code : Word
  safe : List (Nat × List Byte)
  loops : List (List Byte)
  mmrev : Nat

/-- A kernel descriptor and its tables as the sequencer reads them at acceptance (R304). What cannot be read counts as zero: no tables,
CODE 0, and a revision of 0, in whose place the context's own is taken. (Log entry 80, DESIGN CHOICE, unsafe.) -/
def State.kernelTables (s : State) (c : Ctx) (kdesc : Word) : Except TrapInfo KernelTables := do
  let d ← s.readOrNone c kdesc 64
  let w (off : Nat) : Nat := bytesNat ((d.drop off).take 8)
  let table (a size count : Nat) : Except TrapInfo (List (List Byte)) := do
    let bs ← s.readOrNone c (word a) (size * count)
    .ok (if bs.isEmpty then [] else chunks size count bs)
  let safe ← table (w 0x10) 24 (bits (w 0x18) 0 32)
  let loops ← table (w 0x20) 16 (bits (w 0x28) 0 6)
  .ok ⟨word (w 0), safe.map (fun e => (bits (bytesNat (e.take 8)) 0 32, e)), loops, bits (w 0x30) 0 4⟩

/-- The outcome of LAUNCH_ACCEPT (R308). -/
inductive Accepted where
  | queued (s : State)
  | refused (s : State)
  /-- The copy or the status words failed translation or permission (R264), or wait for a held line (R397). -/
  | failed (t : TrapInfo)

/-- LAUNCH_ACCEPT (R260, R263, R308): the record is copied and checked, and ACCEPTED or REFUSED is written. An acceptance asks for
an evaluation of pre-emption (R311). A replay's window opens where no launch was there before (R366). -/
def State.acceptLaunch (s : State) (p : PartId) (c : Ctx) (a : Word) : Accepted :=
  let made : Except TrapInfo (Bool × State) := do
    let copy ← s.loadBytesVa c a 256
    let l0 : Launch := { (default : Launch) with addr := a, ctx := c.num, record := copy, accepted := s.ticks }
    let (hnd, tile) ← s.outHandle c l0
    let err := s.recordError p l0 hnd tile
    if err ≠ 0 then
      let s ← s.writeStatus l0 stRefused err
      .ok (false, s)
    else
      let k ← s.kernelTables c l0.kdesc
      let l := { l0 with tile := tile, code := k.code, safe := k.safe, loops := k.loops, mmrev := k.mmrev, state := stAccepted,
                         nextUnit := List.replicate 4 0 }
      let s ← s.writeStatus l stAccepted 0
      .ok (true, s.modPart p (fun x => { x with
        queue := insertLaunch x.queue l, evalDue := true,
        repSince := if x.queue.isEmpty && x.slots.toList.all (·.isNone) then s.gts else x.repSince }))
  match made with
  | .ok (true, s) => .queued s
  | .ok (false, s) => .refused s
  | .error e => .failed e

/-! ### Iterations that end (R257) -/

/-- Ordinals joined to a launch's ended ones. -/
def addEnded (set os : List Nat) : List Nat := os.foldl (fun a o => if a.contains o then a else a ++ [o]) set

/-- The assignment of a strand in its launch. -/
def Launch.assign? (l : Launch) (n : StrandId) : Option Assign := l.assigns.find? (fun a => a.strand == n)

def Launch.modAssign (l : Launch) (n : StrandId) (f : Assign → Assign) : Launch :=
  { l with assigns := l.assigns.map (fun a => if a.strand = n then f a else a) }

/-- A strand's atomics to ordered pages of an iteration that have not been accepted, or performed while fixed order is off (R257). -/
def Strand.orderedOutstanding (t : Strand) (o : Nat) : Bool :=
  t.cq.any (fun e => e.ordn == o && (match e.kind with
    | .atom _ _ _ _ _ _ _ _ ordered => ordered || e.opage
    | _ => false))

/-- The iterations a strand has left end once their ordered atomics are accepted (R257). -/
def State.endLeft (s : State) (n : StrandId) : State :=
  match (s.strand n).launch with
  | none => s
  | some (p, k) =>
    s.modLaunch p k (fun l =>
      match l.assign? n with
      | none => l
      | some a =>
        let gone := a.leaving.filter (fun o => !(s.strand n).orderedOutstanding o)
        { (l.modAssign n (fun a => { a with leaving := a.leaving.filter (fun o => !gone.contains o) })) with
          endedSet := addEnded l.endedSet gone })

end Sys2Proof.Machine
end

