-- ==== Sys2Proof/Machine/Control.lean ====
section
/-! DEFINITION. Control instructions (R118 to R135, R139, R140, R142): the shared course of a control instruction's dispatch, and
the integer, logical, predicate, address, handle, branch and loop instructions, TRAP, BRK, TACK, ERET and NOP. -/

namespace Sys2Proof.Machine

abbrev Out := Host.Outcome State Fault Refusal

/-! ### The course of a control instruction -/

/-- What an instruction's own rule does once it dispatches: it takes effect, it holds dispatch, or it raises. -/
inductive Effect where
  | go (s : State)
  | wait
  /-- It holds dispatch, and what its wait changes is changed. -/
  | hold (f : State → State)
  | trap (t : TrapInfo) (s : State)

/-- A unit's spacing counts from now: 0 the control core, 1 to 3 the load, matrix and store queues (R100). -/
def Strand.spaceFrom (t : Strand) (u : Fin 4) : Strand := { t with gaps := t.gaps.set u.val 0 u.isLt }

/-- A cycle in which a unit waits out the spacing of its next instruction (R100). -/
def Strand.spaceOn (t : Strand) (u : Fin 4) : Strand := { t with gaps := t.gaps.set u.val (t.gaps[u.val] + 1) u.isLt }

/-- The unit has waited out an instruction's SC (R100). -/
def Strand.spaced (t : Strand) (u : Fin 4) (m : Mods) : Bool := decide (m.sc.toNat ≤ t.gaps[u.val])

/-- An instruction that dispatches counts in INSTR (R372), the control core's spacing counts from it (R100; log entry 13, DESIGN CHOICE, unsafe), and a safe
point becomes the strand's last one (R99, R362). -/
def State.dispatched (s : State) (n : StrandId) (m : Mods) : State :=
  let t := s.strand n
  let s := (s.countStrand n 0 1).modStrand n (fun t => t.spaceFrom 0)
  match (s.launchOf n).bind (fun l => l.safeOrdinal m.stop t.pc) with
  | some o => s.modStrand n (fun t => { t with spo := some o })
  | none => s

/-- The program counter goes to the one R107 gives. -/
def State.advance (s : State) (n : StrandId) : State := s.modStrand n (fun t => t.setPc s.cur.next)

/-- The dispatch of a control instruction (R98, R100, R112, R118, R119, R221): its spacing, the checks before the guards, the guards,
the wait for a register whose data has not come (a cycle of MSTALL, R372), the wait of R119 when `settled`, and then its own rule. `waits` marks an
instruction of R281 while it holds dispatch. (Log entry 12, DESIGN CHOICE, safe.) -/
def controlWith (m : Mods) (pre : Option TrapInfo) (uses : List SReg) (settled waits : Bool)
    (body : State → StrandId → Effect) (s : State) : Out :=
  let n := s.cur.strand
  let t := s.strand n
  if !t.spaced 0 m then .next (s.modStrand n (fun t => t.spaceOn 0))
  else match pre with
  | some tr => .next (s.raise n tr t.pc)
  | none =>
    if !t.holds m then .next (((s.dispatched n m).advance n).modStrand n (fun t => { t with waiting := false }))
    else if uses.any t.busy then .next (s.countStrand n 5 1)
    else if settled && !t.passedBefore t.nseq then .next s
    else match body (s.dispatched n m) n with
      | .go s' => .next (s'.modStrand n (fun t => { t with waiting := false }))
      | .wait => .next (if waits then s.modStrand n (fun t => { t with waiting := true }) else s)
      | .hold f => .next (f (if waits then s.modStrand n (fun t => { t with waiting := true }) else s))
      | .trap tr s' => .next ((if tr.cause = cHeld then s else s').raise n tr t.pc)

/-- A control instruction of one cycle with no check before its guards (R118). -/
def control (m : Mods) (uses : List SReg) (body : State → StrandId → Effect) : State → Out :=
  controlWith m none uses false false body

/-- A scalar result written at dispatch (R118). -/
def writeS (m : Mods) (uses : List SReg) (sd : SReg) (f : Strand → Word) : State → Out :=
  control m (sd :: uses) (fun s n => .go ((s.modStrand n (fun t => t.setS sd (f t))).advance n))

/-- A predicate result written at dispatch. -/
def writeP (m : Mods) (uses : List SReg) (pd : PReg) (f : Strand → Bool) : State → Out :=
  control m uses (fun s n => .go ((s.modStrand n (fun t => t.setP pd (f t))).advance n))

/-! ### Integer and logical operations (R120 to R125) -/

def mulHigh (a b : Word) : Word := BitVec.ofInt 64 (a.toInt * b.toInt / 2 ^ 64)
def mulHighU (a b : Word) : Word := BitVec.ofNat 64 (a.toNat * b.toNat / 2 ^ 64)
/-- DIV of R121. -/
def divS (a b : Word) : Word := if b = 0 then -1 else a.sdiv b
/-- DIVU of R121. -/
def divU (a b : Word) : Word := if b = 0 then BitVec.allOnes 64 else a / b
/-- REM of R121. -/
def remS (a b : Word) : Word := if b = 0 then a else a.srem b
/-- REMU of R121. -/
def remU (a b : Word) : Word := if b = 0 then a else a % b
def shiftCount (b : Word) : Nat := b.toNat % 64
def shl (a b : Word) : Word := a <<< shiftCount b
def shr (a b : Word) : Word := a >>> shiftCount b
def sar (a b : Word) : Word := a.sshiftRight (shiftCount b)
def rol (a b : Word) : Word := a.rotateLeft (shiftCount b)
def ror (a b : Word) : Word := a.rotateRight (shiftCount b)
def minS (a b : Word) : Word := if a.slt b then a else b
def maxS (a b : Word) : Word := if a.slt b then b else a
def minU (a b : Word) : Word := if a.ult b then a else b
def maxU (a b : Word) : Word := if a.ult b then b else a
/-- CLZ, 64 for zero (R122). -/
def clz (a : Word) : Word := if a = 0 then 64 else BitVec.ofNat 64 (63 - a.toNat.log2)
/-- CTZ, 64 for zero. -/
def ctz (a : Word) : Word := BitVec.ofNat 64 (((List.range 64).find? (fun i => a.getLsbD i)).getD 64)
def popc (a : Word) : Word := BitVec.ofNat 64 ((List.range 64).countP (fun i => a.getLsbD i))
def simm12 (i : BitVec 12) : Word := i.signExtend 64
def simm18 (i : BitVec 18) : Word := i.signExtend 64
/-- The field a[pos + w − 1 : pos], sign-extended (R124). -/
def fieldS (a : Word) (pos w : Nat) : Word := (a.extractLsb' pos w).signExtend 64
def fieldU (a : Word) (pos w : Nat) : Word := (a.extractLsb' pos w).setWidth 64
def fieldMask (pos w : Nat) : Word := (BitVec.allOnes w).setWidth 64 <<< pos
/-- BFI of R124. -/
def insertField (a b : Word) (pos w : Nat) : Word := (a &&& ~~~fieldMask pos w) ||| ((b <<< pos) &&& fieldMask pos w)

/-- A register form of R120: sd := f(sa, sb). -/
def aluA (f : Word → Word → Word) (m : Mods) (sd sa sb : SReg) : State → Out :=
  writeS m [sa, sb] sd (fun t => f (t.getS sa) (t.getS sb))

/-- An immediate form of R123: the register form with b the sign-extended immediate. -/
def aluI (f : Word → Word → Word) (m : Mods) (sd sa : SReg) (imm : BitVec 12) : State → Out :=
  writeS m [sa] sd (fun t => f (t.getS sa) (simm12 imm))

def aluU (f : Word → Word) (m : Mods) (sd sa : SReg) : State → Out := writeS m [sa] sd (fun t => f (t.getS sa))

def execAdd (m : Mods) (sd sa sb : SReg) (s : State) : Out := aluA (· + ·) m sd sa sb s
def execSub (m : Mods) (sd sa sb : SReg) (s : State) : Out := aluA (· - ·) m sd sa sb s
def execMul (m : Mods) (sd sa sb : SReg) (s : State) : Out := aluA (· * ·) m sd sa sb s
def execMulh (m : Mods) (sd sa sb : SReg) (s : State) : Out := aluA mulHigh m sd sa sb s
def execMulhu (m : Mods) (sd sa sb : SReg) (s : State) : Out := aluA mulHighU m sd sa sb s
def execDiv (m : Mods) (sd sa sb : SReg) (s : State) : Out := aluA divS m sd sa sb s
def execDivu (m : Mods) (sd sa sb : SReg) (s : State) : Out := aluA divU m sd sa sb s
def execRem (m : Mods) (sd sa sb : SReg) (s : State) : Out := aluA remS m sd sa sb s
def execRemu (m : Mods) (sd sa sb : SReg) (s : State) : Out := aluA remU m sd sa sb s
def execAnd (m : Mods) (sd sa sb : SReg) (s : State) : Out := aluA (· &&& ·) m sd sa sb s
def execOr (m : Mods) (sd sa sb : SReg) (s : State) : Out := aluA (· ||| ·) m sd sa sb s
def execXor (m : Mods) (sd sa sb : SReg) (s : State) : Out := aluA (· ^^^ ·) m sd sa sb s
def execAndn (m : Mods) (sd sa sb : SReg) (s : State) : Out := aluA (fun a b => a &&& ~~~b) m sd sa sb s
def execShl (m : Mods) (sd sa sb : SReg) (s : State) : Out := aluA shl m sd sa sb s
def execShr (m : Mods) (sd sa sb : SReg) (s : State) : Out := aluA shr m sd sa sb s
def execSar (m : Mods) (sd sa sb : SReg) (s : State) : Out := aluA sar m sd sa sb s
def execRol (m : Mods) (sd sa sb : SReg) (s : State) : Out := aluA rol m sd sa sb s
def execRor (m : Mods) (sd sa sb : SReg) (s : State) : Out := aluA ror m sd sa sb s
def execMin (m : Mods) (sd sa sb : SReg) (s : State) : Out := aluA minS m sd sa sb s
def execMax (m : Mods) (sd sa sb : SReg) (s : State) : Out := aluA maxS m sd sa sb s
def execMinu (m : Mods) (sd sa sb : SReg) (s : State) : Out := aluA minU m sd sa sb s
def execMaxu (m : Mods) (sd sa sb : SReg) (s : State) : Out := aluA maxU m sd sa sb s
def execClz (m : Mods) (sd sa : SReg) (s : State) : Out := aluU clz m sd sa s
def execCtz (m : Mods) (sd sa : SReg) (s : State) : Out := aluU ctz m sd sa s
def execPopc (m : Mods) (sd sa : SReg) (s : State) : Out := aluU popc m sd sa s
def execAddi (m : Mods) (sd sa : SReg) (imm : BitVec 12) (s : State) : Out := aluI (· + ·) m sd sa imm s
def execAndi (m : Mods) (sd sa : SReg) (imm : BitVec 12) (s : State) : Out := aluI (· &&& ·) m sd sa imm s
def execOri (m : Mods) (sd sa : SReg) (imm : BitVec 12) (s : State) : Out := aluI (· ||| ·) m sd sa imm s
def execXori (m : Mods) (sd sa : SReg) (imm : BitVec 12) (s : State) : Out := aluI (· ^^^ ·) m sd sa imm s
def execShli (m : Mods) (sd sa : SReg) (imm : BitVec 12) (s : State) : Out := aluI shl m sd sa imm s
def execShri (m : Mods) (sd sa : SReg) (imm : BitVec 12) (s : State) : Out := aluI shr m sd sa imm s
def execSari (m : Mods) (sd sa : SReg) (imm : BitVec 12) (s : State) : Out := aluI sar m sd sa imm s
def execBfx (m : Mods) (sd sa : SReg) (pos c : BitVec 6) (s : State) : Out :=
  aluU (fun a => fieldS a pos.toNat (c.toNat + 1)) m sd sa s
def execBfxu (m : Mods) (sd sa : SReg) (pos c : BitVec 6) (s : State) : Out :=
  aluU (fun a => fieldU a pos.toNat (c.toNat + 1)) m sd sa s
def execBfi (m : Mods) (sd sa sb : SReg) (pos c : BitVec 6) (s : State) : Out :=
  aluA (fun a b => insertField a b pos.toNat (c.toNat + 1)) m sd sa sb s
def execMovi (m : Mods) (sd : SReg) (imm : BitVec 18) (s : State) : Out := writeS m [] sd (fun _ => simm18 imm) s
def execMovl (m : Mods) (sd : SReg) (lit : Word) (s : State) : Out := writeS m [] sd (fun _ => lit) s
def execAddl (m : Mods) (sd sa : SReg) (lit : Word) (s : State) : Out := aluU (fun a => a + lit) m sd sa s

/-! ### Predicates (R126, R127) -/

def cmpA (f : Word → Word → Bool) (m : Mods) (pd : PReg) (sa sb : SReg) : State → Out :=
  writeP m [sa, sb] pd (fun t => f (t.getS sa) (t.getS sb))

def cmpI (f : Word → Word → Bool) (m : Mods) (pd : PReg) (sa : SReg) (imm : BitVec 12) : State → Out :=
  writeP m [sa] pd (fun t => f (t.getS sa) (simm12 imm))

def execCmpeq (m : Mods) (pd : PReg) (sa sb : SReg) (s : State) : Out := cmpA (· == ·) m pd sa sb s
def execCmpne (m : Mods) (pd : PReg) (sa sb : SReg) (s : State) : Out := cmpA (· != ·) m pd sa sb s
def execCmplt (m : Mods) (pd : PReg) (sa sb : SReg) (s : State) : Out := cmpA BitVec.slt m pd sa sb s
def execCmple (m : Mods) (pd : PReg) (sa sb : SReg) (s : State) : Out := cmpA BitVec.sle m pd sa sb s
def execCmpltu (m : Mods) (pd : PReg) (sa sb : SReg) (s : State) : Out := cmpA BitVec.ult m pd sa sb s
def execCmpleu (m : Mods) (pd : PReg) (sa sb : SReg) (s : State) : Out := cmpA BitVec.ule m pd sa sb s
def execCmpeqi (m : Mods) (pd : PReg) (sa : SReg) (imm : BitVec 12) (s : State) : Out := cmpI (· == ·) m pd sa imm s
def execCmpnei (m : Mods) (pd : PReg) (sa : SReg) (imm : BitVec 12) (s : State) : Out := cmpI (· != ·) m pd sa imm s
def execCmplti (m : Mods) (pd : PReg) (sa : SReg) (imm : BitVec 12) (s : State) : Out := cmpI BitVec.slt m pd sa imm s
def execCmplei (m : Mods) (pd : PReg) (sa : SReg) (imm : BitVec 12) (s : State) : Out := cmpI BitVec.sle m pd sa imm s
def execCmpltui (m : Mods) (pd : PReg) (sa : SReg) (imm : BitVec 12) (s : State) : Out := cmpI BitVec.ult m pd sa imm s
def execCmpleui (m : Mods) (pd : PReg) (sa : SReg) (imm : BitVec 12) (s : State) : Out := cmpI BitVec.ule m pd sa imm s

def predA (f : Bool → Bool → Bool) (m : Mods) (pd pa pb : PReg) : State → Out :=
  writeP m [] pd (fun t => f (t.getP pa) (t.getP pb))

def execPand (m : Mods) (pd pa pb : PReg) (s : State) : Out := predA (· && ·) m pd pa pb s
def execPor (m : Mods) (pd pa pb : PReg) (s : State) : Out := predA (· || ·) m pd pa pb s
def execPxor (m : Mods) (pd pa pb : PReg) (s : State) : Out := predA (· != ·) m pd pa pb s
def execPandn (m : Mods) (pd pa pb : PReg) (s : State) : Out := predA (fun a b => a && !b) m pd pa pb s
def execPset (m : Mods) (pd : PReg) (sa : SReg) (s : State) : Out := writeP m [sa] pd (fun t => t.getS sa != 0) s
def execPget (m : Mods) (sd : SReg) (pa : PReg) (s : State) : Out :=
  writeS m [] sd (fun t => if t.getP pa then 1 else 0) s

/-! ### Addresses and handles (R128 to R132) -/

/-- The context of a strand, under the memory-model revision of the object that the strand runs (R302); a strand that runs has
one. -/
def State.curCtx (s : State) (n : StrandId) : Ctx :=
  let c := (s.ctxOf n).getD default
  match s.launchOf n with
  | some l => if l.mmrev = 0 then c else { c with mmrev := l.mmrev }
  | none => c

def execLea (m : Mods) (sd sa sb : SReg) (sh : BitVec 6) (s : State) : Out := aluA (fun a b => a + b <<< sh.toNat) m sd sa sb s

/-- The code of APTS (R129). -/
def Region.code : Region → Word
  | .none => 0 | .core => 1 | .pod => 2 | .fabric => 3

def execApts (m : Mods) (sd sa : SReg) (s : State) : Out :=
  writeS m [sa] sd (fun t => Region.code ((s.curCtx s.cur.strand).region (t.getS sa))) s

/-- The window an APCV selects (R130). -/
def apcvWindow (f : Nat) : Region := if f / 2 = 0 then .core else if f / 2 = 1 then .pod else .fabric

/-- The conversion of R130; none is BOUNDS. The rule says TADDR := a beside the direction from offset to address alone; that the
other one sets it too is the model's reading. (Log entry 62, DEDUCED, unsafe.) -/
def apcvValue (base : Word) (size : Nat) (toOffset : Bool) (a : Word) : Option Word :=
  if toOffset then (if inWindow base size a then some (a - base) else none)
  else if size ≤ a.toNat then none else some (base + a)

def execApcv (m : Mods) (sd sa : SReg) (f : BitVec 6) (s : State) : Out :=
  control m [sd, sa] (fun s n =>
    let a := (s.strand n).getS sa
    let (base, size) := (s.curCtx n).window (apcvWindow f.toNat)
    match apcvValue base size (f.getLsbD 0) a with
    | none => .trap (addrTrap cBounds a) s
    | some x => .go ((s.modStrand n (fun t => t.setS sd x)).advance n)) s

/-- HGET of R132. A sel of no field raises ILLEGAL before the guards (R112), with TADDR a, for which it waits. -/
def execHget (m : Mods) (sd sa : SReg) (sel : BitVec 6) (s : State) : Out :=
  let n := s.cur.strand
  let a := (s.strand n).getS sa
  let pre := if 15 < sel.toNat then some (addrTrap cIllegal a) else none
  if pre.isSome ∧ (s.strand n).busy sa then .next (s.countStrand n 5 1)
  else controlWith m pre [sd, sa] false false (fun s n =>
    let a := (s.strand n).getS sa
    let c := s.curCtx n
    if !(s.strand n).class0Clear then .wait
    else if c.htlen ≤ handleSlot a then .trap (addrTrap cBounds a) s
    else match s.loadWords n (c.slotAddr a) 32 with
      | .error t => .trap t (s.poisonRead n t)
      | .ok (r, s') =>
        if !Shape.current r a then .trap (addrTrap cHandleStale a) s
        else .go ((s'.modStrand n (fun t => t.setS sd (Shape.field r sel.toNat))).advance n)) s

def execHchk (m : Mods) (pd : PReg) (sa : SReg) (s : State) : Out :=
  control m [sa] (fun s n =>
    let a := (s.strand n).getS sa
    let c := s.curCtx n
    if !(s.strand n).class0Clear then .wait
    else
      let write (s : State) (b : Bool) : Effect := .go ((s.modStrand n (fun t => t.setP pd b)).advance n)
      if c.htlen ≤ handleSlot a then write s false
      else match s.loadWords n (c.slotAddr a) 32 with
        | .error t => if t.cause = cHeld then .trap t s else write (s.poisonRead n t) false
        | .ok (r, s') => write s' (Shape.current r a)) s

/-! ### Branches and calls (R133) -/

def rLr : SReg := 62
def rSp : SReg := 63
def rLc : SReg := 61
def rLa : SReg := 60

/-- A branch to a register or literal target: an odd one raises ALIGN (R133). `link` is lr's new value. -/
def jumpTo (s : State) (n : StrandId) (target : Word) (link : Option Word) : Effect :=
  if target.getLsbD 0 then .trap (addrTrap cAlign target) s
  else .go (s.modStrand n (fun t => (match link with
    | some x => t.setS rLr x
    | none => t).setPc target))

/-- A PC-relative target: PC + 2 · offset (R107, R133). -/
def relTarget (pc : Word) (off : Word) : Word := pc + off + off

def execBr (m : Mods) (off : BitVec 18) (s : State) : Out :=
  control m [] (fun s n => .go (s.modStrand n (fun t => t.setPc (relTarget t.pc (simm18 off))))) s
def execCall (m : Mods) (off : BitVec 18) (s : State) : Out :=
  control m [rLr] (fun s n => .go (s.modStrand n (fun t =>
    (t.setS rLr s.cur.next).setPc (relTarget t.pc (simm18 off))))) s
def execJmp (m : Mods) (sa : SReg) (s : State) : Out :=
  control m [sa] (fun s n => jumpTo s n ((s.strand n).getS sa) none) s
def execCallr (m : Mods) (sa : SReg) (s : State) : Out :=
  control m [sa, rLr] (fun s n => jumpTo s n ((s.strand n).getS sa) (some s.cur.next)) s
def execRet (m : Mods) (s : State) : Out := control m [rLr] (fun s n => jumpTo s n ((s.strand n).getS rLr) none) s
def execBrl (m : Mods) (lit : Word) (s : State) : Out := control m [] (fun s n => jumpTo s n lit none) s
def execCalll (m : Mods) (lit : Word) (s : State) : Out :=
  control m [rLr] (fun s n => jumpTo s n lit (some s.cur.next)) s

/-! ### The hardware loop (R134, R135, R283) -/

def lcCount (lc : Word) : Word := lc &&& 0xFFFFFFFFFFFF
def lcIdx (lc : Word) : Nat := bits lc.toNat 58 6

/-- LOOPP of R134. -/
def execLoopp (m : Mods) (sa : SReg) (idx : BitVec 6) (off : BitVec 12) (s : State) : Out :=
  control m [sa, rLa, rLc] (fun s n =>
    let t := s.strand n
    let c := lcCount (t.getS sa)
    let e := relTarget t.pc (simm12 off)
    let t := t.setS rLa s.cur.next
    if c = 0 then .go (s.setStrand n ((t.setS rLc 0).setPc (e + 8)))
    else .go (s.setStrand n ((t.setS rLc ((idx.setWidth 64 <<< 58) + c)).setPc s.cur.next))) s

/-- The strand's stop is a STOP's or a world switch's, which waits for no handler to return (R328). -/
def State.switchStop (s : State) (n : StrandId) : Bool :=
  (s.ctxOf n).any (·.stopped) || (s.part (s.tagOf n)).switching

/-- The strand drains (R283); at a handler level it does so for a switch-out alone (R313, R328). -/
def State.drains (s : State) (n : StrandId) : Bool :=
  (s.strand n).stop == .drain && ((s.strand n).level == 0 || s.switchStop n)

/-- A drain's clamp of lc.COUNT at an ENDL that takes its branch, with the program counter the drain will save (R283). -/
def clampLoop (l : Launch) (lc : Word) (endl : Word) : Word × Option (Word × Word) :=
  let e := l.loopEntry (lcIdx lc)
  let lim := word (e.stg - 1)
  if BitVec.ult lim (lcCount lc) then ((lc &&& ~~~0xFFFFFFFFFFFF) ||| lim, some (endl, l.code + word e.pro))
  else (lc, some (endl, endl + 8))

/-- ENDL of R134, its branch to la a taken branch to a register target (R108, R133); under a drain it clamps the count of a loop with
a table entry, and the strand then stops before the instruction at ENDL + 8 (R283). -/
def execEndl (m : Mods) (s : State) : Out :=
  control m [rLa, rLc] (fun s n =>
    let t := s.strand n
    let lc := t.getS rLc
    if BitVec.ule 2 (lcCount lc) ∧ (t.getS rLa).getLsbD 0 then .trap (addrTrap cAlign (t.getS rLa)) s
    else if BitVec.ule 2 (lcCount lc) then
      let lc1 := lc - 1
      match (if s.drains n ∧ t.draining.isNone ∧ lcIdx lc ≠ 63 then s.launchOf n else none) with
      | some l =>
        let (lc2, d) := clampLoop l lc1 t.pc
        .go (s.setStrand n ({ (t.setS rLc lc2).setPc (t.getS rLa) with draining := d }))
      | none => .go (s.setStrand n ((t.setS rLc lc1).setPc (t.getS rLa)))
    else .go (s.setStrand n ((t.setS rLc 0).setPc s.cur.next))) s

/-! ### Traps and NOP (R139, R140, R142, R324) -/

/-- TRAP raises TRAP with the program counter of the next instruction, so that ERET goes on after it (R139). -/
def execTrap (m : Mods) (imm : BitVec 12) (s : State) : Out :=
  controlWith m none [] true false (fun s n => .go (s.raise n ⟨cTrap, 0, imm.setWidth 64⟩ s.cur.next)) s

/-- BRK raises BREAK at its own address (R139). -/
def execBrk (m : Mods) (imm : BitVec 12) (s : State) : Out :=
  controlWith m none [] true false (fun s _ => .trap ⟨cBreak, 0, imm.setWidth 64⟩ s) s

def execTack (m : Mods) (s : State) : Out :=
  controlWith m none [] true false (fun s n => .go ((s.modStrand n (fun t => { t with tlock := false })).advance n)) s

/-- ERET of R324. That its PRIV falls on an ERET that executes, so after the guards and the wait of R119, is the model's reading of
R112 and R140. (Log entry 16, DEDUCED, unsafe.) -/
def execEret (m : Mods) (s : State) : Out :=
  controlWith m none [] true false (fun s n =>
    let t := s.strand n
    let L := t.level.val
    if L = 0 ∨ L ≤ bits (t.trapRegs L).cause.toNat 8 2 then .trap (plainTrap cPriv) s
    else if !t.idle || !t.pend.isEmpty then .wait
    else .go (s.setStrand n t.returnFrom)) s

def execNop (m : Mods) (s : State) : Out := control m [] (fun s n => .go (s.advance n)) s

end Sys2Proof.Machine
end

