-- ==== Sys2Proof/Machine/Fetch.lean ====
section
/-! DEFINITION. Fetching a strand's next instruction: the program counter's checks (R108), the word and a long form's literal
(R106), bundle slots (R107, R109 to R111), and what holds dispatch before an instruction (R119, R279, R283, R326). -/

namespace Sys2Proof.Machine

/-- The locked instruction-cache line that holds an address (R148). -/
def Strand.lockAt (t : Strand) (va : Word) : Option LockLine :=
  t.locks.find? (fun l => decide (l.addr.toNat ≤ va.toNat) && decide (va.toNat < l.addr.toNat + 128))

/-- The 8 bytes of a code word: a locked instruction-cache line's (R148), else memory's coherent value.
(Log entry 15, DEDUCED, unsafe.) -/
def State.codeBytes (s : State) (n : StrandId) (va : Word) (pa : Nat) : List Byte :=
  match (s.strand n).lockAt va with
  | some l => (l.data.drop (va.toNat - l.addr.toNat)).take 8
  | none => s.cohN pa 8

/-- One fetched word: its value, a trap, or a line to wait for. -/
inductive Fetched where
  | word (w : Word)
  | trap (t : TrapInfo)
  | held (pa : Nat)
  deriving DecidableEq, Repr

/-- The fetch of the word at a word address, with execute permission and never from a backing region (R87, R108). What a locked line
holds needs no read of memory. -/
def State.fetchWord (s : State) (n : StrandId) (c : Ctx) (a : Word) : Fetched :=
  if inBacking a then .trap (addrTrap cPermission a)
  else match s.translate (s.strand n).tlb c .exec a with
  | .error t => if t.cause = cHeld then .held t.addr.toNat else .trap t
  | .ok (pa, _) =>
    if ((s.strand n).lockAt a).isNone && s.lineDue pa then .held pa else .word (BitVec.ofNat 64 (leWord (s.codeBytes n a pa)))

/-- What dispatch finds at the program counter. -/
inductive Next where
  /-- An instruction, and the program counter after it (R107). -/
  | run (i : Instr) (next : Word)
  /-- An empty slot: nothing executes (R108). -/
  | empty (next : Word)
  /-- A trap of steps 1 to 5 of R112 at a program counter. -/
  | trap (t : TrapInfo) (pc : Word)
  /-- Nothing can be dispatched now. -/
  | hold
  /-- The fetch waits for a line (R386, R390, R397). -/
  | due (pa : Nat)
  deriving DecidableEq, Repr

def decodeTrap : DecodeErr → TrapInfo
  | .illegal => plainTrap cIllegal
  | .reserved => plainTrap cReserved
  | .short => plainTrap cIllegal

/-- The code of slot `j` of a bundle word (R109). -/
def slotCode (w : Word) (j : Nat) : BitVec 16 := w.extractLsb' (16 * j) 16

/-- A later slot of the word is not empty (R107). -/
def laterSlot (w : Word) (j : Nat) : Bool := (List.range 3).any (fun i => decide (j < i) && slotCode w i != 0xFFFF)

/-- Slot `j` of the bundle `w` at word address `a` (R107, R110, R111). -/
def slotNext (c : Ctx) (a w : Word) (j : Nat) : Next :=
  let next := if laterSlot w j then a + word (2 * (j + 1)) else a + 8
  let code := slotCode w j
  if code = 0xFFFF then .empty next
  else match decodeSlot code (c.dict.getD (code.extractLsb' 0 10).toNat 0) with
    | .ok i => .run i next
    | .error e => .trap (decodeTrap e) (a + word (2 * j))

/-- The fetch and decode at a program counter; `slot0` tells that the bundle at it has been read already (R108). An odd
program counter raises ALIGN (R320). -/
def State.fetchAt (s : State) (n : StrandId) (c : Ctx) (t : Word) (slot0 : Bool) : Next :=
  let low := t.toNat % 8
  if low = 6 ∨ low % 2 = 1 then .trap (addrTrap cAlign t) t
  else
    let a := t - word low
    match s.fetchWord n c a with
    | .held pa => .due pa
    | .trap x => .trap x t
    | .word w =>
      if low ≠ 0 ∨ slot0 then
        if w.extractLsb' 62 2 ≠ 3#2 then .trap (plainTrap cIllegal) t
        else if w.extractLsb' 48 14 ≠ 0 then .trap (plainTrap cReserved) a
        else slotNext c a w (low / 2)
      else if isLong w then
        match s.fetchWord n c (t + 8) with
        | .held pa => .due pa
        | .trap x => .trap x t
        | .word lit => match decodeWord w lit with
          | .ok i => .run i (t + 16)
          | .error e => .trap (decodeTrap e) t
      else match decodeWord w 0 with
        | .ok i => .run i (t + 8)
        | .error e => .trap (decodeTrap e) t

/-- The STOP bit of an instruction (R99). -/
def Instr.stopBit (i : Instr) : Bool := (i.fields.map (fun f => f.stop == 1)).getD false

/-- The instruction at the program counter is a safe point (R99). -/
def State.atSafePoint (s : State) (n : StrandId) (i : Instr) : Bool :=
  match s.launchOf n with
  | some l => (l.safeOrdinal (Instr.stopBit i) (s.strand n).pc).isSome
  | none => false

/-- The shared fields of an engine or vector instruction, and a NEXT's. -/
def Instr.mods (i : Instr) : Mods := (i.fields.map Fields.mods).getD default

/-- A NEXT. -/
def Instr.isNext : Instr → Bool
  | .next _ => true
  | _ => false

/-- An asynchronous trap waits for the strand's safe point: PREEMPT for a stop asked of it, or one of its sequencer's (R326). -/
def Strand.trapPending (t : Strand) : Bool := t.stop == .switch || (t.level == 0 && (t.stop == .checkpoint || !t.async.isEmpty))

/-- An event that takes effect at safe points alone is pending for the strand (R279, R328); at a handler level a pre-emption's
checkpoint and an asynchronous trap are not taken (R313, R326). -/
def Strand.stopPending (t : Strand) : Bool :=
  t.trapPending || t.debugReq || t.sampleReq || t.traceReq

/-- The walker has answered the strand's NEXT, which then takes effect (R20, R21). -/
def State.unitGranted (s : State) (n : StrandId) : Bool :=
  match s.launchOf n with
  | some l => ((l.assign? n).bind (·.granted)).isSome
  | none => false

/-- A drain has reached the instruction before which it stops, ENDL + 8 of its first ENDL (R283). -/
def Strand.drainArrived (t : Strand) : Bool :=
  match t.draining with
  | some (e, _) => t.stop == .drain && t.pc == e + 8
  | none => false

/-- A drain stops at this instruction: a NEXT that would take effect, met before a loop is clamped (R283, case (b)). -/
def State.drainsAt (s : State) (n : StrandId) (i : Instr) : Bool :=
  let t := s.strand n
  s.drains n && t.draining.isNone && Instr.isNext i && t.holds (Instr.mods i) && !s.unitGranted n

/-- Dispatch holds before this instruction: a pending event meets its safe point (R279), or a drain meets a NEXT (R283). -/
def State.holdsBefore (s : State) (n : StrandId) (i : Instr) : Bool :=
  let t := s.strand n
  (t.stopPending && s.atSafePoint n i && !(Instr.isNext i && s.unitGranted n)) || s.drainsAt n i

/-- VEXT and TAGFF: the control core holds dispatch until their scalar is written (R171, R210). -/
def Instr.writesScalarLate : Instr → Bool
  | .vext _ _ _ _ _ | .tagff _ _ _ => true
  | _ => false

/-- A scalar result of a VEXT has not landed (R171). -/
def Strand.vextWait (t : Strand) : Bool :=
  (t.queue .V).any (fun e => e.holds && e.stage != .done && Instr.writesScalarLate e.instr) ||
  t.pend.any (fun p => p.dests.any (fun d => match d with
    | .s _ _ => true
    | _ => false))

/-- A scalar result of a VEXT or TAGFF has not been written (R171, R210). -/
def Strand.resultWait (t : Strand) : Bool :=
  t.vextWait || (t.queue .L).any (fun e => e.holds && e.stage != .done && Instr.writesScalarLate e.instr)

/-- An instruction of the queues has faulted: dispatch stops (R91, step 1). -/
def Strand.faulted (t : Strand) : Bool := t.fault.isSome || t.entries.any (fun e => e.fault.isSome)

/-- What a strand dispatches next. It dispatches while it runs a stream, no fault waits for its older work, and no scalar
result is awaited. -/
def State.nextOf (s : State) (n : StrandId) : Next :=
  let t := s.strand n
  if t.run ≠ .running ∨ t.faulted ∨ t.resultWait ∨ t.drainArrived then .hold
  else match s.ctxOf n with
    | none => .hold
    | some c =>
      match s.fetchAt n c t.pc t.slot0 with
      | .run i next => if s.holdsBefore n i then .hold else .run i next
      | x => x

/-- The instruction before which an asynchronous trap holds the strand; a synchronous fault of its own comes first (R326). -/
def State.heldForAsync (s : State) (n : StrandId) : Option (Instr × Word) :=
  let t := s.strand n
  if t.run ≠ .running ∨ t.faulted ∨ t.resultWait ∨ !t.trapPending ∨ t.safeChecked then none
  else (s.ctxOf n).bind (fun c => match s.fetchAt n c t.pc t.slot0 with
    | .run i next => if s.atSafePoint n i then some (i, next) else none
    | _ => none)

/-- A strand has raised or taken a trap. -/
def Strand.raised (before after : Strand) : Bool :=
  (after.fault.isSome && before.fault.isNone) || after.level != before.level || after.run != before.run

/-- What becomes of a strand held for an asynchronous trap, given what its instruction would do: its own trap, or it is found free
of one. -/
def State.syncFirst (s : State) (n : StrandId) : Host.Outcome State Fault Refusal → State
  | .next s' => if Strand.raised (s.strand n) (s'.strand n) then s' else s.modStrand n (fun t => { t with safeChecked := true })
  | _ => s

end Sys2Proof.Machine
end

