-- ==== Sys2Proof/Machine/Replay.lean ====
section
/-! DEFINITION. The replay-enforcing mode as strands meet it (R365 to R368): the recorded records, the comparison of NEXT and
LOGW, and the check of a synchronising access with its reservation in the memory-order log (R236, R359, R364). -/

namespace Sys2Proof.Machine

/-! ### Recorded records (R362) -/

def Record.w (r : Record) (i : Nat) : Nat := (r.words.getD i 0).toNat
def Record.src (r : Record) : Nat := bits (r.w 1) 55 9
def Record.type (r : Record) : Nat := bits (r.w 1) 49 6
def Record.seq (r : Record) : Nat := bits (r.w 1) 0 24

/-- TINFO of REPLAY_DIVERGE (R368). -/
def divergeInfo (seq why : Nat) (mo : Bool) (src : Nat) : Word :=
  word ((seq % 2 ^ 24) <<< 40 + why <<< 32 + mo.toNat <<< 9 + src)

/-- REPLAY_DIVERGE with its recorded record, if there is one (R368). -/
def diverge (r : Option Record) (seq why : Nat) (mo : Bool) (src : Nat) : TrapInfo :=
  ⟨cReplayDiverge, (r.map (·.addr)).getD 0, divergeInfo seq why mo src⟩

/-! ### NEXT and LOGW (R366) -/

/-- A strand's NEXT or LOGW is met with its next recorded record of that type. -/
def State.replayStrand (s : State) (n : StrandId) (type : Nat) (w2 w3 : Word) : Except TrapInfo State :=
  let p := s.tagOf n
  let x := s.part p
  if !x.sched.rpl then .ok s
  else
    match (x.recSched.mapIdx (fun i r => (i, r))).find? (fun ir =>
        ir.2.type == type && ir.2.src == n.val && !x.repTaken.contains ir.1) with
    | none => .error (diverge none (s.strand n).schedCount 4 false n.val)
    | some (i, r) =>
      if r.words.getD 2 0 = w2 ∧ r.words.getD 3 0 = w3 then .ok (s.modPart p (fun x => { x with repTaken := x.repTaken ++ [i] }))
      else .error (diverge (some r) (s.strand n).schedCount 3 false n.val)

/-! ### Synchronising accesses (R367) -/

/-- The full sequence number of a recorded record at a position among its source's records. -/
def fullSeq (pos seq : Nat) : Int :=
  let d := ((seq : Int) - pos) % 2 ^ 24
  if d < 2 ^ 23 then pos + d else pos + d - 2 ^ 24

/-- The recorded records of a source with their places in the log and their full sequence numbers; void ones do not count. -/
def recordedOf (recs : List Record) (src : Nat) : List (Nat × Record × Int) :=
  let mine := (recs.mapIdx (fun i r => (i, r))).filter (fun ir => ir.2.src == src && ir.2.type != 0)
  mine.mapIdx (fun pos ir => (ir.1, ir.2, fullSeq pos ir.2.seq))

/-- FENCE and BAR completions, ordered by source and not by line (R367). -/
def isSourceOrdered (type : Nat) : Bool := type == 0x23 || type == 0x24

/-- The line a record names: its number and area, with the strand or the Pod whose window it lies in (R364). -/
def Record.line (r : Record) : Nat × Nat × Nat :=
  let area := bits (r.w 2) 12 2
  (area, bits (r.w 2) 14 50, if area = 1 then r.src else if area = 2 then r.src / 4 else 0)

/-- No earlier recorded record of the record's line (of its source for a FENCE or BAR) is unperformed. -/
def firstOfLine (x : Part) (i : Nat) (r : Record) : Bool :=
  ((x.recMo.take i).mapIdx (fun k q => (k, q))).all (fun kq =>
    x.repPerformed.contains kq.1 || kq.2.type == 0 ||
    !(if isSourceOrdered r.type then kq.2.src == r.src else !isSourceOrdered kq.2.type && kq.2.line == r.line))

/-- The outcome of the check of R367. -/
inductive Check where
  /-- The partition does not replay. -/
  | free
  | pass (i : Nat)
  | wait
  | diverge (t : TrapInfo)

/-- The check of a synchronising access against the recorded memory-order log: WR, ENG and the values read are not
compared (R367). -/
def State.checkMo (s : State) (n : StrandId) (type : Nat) (w2 w3 : Word) : Check :=
  let x := s.part (s.tagOf n)
  if !x.mo.rpl then .free
  else
    let seq := (s.strand n).count true
    let mine := recordedOf x.recMo n.val
    match mine.find? (fun e => e.2.2 == (seq : Int)) with
    | none =>
      .diverge (diverge none seq (if !mine.isEmpty && mine.all (fun e => decide (e.2.2 < (seq : Int))) then 4 else 1) true n.val)
    | some (i, r, _) =>
      if r.type ≠ type ∨ r.w 2 >>> 3 ≠ w2.toNat >>> 3 ∨ r.words.getD 3 0 ≠ w3 then .diverge (diverge (some r) seq 3 true n.val)
      else if firstOfLine x i r then .pass i
      else .wait

/-- A held access or decision is remembered with the time its hold began (R367). -/
def State.noteHold (s : State) (n : StrandId) : State :=
  s.modPart (s.tagOf n) (fun x =>
    if x.holdSince.any (fun h => h.1 == n) then x else { x with holdSince := x.holdSince ++ [(n, s.gts)] })

/-- The outcome of a synchronising access's reservation and check. -/
inductive MoReserve where
  | ok (slot : Option LogSlot) (s : State)
  | wait
  | trap (t : TrapInfo) (s : State)

/-- A synchronising access reserves its record and passes the replay's check, at dispatch (R236, R359, R367). A mismatch
voids the record it reserved. -/
def State.reserveMo (s : State) (n : StrandId) (type : Nat) (w2 w3 : Word) : MoReserve :=
  match s.checkMo n type w2 w3 with
  | .wait => .wait
  | c =>
    match s.reserveStrand n true type w2 w3 (match c with
      | .pass i => some i
      | _ => none) with
    | .error (t, s') => .trap t s'
    | .ok (slot, s') =>
      match c with
      | .diverge t => .trap t (s'.voidLogs n [slot])
      | _ => .ok slot (s'.clearHold n)

/-! ### Words 2 and 3 of the memory-order log (R364) -/

/-- Word 2 of a record. -/
def moWord2 (area line scope ord op : Nat) (wide wr eng : Bool) : Word :=
  word (line <<< 14 + area <<< 12 + scope <<< 9 + ord <<< 7 + op <<< 4 + wide.toNat <<< 3 + wr.toNat <<< 2 + eng.toNat <<< 1)

/-- Word 3 of a record: the issuing iteration's ordinal and a mask. -/
def moWord3 (ordinal mask : Nat) : Word := word ((ordinal % 2 ^ 48) <<< 16 + mask % 2 ^ 16)

/-- Word 2 of an access at an address. -/
def Ctx.moWord (c : Ctx) (a : Word) (scope ord op : Nat) (wide wr : Bool) : Word :=
  moWord2 (c.logPlace a).1 (c.logPlace a).2 scope ord op wide wr false

end Sys2Proof.Machine
end

