-- ==== Sys2Proof/Machine/Special.lean ====
section
/-! DEFINITION. The walker and launch instructions NEXT, LNCH, WAIT and HALT (R136 to R138, R141), the special registers (R83,
R84, R143 to R146, R209, R256, R315, R318, R320, R358, R360, R370, R372 to R375), the instruction-cache locks (R147, R148) and
LOGW (R149). -/

namespace Sys2Proof.Machine

/-! ### NEXT (R21, R136, R266, R272) -/

/-- A CMO of the strand has not acted on its lines. NEXT and HALT, which no trap takes back, follow it: R399's run ends with its
iteration uncounted (log entry 20, DEDUCED, safe). -/
def Strand.cmoWaits (t : Strand) : Bool :=
  t.cq.any (fun e => match e.kind with
    | .cmo _ _ _ _ => true
    | _ => false)

/-- Where NEXT goes from an ordinal of a unit. -/
inductive NextStep where
  | ordinal (o : Nat)
  /-- The cursor has not visited the next ordinal, or its skip has not taken effect. -/
  | wait
  | unitEnd
  deriving DecidableEq, Repr

/-- The permit mask of an ordinal is known to hold a cell, or the walk does not overwrite (R271, R272). -/
def Launch.runnable (l : Launch) (o : Nat) : Bool :=
  !l.overwriting || (l.visited o && !((l.permits.find? (fun x => x.1 == o)).map (·.2)).getD [] == [])

/-- The next ordinal of a unit from `o` up, past skipped ones, among `k` left. -/
def Launch.nextFrom (l : Launch) (o : Nat) : Nat → NextStep
  | 0 => .unitEnd
  | k + 1 =>
    if l.skipped.contains o then l.nextFrom (o + 1) k
    else if l.runnable o then .ordinal o
    else .wait

/-- The next iteration of the unit that holds an ordinal (R21). -/
def Launch.nextInUnit (l : Launch) (o : Nat) : NextStep :=
  l.nextFrom (o + 1) (l.firstOrdinal (l.unitOf o + 1) - (o + 1))

/-- The first iteration of a unit (R266, R272). -/
def Launch.firstOfUnit (l : Launch) (w : Nat) : NextStep := l.nextFrom (l.firstOrdinal w) l.temporal

/-- A strand moves to an iteration of its launch: the one it leaves ends once its ordered atomics are accepted (R21, R257). -/
def State.moveTo (s : State) (n : StrandId) (p : PartId) (k : Fin 4) (l : Launch) (o : Nat) : State :=
  let old := (s.strand n).ordinal
  let s := s.modLaunch p k (fun l => l.modAssign n (fun a =>
    { a with unit := l.unitOf o, ordinal := o, asks := false, granted := none, leaving := a.leaving ++ [old] }))
  (s.modStrand n (fun t => t.enterIteration l o (l.permitOf p k o))).endLeft n

/-- NEXT falls through: the strand's unit is over and its last iteration is left (R21, R273). -/
def State.fallThrough (s : State) (n : StrandId) (p : PartId) (k : Fin 4) : State :=
  let old := (s.strand n).ordinal
  let s := if (s.strand n).fell then s
    else s.modLaunch p k (fun l => l.modAssign n (fun a =>
      { a with fell := true, asks := false, granted := none, leaving := a.leaving ++ [old] }))
  ((s.modStrand n (fun t => { t with fell := true, permit := none })).advance n).endLeft n

/-- The failed reservation of a strand in the scheduler log: FULL is set, and no recorded record is used up (R359, R366). -/
def State.schedFull (s : State) (n : StrandId) : State :=
  s.modPart (s.tagOf n) (fun x => { x with sched := { x.sched with full := true } })

/-- A NEXT that takes effect: it meets its recorded record, reserves its own, and then changes the strand (R136, R363).
(Log entry 16, DEDUCED, unsafe.) -/
def nextEffect (s : State) (n : StrandId) (l : Launch) (ordField : Nat) (f : State → State) : Effect :=
  let w2 := word (ordField <<< 16)
  match s.replayStrand n 0x03 w2 l.addr with
  | .error t => .trap t s
  | .ok s1 =>
    match s1.reserveStrand n false 0x03 w2 l.addr none with
    | .error (t, _) => .trap t (s.schedFull n)
    | .ok (slot, s') => .go (f (s'.logEvent? (s.tagOf n) slot))

/-- The 48 bits of an ordinal that a NEXT which falls through logs (R363). -/
def allOnes48 : Nat := 2 ^ 48 - 1

/-- NEXT of R21 and R136. At the end of a unit it asks the walker, and takes the unit that UNIT_HAND_OUT has granted. -/
def execNext (m : Mods) (s : State) : Out :=
  controlWith m none [] true true (fun s n =>
    let t := s.strand n
    if t.level ≠ 0 then .trap (plainTrap cIllegal) s
    else if t.cmoWaits then .wait
    else
      match t.launch, s.launchOf n with
      | some (p, k), some l =>
        let fall := nextEffect s n l allOnes48 (fun s => s.fallThrough n p k)
        if t.fell then fall
        else
          match l.nextInUnit t.ordinal with
          | .ordinal o => nextEffect s n l o (fun s => s.moveTo n p k l o)
          | .wait => .wait
          | .unitEnd =>
            match (l.assign? n).bind (·.granted) with
            | some w =>
              match l.firstOfUnit w with
              | .ordinal o => nextEffect s n l o (fun s => s.moveTo n p k l o)
              | _ => .wait
            | none =>
              if (s.nextUnitFor p l (s.slotOfStrand p l n)).isNone then fall
              else .hold (fun s => s.modLaunch p k (fun l => l.modAssign n (fun a => { a with asks := true })))
      | _, _ => .go ((s.modStrand n (fun t => { t with fell := true, permit := none })).advance n)) s

/-! ### LNCH (R137) -/

/-- No write of the strand is uncommitted: its earlier stores have performed at package scope (R137, R247). -/
def State.storesPerformed (s : State) (n : StrandId) : Bool :=
  (s.flying n).isEmpty && (s.strand n).cq.all (fun e => match e.kind with
    | .store _ _ _ | .atom _ _ _ _ _ _ _ _ _ => false
    | _ => true)

/-- The queue of R308. -/
def queueSize : Nat := 16

/-- LNCH of R137. The rule states no TADDR for its ALIGN and PERMISSION, and TADDR is then zero (R322).
One whose 256 bytes cannot be copied ends its context. (Log entry 52, DEDUCED, unsafe.) -/
def execLnch (m : Mods) (sa : SReg) (s : State) : Out :=
  controlWith m none [sa] true false (fun s n =>
    let a := (s.strand n).getS sa
    let c := s.curCtx n
    if a.toNat % 64 ≠ 0 then .trap (plainTrap cAlign) s
    else if c.region a ≠ .none ∨ inBacking a then .trap (plainTrap cPermission) s
    else match s.translate (s.strand n).tlb c .read a with
      | .error t => .trap t s
      | .ok _ =>
        let p := c.part
        if !s.storesPerformed n || decide (queueSize ≤ (s.part p).queue.length) then .wait
        else match s.acceptLaunch p c a with
          | .queued s' | .refused s' => .go (s'.advance n)
          | .failed e => if e.cause = cHeld then .trap e s else .go (s.terminate c.num e.cause true)) s

/-! ### WAIT (R138) -/

/-- Log entry 17, DEDUCED, safe. -/
def execWait (m : Mods) (sd sa sb : SReg) (s : State) : Out :=
  controlWith m none [sd, sa, sb] true true (fun s n =>
    let t := s.strand n
    let a := t.getS sa
    let c := s.curCtx n
    if a.toNat % 8 ≠ 0 then .trap (addrTrap cAlign a) s
    else if c.region a = .core then .trap (addrTrap cPermission a) s
    else match s.access n .read 8 a with
      | .error tr => .trap tr s
      | .ok (l, e) =>
        match s.readChecks n 8 a l e with
        | some (tr, s') => .trap tr s'
        | none =>
          if !s.loadFirst n l then .wait
          else if s.blocked l then .hold (fun s => s.noteLate n l)
          else if s.syncBusy l then .wait
          else
            let (bs, s1) := (s.noteDdp e).bindLoad n t.nseq false l 8
            let v := word (bytesNat bs)
            if v = t.getS sb then .hold (fun s => s.clearHold n)
            else
              match s1.reserveMo n 0x25 (c.moWord a 3 1 0 true false) (moWord3 t.ordinal 0) with
              | .wait => .hold (fun s => s.noteHold n)
              | .trap tr s' => .trap tr s'
              | .ok slot s2 =>
                .go (((((s2.noteSync l).dropL1 n).logEvent? (s.tagOf n) slot).modStrand n (fun t => t.setS sd v)).advance n)) s

/-! ### HALT (R141) -/

/-- Every load and atomic of the strand has its value, so that none lands in a later launch. -/
def Strand.valuesIn (t : Strand) : Bool :=
  t.cq.all (fun e => match e.kind with
    | .load _ _ _ _ _ | .atom _ _ _ _ _ _ _ _ _ => false
    | _ => true)

/-- The strand's units end: the one it works on, and one that the walker has granted and no NEXT has entered; early when its last NEXT
did not fall through, and their remaining iterations have then ended (R141). -/
def Launch.haltAssign (l : Launch) (n : StrandId) (seq : Nat) : Launch :=
  match l.assign? n with
  | none => l
  | some a =>
    let l := l.modAssign n (fun a => { a with halted := true, asks := false, granted := none, haltSeq := seq })
    if a.fell then l
    else
      let stop := l.firstOrdinal (a.unit + 1)
      let more := a.granted.toList
      { l with
        early := l.early + 1 + more.length
        endedSet := addEnded (addEnded l.endedSet ((List.range (stop - a.ordinal)).map (· + a.ordinal)))
          (more.map (fun w => (List.range l.temporal).map (· + l.firstOrdinal w))).flatten }

/-- Steps 3 and 4 of R141. -/
def State.halt (s : State) (n : StrandId) : State :=
  let t := s.strand n
  let s := s.giveUpKept n
  let s := s.modStrand n (fun t => { t with
    image := [], tfloor := 0, kept := none,
    tiles := t.tiles.filter (fun r => some r.id != t.kept.map (·.id)) })
  let s := (s.sweep n).surrenderIfHeld n 5
  let s := match t.launch with
    | some (p, k) => s.modLaunch p k (fun l => l.haltAssign n t.nseq)
    | none => s
  s.modStrand n Strand.freed

/-! ### Reading special registers (R143 to R146) -/

/-- LOGBASE, MOBASE and STAMPBASE (R358, R370). -/
def LogRegs.baseWord (r : LogRegs) : Word := word (r.en.toNat <<< 63 + r.rpl.toNat <<< 62 + r.base.toNat + r.size)
def LogRegs.ptrWord (r : LogRegs) : Word := word (r.full.toNat <<< 63 + r.ptr.toNat)

/-- QNT, EXACT and FAB of CNTPOL (R374). -/
def polQnt (v : Word) : Nat := bits v.toNat 0 5
def polExact (v : Word) : Bool := v.getLsbD 22
def polFab (v : Word) : Bool := v.getLsbD 23

/-- The guest view of a stall counter (R375). -/
def stallView (v : BitVec 48) (qnt : Nat) : Word := word (v.toNat - v.toNat % 2 ^ qnt)

/-- Counters 0x01 to 0x05 are stall counters (R372). -/
def isStall (c : Nat) : Bool := 1 ≤ c && c ≤ 5

/-- Counter `c` of a strand and its partition, exact or in the guest view (R372, R375). -/
def State.counterAs (s : State) (n : StrandId) (all : Bool) (c : Nat) : Word :=
  let t := s.strand n
  let pol := s.mgmt.cntpol
  let part := (s.part (s.tagOf n)).counters
  let fab := polFab pol || all
  if h : c < 9 then
    if isStall c && !(polExact pol || all) then stallView (t.viewsAt s.gts (polDly pol))[c] (polQnt pol) else (t.counters[c]).setWidth 64
  else if c = 0x10 then part[0].setWidth 64
  else if c = 0x11 then part[1].setWidth 64
  else if c = 0x12 then part[2].setWidth 64
  else if c = 0x18 then (if fab then part[3].setWidth 64 else 0)
  else if c = 0x19 then (if fab then s.mgmt.fabricRetries.setWidth 64 else 0)
  else 0

/-- Counter `c` as a strand reads it: level 3 sees exact values (R375). -/
def State.counterView (s : State) (n : StrandId) (c : Nat) : Word := s.counterAs n ((s.strand n).level == 3) c

/-- The guest view of a counter. -/
def State.guestView (s : State) (n : StrandId) (c : Nat) : Word := s.counterAs n false c

/-- FVER (R145). -/
def Ctx.fver (c : Ctx) : Word := word (3 <<< 48 + c.build.toNat <<< 32 + c.migr.toNat)

/-- A special register's value (R144), for every number but those of VSTAT and TAGS. -/
def State.special (s : State) (n : StrandId) (num : Nat) : Word :=
  let t := s.strand n
  let c := s.curCtx n
  let x := s.part (s.tagOf n)
  let r := t.trapRegs t.level.val
  match num with
  | 0x000 => c.fver
  | 0x001 => word c.mmrev
  | 0x002 => word c.ordmode.toNat
  | 0x008 => word s.gts
  | 0x010 => word t.image.length
  | 0x011 => word t.tfloor
  | 0x012 => word t.stklim
  | 0x013 => t.stkbase
  | 0x014 => word t.tsquota
  | 0x020 => r.pc
  | 0x021 => r.cause
  | 0x022 => r.addr
  | 0x023 => r.info
  | 0x024 => word t.tlock.toNat
  | 0x025 => c.tdeleg
  | 0x030 => x.sched.baseWord
  | 0x031 => word x.sched.lim
  | 0x032 => x.sched.ptrWord
  | 0x033 => x.stamp.baseWord
  | 0x034 => x.mo.baseWord
  | 0x035 => word x.mo.lim
  | 0x036 => x.mo.ptrWord
  | 0x037 => x.stamp.ptrWord
  | 0x050 => word t.role
  | 0x051 => t.leasectl
  | 0x052 => t.qmin
  | 0x053 => t.qcap
  | 0x060 => s.mgmt.cntpol
  | 0x070 => c.aploc
  | 0x071 => c.appod
  | 0x072 => c.apfab
  | 0x080 => t.idx[0] | 0x081 => t.idx[1] | 0x082 => t.idx[2] | 0x083 => t.idx[3] | 0x084 => t.idx[4] | 0x085 => t.idx[5]
  | 0x088 => t.ext[0] | 0x089 => t.ext[1] | 0x08A => t.ext[2] | 0x08B => t.ext[3] | 0x08C => t.ext[4] | 0x08D => t.ext[5]
  | k => if 0x100 ≤ k ∧ k ≤ 0x1FF then s.counterView n (k - 0x100) else 0

/-- The privilege check of step 6 of R112 for a level: the strand runs below it. -/
def State.privilege (s : State) (level : Nat) : Option TrapInfo :=
  if (s.strand s.cur.strand).level.val < level then some (plainTrap cPriv) else none

/-- The level an SRD needs: 2 for CNTPOL, any for every other register (R144). -/
def srdLevel (num : Nat) : Nat := if num = 0x060 then 2 else 0

def execSrd (m : Mods) (sd : SReg) (num : BitVec 12) (s : State) : Out :=
  controlWith m (s.privilege (srdLevel num.toNat)) [sd] false false (fun s n =>
    .go ((s.modStrand n (fun t => t.setS sd (s.special n num.toNat))).advance n)) s

/-- Every older vector and M-queue instruction has completed, and its flags stand in VSTAT (R72). -/
def Strand.flagsIn (t : Strand) : Bool :=
  (t.queue .V).all (fun e => e.stage == .done) && (t.queue .M).all (fun e => e.stage == .done && e.work.flags == 0) && t.pend.isEmpty

def execSrdVstat (m : Mods) (sd : SReg) (s : State) : Out :=
  control m [sd] (fun s n =>
    let t := s.strand n
    if !t.flagsIn then .wait else .go ((s.setStrand n (t.setS sd (t.vstat.setWidth 64))).advance n)) s

/-- SRD of TAGS waits until every older L-queue instruction has started (R209). -/
def execSrdTags (m : Mods) (sd : SReg) (s : State) : Out :=
  control m [sd] (fun s n =>
    let t := s.strand n
    if (t.queue .L).any (fun e => e.stage == .waiting) then .wait
    else .go ((s.setStrand n (t.setS sd t.tags)).advance n)) s

/-! ### Writing special registers -/

/-- The course of an SWR that needs a level: PRIV before the guards, the wait of R119, and then its effect. -/
def swrWith (m : Mods) (level : Nat) (sa : SReg) (body : State → StrandId → Word → Effect) (s : State) : Out :=
  controlWith m (s.privilege level) [sa] true false (fun s n => body s n ((s.strand n).getS sa)) s

/-- A write that cannot fail. -/
def swrSet (m : Mods) (level : Nat) (sa : SReg) (f : State → StrandId → Word → State) (s : State) : Out :=
  swrWith m level sa (fun s n a => .go ((f s n a).advance n)) s

/-- The level R144 gives for writing a register that has no constructor of its own; 4 where no level may (R143). -/
def swrLevel (num : Nat) : Nat :=
  if 0x020 ≤ num ∧ num ≤ 0x023 then 0
  else if num = 0x031 ∨ num = 0x032 ∨ num = 0x035 ∨ num = 0x036 then 2
  else if num = 0x060 ∨ (0x070 ≤ num ∧ num ≤ 0x072) then 3
  else 4

/-- CNTPOL as stored: values beyond a field's range become the nearest limit (R374). -/
def cntpolStored (a : Word) : Word :=
  (a &&& 0xC00000) ||| word (min 20 (bits a.toNat 8 5) <<< 8) ||| word (min 24 (bits a.toNat 0 5))

/-- The RW fields of a register without a constructor of its own written; RO and RSV fields are ignored (R6, R143). -/
def State.setSpecial (s : State) (n : StrandId) (num : Nat) (a : Word) : State :=
  let trap (f : TrapRegs → TrapRegs) : State := s.modStrand n (fun t => t.setTrapRegs t.level.val (f (t.trapRegs t.level.val)))
  let ctx (f : Ctx → Ctx) : State := match s.ctxOf n with
    | some c => s.modCtx c.num f
    | none => s
  match num with
  | 0x020 => trap (fun r => { r with pc := a &&& ~~~1 })
  | 0x021 => trap (fun r => { r with cause := a &&& 0x3FF })
  | 0x022 => trap (fun r => { r with addr := a })
  | 0x023 => trap (fun r => { r with info := a })
  | 0x060 => { s with mgmt := { s.mgmt with cntpol := cntpolStored a } }
  | 0x070 => ctx (fun c => { c with aploc := a &&& ~~~0xFFFF })
  | 0x071 => ctx (fun c => { c with appod := a &&& ~~~0xFFFFF })
  | 0x072 => ctx (fun c => { c with apfab := a &&& ~~~0xFFFFFFFFFFFF })
  | _ => s

def execSwr (m : Mods) (num : BitVec 12) (sa : SReg) (s : State) : Out :=
  swrSet m (swrLevel num.toNat) sa (fun s n a => s.setSpecial n num.toNat a) s

/-- SWR of VSTAT waits as its SRD does, then replaces the register (R72). -/
def execSwrVstat (m : Mods) (sa : SReg) (s : State) : Out :=
  swrWith m 0 sa (fun s n a =>
    if !(s.strand n).flagsIn then .wait
    else .go ((s.modStrand n (fun t => { t with vstat := a.setWidth 8 })).advance n)) s

def stklimStored (a : Word) : Nat := min 768 (bits a.toNat 0 10)
def tsquotaStored (a : Word) : Nat := max 32 (min 192 (bits a.toNat 0 8))

def execSwrStklim (m : Mods) (sa : SReg) (s : State) : Out :=
  swrSet m 2 sa (fun s n a => (s.modStrand n (fun t => { t with stklim := stklimStored a })).noteSettings n) s

def execSwrTsquota (m : Mods) (sa : SReg) (s : State) : Out :=
  swrSet m 2 sa (fun s n a => (s.modStrand n (fun t => { t with tsquota := tsquotaStored a })).noteSettings n) s

/-- A change of the strand's context. -/
def State.setCtx (s : State) (n : StrandId) (f : Ctx → Ctx) : State :=
  match s.ctxOf n with
  | some c => s.modCtx c.num f
  | none => s

def execSwrOrdmode (m : Mods) (sa : SReg) (s : State) : Out :=
  swrSet m 2 sa (fun s n a => s.setCtx n (fun c => { c with ordmode := a.getLsbD 0 })) s

def tdelegStored (a : Word) : Word := a &&& 0xFFFFFFFF0000FFFF

def execSwrTdeleg (m : Mods) (sa : SReg) (s : State) : Out :=
  swrSet m 2 sa (fun s n a => s.setCtx n (fun c => { c with tdeleg := tdelegStored a })) s

def execSwrRole (m : Mods) (sa : SReg) (s : State) : Out :=
  swrWith m 0 sa (fun s n a =>
    if bits a.toNat 0 2 = 3 then .trap (plainTrap cIllegal) s
    else .go ((s.modStrand n (fun t => { t with role := bits a.toNat 0 2 })).advance n)) s

/-- LEASECTL as stored: values outside a field's range become the nearest limit (R315). -/
def leasectlStored (a : Word) : Word :=
  word (max 2048 (bits a.toNat 32 16) <<< 32 + max 1 (bits a.toNat 16 16) <<< 16 + max 1 (min 256 (bits a.toNat 0 9)))

def execSwrLeasectl (m : Mods) (sa : SReg) (s : State) : Out :=
  swrSet m 2 sa (fun s n a => s.modStrand n (fun t => { t with leasectl := leasectlStored a })) s

/-- A queue's field of QMIN or QCAP (R318). -/
def poolField (w : Word) (q : QName) : Nat := bits w.toNat (11 * (QName.index q).val) 11

def queueNames : List QName := [.L, .M, .V, .S]

/-- A register of the pool as stored: RSV bits are zero, and a QCAP field of 0 is 1 (R318). -/
def poolStored (cap : Bool) (a : Word) : Word :=
  word ((queueNames.map (fun q =>
    (if cap then max 1 (poolField a q) else poolField a q) <<< (11 * (QName.index q).val))).foldl (· + ·) 0)

/-- The sum of a QMIN's fields. -/
def poolSum (w : Word) : Nat := (queueNames.map (poolField w)).sum

/-- The strands of a Pod. -/
def podStrands (p : PodId) : List StrandId := [strandOf p 0, strandOf p 1, strandOf p 2, strandOf p 3]

/-- QMIN and QCAP that R318 accepts: no minimum above its cap, and at most 1,024 in the Pod. -/
def State.poolOk (s : State) (n : StrandId) (qmin qcap : Word) : Bool :=
  queueNames.all (fun q => decide (poolField qmin q ≤ poolField qcap q)) &&
  decide (((podStrands (podOf n)).map (fun k => if k = n then poolSum qmin else poolSum (s.strand k).qmin)).sum ≤ 1024)

def execSwrQminQcap (m : Mods) (cap : Bool) (sa : SReg) (s : State) : Out :=
  swrWith m 2 sa (fun s n a =>
    let t := s.strand n
    let qmin := if cap then t.qmin else poolStored false a
    let qcap := if cap then poolStored true a else t.qcap
    if s.poolOk n qmin qcap then .go (((s.setStrand n { t with qmin := qmin, qcap := qcap }).noteSettings n).advance n)
    else .trap (plainTrap cIllegal) s) s

/-- SWR of TAGS waits as its SRD does, so that no earlier command's clear can follow it. -/
def execSwrTags (m : Mods) (sa : SReg) (s : State) : Out :=
  swrWith m 0 sa (fun s n a =>
    let t := s.strand n
    if (t.queue .L).any (fun e => e.stage == .waiting) then .wait
    else .go ((s.setStrand n { t with tags := a }).advance n)) s

/-! ### Moving a log (R360, R370) -/

/-- A move takes effect only while the log is full, or enabled with its pointer at its limit. -/
def LogRegs.movable (r : LogRegs) : Bool := r.full || (r.en && r.ptr.toNat == r.lim)

def LogRegs.move (r : LogRegs) (a : Word) : LogRegs :=
  let base := a &&& 0x01FFFFFFFFFFF000
  let r1 := { r with base := base, size := min 20 (bits a.toNat 0 5), ptr := base, full := false }
  if r.movable then { r1 with lim := r1.limit } else r

def execLogMove (m : Mods) (which : Fin 3) (sa : SReg) (s : State) : Out :=
  swrSet m 2 sa (fun s n a => s.modPart (s.tagOf n) (fun x =>
    match which.val with
    | 0 => { x with sched := x.sched.move a, stalled := x.stalled && !x.sched.movable }
    | 1 => { x with mo := x.mo.move a }
    | _ => { x with stamp := x.stamp.move a })) s

/-! ### Instruction-cache locks (R147, R148) -/

def lockCapacity : Nat := 128

/-- How many 128-byte lines meet the bytes a to a + b − 1, b not zero and the range not wrapping. -/
def lineCount (a b : Word) : Nat := (a.toNat + b.toNat - 1) / 128 - a.toNat / 128 + 1

def lineAddr (a : Word) : Word := word (a.toNat / 128 * 128)

/-- The first of `k` lines from `a` up that fails translation for execution, lies in a backing region (R87), or is waited for (R390,
R397). -/
def State.lockFault (s : State) (n : StrandId) (c : Ctx) (a : Word) : Nat → Option TrapInfo
  | 0 => none
  | k + 1 =>
    if inBacking a then some (addrTrap cPermission a)
    else match s.translate (s.strand n).tlb c .exec a with
    | .error t => some (if t.cause = cHeld then t else { t with addr := a })
    | .ok (pa, _) => if s.lineDue pa then some (heldAt pa) else s.lockFault n c (a + 128) k

/-- Lines from `a` up locked, ascending, while the capacity lasts. -/
def State.lockLines (s : State) (n : StrandId) (c : Ctx) (locks : List LockLine) (a : Word) : Nat → List LockLine
  | 0 => locks
  | k + 1 =>
    if lockCapacity ≤ locks.length then locks
    else if locks.any (fun l => l.addr == a) then s.lockLines n c locks (a + 128) k
    else
      match s.translate (s.strand n).tlb c .exec a with
      | .error _ => s.lockLines n c locks (a + 128) k
      | .ok (pa, _) => s.lockLines n c (locks ++ [⟨a, s.cohN pa 128⟩]) (a + 128) k

/-- A locked line meets a range. -/
def lineInRange (a b : Word) (l : LockLine) : Bool := rangesMeet l.addr.toNat 128 a.toNat b.toNat

/-- The course of ICLK and ICUL: b = 0 writes 0, and a range past 2^64 − 1 raises BOUNDS, whose TADDR no rule states (R322). -/
def lockCourse (m : Mods) (sd sa sb : SReg) (body : State → StrandId → Word → Word → Effect) (s : State) : Out :=
  controlWith m none [sd, sa, sb] true false (fun s n =>
    let a := (s.strand n).getS sa
    let b := (s.strand n).getS sb
    if b = 0 then .go ((s.modStrand n (fun t => t.setS sd 0)).advance n)
    else if 2 ^ 64 < a.toNat + b.toNat then .trap (plainTrap cBounds) s
    else body s n a b) s

def execIclk (m : Mods) (sd sa sb : SReg) (s : State) : Out :=
  lockCourse m sd sa sb (fun s n a b =>
    let c := s.curCtx n
    match s.lockFault n c (lineAddr a) (lineCount a b) with
    | some t => .trap t s
    | none =>
      let locks := s.lockLines n c (s.strand n).locks (lineAddr a) (lineCount a b)
      let k := (locks.filter (lineInRange a b)).length
      .go ((s.modStrand n (fun t => { t.setS sd (word k) with locks := locks })).advance n)) s

def execIcul (m : Mods) (sd sa sb : SReg) (s : State) : Out :=
  lockCourse m sd sa sb (fun s n a b =>
    let locks := (s.strand n).locks
    let k := (locks.filter (lineInRange a b)).length
    .go ((s.modStrand n (fun t =>
      { t.setS sd (word k) with locks := locks.filter (fun l => !lineInRange a b l) })).advance n)) s

/-! ### LOGW (R149, R363) -/

def execLogw (m : Mods) (sa sb : SReg) (s : State) : Out :=
  controlWith m none [sa, sb] true false (fun s n =>
    let t := s.strand n
    let w2 := t.getS sa
    let w3 := t.getS sb &&& 0xFFFFFFFF
    match s.replayStrand n 0x0A w2 w3 with
    | .error tr => .trap tr s
    | .ok s1 =>
      if !(s1.logRegs (s.tagOf n) false).en then .go (s1.advance n)
      else match s1.reserveStrand n false 0x0A w2 w3 none with
        | .error (tr, _) => .trap tr (s.schedFull n)
        | .ok (slot, s') => .go ((s'.logEvent? (s.tagOf n) slot).advance n)) s

end Sys2Proof.Machine
end

