-- ==== Sys2Proof/Machine/MemInstr.lean ====
section
/-! DEFINITION. The control core's memory instructions (R219 to R239): scalar loads and stores, acquire loads and release
stores, atomics, FENCE, CMO and BAR. Each is checked at dispatch and enters its class queue; the steps of the ordering machine
do the rest. -/

namespace Sys2Proof.Machine

/-! ### Entering a class queue -/

/-- The classes an access of class `c` is entered in: its own, or class 0 under revision 1 (R239). -/
def Ctx.classOf (c : Ctx) (cls : BitVec 4) : BitVec 4 := if c.mmrev = 1 then 0 else cls

def classBit (cls : BitVec 4) : BitVec 16 := 1#16 <<< cls.toNat

/-- The operand log's 32 entries are held (R327): by scalar accesses whose data has not come back, and by queued instructions past
their last fault point with accesses to make, which go one at a time. (Log entry 51, DEDUCED, unsafe.) -/
def Strand.logFull (t : Strand) : Bool :=
  decide (32 ≤ (t.cq.filter (fun e => match e.kind with
    | .load _ _ _ _ _ | .atom _ _ _ _ _ _ _ _ _ => true
    | _ => false)).length +
    (t.entries.filter (fun e => e.stage == .started && e.passed && !(e.work.reads.isEmpty && e.work.writes.isEmpty))).length)

/-- An access enters its class queues; `opage` tells an atomic to an ordered page (R257), `supp` what a store suppresses (R273). -/
def State.enqueue (s : State) (n : StrandId) (classes : BitVec 16) (kind : CqKind) (log : Option LogSlot) (j : Nat)
    (opage : Bool := false) (supp : Option ((PartId × Fin 4) × Nat) := none) : State :=
  s.modStrand n (fun t => { t with
    cq := t.cq ++ [⟨t.nseq, t.pc, classes, kind, log, t.ordinal, j, opage, supp⟩], nseq := t.nseq + 1 })

/-! ### Loads and stores (R224) -/

/-- A scalar load of `size` bytes (R220, R221, R224). -/
def loadInstr (size : Nat) (signed : Bool) (m : Mods) (mm : MemMod) (sd sa sc : SReg) (imm : BitVec 12) : State → Out :=
  control m [sd, sa, sc] (fun s n =>
    let t := s.strand n
    let a := addrM (t.getS sa) (t.getS sc) size imm
    match s.access n .read size a with
    | .error tr => .trap tr s
    | .ok (l, e) =>
      match s.readChecks n size a l e with
      | some (tr, s') => .trap tr s'
      | none =>
        if t.logFull then .wait
        else .go (((s.noteDdp e).enqueue n (classBit ((s.curCtx n).classOf mm.cls)) (.load l size signed sd none) none 0).advance n))

/-- The bytes a store writes, none when an overwriting walk suppresses them (R273). -/
def storeBytes (p : Option Permit) (a : Word) (bs : List Byte) : List Byte :=
  if (keptBytes p a bs).length = bs.length then bs else []

/-- The checks of a write past its translation: FOOTPRINT (R273), and the indirection entry of a partial write (R389). -/
inductive WriteCheck where
  | ok
  | want (pa : Nat)
  | trap (t : TrapInfo) (s : State)

def State.writeChecks (s : State) (a : Word) (l : Loc) (e : Option TlbEntry) (foot : Option TrapInfo) : WriteCheck :=
  match foot with
  | some t => .trap t s
  | none =>
    match s.wantsEntry l e with
    | none => .ok
    | some pa => if s.entryBad l e then .trap (indirectionTrap a) (s.poisonWrite l) else .want pa

/-- A scalar store of `size` bytes (R220, R221, R224). -/
def storeInstr (size : Nat) (m : Mods) (mm : MemMod) (sd sa sc : SReg) (imm : BitVec 12) : State → Out :=
  control m [sd, sa, sc] (fun s n =>
    let t := s.strand n
    let a := addrM (t.getS sa) (t.getS sc) size imm
    match s.access n .write size a with
    | .error tr => .trap tr s
    | .ok (l, e) =>
      let cls := (s.curCtx n).classOf mm.cls
      match s.writeChecks a l e (writeFault t.permit a size) with
      | .trap tr s' => .trap tr s'
      | .want pa => .hold (fun s => s.noteWant n pa cls)
      | .ok =>
        let bs := storeBytes t.permit a (natBytes size (t.getS sd).toNat)
        .go (((s.noteDdp e).enqueue n (classBit cls) (.store l bs none) none 0 false (suppOf t.permit (size - bs.length))).advance n))

def execLdb (m : Mods) (mm : MemMod) (sd sa sc : SReg) (imm : BitVec 12) (s : State) : Out := loadInstr 1 true m mm sd sa sc imm s
def execLdh (m : Mods) (mm : MemMod) (sd sa sc : SReg) (imm : BitVec 12) (s : State) : Out := loadInstr 2 true m mm sd sa sc imm s
def execLdw (m : Mods) (mm : MemMod) (sd sa sc : SReg) (imm : BitVec 12) (s : State) : Out := loadInstr 4 true m mm sd sa sc imm s
def execLdd (m : Mods) (mm : MemMod) (sd sa sc : SReg) (imm : BitVec 12) (s : State) : Out := loadInstr 8 true m mm sd sa sc imm s
def execLdbu (m : Mods) (mm : MemMod) (sd sa sc : SReg) (imm : BitVec 12) (s : State) : Out := loadInstr 1 false m mm sd sa sc imm s
def execLdhu (m : Mods) (mm : MemMod) (sd sa sc : SReg) (imm : BitVec 12) (s : State) : Out := loadInstr 2 false m mm sd sa sc imm s
def execLdwu (m : Mods) (mm : MemMod) (sd sa sc : SReg) (imm : BitVec 12) (s : State) : Out := loadInstr 4 false m mm sd sa sc imm s
def execStb (m : Mods) (mm : MemMod) (sd sa sc : SReg) (imm : BitVec 12) (s : State) : Out := storeInstr 1 m mm sd sa sc imm s
def execSth (m : Mods) (mm : MemMod) (sd sa sc : SReg) (imm : BitVec 12) (s : State) : Out := storeInstr 2 m mm sd sa sc imm s
def execStw (m : Mods) (mm : MemMod) (sd sa sc : SReg) (imm : BitVec 12) (s : State) : Out := storeInstr 4 m mm sd sa sc imm s
def execStd (m : Mods) (mm : MemMod) (sd sa sc : SReg) (imm : BitVec 12) (s : State) : Out := storeInstr 8 m mm sd sa sc imm s

/-! ### Acquire loads and release stores (R226) -/

/-- The size of an access: eight bytes when wide, else four. -/
def widBytes (wide : Bool) : Nat := if wide then 8 else 4

def acquireInstr (wide : Bool) (m : Mods) (cls : BitVec 4) (sd sa : SReg) (scope : Scope) : State → Out :=
  control m [sd, sa] (fun s n =>
    let t := s.strand n
    let a := t.getS sa
    let size := widBytes wide
    match s.access n .read size a with
    | .error tr => .trap tr s
    | .ok (l, e) =>
      match s.readChecks n size a l e with
      | some (tr, s') => .trap tr s'
      | none =>
        if t.logFull then .wait
        else match (s.noteDdp e).reserveMo n 0x21 ((s.curCtx n).moWord a scope.code 1 0 wide false) (moWord3 t.ordinal 0) with
          | .wait => .hold (fun s => s.noteHold n)
          | .trap tr s' => .trap tr s'
          | .ok slot s' =>
            .go ((s'.enqueue n (classBit ((s.curCtx n).classOf cls)) (.load l size false sd (some scope)) slot 0).advance n))

def releaseInstr (wide : Bool) (m : Mods) (cls : BitVec 4) (sd sa : SReg) (scope : Scope) : State → Out :=
  control m [sd, sa] (fun s n =>
    let t := s.strand n
    let a := t.getS sa
    let size := widBytes wide
    match s.access n .write size a with
    | .error tr => .trap tr s
    | .ok (l, e) =>
      let cls := (s.curCtx n).classOf cls
      match s.writeChecks a l e (writeFault t.permit a size) with
      | .trap tr s' => .trap tr s'
      | .want pa => .hold (fun s => s.noteWant n pa cls)
      | .ok =>
        match (s.noteDdp e).reserveMo n 0x22 ((s.curCtx n).moWord a scope.code 2 0 wide false) (moWord3 t.ordinal 0) with
        | .wait => .hold (fun s => s.noteHold n)
        | .trap tr s' => .trap tr s'
        | .ok slot s' =>
          let bs := storeBytes t.permit a (natBytes size (t.getS sd).toNat)
          .go ((s'.enqueue n (classBit cls) (.store l bs (some scope)) slot 0 false (suppOf t.permit (size - bs.length))).advance n))

def execLdaqw (m : Mods) (cls : BitVec 4) (sd sa : SReg) (scope : Scope) (s : State) : Out := acquireInstr false m cls sd sa scope s
def execLdaqd (m : Mods) (cls : BitVec 4) (sd sa : SReg) (scope : Scope) (s : State) : Out := acquireInstr true m cls sd sa scope s
def execStrlw (m : Mods) (cls : BitVec 4) (sd sa : SReg) (scope : Scope) (s : State) : Out := releaseInstr false m cls sd sa scope s
def execStrld (m : Mods) (cls : BitVec 4) (sd sa : SReg) (scope : Scope) (s : State) : Out := releaseInstr true m cls sd sa scope s

/-! ### Atomics (R227 to R229, R237) -/

def Ord.acquires : Ord → Bool
  | .acquire | .acqrel => true
  | _ => false

def Ord.releases : Ord → Bool
  | .release | .acqrel => true
  | _ => false

/-- The code of ORD (R102). -/
def ordCode (o : Ord) : Nat := o.code.toNat

/-- An ordered global page (R237, R257). -/
def onOrderedPage (l : Loc) (e : Option TlbEntry) : Bool :=
  match l, e with
  | .glob _, some e => e.ord
  | _, _ => false

/-- An atomic to an ordered global page while its context is in fixed-order mode (R237). -/
def isOrdered (c : Ctx) (l : Loc) (e : Option TlbEntry) : Bool := c.ordmode && onOrderedPage l e

/-- The course of an atomic, its operation numbered in R113 order (R228). -/
def atomInstr (op : Fin 8) (m : Mods) (am : AtomMod) (sd sa sb sc : SReg) (wid : Wid) (scope : Scope) : State → Out :=
  control m [sd, sa, sb, sc] (fun s n =>
    let t := s.strand n
    let c := s.curCtx n
    let a := t.getS sa
    let size := widBytes wid
    match s.access n .write size a with
    | .error tr => .trap tr s
    | .ok (l, e) =>
      let cls := c.classOf am.cls
      match s.writeChecks a l e (atomFault t.permit a size) with
      | .trap tr s' => .trap tr s'
      | .want pa => .hold (fun s => s.noteWant n pa cls)
      | .ok =>
        let ordered := isOrdered c l e
        if ordered ∧ 2 ^ 32 ≤ t.atomJ then .trap (addrTrap cBounds a) s
        else if t.logFull then .wait
        else
          match (s.noteDdp e).reserveMo n 0x20 (c.moWord a scope.code (ordCode am.ord) op.val wid false) (moWord3 t.ordinal 0) with
          | .wait => .hold (fun s => s.noteHold n)
          | .trap tr s' => .trap tr s'
          | .ok slot s' =>
            let kind : CqKind := .atom op l wid (t.getS sb) (t.getS sc) sd
              (if Ord.acquires am.ord then some scope else none) (if Ord.releases am.ord then some scope else none) ordered
            let s1 := s'.enqueue n (classBit cls) kind slot t.atomJ (onOrderedPage l e)
            .go ((s1.modStrand n (fun t => { t with atomJ := t.atomJ + ordered.toNat })).advance n))

def execAadd (m : Mods) (am : AtomMod) (sd sa sb : SReg) (wid : Wid) (scope : Scope) (s : State) : Out :=
  atomInstr 0 m am sd sa sb 0 wid scope s
def execAfadd (m : Mods) (am : AtomMod) (sd sa sb : SReg) (wid : Wid) (scope : Scope) (s : State) : Out :=
  atomInstr 1 m am sd sa sb 0 wid scope s
def execAmin (m : Mods) (am : AtomMod) (sd sa sb : SReg) (wid : Wid) (scope : Scope) (s : State) : Out :=
  atomInstr 2 m am sd sa sb 0 wid scope s
def execAmax (m : Mods) (am : AtomMod) (sd sa sb : SReg) (wid : Wid) (scope : Scope) (s : State) : Out :=
  atomInstr 3 m am sd sa sb 0 wid scope s
def execAand (m : Mods) (am : AtomMod) (sd sa sb : SReg) (wid : Wid) (scope : Scope) (s : State) : Out :=
  atomInstr 4 m am sd sa sb 0 wid scope s
def execAor (m : Mods) (am : AtomMod) (sd sa sb : SReg) (wid : Wid) (scope : Scope) (s : State) : Out :=
  atomInstr 5 m am sd sa sb 0 wid scope s
def execAxch (m : Mods) (am : AtomMod) (sd sa sb : SReg) (wid : Wid) (scope : Scope) (s : State) : Out :=
  atomInstr 6 m am sd sa sb 0 wid scope s
def execAcas (m : Mods) (am : AtomMod) (sd sa sb sc : SReg) (wid : Wid) (scope : Scope) (s : State) : Out :=
  atomInstr 7 m am sd sa sb sc wid scope s

/-! ### FENCE (R230, R231, R239) -/

def execFence (m : Mods) (scope : Scope) (eng : Bool) (cm : BitVec 16) (s : State) : Out :=
  control m [] (fun s n =>
    let t := s.strand n
    let mask := if (s.curCtx n).mmrev = 1 then BitVec.allOnes 16 else cm
    match s.reserveMo n 0x23 (moWord2 0 0 scope.code 0 0 false false eng) (moWord3 t.ordinal mask.toNat) with
    | .wait => .hold (fun s => s.noteHold n)
    | .trap tr s' => .trap tr s'
    | .ok slot s' => .go ((s'.enqueue n mask (.fence scope eng) slot 0).advance n)) s

/-! ### CMO (R232, R233) -/

/-- A range and a window: apart, the range inside, or partly in it. -/
inductive Overlap where | apart | inside | partly
  deriving DecidableEq, Repr

def windowOverlap (base : Word) (size : Nat) (a b : Word) : Overlap :=
  if !rangesMeet base.toNat size a.toNat b.toNat then .apart
  else if decide (base.toNat ≤ a.toNat) && decide (a.toNat + b.toNat ≤ base.toNat + size) then .inside
  else .partly

/-- The window that holds a range, none when it is global; an error when it lies partly in one (R25, R233). -/
def Ctx.rangeRegion (c : Ctx) (a b : Word) : Except Unit Region :=
  match windowOverlap c.aploc locSize a b with
  | .inside => .ok .core
  | .partly => .error ()
  | .apart =>
    match windowOverlap c.appod podSize a b with
    | .inside => .ok .pod
    | .partly => .error ()
    | .apart =>
      match windowOverlap c.apfab fabSize a b with
      | .inside => .ok .fabric
      | .partly => .error ()
      | .apart => .ok .none

/-- The first page of a range that fails, `k` pages of 64 KiB left; TADDR is the range's lowest byte in it. -/
def State.cmoFault (s : State) (n : StrandId) (c : Ctx) (need : Need) (a : Word) : Nat → Option TrapInfo
  | 0 => none
  | k + 1 =>
    match (if inBacking a then .error (addrTrap cPermission a) else s.translate (s.strand n).tlb c need a) with
    | .error t => some t
    | .ok _ => s.cmoFault n c need (word ((a.toNat / 65536 + 1) * 65536)) k

/-- The cached lines of `k` lines from `a` up. -/
def State.cmoLines (s : State) (n : StrandId) (c : Ctx) (a : Word) : Nat → List LineRef
  | 0 => []
  | k + 1 =>
    match s.translate (s.strand n).tlb c .read a with
    | .ok (pa, _) => .phys (lineOf pa) :: s.cmoLines n c (a + 128) k
    | .error _ =>
      match s.translate (s.strand n).tlb c .write a with
      | .ok (pa, _) => .phys (lineOf pa) :: s.cmoLines n c (a + 128) k
      | .error _ => s.cmoLines n c (a + 128) k

/-- Why a CMO of a fabric range is refused by the home package, `k` pages of 64 KiB left (R233, R344). -/
def State.fabricFault (s : State) (n : StrandId) (c : Ctx) (need : Need) (a : Word) : Nat → Option TrapInfo
  | 0 => none
  | k + 1 =>
    match s.fabricPlace n (a.toNat - c.apfab.toNat) need a with
    | .error t => some t
    | .ok _ => s.fabricFault n c need (word ((a.toNat / 65536 + 1) * 65536)) k

/-- The cached lines of `k` fabric lines from `a` up. -/
def State.fabricLines (s : State) (n : StrandId) (c : Ctx) (a : Word) (k : Nat) : List LineRef :=
  (List.range k).map (fun i =>
    let f := lineOf (a.toNat - c.apfab.toNat) + 128 * i
    .fabric f (if f / 2 ^ 36 = Config.nodeNumber.toNat then s.exportAddr n f else none))

/-- The steps of a CMO by op and level, the writes it waits for apart (R254): 0 drops the strand's L1 copy of a line, 1 evicts the
line, its value then memory's, and 2 drops it from the shared cache. -/
def cmoSteps (op level : Nat) (lines : List LineRef) : List (Nat × LineRef) :=
  (if op = 1 ∨ level = 0 then [] else lines.map (fun x => (1, x))) ++
  (if op = 0 then [] else lines.map (fun x => (0, x))) ++
  (if op = 0 ∨ level = 0 then [] else lines.map (fun x => (2, x)))

/-- CMO (R233). One of level l1 on a fabric range acts on the strand's own copies and asks the home package for nothing, so that no page
of it is translated and it raises no TRANSLATION or PERMISSION. (Log entry 78, DEDUCED, unsafe.) -/
def execCmo (m : Mods) (cls : BitVec 4) (op : BitVec 6) (sa sb : SReg) (level : BitVec 6) (s : State) : Out :=
  control m [sa, sb] (fun s n =>
    let t := s.strand n
    let c := s.curCtx n
    let a := t.getS sa
    let b := t.getS sb
    let need : Need := if op = 0 then .read else .write
    let pages := (a.toNat + b.toNat - 1) / 65536 - a.toNat / 65536 + 1
    let enter (lines : List LineRef) : Effect :=
      .go ((s.enqueue n (classBit (c.classOf cls)) (.cmo op.toNat level.toNat lines (cmoSteps op.toNat level.toNat lines)) none 0).advance n)
    if b = 0 then .go (s.advance n)
    else if 2 ^ 64 < a.toNat + b.toNat ∨ 2 ^ 30 < b.toNat then .trap (addrTrap cBounds a) s
    else
      match c.rangeRegion a b with
      | .error _ => .trap (addrTrap cBounds a) s
      | .ok .core | .ok .pod => .go (s.advance n)
      | .ok .fabric =>
        match (if level = 0 then none else s.fabricFault n c need a pages) with
        | some tr => .trap tr s
        | none => enter (s.fabricLines n c a (lineCount a b))
      | .ok .none =>
        match s.cmoFault n c need a pages with
        | some tr => .trap tr s
        | none => enter (s.cmoLines n c (lineAddr a) (lineCount a b))) s

/-! ### BAR (R234, R235) -/

/-- A BAR whose MEMB omits the strand's core or names a core the partition does not own (R234). -/
def State.barOk (s : State) (n : StrandId) (imm : BitVec 12) : Bool :=
  imm.getLsbD (n.val % 4) &&
  ([0, 1, 2, 3] : List (Fin 4)).all (fun c => !imm.getLsbD c.val ||
    (s.partOf (strandOf (podOf n) c)).isSome && s.partOf (strandOf (podOf n) c) == s.partOf n)

/-- The strand's older accesses have performed at pod scope, and with DRN its engine work is complete (R235, R247). -/
def Strand.barReady (t : Strand) (drn : Bool) : Bool :=
  t.cq.isEmpty && t.ib.all (fun w => match w.loc with
    | .fab _ _ => true
    | _ => false) && (!drn || (t.entries.all (fun e => e.stage == .done) && t.pend.isEmpty))

/-- A BAR dispatches once, and its record is reserved and checked then (R236, R359, R367); it waits at its address, arrives once its
older accesses have performed, and the completion of all participants is one later step. (Log entry 18, DEDUCED, safe.) -/
def execBar (m : Mods) (imm : BitVec 12) (s : State) : Out :=
  let n := s.cur.strand
  controlWith m (if s.barOk n imm then none else some (plainTrap cIllegal)) [] false true (fun s n =>
    let t := s.strand n
    match t.barLog with
    | none =>
      match s.reserveMo n 0x24 (moWord2 0 0 1 0 0 false false false) (moWord3 t.ordinal (bits imm.toNat 0 5)) with
      | .wait => .hold (fun s => s.noteHold n)
      | .trap tr s' => .trap tr s'
      | .ok slot s' => .go (s'.modStrand n (fun t => { t with barLog := some slot }))
    | some _ =>
      if !t.barReady (imm.getLsbD 4) then .wait
      else .hold (fun s => s.modStrand n (fun t => { t with arrived := some (imm.setWidth 5) }))) s

end Sys2Proof.Machine
end

