-- ==== Sys2Proof/Machine/Order.lean ====
section
/-! DEFINITION. The steps of the ordering machine (R243 to R254, R257, R258): BIND, LEAVE, PUSH, COMMIT, ATOM, FILL, DROP, EVICT,
the completion of FENCE and BAR, the application of ordered entries (R237), the writing of log records (R361) and the fetch of
an indirection entry (R389). A step that is not enabled leaves the state as it is. -/

namespace Sys2Proof.Machine

/-! ### Class queues -/

/-- The entries of a class queue, oldest first. -/
def Strand.classQueue (t : Strand) (c : BitVec 4) : List CqEntry := t.cq.filter (fun e => e.classes.getLsbD c.toNat)

/-- The head of a class queue. -/
def Strand.head? (t : Strand) (c : BitVec 4) : Option CqEntry := (t.classQueue c).head?

def Strand.removeCq (t : Strand) (seq : Nat) : Strand := { t with cq := t.cq.filter (fun e => e.seq != seq) }

/-- A write that does not go to a fabric address. -/
def Write.onPackage (w : Write) : Bool :=
  match w.loc with
  | .fab _ _ => false
  | _ => true

def State.pbOf (s : State) (n : StrandId) : List Write := (s.pod (podOf n)).pb.filter (fun w => w.strand == n)
def State.ftOf (s : State) (n : StrandId) : List Write := s.ft.filter (fun w => w.strand == n)

/-- Every access older than `seq` of the classes of a mask has performed at a scope (R247). -/
def State.performed (s : State) (n : StrandId) (seq : Nat) (mask : BitVec 16) (scope : Scope) : Bool :=
  let t := s.strand n
  let older (w : Write) : Bool := decide (w.seq < seq) && mask.getLsbD w.cls.toNat
  let left := t.cq.all (fun e => decide (seq ≤ e.seq) || (e.classes &&& mask) == 0 || (match e.kind with
    | .fence _ _ => true
    | _ => false))
  let ib := t.ib.any (fun w => older w && w.onPackage)
  let pb := (s.pbOf n).any older
  let fab := t.ib.any older || (s.ftOf n).any older
  left && (match scope with
    | .strand => true
    | .pod => !ib
    | .die | .package => !ib && !pb
    | .domain => !ib && !pb && !fab)

/-- Every class. -/
def allClasses : BitVec 16 := BitVec.allOnes 16

/-- A scope of pod or wider drops the strand's L1 copies at an acquire's or a FENCE's step (R248, R250). -/
def State.acquireDrop (s : State) (n : StrandId) : Scope → State
  | .strand => s
  | _ => s.dropL1 n

/-- A load's or atomic's destination written: the register, and what dispatch captured of it for younger instructions'
checkpoints (R91, R221). -/
def Strand.writeDest (t : Strand) (seq : Nat) (r : SReg) (v : Word) : Strand :=
  let patch (e : QEntry) : QEntry :=
    if seq < e.seq ∧ r.val ≠ 0 then { e with ckpt := { e.ckpt with s := e.ckpt.s.set r.val v r.isLt } } else e
  let t := t.setS r v
  { t with queues := Vector.ofFn (fun i : Fin 4 => (t.queues[i.val]).map patch) }

/-- The value a load writes (R224). -/
def loadValue (n : Nat) (signed : Bool) (bs : List Byte) : Word :=
  if signed then (BitVec.ofNat (8 * n) (bytesNat bs)).signExtend 64 else word (bytesNat bs)

/-! ### BIND -/

def execBind (n : StrandId) (c : BitVec 4) (s : State) : Out :=
  let t := s.strand n
  match t.head? c with
  | some e =>
    match e.kind with
    | .load l k signed dest acq =>
      if s.acquireBefore n e.seq || t.atomBefore e.seq l k then .next s
      else if s.blocked l then .next (s.noteLate n l)
      else if acq.isSome && s.syncBusy l then .next s
      else
        let (bs, s1) := s.bindLoad n e.seq acq.isNone l k
        let s2 := s1.modStrand n (fun t => (t.removeCq e.seq).writeDest e.seq dest (loadValue k signed bs))
        match acq with
        | none => .next s2
        | some scope => .next (((s2.noteSync l).acquireDrop n scope).logEvent? (s.tagOf n) e.log)
    | _ => .next s
  | none => .next s

/-! ### LEAVE, and the step of a CMO (R254) -/

/-- The line lies among those of a CMO. -/
def inLines (ls : List LineRef) (l : Loc) : Bool :=
  match l.line? with
  | some x => ls.contains x
  | none => false

/-- What a CMO waits for (R233, R254): an older write of its class to the lines that is not committed; and, where it cleans, every
uncommitted write of the strand to them, younger ones that have left their queue among them. -/
def State.cmoWaits (s : State) (n : StrandId) (e : CqEntry) (op : Nat) (lines : List LineRef) : Bool :=
  (s.flying n).any (fun w => inLines lines w.loc && (op != 1 || (decide (w.seq < e.seq) && e.classes.getLsbD w.cls.toNat))) ||
  (op != 1 && (s.strand n).cq.any (fun x => decide (x.seq < e.seq) && (match x.kind with
    | .store l _ _ => inLines lines l
    | _ => false)))

/-- MEM takes a line's coherent value and the line stays, clean (R233, R254). -/
def State.cleanLine (s : State) (l : ScLine) : State :=
  let s := s.writeBack l
  { s with sc := s.sc.map (fun x => if x.pa = l.pa then { x with dirty := false } else x) }

/-- A step of a CMO on a line of the shared cache, only where it is tagged with the partition: memory takes its value, or the line
goes and memory's is its value. -/
def State.cmoHome (s : State) (p : PartId) (evict : Bool) (pa : Nat) : State :=
  match s.scLine? pa with
  | none => s
  | some l => if l.tag ≠ p then s else if evict then (s.correctLine pa).cleanLine l else (s.correctLine pa).removeLine pa

/-- A step of a CMO: a DROP of the strand's L1 copy, or its part at a line's home, for a fabric line the home package's (R233, R254,
R344). (Log entry 22, DEDUCED, unsafe.) -/
def State.cmoStep (s : State) (n : StrandId) (step : Nat × LineRef) : State :=
  if step.1 = 0 then s.modStrand n (fun t => { t with l1 := l1Drop t.l1 step.2 })
  else match step.2 with
    | .fabric _ none => s
    | .fabric _ (some pa) => s.cmoHome (s.homeTag pa) (step.1 == 1) pa
    | .phys pa => s.cmoHome (s.tagOf n) (step.1 == 1) pa

/-- A CMO at the head of its class queue makes its next step, and leaves with the last one. -/
def State.cmoTurn (s : State) (n : StrandId) (e : CqEntry) (op level : Nat) (lines : List LineRef) : List (Nat × LineRef) → State
  | [] => s.modStrand n (fun t => t.removeCq e.seq)
  | step :: rest =>
    if step.1 ≠ 0 && s.blocked (LineRef.loc step.2) then s.noteLate n (LineRef.loc step.2)
    else (s.cmoStep n step).modStrand n (fun t =>
      if rest.isEmpty then t.removeCq e.seq
      else { t with cq := t.cq.map (fun x => if x.seq = e.seq then { x with kind := .cmo op level lines rest } else x) })

/-- LEAVE of a store, and a step of a CMO: each once every older instruction has passed its last fault point (R92). SUPP counts
what a store suppresses when it leaves, which no unwind takes back (R273). -/
def execLeave (n : StrandId) (c : BitVec 4) (s : State) : Out :=
  let t := s.strand n
  match t.head? c with
  | some e =>
    if s.acquireBefore n e.seq || !t.passedBefore e.seq then .next s
    else
      match e.kind with
      | .store l data rel =>
        if (match rel with
            | some scope => !s.performed n e.seq allClasses scope
            | none => false) then .next s
        else
          .next ((s.addSupp e.supp).modStrand n (fun t =>
            let t := t.removeCq e.seq
            { t with ib := t.ib ++ [⟨n, e.seq, e.pc, c, l, data, e.log, rel.isSome⟩], l1 := l1Take t.l1 l data }))
      | .cmo op level lines steps =>
        if s.cmoWaits n e op lines then .next s else .next (s.cmoTurn n e op level lines steps)
      | _ => .next s
  | none => .next s

/-! ### PUSH and COMMIT -/

/-- The oldest write of a class in a list. -/
def oldestOf (ws : List Write) (c : BitVec 4) : Option Write := ws.find? (fun w => w.cls == c)

def dropWrite (ws : List Write) (n : StrandId) (seq : Nat) : List Write := ws.filter (fun w => !(w.strand == n && w.seq == seq))

/-- A write is appended to CO, and a release's record is made (R244, R364); the strand's reads stay coherent (R245). -/
def State.commitWrite (s : State) (n : StrandId) (w : Write) : State :=
  (if w.data.isEmpty then s else (s.appendCo n w.loc w.data).cohereL1 n w.loc w.data).logEvent? (s.tagOf n) w.log

/-- A flit sent for an access of a partition (R372). (Log entry 14, DEDUCED, unsafe.) -/
def State.flits (s : State) (n : StrandId) (k : Nat) : State := (List.range k).foldl (fun s _ => s.countPart (s.tagOf n) 3) s

def execPush (n : StrandId) (c : BitVec 4) (s : State) : Out :=
  let t := s.strand n
  match oldestOf t.ib c with
  | none => .next s
  | some w =>
    let s1 := s.modStrand n (fun t => { t with ib := dropWrite t.ib n w.seq })
    match w.loc with
    | .glob _ => .next (s1.modPod (podOf n) (fun p => { p with pb := p.pb ++ [w] }))
    | .fab _ _ => .next ({ s1 with ft := s1.ft ++ [w] }.flits n 1)
    | _ => .next (s1.commitWrite n w)

/-- The strand's writes of a class that COMMIT may take next: the oldest in PB or FT (R244). -/
def State.commitNext (s : State) (n : StrandId) (c : BitVec 4) : Option Write :=
  match oldestOf (s.pbOf n) c, oldestOf (s.ftOf n) c with
  | some w, some v => some (if v.seq < w.seq then v else w)
  | some w, none => some w
  | none, v => v

def execCommit (n : StrandId) (c : BitVec 4) (s : State) : Out :=
  match s.commitNext n c with
  | none => .next s
  | some w =>
    if s.blocked w.loc then .next (s.noteLate n w.loc)
    else if w.rel && s.syncBusy w.loc then .next s
    else
      let s1 := s.modPod (podOf n) (fun p => { p with pb := dropWrite p.pb n w.seq })
      let s2 := State.commitWrite { s1 with ft := dropWrite s1.ft n w.seq } n w
      .next (if w.rel then s2.noteSync w.loc else s2)

/-! ### Atomics (R227, R228, R237, R251) -/

/-- The new value of an atomic on `k` bytes, none when it writes nothing (R227). -/
def atomNew (op : Fin 8) (wide : Bool) (old x c : Nat) : Option Nat :=
  let w := 8 * widBytes wide
  let x := x % 2 ^ w
  let lt (a b : Nat) : Bool := decide (signedOf w a < signedOf w b)
  match op.val with
  | 0 => some ((old + x) % 2 ^ w)
  | 1 =>
    let sum := ((fp32 old).add .rne (fp32 x)).1
    some (FFmt.fp32.write (round32 sum).1)
  | 2 => some (if lt x old then x else old)
  | 3 => some (if lt old x then x else old)
  | 4 => some (old &&& x)
  | 5 => some (old ||| x)
  | 6 => some x
  | _ => if old = c % 2 ^ w then some x else none

/-- The value an atomic returns (R228). -/
def atomReturn (op : Fin 8) (wide : Bool) (old : Nat) : Word :=
  if wide || op == 1 then word old else (BitVec.ofNat 32 old).signExtend 64

/-- The home's bytes of an atomic. -/
def State.homeBytes (s : State) (n : StrandId) (l : Loc) : Nat → List Byte
  | 0 => []
  | k + 1 => s.coByte n l :: s.homeBytes n (l.shift 1) k

/-- An atomic's read and write at its home, in one step: the old value and whether it wrote. -/
def State.atomAt (s : State) (n : StrandId) (op : Fin 8) (l : Loc) (wide : Bool) (x c : Word) : Nat × Bool × State :=
  let s := s.touch n l
  let k := widBytes wide
  let old := bytesNat (s.homeBytes n l k)
  match atomNew op wide old x.toNat c.toNat with
  | some v => (old, true, s.appendCo n l (natBytes k v))
  | none => (old, false, s)

/-- The record's WR bit (R364). -/
def withWr (l : Option LogSlot) (wr : Bool) : Option LogSlot := l.map (fun r => if wr then { r with w2 := r.w2 ||| 4 } else r)

/-- The low-water ordinal of a strand's launch (R257). -/
def State.lowWaterOf (s : State) (p : PartId) (k : Fin 4) : Nat := ((s.slot p k).map (·.lowWater)).getD 0

/-- Non-returning AADD, AFADD, AMIN and AMAX are buffered (R237). -/
def isBuffered (op : Fin 8) (dest : SReg) : Bool := op.val ≤ 3 && dest.val == 0

/-- The shared-cache slice of a line: its die and slice (R339). -/
def sliceKey (pa : Nat) : Nat := 8 * ((homeDie pa).map (·.val)).getD 0 + sliceOf pa

/-- A slice has an entry for a key: 256 in all, the last 16 kept for keys of the low-water ordinal (R237). -/
def State.entryFree (s : State) (pa o w : Nat) : Bool :=
  decide ((s.orbuf.filter (fun e => sliceKey e.pa == sliceKey pa)).length < if o = w then 256 else 240)

/-- Key order (R237). -/
def keyLt (a b : Nat × Nat) : Bool := decide (a.1 < b.1) || (a.1 == b.1 && decide (a.2 < b.2))

/-- A buffered entry of the line with a smaller key in the same launch. -/
def State.smallerKey (s : State) (p : PartId) (k : Fin 4) (pa o j : Nat) : Bool :=
  s.orbuf.any (fun e => e.part == p && e.slot == k && lineOf e.pa == lineOf pa && keyLt (e.o, e.j) (o, j))

/-- No write of the strand of the atomic's class is older and uncommitted (R244). -/
def State.atomClear (s : State) (n : StrandId) (seq : Nat) (c : BitVec 4) : Bool :=
  (s.flying n).all (fun w => decide (seq ≤ w.seq) || w.cls != c)

/-- What ATOM does with an atomic whose general conditions hold. -/
def State.atomStep (s : State) (n : StrandId) (e : CqEntry) (op : Fin 8) (l : Loc) (wide : Bool) (x c : Word) (dest : SReg)
    (acq : Option Scope) : State :=
  let (old, wr, s1) := s.atomAt n op l wide x c
  let s2 := s1.modStrand n (fun t =>
    let t := (t.removeCq e.seq).writeDest e.seq dest (atomReturn op wide old)
    { t with l1 := match l.line? with
      | some line => l1Drop t.l1 line
      | none => t.l1 })
  let s3 := match acq with
    | some scope => s2.acquireDrop n scope
    | none => s2
  (s3.noteSync l).logEvent? (s.tagOf n) (withWr e.log wr)

/-- The launch and line of an ordered atomic that the ordered-reduction buffer takes (R237). -/
def State.bufferOf (s : State) (n : StrandId) (op : Fin 8) (l : Loc) (dest : SReg) (ordered : Bool) : Option ((PartId × Fin 4) × Nat) :=
  match (s.strand n).launch, l with
  | some pk, .glob pa => if ordered && isBuffered op dest then some (pk, pa) else none
  | _, _ => none

/-- An ordered atomic accepted into the buffer while a slice has an entry for its key; its ORD and its record wait for its
application (R237). -/
def State.acceptOrdered (s : State) (n : StrandId) (cls : BitVec 4) (e : CqEntry) (op : Fin 8) (wide : Bool) (x : Word)
    (acq rel : Option Scope) (pk : PartId × Fin 4) (pa : Nat) : State :=
  if s.entryFree pa e.ordn (s.lowWaterOf pk.1 pk.2) then
    let s1 : State := { s with orbuf := s.orbuf ++ [⟨n, e.seq, cls, pk.1, pk.2, e.ordn, e.j, op, wide, pa, x, acq, rel, e.log⟩] }
    (s1.modStrand n (fun t => t.removeCq e.seq)).endLeft n
  else s

/-- The turn of an ordered atomic that is not buffered has come (R237); every other atomic has its turn at once. -/
def State.orderedTurn (s : State) (n : StrandId) (e : CqEntry) (l : Loc) (ordered : Bool) : Bool :=
  match (s.strand n).launch, l with
  | some (p, k), .glob pa => !ordered || (decide (e.ordn ≤ s.lowWaterOf p k) && !s.smallerKey p k pa e.ordn e.j)
  | _, _ => true

/-- A release's older accesses have performed at its scope (R249). -/
def State.released (s : State) (n : StrandId) (seq : Nat) : Option Scope → Bool
  | some scope => s.performed n seq allClasses scope
  | none => true

/-- Nothing of the strand stands before an atomic at the head of its class queue: no older fault, acquire or write of its class, and
no older ordered atomic (R92, R237, R244, R248, R251). -/
def State.atomHead (s : State) (n : StrandId) (c : BitVec 4) (e : CqEntry) (ordered : Bool) : Bool :=
  let t := s.strand n
  t.passedBefore e.seq && !s.acquireBefore n e.seq && s.atomClear n e.seq c &&
  !(ordered && t.cq.any (fun i => decide (i.seq < e.seq) && (match i.kind with
    | .atom _ _ _ _ _ _ _ _ o => o
    | _ => false)))

def execAtom (n : StrandId) (c : BitVec 4) (s : State) : Out :=
  match (s.strand n).head? c with
  | some e =>
    match e.kind with
    | .atom op l wide x cmp dest acq rel ordered =>
      if !s.atomHead n c e ordered then .next s
      else
        match s.bufferOf n op l dest ordered with
        | some (pk, pa) => .next (s.acceptOrdered n c e op wide x acq rel pk pa)
        | none =>
          if !s.released n e.seq rel || s.syncBusy l || !s.orderedTurn n e l ordered then .next s
          else if s.blocked l then .next (s.noteLate n l)
          else .next ((s.atomStep n e op l wide x cmp dest acq).endLeft n)
    | _ => .next s
  | none => .next s

/-- The buffered entry of a line that may be applied: the least key of its launch, its ordinal not above the low-water one. -/
def State.applicable (s : State) (line : Nat) : Option OEntry :=
  s.orbuf.find? (fun e => lineOf e.pa == lineOf line && decide (e.o ≤ s.lowWaterOf e.part e.slot) &&
    !s.smallerKey e.part e.slot e.pa e.o e.j)

/-- ORDERED_ENTRY_APPLY (R237, R258): an entry's release waits for the strand's older accesses, and at its step the strand's L1 copy of
the line goes, with every other one for an acquire (R248, R249). (Log entry 19, DEDUCED, unsafe.) -/
def execOrderedEntryApply (line : Nat) (s : State) : Out :=
  match s.applicable line with
  | none => .next s
  | some e =>
    let l : Loc := .glob e.pa
    if !s.released e.strand e.seq e.rel || s.syncBusy l then .next s
    else if s.blocked l then .next (s.noteLate e.strand l)
    else
      let s1 : State := { s with orbuf := s.orbuf.erase e }
      let (_, wr, s2) := s1.atomAt e.strand e.op l e.wide e.x 0
      let s3 := s2.modStrand e.strand (fun t => { t with l1 := l1Drop t.l1 (.phys (lineOf e.pa)) })
      let s4 := match e.acq with
        | some scope => s3.acquireDrop e.strand scope
        | none => s3
      .next ((s4.noteSync l).logEvent? e.part (withWr e.log wr))

/-! ### FILL, DROP, EVICT (R244, R254) -/

/-- A line that exists: of HBM, second tier or the fabric window, where it stands for the export's line behind it. -/
def LineRef.exists? (s : State) (n : StrandId) : LineRef → Bool
  | .phys pa => pa % 128 == 0 && (homeDie pa).isSome
  | .fabric f h => f % 128 == 0 && decide (f < fabSize) &&
    (if f / 2 ^ 36 = Config.nodeNumber.toNat then h.isSome && h == s.exportAddr n f else h.isNone)

/-- The strand has written the line, and the write stands in IB or the fabric transit: the view does not hold it yet. -/
def State.ownWriteAway (s : State) (n : StrandId) (x : LineRef) : Bool :=
  ((s.strand n).ib ++ s.ftOf n).any (fun w => Loc.line? w.loc == some x)

/-- FILL takes the line's view. It is not enabled while the view lacks a write of the strand's own (R244, R245). -/
def execFill (n : StrandId) (line : LineRef) (s : State) : Out :=
  if !LineRef.exists? s n line || s.ownWriteAway n line || s.blocked (LineRef.loc line) then .next s
  else
    let s1 := s.touch n (LineRef.loc line)
    .next (s1.modStrand n (fun t => { t with l1 := l1Set t.l1 line (s1.lineView n line) }))

def execDrop (n : StrandId) (line : LineRef) (s : State) : Out :=
  .next (s.modStrand n (fun t => { t with l1 := l1Drop t.l1 line }))

/-- EVICT: memory takes the coherent values of a line, and the shared cache no longer holds it. -/
def execEvict (pa : Nat) (s : State) : Out :=
  match s.scLine? pa with
  | some l => if l.held || l.bad || s.tagBad l.pa then .next s else .next (s.evictLine l)
  | none => .next s

/-! ### FENCE and BAR completion (R235, R250) -/

/-- The ordering class of a vector or engine memory instruction (R101, R252). -/
def Instr.engineClass : Instr → Option (BitVec 4)
  | .vld _ mm _ _ _ _ _ | .vst _ mm _ _ _ _ _ | .vldu _ mm _ _ _ _ _ | .vstm _ mm _ _ _ _ _ => some mm.cls
  | .vgath _ mm _ _ _ _ _ _ | .vscat _ mm _ _ _ _ _ _ => some mm.cls
  | .tld _ mm _ | .tst _ mm _ | .tstk _ mm _ => some mm.cls
  | .tldh _ mm _ _ _ | .tldr _ mm _ _ _ _ => some mm.cls
  | .cpy _ mm _ _ _ _ | .cpyg _ mm _ _ _ _ _ | .cpyd _ mm _ _ _ | .cpye _ mm _ _ _ _ _ | .coll _ mm _ _ => some mm.cls
  | _ => none

/-- A load of the vector engine. -/
def Instr.isVectorLoad : Instr → Bool
  | .vld _ _ _ _ _ _ _ | .vldu _ _ _ _ _ _ _ | .vgath _ _ _ _ _ _ _ _ => true
  | _ => false

/-- The instruction has completed for a FENCE (R157, R188); a vector load has once all its accesses are made (R252). -/
def QEntry.accessed (e : QEntry) : Bool :=
  e.stage == .done || (e.stage == .started && e.passed && Instr.isVectorLoad e.instr && e.work.reads.isEmpty)

/-- The class an entry's accesses are made in. -/
def State.entryClass (s : State) (n : StrandId) (e : QEntry) : Option (BitVec 4) :=
  if e.holds then (Instr.engineClass e.instr).map (s.curCtx n).classOf else none

/-- FENCE_COMPLETE for the FENCE with a program-order number. -/
def execFenceComplete (n : StrandId) (seq : Nat) (s : State) : Out :=
  let t := s.strand n
  match t.cq.find? (fun e => e.seq == seq) with
  | some e =>
    match e.kind with
    | .fence scope eng =>
      let heads := t.cq.all (fun x => decide (seq ≤ x.seq) || (x.classes &&& e.classes) == 0)
      let engines := !eng || t.entries.all (fun q => decide (seq ≤ q.seq) || QEntry.accessed q ||
        (match s.entryClass n q with
          | some c => !e.classes.getLsbD c.toNat
          | none => true))
      if heads && engines && s.performed n seq e.classes scope then
        .next (((s.modStrand n (fun t => t.removeCq seq)).acquireDrop n scope).logEvent? (s.tagOf n) e.log)
      else .next s
    | _ => .next s
  | none => .next s

/-- The participants of a barrier with MEMB (R234). -/
def barMembers (pod : PodId) (memb : BitVec 4) : List StrandId :=
  (([0, 1, 2, 3] : List (Fin 4)).filter (fun c => memb.getLsbD c.val)).map (strandOf pod)

/-- A participant has arrived with the same MEMB and its BAR is the instruction it waits at. -/
def State.arrivedAt (s : State) (n : StrandId) (memb : BitVec 4) : Option (Mods × Word) :=
  match (s.strand n).arrived, (s.strand n).barLog, s.nextOf n with
  | some a, some _, .run (.bar m _) next => if a.setWidth 4 = memb then some (m, next) else none
  | _, _, _ => none

/-- One participant leaves its BAR: an acquire at pod scope, with the record that it reserved at dispatch (R235, R364). -/
def State.barRelease (s : State) (n : StrandId) (next : Word) : State :=
  let s := s.logEvent? (s.tagOf n) ((s.strand n).barLog.getD none)
  (s.dropL1 n).modStrand n (fun t => { t.setPc next with arrived := none, barLog := none, waiting := false })

def execBarComplete (pod : PodId) (memb : BitVec 4) (s : State) : Out :=
  let ns := barMembers pod memb
  let ready := ns.map (fun n => (n, s.arrivedAt n memb))
  if ns.isEmpty || ready.any (fun x => x.2.isNone) then .next s
  else .next (ready.foldl (fun s x => match x.2 with
    | some (_, next) => s.barRelease x.1 next
    | none => s) s)

/-! ### Log records (R361, R371, R372) -/

/-- A record written through a context's tables, its stores in one step, and whether it is written; or the line that the write waits
for. A failing write ends the context (R360, R361, R397). -/
def State.putRecord (s : State) (ctx : Nat) (r : Record) : Except TrapInfo (State × Bool) :=
  match s.ctx? ctx with
  | none => .ok (s, false)
  | some c =>
    match s.storeBytesVa c r.addr ((r.words.map (fun w => natBytes 8 w.toNat)).flatten) with
    | .ok s1 => .ok (s1, true)
    | .error e => if e.cause = cHeld then .error e else .ok (s.terminate c.num cLogOverflow true, false)

/-- Record `k` of a partition's ready ones written into its slot, and counted in LOGRECS (R372). -/
def State.putReady (s : State) (p : PartId) (k : Nat) : Except TrapInfo State :=
  let x := s.part p
  match x.ready[k]? with
  | none => .ok s
  | some r => do
    let (s1, written) ← (s.modPart p (fun x => { x with ready := x.ready.eraseIdx k })).putRecord x.logCtx r
    .ok (if written && !r.stamp then s1.countPart p 2 else s1)

/-- The write of a record waits for its line. -/
def State.writeRecord (s : State) (p : PartId) (k : Nat) : State :=
  match s.putReady p k with
  | .ok s1 => s1
  | .error e => s.visitLine (s.part p).logCtx e.addr.toNat

def execLogRecordWrite (p : PartId) (k : Nat) (s : State) : Out := .next (s.writeRecord p k)

/-! ### Indirection entries (R389) -/

/-- The fetch of the indirection entry that a partial write of a class waits for: the line is then held, or the block of
entries is poisoned and its frame retired, and the write raises MEM_UE when it is tried again. -/
def execPartialWriteIndirectionFetch (n : StrandId) (c : BitVec 4) (bad : Bool) (s : State) : Out :=
  match (s.strand n).want.find? (fun w => w.2 == c) with
  | none => .next s
  | some w =>
    let s1 := s.modStrand n (fun t => { t with want := t.want.erase w })
    if bad || s.dedupError w.1 == some true then .next ((s1.poisonBlock w.1).retireFrame (w.1 / 65536))
    else .next (s1.fillLine w.1 (s.tagOf n))

end Sys2Proof.Machine
end

