-- ==== Sys2Proof/Machine/Queue.lean ====
section
/-! DEFINITION. The queues (R13 to R17, R74 to R80, R188, R193, R316): dispatch of a queued instruction, the queue pool, tokens,
what starts a queue's head, accesses of a started instruction (R252), and the upkeep of queues after each of their steps. -/

namespace Sys2Proof.Machine

/-! ### Ownership (step 7 of R112, R345) -/

/-- The owner of engine `num` of a kind in a Pod. -/
def State.engineOwner (s : State) (pod : PodId) (k : EngineKind) (num : Nat) : Option PartId :=
  let l := s.mgmt.layout
  match k with
  | .matrix => ownerOf (l.mats.getD pod.val 0xFF)
  | .load => ownerOf (l.loads.getD (2 * pod.val + num) 0xFF)
  | .store => ownerOf (l.stores.getD (2 * pod.val + num) 0xFF)
  | .copy => ownerOf (l.copies.getD pod.val 0xFF)

/-- The strand's partition owns an engine of the kind in its Pod. -/
def State.owns (s : State) (n : StrandId) (k : EngineKind) : Bool :=
  let mine (num : Nat) : Bool := (s.partOf n).isSome && s.engineOwner (podOf n) k num == s.partOf n
  mine 0 || ((k == .load || k == .store) && mine 1)

/-- The check of step 7 for the strand that dispatches. -/
def State.ownCheck (s : State) (k : EngineKind) : Option TrapInfo :=
  if s.owns s.cur.strand k then none else some (plainTrap cEngineNotOwned)

/-! ### The queue pool (R17) -/

/-- The entries a queue holds: its instructions that have not started. -/
def Strand.heldEntries (t : Strand) (q : QName) : Nat := ((t.queue q).filter (fun e => e.stage == .waiting)).length

/-- The pool has an entry for a queue of a strand. -/
def State.poolRoom (s : State) (n : StrandId) (q : QName) : Bool :=
  let t := s.strand n
  let all := ((podStrands (podOf n)).map (fun k => queueNames.map (fun x => (k, x)))).flatten
  let held (x : StrandId × QName) : Nat := (s.strand x.1).heldEntries x.2
  let free := 1024 - (all.map held).sum
  let reserved := ((all.filter (fun x => x != (n, q))).map (fun x => poolField (s.strand x.1).qmin x.2 - held x)).sum
  decide (t.heldEntries q < poolField t.qcap q) &&
  (decide (t.heldEntries q < poolField t.qmin q) || decide (reserved < free))

/-! ### Upkeep -/

/-- The head of a queue: its oldest instruction that has not started (R14). -/
def Strand.qhead? (t : Strand) (q : QName) : Option QEntry := (t.queue q).find? (fun e => e.stage == .waiting)

/-- Its token counters are nonzero (R15). -/
def Strand.tokensReady (t : Strand) (q : QName) (e : QEntry) : Bool :=
  (tokPops q (Instr.mods e.instr).tok).all (fun i => t.token i != 0)

/-- Its operand tiles are full and in the tile store (R80, R88). -/
def Strand.tilesReady (t : Strand) (e : QEntry) : Bool :=
  e.tiles.all (fun i => match t.tile? i with
    | some r => r.full && !r.sunk
    | none => false)

/-- LACQ asks for the lease as soon as it heads its queue (R317). -/
def Instr.isLacq : Instr → Bool
  | .lacq _ => true
  | _ => false

/-- Ready for its engine (R316, R317). -/
def Strand.ready (t : Strand) (q : QName) (e : QEntry) : Bool :=
  e.holds && (Instr.isLacq e.instr || (t.tokensReady q e && t.tilesReady e))

/-- The head's request begins when it is first ready (R316). -/
def askEntry (t : Strand) (q : QName) (ticks : Nat) : List QEntry → List QEntry
  | [] => []
  | e :: es =>
    if e.stage == .waiting then (if e.asked = 0 && t.ready q e then { e with asked := ticks + 1 } :: es else e :: es)
    else e :: askEntry t q ticks es

/-- A completed instruction behind which no older one can fault any more (R92). -/
def Strand.certain (t : Strand) (e : QEntry) : Bool := e.stage == .done && t.passedBefore e.seq

/-- The flags of completed matrix instructions, ORed into VSTAT and into what an unwind would restore of it, once every older
instruction has passed its last fault point (R72, R92). -/
def Strand.takeFlags (t : Strand) : Strand :=
  let fl := (t.queue .M).foldl (fun f e => if t.certain e then f ||| e.work.flags else f) 0
  let taken : QEntry → QEntry := fun e => { e with snap := e.snap.map (fun v => { v with vstat := v.vstat ||| fl }) }
  let t' := { t with vstat := t.vstat ||| fl, queues := t.queues.map (List.map taken) }
  t'.setQueue .M ((t'.queue .M).map (fun e => if t.certain e then { e with work := { e.work with flags := 0 } } else e))

/-- Completed instructions leave their queue once their pushes are made and every older one has passed its last fault point, and
their flags are taken (R15, R72, R92). -/
def Strand.reap (t : Strand) : Strand :=
  let t := t.takeFlags
  { t with queues := Vector.ofFn (fun i : Fin 4 => (t.queues[i.val]).filter (fun e => !(t.certain e && e.pushes.isEmpty))) }

/-- The M-queue head waits on a token or an empty tile (R317). -/
def Strand.matrixBlocked (t : Strand) : Bool :=
  match t.qhead? .M with
  | none => false
  | some e => !t.tokensReady .M e || (e.holds && !t.tilesReady e)

/-- The lease's count of idle cycles begins with the holder's wait and ends with it (R317): one more than the tick at which it
began, 0 for none. -/
def State.noteIdle (s : State) (n : StrandId) : State :=
  let l := (s.pod (podOf n)).lease
  if l.holder ≠ some n then s
  else
    let since := if !(s.strand n).matrixBlocked then 0 else if l.idleSince = 0 then s.ticks + 1 else l.idleSince
    s.modPod (podOf n) (fun x => { x with lease := { l with idleSince := since } })

/-- The queues of a strand after a step: pushes that can be made, entries that leave, requests that begin, and tiles that
retire (R15, R76). -/
def State.tidyQueues (s : State) (n : StrandId) : State :=
  let t := s.strand n
  let t := (((t.flushQueue .L).flushQueue .M).flushQueue .V).flushQueue .S
  let t := t.reap
  let t := queueNames.foldl (fun t q => t.setQueue q (askEntry t q s.ticks (t.queue q))) t
  ((s.setStrand n t).noteIdle n).sweep n

/-- The queues of a strand after a step that may complete its last instruction. -/
def State.settleQueues (s : State) (n : StrandId) : State := (s.tidyQueues n).settle n

/-! ### Dispatch (R77, R188, R370) -/

/-- What dispatch needs to know of a queued instruction: its queue, its scalar operands, how many depths it names from the top
down, how many it pops, whether it pushes a tile, and that tile's PKIND (R371). -/
structure Plan where
  q : QName
  uses : List SReg
  ops : Nat
  pops : Nat
  pushes : Bool
  pkind : Nat

/-- The kept load is released before another engine instruction dispatches (R193, R370). -/
def State.releaseKept (s : State) (n : StrandId) : State :=
  match (s.strand n).kept with
  | none => s
  | some k =>
    (s.voidStamps n [k.id]).modStrand n (fun t => { t with
      kept := none, tiles := t.tiles.filter (fun r => r.id != k.id) })

/-- The engine instructions of the V queue: TBEG, TROW, TEND, TRV, TCV (R13). The queue's other instructions are vector ones. -/
def Instr.isVectorUnit : Instr → Bool
  | .tbeg _ _ _ | .trow _ _ _ _ | .tend _ | .trv _ _ _ _ _ _ | .tcv _ _ _ _ _ => true
  | _ => false

/-- An instruction that uses or releases a kept load: an engine instruction with a queue, no vector instruction (R193). -/
def touchesKept (q : QName) (i : Instr) : Bool := q != .V || Instr.isVectorUnit i

/-- The release that the dispatch of an instruction makes. -/
def State.releaseFor (s : State) (n : StrandId) (q : QName) (i : Instr) : State := if touchesKept q i then s.releaseKept n else s

/-- The checkpoint of R91 and R119. -/
def Strand.checkpoint (t : Strand) : Checkpoint where
  s := t.s
  p := t.p
  image := t.image
  tfloor := t.tfloor
  openId := t.openId
  kept := t.kept
  declared := t.declared
  vdecs := t.vdecs
  spo := t.spo
  atomJ := t.atomJ
  schedCount := t.schedCount
  draining := t.draining

/-- Nothing done. -/
def Work.none : Work := ⟨0, [], [], [], [], [], Option.none, [], Option.none, Option.none, 0, 0, [], 0⟩

/-- A fresh entry for an instruction. -/
def Strand.newEntry (t : Strand) (i : Instr) (holds : Bool) (ckpt : Checkpoint) : QEntry where
  seq := t.nseq
  instr := i
  pc := t.pc
  slot0 := t.slot0
  holds := holds
  scalars := []
  tiles := []
  results := []
  ckpt := ckpt
  role := t.role
  leasectl := t.leasectl
  ordn := t.ordinal
  permit := t.permit
  keptLoad := none
  openBefore := none
  snap := none
  cleared := 0
  stage := .waiting
  granted := false
  passed := false
  fault := none
  pops := []
  pushes := []
  pushed := []
  work := Work.none
  asked := 0
  aged := false

def Strand.append (t : Strand) (q : QName) (e : QEntry) : Strand := { t.setQueue q (t.queue q ++ [e]) with nseq := t.nseq + 1 }

/-- TINFO of a stack fault (R90). NEED is a 10-bit field: the number that TMARK asks for is held modulo 1024, which the rule does not
say. (Log entry 64, DESIGN CHOICE, unsafe.) -/
def stackInfo (limit depth need : Nat) : Word := word ((limit % 1024) <<< 20 + (depth % 1024) <<< 10 + need % 1024)

/-- The stack checks of R77 for an instruction that names `ops` depths from the top. -/
def Strand.stackCheck (t : Strand) (ops pops pushes : Nat) : Option TrapInfo :=
  let d := t.image.length
  if d < t.tfloor + ops then some ⟨cStackUnderflow, 0, stackInfo t.tfloor d ops⟩
  else if pops < pushes ∧ t.stklim < d - pops + pushes then
    some ⟨cStackOverflow, 0, stackInfo t.stklim d (d - pops + pushes)⟩
  else none

/-- The tile reference at a depth (R73). -/
def Strand.atDepth (t : Strand) (d : Nat) : Nat := t.image.getD (t.image.length - 1 - d) 0

/-- A stall of dispatch under R17 (PSTALL, R372). -/
def State.poolStall (s : State) (n : StrandId) : State := s.countStrand n 1 1

/-- The stamp slot of a result (R370). -/
def State.reserveStamp (s : State) (n : StrandId) (pkind : Nat) : Except (TrapInfo × State) (Option Stamp × State) :=
  let p := s.tagOf n
  match (s.part p).stamp.reserve with
  | .off => .ok (none, s)
  | .full r => .error (addrTrap cStampOverflow r.ptr, s.modPart p (fun x => { x with stamp := r }))
  | .slot a r =>
    .ok (some ⟨a, pkind, 0, (s.strand n).spo.getD noSpo, s.gts, 0, 0, 0⟩, s.modPart p (fun x => { x with stamp := r }))

/-- The kept load is this instruction's own (R193). -/
def Strand.keptHere (t : Strand) : Option Kept := t.kept.filter (fun k => k.pc == t.pc && k.slot0 == t.slot0)

/-- A new tile takes an identity: no error that was injected into an earlier tile of that identity waits in it (R75, R390). -/
def State.forgetErrors (s : State) (n : StrandId) (id : Nat) : State :=
  { s with mgmt := { s.mgmt with errTiles := s.mgmt.errTiles.filter (fun x => !(x.1 == n && x.2.1 == id)) } }

/-- The dispatch proper of an instruction whose guards hold and that has its pool entry: its identity, its references, its
checkpoint and its entry. `after` is what else its rule does at dispatch. -/
def State.sendQueued (s : State) (n : StrandId) (pl : Plan) (i : Instr) (after : Strand → List Word → List Nat → Strand) :
    Except (TrapInfo × State) State :=
  let keep := if pl.pushes then (s.strand n).keptHere else none
  let s := if keep.isSome then s else s.releaseFor n pl.q i
  let t := s.strand n
  let ckpt := t.checkpoint
  let scal := pl.uses.map t.getS
  let place (s : State) (results : List Nat) (fresh : List TileRec) : State :=
    s.modStrand n (fun t =>
      let e := { t.newEntry i true ckpt with
        scalars := scal, tiles := (List.range pl.ops).map t.atDepth, results := results, keptLoad := keep }
      let t := { t.append pl.q e with
        image := t.image.take (t.image.length - pl.pops) ++ results, tiles := t.tiles ++ fresh, kept := if touchesKept pl.q i then none else t.kept }
      after t scal results)
  if !pl.pushes then .ok (place s [] [])
  else
    match keep with
    | some k => .ok (place s [k.id] [])
    | none =>
      match s.reserveStamp n pl.pkind with
      | .error e => .error e
      | .ok (st, s) =>
        let id := (t.freeId?).getD 0
        .ok (place (s.forgetErrors n id) [id] [⟨id, false, false, none, none, none, st⟩])

/-- The dispatch of a queued instruction (R77, R98, R112, R188): the checks before the guards; the entry of a guard-false one;
its own dispatch-time checks, the stack's, and the waits for a pool entry and an identity. -/
def queued (m : Mods) (pl : Plan) (i : Instr) (pre : Option TrapInfo) (early : Strand → Option TrapInfo)
    (after : Strand → List Word → List Nat → Strand) (s : State) : Out :=
  let n := s.cur.strand
  let t := s.strand n
  match pre with
  | some tr => .next (s.raise n tr t.pc)
  | none =>
    if !t.holds m then
      if !s.poolRoom n pl.q then .next (s.poolStall n)
      else
        let s1 := (s.releaseFor n pl.q i).dispatched n m
        let s2 := s1.modStrand n (fun t => t.append pl.q (t.newEntry i false t.checkpoint))
        .next ((s2.advance n).tidyQueues n)
    else if pl.uses.any t.busy then .next (s.countStrand n 5 1)
    else
      match (early t).orElse (fun _ => t.stackCheck pl.ops pl.pops pl.pushes.toNat) with
      | some tr => .next ((s.dispatched n m).raise n tr t.pc)
      | none =>
        if !s.poolRoom n pl.q || (pl.pushes && t.freeId?.isNone && t.kept.isNone) then .next (s.poolStall n)
        else
          match (s.dispatched n m).sendQueued n pl i after with
          | .error (tr, s') => .next (s'.raise n tr t.pc)
          | .ok s' => .next ((s'.advance n).tidyQueues n)

/-- A dispatch with no check and no effect of its own. -/
def queuedPlain (m : Mods) (pl : Plan) (i : Instr) (pre : Option TrapInfo) : State → Out :=
  queued m pl i pre (fun _ => none) (fun t _ _ => t)

/-! ### Starting -/

/-- What an instruction's own rule does when it would start. -/
inductive Start where
  | wait
  /-- It waits, and what its wait changes is changed. -/
  | hold (f : State → State)
  /-- It waits for bytes of the tile store (R86). -/
  | space (k : Nat)
  | go (s : State) (e : QEntry)
  | fault (t : TrapInfo) (s : State)

/-- Why a head cannot start now: by a token, by an empty tile, or otherwise. -/
inductive Block where | free | other | token | tile
  deriving DecidableEq, Repr

/-- A push of the queue waits at 15: the oldest completed instruction that has pushes left stands behind no uncompleted one that has
(R15). -/
def Strand.pushWaits (t : Strand) (q : QName) : Bool :=
  match (t.queue q).find? (fun x => !x.pushes.isEmpty) with
  | some x => x.stage == .done
  | none => false

/-- An older FENCE with ENG = 1 that names the class has not completed: no vector or engine memory instruction of the class
starts (R231). -/
def Strand.fencedClass (t : Strand) (seq : Nat) (c : BitVec 4) : Bool :=
  t.cq.any (fun x => decide (x.seq < seq) && x.classes.getLsbD c.toNat && (match x.kind with
    | .fence _ eng => eng
    | _ => false))

/-- A FENCE holds the start of an entry (R231). -/
def State.fenced (s : State) (n : StrandId) (e : QEntry) : Bool :=
  match s.entryClass n e with
  | some c => (s.strand n).fencedClass e.seq c
  | none => false

/-- The general conditions of a start (R14, R15, R80): no older instruction has faulted, no push of the queue waits at 15, the
tokens are there and the operands full. -/
def Strand.startBlock (t : Strand) (q : QName) (e : QEntry) : Block :=
  if t.entries.any (fun x => decide (x.seq < e.seq) && x.fault.isSome) || e.fault.isSome then .other
  else if t.pushWaits q then .other
  else if !t.tokensReady q e then .token
  else if e.holds && !t.tilesReady e then .tile
  else .free

/-- CKIND of a queue's instructions (R371). -/
def consumerKind : QName → Nat
  | .L => 0 | .M => 2 | .V => 3 | .S => 4

/-- The last consumer of a tile starts now (R371). -/
def Strand.noteConsumer (t : Strand) (q : QName) (gts : Nat) (ids : List Nat) : Strand :=
  { t with tiles := t.tiles.map (fun r => if ids.contains r.id then
      { r with stamp := r.stamp.map (fun st => { st with last := gts, ckind := consumerKind q }) } else r) }

/-- The entry starts: its tokens are taken, and a pop is an acquire at pod scope (R15, R253, R371). -/
def State.markStarted (s : State) (n : StrandId) (q : QName) (e : QEntry) : State :=
  let tok := (Instr.mods e.instr).tok
  let pops := tokPops q tok
  let s := if pops.isEmpty then s else s.dropL1 n
  s.modStrand n (fun t =>
    let t := pops.foldl (fun t i => t.setToken i (t.token i - 1)) t
    let e' := { e with pops := pops, pushes := tokPushes q tok, stage := if e.stage == .done then .done else .started }
    let t := t.setQueue q ((t.queue q).map (fun x => if x.seq = e.seq then e' else x))
    if e.holds then
      let t := t.noteConsumer q s.gts e.tiles
      { t with tiles := t.tiles.map (fun r => if e.results.contains r.id then
          { r with stamp := r.stamp.map (fun st => { st with start := s.gts }) } else r) }
    else t)

/-- The entry faults at its start or while it executes. An access that waits for a line is no fault (R390, R397). -/
def State.markFault (s : State) (n : StrandId) (seq : Nat) (tr : TrapInfo) : State :=
  if tr.cause = cHeld then s.visitLine ((s.strand n).ctx.getD 0) tr.addr.toNat
  else s.modStrand n (fun t => t.modEntry seq (fun e => { e with stage := .started, fault := some tr }))

def State.putEntry (s : State) (n : StrandId) (e : QEntry) : State := s.modStrand n (fun t => t.modEntry e.seq (fun _ => e))

/-- A result's header is fixed at its producer's start (R80). -/
def Strand.setHeader (t : Strand) (id : Nat) (h : Header) : Strand := t.modTile id (fun r => { r with hdr := some h })

/-! ### Tile-store space (R85, R86) -/

/-- The bytes a strand's resident tiles occupy. -/
def Strand.residentBytes (t : Strand) : Nat :=
  (t.tiles.map (fun r => if r.sunk then 0 else (r.hdr.map Header.space).getD 0)).sum

def guaranteeBytes : Nat := 2 * 2 ^ 20
def storeBytesTotal : Nat := 12 * 2 ^ 20

/-- A producer's space can be reserved (R85). -/
def State.hasSpace (s : State) (n : StrandId) (k : Nat) : Bool :=
  let mine := (s.strand n).residentBytes + k
  let others := ((podStrands (podOf n)).filter (· != n)).map (fun x => max guaranteeBytes (s.strand x).residentBytes)
  decide (mine ≤ guaranteeBytes) ||
  (decide (mine ≤ (s.strand n).tsquota * 65536) && decide (max mine guaranteeBytes + others.sum ≤ storeBytesTotal))

/-! ### Accesses of queued instructions (R252) -/

/-- Why a byte of an access cannot be used: a trap, with the place of an unreadable indirection entry and whether a write
needs it, or an indirection entry to fetch first (R389). -/
inductive AccErr where
  | trap (t : TrapInfo)
  | bad (t : TrapInfo) (l : Loc) (w : Bool)
  | want (pa : Nat)
  deriving DecidableEq, Repr

/-- One unit's place for an engine or vector access, with its indirection entry. -/
def State.unitPlace (s : State) (n : StrandId) (c : Ctx) (who : Actor) (need : Need) (a : Word) : Except AccErr (Loc × Option TlbEntry) :=
  match s.place n c who need a with
  | .error t => .error (.trap t)
  | .ok (l, e) =>
    if need = .write then
      match s.wantsEntry l e with
      | none => .ok (l, e)
      | some pa => if s.entryBad l e then .error (.bad (indirectionTrap a) l true) else .error (.want pa)
    else if s.entryBad l e then .error (.bad (indirectionTrap a) l false)
    else .ok (l, e)

/-- Bytes of one access of a range: up to the next 8-byte boundary. -/
def unitLen (a : Word) (len : Nat) : Nat := min len (8 - a.toNat % 8)

/-- FOOTPRINT or FOOTPRINT_READ of a run of bytes (R273, R274). -/
def walkFault (p : Option Permit) (need : Need) (a : Word) (len : Nat) : Option TrapInfo :=
  if need = Need.write then writeFault p a len else readFault p a len

/-- The units of a range in ascending order, each translated and passed by the walk's footprint; `fuel` bounds their number.
A range that leaves the region it starts in raises BOUNDS at the first byte beyond it (R25, R211). -/
def State.rangeUnits (s : State) (n : StrandId) (c : Ctx) (p : Option Permit) (need : Need) (reg : Region) : Nat → Word → Nat →
    Except AccErr (List Unit8)
  | 0, _, _ => .ok []
  | fuel + 1, a, len =>
    if len = 0 then .ok []
    else if c.region a ≠ reg then .error (.trap (addrTrap cBounds a))
    else
      match s.unitPlace n c .engine need a with
      | .error e => .error e
      | .ok (l, e) =>
        let k := unitLen a len
        match walkFault p need a k with
        | some t => .error (.trap t)
        | none =>
          match s.rangeUnits n c p need reg fuel (a + word k) (len - k) with
          | .error e => .error e
          | .ok us => .ok (⟨a, l, k, e⟩ :: us)

/-- The units of `len` bytes from `a`. (Log entry 48, DEDUCED, safe.) -/
def State.units (s : State) (n : StrandId) (p : Option Permit) (need : Need) (a : Word) (len : Nat) : Except AccErr (List Unit8) :=
  let c := s.curCtx n
  s.rangeUnits n c p need (c.region a) (len / 8 + 2) a len

/-- An error of an access, as what becomes of the start: a fault, or a wait for a held line or an indirection entry. -/
def accErrStart (s : State) (n : StrandId) (e : QEntry) : AccErr → Start
  | .trap t =>
    if t.cause = cHeld then .hold (fun s => s.visitLine ((s.strand n).ctx.getD 0) t.addr.toNat) else .fault t (s.putEntry n e)
  | .bad t l w => .fault t (if w then (s.putEntry n e).poisonWrite l else (s.putEntry n e).poisonAt l)
  | .want pa => .hold (fun s => s.noteWant n pa ((s.entryClass n e).getD 0))

/-- DDP pages that an access has met (R348). -/
def State.noteUnits (s : State) (us : List Unit8) : State := us.foldl (fun s u => s.noteDdp u.page) s

/-- The reads of a range. -/
def unitReads (us : List Unit8) : List (Loc × Nat) := us.map (fun u => (u.loc, u.len))

/-- Bytes of a run that are written, cut into runs of neighbours: what an overwriting walk suppresses is left out (R273). -/
def keptRuns (p : Option Permit) (a : Word) (l : Loc) (bs : List Byte) : List EWrite :=
  let kept := keptBytes p a bs
  if kept.length = bs.length then [⟨l, bs, 0xFF⟩] else kept.map (fun ib => ⟨l.shift ib.1, [ib.2], 0xFF⟩)

/-- The write accesses of bytes over translated units. -/
def unitWrites (p : Option Permit) : List Unit8 → List Byte → List EWrite
  | [], _ => []
  | u :: us, bs => keptRuns p u.addr u.loc (bs.take u.len) ++ unitWrites p us (bs.drop u.len)

/-- How many bytes of a run are suppressed. -/
def suppressed (p : Option Permit) (a : Word) (bs : List Byte) : Nat := bs.length - (keptBytes p a bs).length

/-- The class of an instruction's accesses. -/
def State.classOfEntry (s : State) (n : StrandId) (e : QEntry) : BitVec 4 := (s.entryClass n e).getD 0

/-- No access of a queued instruction takes a step before the strand's older scalar writes of its class are committed, nor
while an older FENCE with ENG names its class (R101, R250, R252). Acquires do not cover it (R226). -/
def State.mayAccess (s : State) (n : StrandId) (e : QEntry) : Bool :=
  let t := s.strand n
  let c := s.classOfEntry n e
  t.cq.all (fun x => decide (e.seq ≤ x.seq) || !x.classes.getLsbD c.toNat || (match x.kind with
    | .load _ _ _ _ _ => true
    | .fence _ eng => !eng
    | .cmo _ _ _ _ => true
    | _ => false)) &&
  (s.flying n).all (fun w => decide (e.seq ≤ w.seq) || w.cls != c)

/-- An engine's read: the view of its Pod, never an L1 copy (R252). A fabric access sends a flit (R372). -/
def State.engineRead (s : State) (n : StrandId) (l : Loc) (k : Nat) : List Byte × State :=
  let bs := s.viewBytes n l k
  let s := s.touch n l
  (bs, match l with
    | .fab _ _ => s.flits n 1
    | _ => s)

/-- One write access appended to CO in one step (R252). -/
def State.engineWrite (s : State) (n : StrandId) (w : EWrite) : State :=
  let bs := if w.mask = 0xFF then w.data
    else w.data.mapIdx (fun i b => (s.coByte n (w.loc.shift i) &&& ~~~w.mask) ||| (b &&& w.mask))
  let s := s.appendCo n w.loc bs
  match w.loc with
  | .fab _ _ => s.flits n 1
  | _ => s

/-- A vector write also updates the strand's L1 copy of the line (R252). -/
def State.vectorWrite (s : State) (n : StrandId) (w : EWrite) : State :=
  let bs := w.data.mapIdx (fun i b => (s.coByte n (w.loc.shift i) &&& ~~~w.mask) ||| (b &&& w.mask))
  (s.engineWrite n w).modStrand n (fun t => { t with l1 := l1Take t.l1 w.loc bs })

/-- Up to `k` accesses of a started instruction, in its order. Reads come first; writes wait until every older instruction
has passed its last fault point (R92). -/
def State.accesses (s : State) (n : StrandId) (vector : Bool) (e : QEntry) : Nat → State × QEntry
  | 0 => (s, e)
  | k + 1 =>
    if !s.mayAccess n e then (s, e)
    else
      match e.work.reads, e.work.writes with
      | (l, len) :: rs, _ =>
        if s.blocked l then (s.noteLate n l, e)
        else
          let (bs, s1) := if vector then s.bindLoad n e.seq true l len else s.engineRead n l len
          s1.accesses n vector { e with work := { e.work with reads := rs, got := e.work.got ++ bs } } k
      | [], w :: ws =>
        if !(s.strand n).passedBefore e.seq then (s, e)
        else if s.blocked w.loc then (s.noteLate n w.loc, e)
        else (if vector then s.vectorWrite n w else s.engineWrite n w).accesses n vector
          { e with work := { e.work with writes := ws } } k
      | [], [] => (s, e)

/-! ### Engine cycles of the vector engine (R155, R156, R159) -/

/-- A pending write lands: its destinations are written and its flags ORed into VSTAT (R72, R156). -/
def Strand.landDest (t : Strand) : VDest → Strand
  | .v r x => t.setV r x
  | .k r x => t.setK r x
  | .s r x => t.setS r x

def Strand.land (t : Strand) (p : Pending) : Strand :=
  let t := p.dests.foldl Strand.landDest t
  { t with vstat := t.vstat ||| p.flags }

/-- The end of one engine cycle: every count falls by one, and what reaches 0 lands, the youngest last (R156). Its
instruction completes when its last write has landed (R157). (Log entry 13, DESIGN CHOICE, unsafe.) -/
def Strand.endCycle (t : Strand) : Strand :=
  let ps := t.pend.map (fun p => { p with n := p.n - 1 })
  let gone := ps.filter (fun p => p.n == 0)
  let rest := ps.filter (fun p => p.n != 0)
  let t := gone.foldl Strand.land { t with pend := rest }
  t.setQueue .V ((t.queue .V).map (fun e =>
    if e.stage == .started && gone.any (fun p => p.seq == e.seq) && e.work.writes.isEmpty then { e with stage := .done } else e))

/-- `k` engine cycles. -/
def Strand.endCycles (t : Strand) : Nat → Strand
  | 0 => t
  | k + 1 => (t.endCycle).endCycles k

/-- A load whose data has not arrived must land within the next `k` cycles: the count waits (R156). -/
def Strand.countBlocked (t : Strand) (k : Nat) : Bool := t.pend.any (fun p => !p.ready && decide (p.n ≤ k))

/-- The control core is held waiting for the vector engine: by VEXT, SRD or SWR of VSTAT, HALT, ERET or a BAR with DRN (R155). A FENCE
holds no dispatch (R231). (Log entry 26, DEDUCED, unsafe.) -/
def State.coreWaits (s : State) (n : StrandId) : Bool :=
  let t := s.strand n
  t.vextWait || (match s.nextOf n with
    | .run i _ => (match i with
      | .srdVstat m _ | .swrVstat m _ | .halt m | .eret m => t.holds m
      | .bar m imm => t.holds m && imm.getLsbD 4
      | _ => false)
    | _ => false)

end Sys2Proof.Machine
end

