-- ==== Sys2Proof/Machine/Vector.lean ====
section
/-! DEFINITION. What vector instructions compute (R150 to R179), as functions of the strand's registers at their start: each gives
the destinations that land at its latency, and its flags. -/

namespace Sys2Proof.Machine

/-! ### Lanes (R150, R151) -/

/-- The lanes of a register, as patterns of `w` bits. -/
def lanesOf (w : Nat) (x : BitVec 4096) : List Nat := unpackBits w (4096 / w) x.toNat

/-- A register from its lanes. -/
def ofLanes (w : Nat) (xs : List Nat) : BitVec 4096 := BitVec.ofNat 4096 (packBits w xs)

/-- The first `l` bits of an execution mask. -/
def maskList (k : BitVec 1024) (l : Nat) : List Bool := (List.range l).map (fun i => k.getLsbD i)

/-- Inactive lanes keep the old pattern, or are zero under ZM (R151). -/
def mergeLanes (zm : Bool) (mask : List Bool) (old new : List Nat) : List Nat :=
  (mask.zip (old.zip new)).map (fun x => if x.1 then x.2.2 else if zm then 0 else x.2.1)

/-- The flags of active lanes. -/
def activeFlags (mask : List Bool) (xs : List (Nat × VFlags)) : VFlags :=
  (mask.zip xs).foldl (fun f x => if x.1 then f ||| x.2.2 else f) 0

/-- What a vector instruction gives: its destinations and its flags. -/
abbrev VResult := List VDest × VFlags

/-- A register result, lane by lane under the execution mask. -/
def laneResult (t : Strand) (vd : VReg) (ty : Ty) (k : KReg) (zm : Bool) (xs : List (Nat × VFlags)) : VResult :=
  let mask := maskList (t.getK k) ty.lanes
  ([.v vd (ofLanes ty.width (mergeLanes zm mask (lanesOf ty.width (t.getV vd)) (xs.map (·.1))))], activeFlags mask xs)

def lanes1 (f : Nat → Nat × VFlags) (xs : List Nat) : List (Nat × VFlags) := xs.map f
def lanes2 (f : Nat → Nat → Nat × VFlags) (xs ys : List Nat) : List (Nat × VFlags) := (xs.zip ys).map (fun p => f p.1 p.2)
def lanes3 (f : Nat → Nat → Nat → Nat × VFlags) (xs ys zs : List Nat) : List (Nat × VFlags) :=
  (xs.zip (ys.zip zs)).map (fun p => f p.1 p.2.1 p.2.2)

def Strand.lanes (t : Strand) (ty : Ty) (v : VReg) : List Nat := lanesOf ty.width (t.getV v)

def vec1 (t : Strand) (vd va : VReg) (ty : Ty) (k : KReg) (zm : Bool) (f : Nat → Nat × VFlags) : VResult :=
  laneResult t vd ty k zm (lanes1 f (t.lanes ty va))
def vec2 (t : Strand) (vd va vb : VReg) (ty : Ty) (k : KReg) (zm : Bool) (f : Nat → Nat → Nat × VFlags) : VResult :=
  laneResult t vd ty k zm (lanes2 f (t.lanes ty va) (t.lanes ty vb))
def vec3 (t : Strand) (vd va vb vc : VReg) (ty : Ty) (k : KReg) (zm : Bool) (f : Nat → Nat → Nat → Nat × VFlags) : VResult :=
  laneResult t vd ty k zm (lanes3 f (t.lanes ty va) (t.lanes ty vb) (t.lanes ty vc))

/-! ### Arithmetic (R163) -/

/-- An operation on three values, rounded once or reduced. -/
def arith3 (ty : Ty) (rm : Rm) (sat : Bool) (fl : Num → Num → Num → Num × VFlags) (it : Int → Int → Int → Int)
    (x y z : Nat) : Nat × VFlags :=
  match ty.nfmt with
  | .flt f =>
    let (r, g) := fl (f.read x) (f.read y) (f.read z)
    let (r, h) := r.round f rm sat
    (f.write r, g ||| h)
  | .int w =>
    let (a, g1) := readInt w x
    let (b, g2) := readInt w y
    let (c, g3) := readInt w z
    let (r, h) := reduceInt w sat (it a b c)
    (r, g1 ||| g2 ||| g3 ||| h)

def arith2 (ty : Ty) (rm : Rm) (sat : Bool) (fl : Num → Num → Num × VFlags) (it : Int → Int → Int) (x y : Nat) : Nat × VFlags :=
  arith3 ty rm sat (fun a b _ => fl a b) (fun a b _ => it a b) x y 0

def laneAdd (a : Arith) (ty : Ty) : Nat → Nat → Nat × VFlags := arith2 ty a.rm a.sat (Num.add a.rm) (· + ·)
def laneSub (a : Arith) (ty : Ty) : Nat → Nat → Nat × VFlags :=
  arith2 ty a.rm a.sat (fun x y => Num.add a.rm x y.neg) (· - ·)
def laneMul (a : Arith) (ty : Ty) : Nat → Nat → Nat × VFlags := arith2 ty a.rm a.sat Num.mul (· * ·)
def laneFma (a : Arith) (ty : Ty) : Nat → Nat → Nat → Nat × VFlags :=
  arith3 ty a.rm a.sat (Num.mulAdd a.rm) (fun x y z => x * y + z)
def laneFms (a : Arith) (ty : Ty) : Nat → Nat → Nat → Nat × VFlags :=
  arith3 ty a.rm a.sat (fun x y z => Num.mulAdd a.rm x y z.neg) (fun x y z => x * y - z)

/-- VDIV; an integer TY is refused by the decoder. -/
def laneDiv (a : Arith) (ty : Ty) (x y : Nat) : Nat × VFlags :=
  match ty.nfmt with
  | .flt f => let (r, g) := Num.divRound f a.rm a.sat (f.read x) (f.read y); (f.write r, g)
  | .int _ => (0, 0)

/-- Maximum (`mx`) or minimum of two patterns (R57, R163). -/
def laneMinMax (mx : Bool) (ty : Ty) (u : Bool) (x y : Nat) : Nat × VFlags :=
  match ty.nfmt with
  | .flt f => (f.write (if mx then (f.read x).maxNum (f.read y) else (f.read x).minNum (f.read y)), 0)
  | .int w =>
    if u then (if mx then max x y else min x y, 0)
    else
      let (a, g1) := readInt w x
      let (b, g2) := readInt w y
      (intPattern w (if mx then max a b else min a b), g1 ||| g2)

/-- VABS and VNEG: a float changes its sign alone, and an integer is reduced under R58. -/
def laneSign (ty : Ty) (sat : Bool) (fl : Num → Num) (it : Int → Int) (x : Nat) : Nat × VFlags :=
  match ty.nfmt with
  | .flt f => (f.write (fl (f.read x)), 0)
  | .int w =>
    let (a, g) := readInt w x
    let (r, h) := reduceInt w sat (it a)
    (r, g ||| h)

/-! ### Logic and shifts (R164, R165) -/

/-- A pattern operation sets no flag (R153). -/
def pat2 (f : Nat → Nat → Nat) (x y : Nat) : Nat × VFlags := (f x y, 0)

/-- VSHL; a count past 64 gives what 64 gives at every width. -/
def laneShl (a : Arith) (ty : Ty) (x n : Nat) : Nat × VFlags :=
  let (v, g) := readInt ty.width x
  let (r, h) := reduceInt ty.width a.sat (v * 2 ^ min n 64)
  (r, g ||| h)

def laneShr (ty : Ty) (x n : Nat) : Nat := if ty.width ≤ n then 0 else x / 2 ^ n

def laneSar (ty : Ty) (x n : Nat) : Nat × VFlags :=
  let (v, g) := readInt ty.width x
  (intPattern ty.width (v / 2 ^ min n 64), g)

def laneFunnelL (ty : Ty) (x y n : Nat) : Nat :=
  let w := ty.width
  (x * 2 ^ w + y) * 2 ^ (n % w) / 2 ^ w % 2 ^ w

def laneFunnelR (ty : Ty) (x y n : Nat) : Nat :=
  let w := ty.width
  (x * 2 ^ w + y) / 2 ^ (n % w) % 2 ^ w

/-! ### Compares, select and masks (R166 to R168) -/

inductive Rel where | eq | ne | lt | le
  deriving DecidableEq, Repr

def Rel.num (r : Rel) (a b : Num) : Bool :=
  match r with
  | .eq => a.eqv b
  | .ne => !a.eqv b
  | .lt => a.lt b
  | .le => a.lt b || a.eqv b

def Rel.int (r : Rel) (a b : Int) : Bool :=
  match r with
  | .eq => decide (a = b)
  | .ne => decide (a ≠ b)
  | .lt => decide (a < b)
  | .le => decide (a ≤ b)

/-- A relation between two patterns, and the flags of reading them. -/
def laneCmp (r : Rel) (ty : Ty) (u : Bool) (x y : Nat) : Bool × VFlags :=
  match ty.nfmt with
  | .flt f => (r.num (f.read x) (f.read y), 0)
  | .int w =>
    if u then (r.int x y, 0)
    else
      let (a, g1) := readInt w x
      let (b, g2) := readInt w y
      (r.int a b, g1 ||| g2)

def maskOf (bs : List Bool) : BitVec 1024 := BitVec.ofNat 1024 (packBits 1 (bs.map Bool.toNat))

/-- A compare of R166. -/
def vecCmp (r : Rel) (a : Arith) (t : Strand) (kd : KReg) (va vb : VReg) (ty : Ty) (k : KReg) : VResult :=
  let mask := maskList (t.getK k) ty.lanes
  let old := maskList (t.getK kd) ty.lanes
  let rs := ((t.lanes ty va).zip (t.lanes ty vb)).map (fun p => laneCmp r ty a.bit31 p.1 p.2)
  let bits := (mask.zip (old.zip rs)).map (fun x => if x.1 then x.2.2.1 else (!a.bit30 && x.2.1))
  ([.k kd (maskOf bits)], (mask.zip rs).foldl (fun f x => if x.1 then f ||| x.2.2 else f) 0)

def vecSel (a : Arith) (t : Strand) (vd va vb : VReg) (kc : KReg) (ty : Ty) (k : KReg) : VResult :=
  let sel := maskList (t.getK kc) ty.lanes
  laneResult t vd ty k a.bit30 ((sel.zip ((t.lanes ty va).zip (t.lanes ty vb))).map
    (fun x => (if x.1 then x.2.1 else x.2.2, 0)))

def vecK (t : Strand) (kd ka kb : KReg) (f : BitVec 1024 → BitVec 1024 → BitVec 1024) : VResult :=
  ([.k kd (f (t.getK ka) (t.getK kb))], 0)

/-! ### Conversions (R59, R154, R169) -/

/-- A pattern of one type converted to another. -/
def laneCvt (a : Arith) (src dst : Ty) (x : Nat) : Nat × VFlags :=
  let (v, g) := src.nfmt.read x
  let (r, h) := convert dst.nfmt a.rm a.sat v
  (r, g ||| h)

def vecCvt (a : Arith) (t : Strand) (vd va : VReg) (tt ty : Ty) (k : KReg) : VResult :=
  laneResult t vd ty k a.bit30 (lanes1 (laneCvt a ty tt) (t.lanes ty va))

/-- Register `i` of a pair or quad (R154). -/
def regOf (v : VReg) (i : Nat) : VReg := Fin.ofNat 32 (v.val + i)

/-- Every `f`-th element of a list from `j` up. -/
def everyNth {α : Type} (f j : Nat) (xs : List α) : List α :=
  (xs.mapIdx (fun i x => (i, x))).filterMap (fun p => if p.1 % f = j then some p.2 else none)

def vecWid (a : Arith) (t : Strand) (vd va : VReg) (tt ty : Ty) (k : KReg) : VResult :=
  let f := tt.width / ty.width
  let mask := maskList (t.getK k) ty.lanes
  let xs := lanes1 (laneCvt a ty tt) (t.lanes ty va)
  ((List.range f).map (fun j =>
    let r := regOf vd j
    .v r (ofLanes tt.width (mergeLanes a.bit30 (everyNth f j mask) (lanesOf tt.width (t.getV r))
      ((everyNth f j xs).map (·.1))))), activeFlags mask xs)

/-- The lanes of a pair or quad in source order (R154). -/
def pairLanes (t : Strand) (va : VReg) (ty : Ty) (f : Nat) : List Nat :=
  let regs := (List.range f).map (fun j => t.lanes ty (regOf va j))
  ((List.range ty.lanes).map (fun i => regs.map (fun r => r.getD i 0))).flatten

def vecNar (a : Arith) (t : Strand) (vd va : VReg) (tt ty : Ty) (k : KReg) : VResult :=
  laneResult t vd tt k a.bit30 (lanes1 (laneCvt a ty tt) (pairLanes t va ty (ty.width / tt.width)))

/-! ### Moves and permutes (R170 to R174) -/

def vecBcst (t : Strand) (x : Word) (vd : VReg) (ty : Ty) (k : KReg) : VResult :=
  laneResult t vd ty k false (List.replicate ty.lanes (x.toNat % 2 ^ ty.width, 0))

/-- The scalar VEXT writes: sign-extended for the integer types (R171). -/
def vecExtValue (t : Strand) (va : VReg) (b : Word) (ty : Ty) : Word :=
  if ty.lanes ≤ b.toNat then 0
  else
    let p := (t.lanes ty va).getD b.toNat 0
    if ty.isFloat then word p else BitVec.ofInt 64 (signedOf ty.width p)

def vecPerm (t : Strand) (vd va vb : VReg) (ty : Ty) (k : KReg) : VResult :=
  let idx := (((List.range (permRegs ty)).map (fun j => lanesOf 16 (t.getV (regOf vb j)))).flatten).take ty.lanes
  let a := (t.lanes ty va).toArray
  laneResult t vd ty k false (idx.map (fun i => (if i < ty.lanes then a.getD i 0 else 0, 0)))

/-- The lane pattern of a VSHUF (R173). -/
def shuffle (p : Nat) (l : Nat) (a b : List Nat) : List Nat :=
  let h := l / 2
  match p with
  | 0 => ((a.take h).zip (b.take h)).flatMap (fun x => [x.1, x.2])
  | 1 => ((a.drop h).zip (b.drop h)).flatMap (fun x => [x.1, x.2])
  | 2 => everyNth 2 0 a ++ everyNth 2 0 b
  | _ => everyNth 2 1 a ++ everyNth 2 1 b

def vecShuf (t : Strand) (vd va vb : VReg) (p : BitVec 6) (ty : Ty) (k : KReg) : VResult :=
  laneResult t vd ty k false ((shuffle p.toNat ty.lanes (t.lanes ty va) (t.lanes ty vb)).map (fun x => (x, 0)))

def vecLrot (t : Strand) (vd va : VReg) (b : Word) (ty : Ty) (k : KReg) : VResult :=
  let xs := t.lanes ty va
  let r := (ty.lanes - b.toNat % ty.lanes) % ty.lanes
  laneResult t vd ty k false ((xs.drop r ++ xs.take r).map (fun x => (x, 0)))

/-! ### Reductions and scans (R63, R175 to R177) -/

/-- One level of the fixed tree: neighbours combined, an absent one passing the other through. -/
def treeLevel {α : Type} (f : α → α → α × VFlags) : List (Option α) → List (Option α) × VFlags
  | x :: y :: r =>
    let (rest, g) := treeLevel f r
    match x, y with
    | some a, some b => let (c, h) := f a b; (some c :: rest, h ||| g)
    | some a, none => (some a :: rest, g)
    | none, some b => (some b :: rest, g)
    | none, none => (none :: rest, g)
  | r => (r, 0)

/-- The tree over 2^k leaves: its root, and the flags of its nodes. -/
def tree {α : Type} (f : α → α → α × VFlags) : Nat → List (Option α) → Option α × VFlags
  | 0, xs => (xs.headD none, 0)
  | k + 1, xs =>
    let (ys, g) := treeLevel f xs
    let (r, h) := tree f k ys
    (r, g ||| h)

inductive RedOp where | sum | max | min
  deriving DecidableEq, Repr

/-- The identity of R63. -/
def redIdentity (op : RedOp) (ty : Ty) (u : Bool) : Nat :=
  match op, ty.nfmt with
  | .sum, _ => 0
  | .max, .flt f => f.write (if f.inf then .inf true else f.maxFinite true)
  | .min, .flt f => f.write (if f.inf then .inf false else f.maxFinite false)
  | .max, .int w => if u then 0 else intPattern w (intMin w)
  | .min, .int w => if u then 2 ^ w - 1 else intPattern w (intMax w)

/-- One reduction over 2^k lanes, absent ones none. -/
def reduce (op : RedOp) (a : Arith) (ty : Ty) (k : Nat) (xs : List (Option Nat)) : Nat × VFlags :=
  match ty.nfmt with
  | .flt f =>
    let leaf (p : Nat) : Num := if op != .sum && a.bit30 then (f.read p).abs else f.read p
    let node (x y : Num) : Num × VFlags :=
      match op with
      | .sum => let (z, g) := Num.add a.rm x y; let (z, h) := z.round f a.rm false; (z, g ||| h)
      | .max => (x.maxNum y, 0)
      | .min => (x.minNum y, 0)
    match tree node k (xs.map (·.map leaf)) with
    | (some r, g) => (f.write r, g)
    | (none, _) => (redIdentity op ty a.bit31, 0)
  | .int w =>
    let u := op != .sum && a.bit31
    let rd (p : Nat) : Int × VFlags := if u then ((p : Int), 0) else readInt w p
    let g : VFlags := xs.foldl (fun (f : VFlags) x => match x with
      | some p => f ||| (rd p).2
      | none => f) 0
    let node (x y : Int) : Int × VFlags :=
      match op with
      | .sum => (x + y, 0)
      | .max => (max x y, 0)
      | .min => (min x y, 0)
    match (tree node k (xs.map (·.map (fun p => (rd p).1)))).1 with
    | some r =>
      if op == .sum then let (p, h) := reduceInt w a.sat r; (p, g ||| h) else (intPattern w r, g)
    | none => (redIdentity op ty u, 0)

/-- A reduction within groups of 2^g lanes; `g` = log2 L is a reduction of the whole register. -/
def vecReduce (op : RedOp) (a : Arith) (t : Strand) (vd va : VReg) (g : Nat) (ty : Ty) (k : KReg) : VResult :=
  let mask := maskList (t.getK k) ty.lanes
  let xs := (mask.zip (t.lanes ty va)).map (fun x => if x.1 then some x.2 else none)
  let rs := (chunks (2 ^ g) (ty.lanes / 2 ^ g) xs).map (reduce op a ty g)
  ([.v vd (ofLanes ty.width (rs.map (·.1)))], orFlags rs)

/-- The prefix scan of R177 over floats: the running value, what is written, and the flags. -/
def scanFloat (mx : Bool) (f : FFmt) (rm : Rm) (ex : Bool) : Num → List (Bool × Nat) → List (Nat × VFlags)
  | _, [] => []
  | acc, (on, p) :: r =>
    if !on then (0, 0) :: scanFloat mx f rm ex acc r
    else
      let x := f.read p
      let (z, g) := if mx then (acc.maxNum x, 0)
        else (let (z, g) := Num.add rm acc x; let (z, h) := z.round f rm false; (z, g ||| h))
      (f.write (if ex then acc else z), g) :: scanFloat mx f rm ex z r

/-- The prefix scan over integers: exact inside, reduced when written. -/
def scanInt (mx : Bool) (w : Nat) (sat ex : Bool) : Int → List (Bool × Nat) → List (Nat × VFlags)
  | _, [] => []
  | acc, (on, p) :: r =>
    if !on then (0, 0) :: scanInt mx w sat ex acc r
    else
      let (x, g) := readInt w p
      let z := if mx then max acc x else acc + x
      let (o, h) := reduceInt w sat (if ex then acc else z)
      (o, g ||| h) :: scanInt mx w sat ex z r

def vecScan (mx : Bool) (a : Arith) (t : Strand) (vd va : VReg) (ty : Ty) (k : KReg) : VResult :=
  let xs := (maskList (t.getK k) ty.lanes).zip (t.lanes ty va)
  laneResult t vd ty k a.bit30 (match ty.nfmt with
    | .flt f => scanFloat mx f a.rm a.bit31 (if mx then f.read (redIdentity .max ty false) else .fin false 0 0) xs
    | .int w => scanInt mx w a.sat a.bit31 (if mx then intMin w else 0) xs)

/-! ### Transcendentals and quantisation (R66, R178, R179) -/

/-- A transcendental in one lane: its FP32 value, rounded with RM into a 16-bit type. -/
def laneTrans (f : Num → Num × VFlags) (a : Arith) (ty : Ty) (x : Nat) : Nat × VFlags :=
  match ty.nfmt with
  | .flt ff =>
    let (y, g) := f (ff.read x)
    (ff.write (y.round ff a.rm false).1, g)
  | .int _ => (0, 0)

/-- VQNT of R179: the elements into slice n of vd, the scale into lane n of vs. -/
def vecQnt (a : Arith) (t : Strand) (vd va vs : VReg) (slice : Nat) (ty : Ty) : VResult :=
  let (scale, els, g) := quantBlock ty.nfmt a.rm ((lanesOf 32 (t.getV va)).map fp32)
  let d := t.lanes ty vd
  let sc := lanesOf 32 (t.getV vs)
  ([.v vd (ofLanes ty.width (d.take (128 * slice) ++ els ++ d.drop (128 * slice + 128))),
    .v vs (ofLanes 32 (sc.set slice scale))], g)

end Sys2Proof.Machine
end

