-- ==== Sys2Proof/Machine/Matrix.lean ====
section
/-! DEFINITION. What matrix instructions compute (R42 to R46, R60 to R62, R198 to R207, R400), as functions of their operand tiles:
the first fault of R42, or the result tile, the repairs of R206 and the flags. Operand 0 is the top of the stack. -/

namespace Sys2Proof.Machine

/-! ### Checks (R42, R400) -/

/-- A header fault's report (R42). -/
def hdrTrap (c : BitVec 8) (sub opnd : Nat) : TrapInfo := ⟨c, 0, word (sub <<< 8 + opnd)⟩

/-- A condition: the operand it concerns, its sub-code, and whether it holds. -/
abbrev Cond := Nat × Nat × Bool

/-- The failing condition of a step (R42): the operand nearest the top. Where one operand fails two conditions of the step, the
sub-code is that of the first in the order that the instruction lists them, 0x03 before 0x02. (Log entry 74, DESIGN CHOICE, unsafe.) -/
def firstFail (cs : List Cond) : Option (Nat × Nat) :=
  (cs.filter (fun c => !c.2.2)).foldl (fun b c => match b with
    | none => some (c.1, c.2.1)
    | some x => if c.1 < x.1 then some (c.1, c.2.1) else some x) none

/-- Steps 2, 3 and 4 of R42. -/
def headerChecks (unsupported mismatch limits : List Cond) : Except TrapInfo Unit :=
  match firstFail unsupported with
  | some (o, sub) => .error (hdrTrap cHdrUnsupported sub o)
  | none =>
    match firstFail mismatch with
    | some (o, sub) => .error (hdrTrap cHdrMismatch sub o)
    | none =>
      match firstFail limits with
      | some (o, sub) => .error (hdrTrap cHdrUnsupported sub o)
      | none => .ok ()

/-- The operand number of a result or of the instruction's own fields. -/
def opResult : Nat := 15

/-! ### Parity (R206) -/

/-- The rows (columns) whose stored parity differs, with their syndromes. -/
def syndromes (x : Tile) : List (Nat × Nat) × List (Nat × Nat) :=
  let now := parityOf x.hdr.cols x.cells
  let diff := ((x.parity.zip now).mapIdx (fun i p => (i, p.1 ^^^ p.2))).filter (fun d => d.2 != 0)
  (diff.filter (fun d => d.1 < x.hdr.rows), (diff.filter (fun d => x.hdr.rows ≤ d.1)).map (fun d => (d.1 - x.hdr.rows, d.2)))

/-- CHECKSUM's report. -/
def checksumTrap (opnd ncol nrow : Nat) : TrapInfo := ⟨cChecksum, 0, word (opnd <<< 24 + ncol <<< 8 + nrow)⟩

/-- The check of R206: the tile, repaired where it can be, and how many repairs it took. -/
def parityCheck (opnd : Nat) (x : Tile) : Except TrapInfo (Tile × Nat) :=
  if x.hdr.fmt ≠ .acc56 then .ok (x, 0)
  else
    match syndromes x with
    | ([], []) => .ok (x, 0)
    | ([(r, a)], [(c, b)]) =>
      if a = b then
        .ok ({ x with cells := x.cells.mapIdx (fun i row => if i = r then row.mapIdx (fun j p => if j = c then p ^^^ a else p) else row) }, 1)
      else .error (checksumTrap opnd 1 1)
    | ([(r, a)], []) => .ok ({ x with parity := x.parity.mapIdx (fun i p => if i = r then p ^^^ a else p) }, 1)
    | ([], [(c, b)]) => .ok ({ x with parity := x.parity.mapIdx (fun i p => if i = x.hdr.rows + c then p ^^^ b else p) }, 1)
    | (rs, cs) => .error (checksumTrap opnd cs.length rs.length)

/-- What a matrix instruction does to the machine. -/
structure MOut where
  result : Option Tile
  fixed : List (Nat × Tile)
  repairs : Nat
  flags : VFlags
  deriving DecidableEq, Repr

/-- The operands named, parity-checked from the top down: the operands with their repairs, and the repairs made. -/
def checkOperands (which : List Nat) (ops : List Tile) : Except TrapInfo (List Tile × List (Nat × Tile) × Nat) :=
  which.foldlM (fun acc k =>
    match acc.1[k]? with
    | none => .ok acc
    | some x =>
      match parityCheck k x with
      | .error t => .error t
      | .ok (y, 0) => .ok (acc.1.set k y, acc.2.1, acc.2.2)
      | .ok (y, m) => .ok (acc.1.set k y, acc.2.1 ++ [(k, y)], acc.2.2 + m)) (ops, [], 0)

/-- Step 5 of R42 on one operand. -/
def groupCheck (k : Nat) (x : Tile) : Except TrapInfo Unit :=
  if x.groupsOk then .ok () else .error (hdrTrap cHdrMismatch 5 k)

/-! ### Product sums (R61) -/

/-- The exact sum of terms; none and an absent term contribute +0. NaN and infinities as the 8-bit and 4-bit families have
them: a NaN factor gives NaN without a flag, infinity times zero or infinities of both signs give NaN with INV. -/
def exactSum (xs : List (Num × VFlags)) : Num × VFlags :=
  if xs.any (fun x => x.1.isNan && x.2 &&& fINV == 0) then (.nan, 0)
  else if xs.any (fun x => x.2 &&& fINV != 0) || (xs.any (fun x => x.1 == .inf true) && xs.any (fun x => x.1 == .inf false)) then
    (.nan, fINV)
  else match xs with
    | [] => (.fin false 0 0, 0)
    | x :: r => (r.foldl (fun a y => (a.add .rne y.1).1) x.1, 0)

/-- A node of the seven-level tree. -/
def node56 (x y : Num) : Num × VFlags :=
  let (z, g) := Num.add .rne x y
  let (z, h) := round56 z
  (z, g ||| h)

/-- acc + q rounded once. -/
def addRound56 (acc q : Num) : Num × VFlags := node56 acc q

/-- The factors of one chunk: an absent position of b forms no product with a, so that an INT4 element of a there is not read and
sets no I4R. R61 does not say it. (Log entry 66, DESIGN CHOICE, unsafe.) -/
abbrev Factors := List (Option ((Num × VFlags) × (Num × VFlags)))

/-- The products of a chunk, and the flags of reading the factors. -/
def products (fs : Factors) : List (Num × VFlags) × VFlags :=
  (fs.map (fun f => match f with
    | some (a, b) => a.1.mul b.1
    | none => (.fin false 0 0, 0)),
   fs.foldl (fun g f => match f with
    | some (a, b) => g ||| a.2 ||| b.2
    | none => g) 0)

/-- One chunk added in the 8-bit and 4-bit families in float mode. R61 leaves two points open, which the model settles: a product of
integer elements of which one is negative and the other 0 is -0, as a float product's sign is, and q · scale_a is formed before
· scale_b, so that infinity times zero there sets INV even where scale_b is NaN. (Log entry 66, DESIGN CHOICE, unsafe.) -/
def chunkNarrow (acc : Num) (fs : Factors) (sa sb : Num) : Num × VFlags :=
  let (ps, g0) := products fs
  let (q, g1) := exactSum ps
  let (q, g2) := q.mul sa
  let (q, g3) := q.mul sb
  let (r, g4) := addRound56 acc q
  (r, g0 ||| g1 ||| g2 ||| g3 ||| g4)

/-- One chunk added in the BF16, FP16 and FP32 families. -/
def chunkWide (acc : Num) (fs : Factors) : Num × VFlags :=
  let (ps, g0) := products fs
  let g1 := orFlags ps
  let leaves := (List.range 128).map (fun i => some ((ps.map (·.1)).getD i (.fin false 0 0)))
  let (t, g2) := tree node56 7 leaves
  let (r, g3) := addRound56 acc (t.getD (.fin false 0 0))
  (r, g0 ||| g1 ||| g2 ||| g3)

/-- One chunk added in integer mode. -/
def chunkInt (acc : Int) (fs : Factors) : Int × VFlags :=
  let (ps, g0) := products fs
  let q := (ps.map (fun p => p.1.toInt)).foldl (· + ·) 0
  let (r, g1) := sat56 (acc + q)
  (r, g0 ||| g1)

/-- A row's unscaled elements, with the flags of reading them; none where sparsity makes one absent. -/
def Tile.elems (x : Tile) (r : Nat) : List (Option (Num × VFlags)) :=
  (x.logicalRow r).map (fun p => p.map (x.hdr.fmt.nfmt x.hdr.acci).read)

/-- The factors of a cell, chunk by chunk. -/
def cellFactors (a b : List (Option (Num × VFlags))) (k : Nat) : List Factors :=
  chunks 128 (ceilDiv k 128) ((a.zip b).map (fun p => match p.1, p.2 with
    | some x, some y => some (x, y)
    | _, _ => none))

/-- One cell of MMA or MMAC from its accumulator's start (R61). -/
def mmaCell (acci narrow : Bool) (start : Nat) (fs : List Factors) (sa sb : Nat → Num) : Nat × VFlags :=
  if acci then
    let (a0, g0) := readInt 56 start
    let (r, g) := fs.foldl (fun acc f => let (x, h) := chunkInt acc.1 f; (x, acc.2 ||| h)) (a0, g0)
    (intPattern 56 r, g)
  else
    let (r, g) := (fs.mapIdx (fun j f => (j, f))).foldl (fun (acc : Num × VFlags) jf =>
      let (x, h) := if narrow then chunkNarrow acc.1 jf.2 (sa jf.1) (sb jf.1) else chunkWide acc.1 jf.2
      (x, acc.2 ||| h)) (FFmt.acc56.read start, 0)
    (FFmt.acc56.write r, g)

/-- A header with nothing but a format, a shape and a mode (R44). -/
def plainHeader (fmt : Fmt) (rows cols : Nat) (acci : Bool) : Header := ⟨fmt, .none, .dense, rows, cols, acci, 0⟩

/-- Both operands are integer-valued (R44's acci). -/
def bothInt (a b : Header) : Bool := a.intValued && b.intValued

/-- The conditions on a and b of MMA (R43, R44). -/
def mmaConds (a b : Header) : List Cond :=
  [(0, 1, b.fmt.family.isSome), (1, 1, a.fmt.family.isSome),
   (1, 1, a.fmt.family == b.fmt.family || a.fmt.family.isNone || b.fmt.family.isNone),
   (1, 3, a.spn == .dense), (1, 2, a.scl != .block), (0, 2, b.scl != .row)]

/-- MMA, or MMAC when `acc` is its accumulator (R46, R61, R199). -/
def mmaCells (a b : Tile) (acc : Option Tile) : List (List (Nat × VFlags)) :=
  let acci := bothInt a.hdr b.hdr
  let narrow := a.hdr.fmt.isNarrow
  let rowsB := (List.range b.hdr.rows).map b.elems
  (List.range a.hdr.rows).map (fun m =>
    let ra := a.elems m
    rowsB.mapIdx (fun n rb =>
      mmaCell acci narrow ((acc.map (fun c => (c.cells.getD m []).getD n 0)).getD 0) (cellFactors ra rb a.hdr.cols)
        (fun j => a.scaleAt m (128 * j)) (fun j => b.scaleAt n (128 * j))))

/-- A tile from cells with flags. -/
def flaggedTile (h : Header) (cells : List (List (Nat × VFlags))) : Tile × VFlags :=
  (Tile.ofCells h (cells.map (fun r => r.map (·.1))), orFlags (cells.map (fun r => ((), orFlags r))))

def runMma (ops : List Tile) : Except TrapInfo MOut :=
  match ops with
  | [b, a] => do
    headerChecks (mmaConds a.hdr b.hdr) [(1, 1, a.hdr.cols == b.hdr.cols)] []
    groupCheck 0 b
    let (x, g) := flaggedTile (plainHeader .acc56 a.hdr.rows b.hdr.rows (bothInt a.hdr b.hdr)) (mmaCells a b none)
    .ok ⟨some x, [], 0, g⟩
  | _ => .ok ⟨none, [], 0, 0⟩

def runMmac (ops : List Tile) : Except TrapInfo MOut :=
  match ops with
  | [b, a, c] => do
    let acci := bothInt a.hdr b.hdr
    headerChecks (mmaConds a.hdr b.hdr ++ [(2, 1, c.hdr.fmt == .acc56), (2, 4, c.hdr.acci == acci)])
      [(1, 1, a.hdr.cols == b.hdr.cols), (2, 3, c.hdr.rows == a.hdr.rows && c.hdr.cols == b.hdr.rows)] []
    let (ops, fixed, k) ← checkOperands [2] ops
    let c := ops.getD 2 c
    groupCheck 0 b
    if a.hdr.cols = 0 then .ok ⟨some c, fixed, k, 0⟩
    else
      let (x, g) := flaggedTile (plainHeader .acc56 a.hdr.rows b.hdr.rows acci) (mmaCells a b (some c))
      .ok ⟨some x, fixed, k, g⟩
  | _ => .ok ⟨none, [], 0, 0⟩

/-! ### Elementwise instructions (R62, R200) -/

/-- One exact result rounded once into the result format, or reduced (R58, R62). -/
def roundCell (h : Header) (a : Arith) (x : Num × VFlags) : Nat × VFlags :=
  match h.fmt.nfmt h.acci with
  | .flt f => let (y, g) := x.1.round f a.rm a.sat; (f.write y, x.2 ||| g)
  | .int w => let (p, g) := reduceInt w a.sat x.1.toInt; (p, x.2 ||| g)

/-- MADD, MSUB and MMUL over a function of two exact inputs. -/
def runElementwise (a : Arith) (f : Num → Num → Num × VFlags) (ops : List Tile) : Except TrapInfo MOut :=
  match ops with
  | [y, x] => do
    headerChecks [(1, 3, x.hdr.spn == .dense), (0, 3, y.hdr.spn == .dense)]
      [(1, 2, x.hdr.rows == y.hdr.rows && x.hdr.cols == y.hdr.cols)] []
    let (ops, fixed, k) ← checkOperands [0, 1] ops
    let y := ops.getD 0 y
    let x := ops.getD 1 x
    let wide := wideFmt x.hdr y.hdr
    let h := plainHeader wide x.hdr.rows x.hdr.cols (wide == .acc56 && bothInt x.hdr y.hdr)
    let (r, g) := flaggedTile h ((x.inputs.zip y.inputs).map (fun p => (p.1.zip p.2).map (fun q =>
      let (z, g) := f q.1.1 q.2.1
      roundCell h a (z, q.1.2 ||| q.2.2 ||| g))))
    .ok ⟨some r, fixed, k, g⟩
  | _ => .ok ⟨none, [], 0, 0⟩

/-- A matrix instruction of one tile, once its header passes: its parity checked, then its result. -/
def runOne (ops : List Tile) (checks : Header → Except TrapInfo Unit) (f : Tile → Except TrapInfo (Option Tile × VFlags)) :
    Except TrapInfo MOut :=
  match ops with
  | [x] => do
    checks x.hdr
    let (ops, fixed, k) ← checkOperands [0] ops
    let (r, g) ← f (ops.getD 0 x)
    .ok ⟨r, fixed, k, g⟩
  | _ => .ok ⟨none, [], 0, 0⟩

def runMscal (a : Arith) (f : Word) (ops : List Tile) : Except TrapInfo MOut :=
  runOne ops (fun h => headerChecks [(0, 3, h.spn == .dense)] [] []) (fun x =>
    let h := plainHeader (if x.hdr.fmt = .acc56 then .acc56 else .fp32) x.hdr.rows x.hdr.cols false
    let s := fp32 (bits f.toNat 0 32)
    let (r, g) := flaggedTile h (x.inputs.map (fun row => row.map (fun p =>
      let (z, g) := p.1.mul s
      roundCell h a (z, p.2 ||| g))))
    .ok (some r, g))

/-! ### Conversion (R201) -/

/-- The blocks of a target scale layout, in scale order (R31): row and column of each element. -/
def sclBlocks (h : Header) : List (List (Nat × Nat)) :=
  let cols (g : Nat) : List Nat := (List.range h.cols).filter (fun c => c / 128 == g)
  match h.scl with
  | .none => []
  | .tensor => [((List.range h.rows).map (fun r => (List.range h.cols).map (fun c => (r, c)))).flatten]
  | .row => ((List.range h.rows).map (fun r => (List.range h.colGroups).map (fun g => (cols g).map (fun c => (r, c))))).flatten
  | .block => if h.rows = 0 then []
    else (List.range h.colGroups).map (fun g => ((List.range h.rows).map (fun r => (cols g).map (fun c => (r, c)))).flatten)

/-- A quantised tile: its cells, its scales and its flags. -/
def quantTile (h : Header) (rm : Rm) (xs : List (List (Num × VFlags))) : Tile × VFlags :=
  let arr := (xs.map (·.toArray)).toArray
  let blocks := (sclBlocks h).map (fun b => (b, quantBlock (h.fmt.nfmt false) rm (b.map (fun p => ((arr.getD p.1 #[]).getD p.2 (.nan, 0)).1))))
  let cells := (List.range h.rows).map (fun r => (List.range h.cols).map (fun c =>
    ((blocks.findSome? (fun b => ((b.1.zip b.2.2.1).find? (fun e => e.1 == (r, c))).map (·.2)))).getD 0))
  ({ Tile.ofCells h cells with scales := blocks.map (fun b => b.2.1) },
   orFlags (blocks.map (fun b => ((), b.2.2.2))) ||| orFlags (xs.map (fun r => ((), orFlags r))))

def runMcvt (a : Arith) (fmt : Fmt) (scl : Scl) (ops : List Tile) : Except TrapInfo MOut :=
  runOne ops (fun h => headerChecks [(opResult, 2, scl == .none || fmt.isNarrow)] []
      [(opResult, 5, fmt != .acc56 || h.cols ≤ 128)]) (fun x => do
    groupCheck 0 x
    let h : Header := ⟨fmt, scl, .dense, x.hdr.rows, x.hdr.cols, fmt == .acc56 && x.hdr.intValued, 0⟩
    if scl = .none then
      let (r, g) := flaggedTile h (x.inputs.map (fun row => row.map (fun p =>
        let (q, g) := convert (fmt.nfmt h.acci) a.rm a.sat p.1
        (q, p.2 ||| g))))
      .ok (some r, g)
    else
      let (r, g) := quantTile h a.rm x.inputs
      .ok (some r, g))

/-! ### Tiles without arithmetic, and sparsity (R202, R203) -/

/-- The transpose of a list of rows with `cols` columns. -/
def transpose (cols : Nat) (cells : List (List Nat)) : List (List Nat) :=
  (List.range cols).map (fun c => cells.map (fun r => r.getD c 0))

def runMtrn (ops : List Tile) : Except TrapInfo MOut :=
  runOne ops (fun h => headerChecks [(0, 3, h.spn == .dense), (0, 2, h.scl != .row)] [] [(opResult, 5, h.cols ≤ 128)]) (fun x =>
    .ok (some { hdr := ⟨x.hdr.fmt, x.hdr.scl, .dense, x.hdr.cols, x.hdr.rows, x.hdr.acci, 0⟩,
                cells := transpose x.hdr.cols x.cells, scales := x.scales, groups := [],
                parity := x.parity.drop x.hdr.rows ++ x.parity.take x.hdr.rows }, 0))

/-- MZERO, whose header comes from its own fields. -/
def runMzero (fmt : Fmt) (sx : Word) (acci : BitVec 6) : Except TrapInfo MOut :=
  let h := plainHeader fmt (shapeRows sx) (shapeCols sx) (acci == 1)
  if h.valid then .ok ⟨some (Tile.zero h), [], 0, 0⟩ else .error (hdrTrap cHdrUnsupported 5 opResult)

def runMhdr (u : Word) (ops : List Tile) : Except TrapInfo MOut :=
  runOne ops (fun _ => .ok ()) (fun x => .ok (some { x with hdr := { x.hdr with user := u } }, 0))

/-- The magnitude order of R203: a NaN above every number. -/
def magAbove (x y : Num) : Bool :=
  match x, y with
  | .nan, .nan => false
  | .nan, _ => true
  | _, .nan => false
  | x, y => y.abs.lt x.abs

/-- The `k` columns of a group that are kept, ascending: a column is kept when fewer than `k` rank before it. -/
def keptCols (k : Nat) (xs : List Num) : List Nat :=
  let ix := xs.mapIdx (fun i x => (i, x))
  (ix.filter (fun p => decide ((ix.filter (fun q => magAbove q.2 p.2 || (!magAbove p.2 q.2 && decide (q.1 < p.1)))).length < k))).map (·.1)

/-- One row made sparse: its kept cells and its group entries. -/
def sparseRow (spn : Spn) (cells : List Nat) (vals : List Num) : List Nat × List Nat :=
  let gs := (chunks 48 (cells.length / 48) cells).zip (chunks 48 (cells.length / 48) vals)
  let picks := gs.map (fun g => (keptCols spn.kept g.2, g.1))
  ((picks.map (fun p => p.1.map (fun c => p.2.getD c 0))).flatten, picks.map (fun p => packBits 6 p.1))

def runMspar (spn : Spn) (ops : List Tile) : Except TrapInfo MOut :=
  runOne ops (fun h => headerChecks [(0, 3, h.spn == .dense), (0, 1, h.fmt != .int32 && h.fmt != .acc56)]
      [(0, 6, h.cols % 48 == 0)] []) (fun x =>
    let rows := (x.cells.zip x.inputs).map (fun r => sparseRow spn r.1 (r.2.map (·.1)))
    .ok (some { hdr := { x.hdr with spn := spn, user := 0 }, cells := rows.map (·.1), scales := x.scales,
                groups := rows.map (·.2), parity := [] }, orFlags (x.inputs.map (fun r => ((), orFlags r)))))

/-! ### Row sums and the parity check (R204, R207) -/

/-- The sum of one row (R204). -/
def rowSum (acci narrow : Bool) (xs : List (Num × VFlags)) : Nat × VFlags :=
  let cs := chunks 128 (ceilDiv xs.length 128) xs
  if acci then
    let (r, g) := cs.foldl (fun (acc : Int × VFlags) c =>
      let (v, h) := sat56 (acc.1 + (c.map (fun p => p.1.toInt)).foldl (· + ·) 0)
      (v, acc.2 ||| h ||| orFlags c)) (0, 0)
    (intPattern 56 r, g)
  else
    let (r, g) := cs.foldl (fun (acc : Num × VFlags) c =>
      let (q, h) := if narrow then exactSum c
        else
          let (t, h) := tree node56 7 ((List.range 128).map (fun i => some ((c.map (·.1)).getD i (.fin false 0 0))))
          (t.getD (.fin false 0 0), h)
      let (v, h') := addRound56 acc.1 q
      (v, acc.2 ||| h ||| h' ||| orFlags c)) (Num.fin false 0 0, 0)
    (FFmt.acc56.write r, g)

def runMrsum (ops : List Tile) : Except TrapInfo MOut :=
  runOne ops (fun h => headerChecks [(0, 3, h.spn == .dense)] [] []) (fun x =>
    let (r, g) := flaggedTile (plainHeader .acc56 x.hdr.rows 1 x.hdr.intValued)
      (x.inputs.map (fun row => [rowSum x.hdr.intValued x.hdr.fmt.isNarrow row]))
    .ok (some r, g))

def runMchk (ops : List Tile) : Except TrapInfo MOut :=
  runOne ops (fun h => headerChecks [(0, 1, h.fmt == .acc56)] [] []) (fun _ => .ok (none, 0))

/-- Array cycles of a command (R3, R198). -/
def arrayCycles (i : Instr) (ops : List Tile) (result : Option Tile) : Nat :=
  let kOf (a b : Header) : Nat :=
    match a.fmt, b.fmt with
    | .int4, .int4 => 16
    | .fp32, _ => 1
    | .bf16, _ => 4
    | .fp16, _ => 4
    | _, _ => 8
  let mma (a b : Header) : Nat :=
    if a.cols = 0 then 1 else ceilDiv a.cols (if b.spn = .dense ∨ b.spn = .n32 then kOf a b else 2 * kOf a b)
  match i, ops with
  | .mma _, [b, a] => mma a.hdr b.hdr
  | .mmac _, [b, a, _] => mma a.hdr b.hdr
  | .mchk _, [x] => max 1 x.hdr.rows
  | _, _ => max 1 ((result.map (fun t => t.hdr.rows)).getD 0)

end Sys2Proof.Machine
end

