-- ==== Sys2Proof/Machine/TileIo.lean ====
section
/-! DEFINITION. Tile loads and stores, and the tile builder (R39 to R42, R89, R185, R189 to R197, R384): dispatch of their
instructions, what their start checks, and the phases of a load. -/

namespace Sys2Proof.Machine

/-! ### Operand tiles -/

/-- The slot of a tile identity in the backing region (R87). -/
def slotAddress (t : Strand) (id : Nat) : Word := t.stkbase + word (id * 2 ^ 18)

/-- What a tile read of a failed tile raises (R40, R89, R384). -/
def failTrap (t : Strand) (id opnd : Nat) : TileFail → TrapInfo
  | .header sub => hdrTrap cHdrIntegrity sub opnd
  | .store => ⟨cMemUe, 0, 1⟩
  | .slot => ⟨cMemUe, slotAddress t id, 1⟩

/-- What reading a tile raises before its own checks: its failure, or a header that breaks R33 (step 1 of R42). -/
def TileRec.readTrap (t : Strand) (r : TileRec) (opnd : Nat) : Option TrapInfo :=
  match r.failed, r.hdr.bind Header.badSub with
  | some f, _ => some (failTrap t r.id opnd f)
  | none, some sub => some (hdrTrap cHdrIntegrity sub opnd)
  | none, none => none

/-- The operand tiles of an entry, the top first, or the fault of the first that cannot be read. -/
def Strand.operands (t : Strand) (e : QEntry) : Except TrapInfo (List Tile) :=
  (e.tiles.mapIdx (fun k id => (k, id))).foldr (fun p acc =>
    match t.tile? p.2 with
    | none => acc
    | some r =>
      match r.readTrap t p.1 with
      | some tr => .error tr
      | none =>
        match acc, r.tile with
        | .ok xs, some x => .ok (x :: xs)
        | acc, _ => acc) (.ok [])

/-- Repairs of R206 made in the tile store, and counted, once for a tile that the instruction names twice (R206, R382). -/
def State.repair (s : State) (n : StrandId) (e : QEntry) (fixed : List (Nat × Tile)) (k : Nat) : State :=
  let s := fixed.foldl (fun s f => match e.tiles[f.1]? with
    | some id => s.modStrand n (fun t => t.modTile id (fun r => { r with tile := some f.2 }))
    | none => s) s
  let once := ((fixed.filterMap (fun f => e.tiles[f.1]?)).eraseDups).length
  (List.range (min k once)).foldl (fun s _ => s.correctedError 0) s

/-! ### Dispatch -/

def execTld (m : Mods) (mm : MemMod) (sa : SReg) (s : State) : Out :=
  queuedPlain m ⟨.L, [sa], 0, 0, true, 1⟩ (.tld m mm sa) (s.ownCheck .load) s
def execTldh (m : Mods) (mm : MemMod) (sh so sx : SReg) (s : State) : Out :=
  queuedPlain m ⟨.L, [sh, so, sx], 0, 0, true, 1⟩ (.tldh m mm sh so sx) (s.ownCheck .load) s
def execTldr (m : Mods) (mm : MemMod) (fmt : Fmt) (sa sx sp : SReg) (s : State) : Out :=
  queuedPlain m ⟨.L, [sa, sx, sp], 0, 0, true, 1⟩ (.tldr m mm fmt sa sx sp) (s.ownCheck .load) s
def execTst (m : Mods) (mm : MemMod) (sa : SReg) (s : State) : Out :=
  queuedPlain m ⟨.S, [sa], 1, 1, false, 0⟩ (.tst m mm sa) (s.ownCheck .store) s
def execTstk (m : Mods) (mm : MemMod) (sa : SReg) (s : State) : Out :=
  queuedPlain m ⟨.S, [sa], 1, 0, false, 0⟩ (.tstk m mm sa) (s.ownCheck .store) s

/-- The tile-builder conditions of R195. -/
def whenOpen (t : Strand) : Option TrapInfo := if t.openId.isSome then some (plainTrap cIllegal) else none
def whenClosed (t : Strand) : Option TrapInfo := if t.openId.isNone then some (plainTrap cIllegal) else none
def whenTopOpen (t : Strand) : Option TrapInfo :=
  if !t.image.isEmpty && t.openId == some (t.atDepth 0) then some (plainTrap cIllegal) else none

def execTbeg (m : Mods) (fmt : Fmt) (sx : SReg) (s : State) : Out :=
  queued m ⟨.V, [sx], 0, 0, true, 3⟩ (.tbeg m fmt sx) none whenOpen (fun t _ ids => { t with openId := ids.head? }) s
def execTrow (m : Mods) (a : Arith) (va : VReg) (ty : Ty) (s : State) : Out :=
  queued m ⟨.V, [], 0, 0, false, 0⟩ (.trow m a va ty) none whenClosed (fun t _ _ => t) s
def execTend (m : Mods) (s : State) : Out :=
  queued m ⟨.V, [], 0, 0, false, 0⟩ (.tend m) none whenClosed (fun t _ _ => { t with openId := none }) s
def execTrv (m : Mods) (a : Arith) (vd : VReg) (sr sc : SReg) (ty : Ty) (s : State) : Out :=
  queued m ⟨.V, [sr, sc], 1, 0, false, 0⟩ (.trv m a vd sr sc ty) none whenTopOpen (fun t _ _ => t) s
def execTcv (m : Mods) (a : Arith) (vd : VReg) (sc : SReg) (ty : Ty) (s : State) : Out :=
  queued m ⟨.V, [sc], 1, 0, false, 0⟩ (.tcv m a vd sc ty) none whenTopOpen (fun t _ _ => t) s

/-! ### Tile loads (R189 to R193) -/

def QEntry.scalar (e : QEntry) (i : Nat) : Word := e.scalars.getD i 0

/-- A header fault of an image or of a load's own fields: operand 0xF, with the image's address (R42, R400). -/
def imageTrap (c : BitVec 8) (a : Word) (sub : Nat) : TrapInfo := ⟨c, a, word (sub <<< 8 + opResult)⟩

/-- A load-engine fault with row progress (R192). -/
def progressTrap (pv : Bool) (prog : Nat) (t : TrapInfo) : TrapInfo :=
  if t.cause = cTranslation ∨ t.cause = cPermission ∨ t.cause = cBounds then { t with info := word (pv.toNat <<< 15 + prog) }
  else t

def progressErr (pv : Bool) (prog : Nat) : AccErr → AccErr
  | .trap t => .trap (progressTrap pv prog t)
  | .bad t l w => .bad t l w
  | .want pa => .want pa

/-- The shape record's template with a good HCRC, so that every sub-code but 0x01 of R33 decides (R190). -/
def parseTemplate (w : Nat) : Except Nat (Header × Offsets) :=
  let body := ((natBytes 8 w).drop 2) ++ List.replicate 24 0
  parseHeader (natBytes 2 (crc16 body).toNat ++ body)

/-- Where a load's payload rows and its trailing areas lie: a row's address, and each area's address and length. -/
structure LoadPlan where
  row : Nat → Word
  tail : List (Word × Nat)

/-- The column and row origins of TLDH. -/
def origin (o : Word) : Nat × Nat := (bits o.toNat 0 32, bits o.toNat 32 32)

/-- The load plan of a started load under its header (R189 to R191). A sparse template's payload starts at its group's kept
elements, as R34 lays them, and not at the address that the formula of R190 gives a dense one. (Log entry 67, DEDUCED, unsafe.) -/
def QEntry.loadPlan (e : QEntry) (h : Header) : LoadPlan :=
  match e.instr with
  | .tld _ _ _ =>
    let a := e.scalar 0
    let o := e.work.offs.getD ⟨0, 0, 0, 0⟩
    ⟨fun r => a + word (32 + r * o.pitch),
     [(a + word o.scoff, 4 * h.scaleCount), (a + word o.mdoff, h.metaBytes), (a + word o.paoff, h.parityBytes)]⟩
  | .tldh _ _ _ _ _ =>
    let r : Shape := e.work.nums
    let (c0, r0) := origin (e.scalar 1)
    let first := if h.spn = .dense then c0 * h.fmt.cellBits / 8 else c0 / 48 * h.spn.kept * h.fmt.cellBits / 8
    let g := ceilDiv (Shape.extent r 0) 128
    let scales := word (Shape.w64 r 0x78)
    let groups := Shape.extent r 0 / 48
    ⟨fun i => word (Shape.w64 r 0) + e.scalar 2 + word ((r0 + i) * Shape.stride r 1 + first),
     (match h.scl with
       | .none => []
       | .tensor => [(scales, 4)]
       | .row => (List.range h.rows).map (fun i => (scales + word (4 * ((r0 + i) * g + c0 / 128)), 4 * h.colGroups))
       | .block => [(scales + word (4 * (r0 / 128 * g + c0 / 128)), 4 * h.scaleCount)]) ++
     (if h.spn = .dense then []
      else (List.range h.rows).map (fun i =>
        (word (Shape.w64 r 0x80) + word (((r0 + i) * groups + c0 / 48) * h.groupBytes), h.cols / 48 * h.groupBytes)))⟩
  | _ => ⟨fun i => e.scalar 0 + word i * e.scalar 2, []⟩

/-- The units of several ranges in order. -/
def State.unitsOf (s : State) (n : StrandId) (p : Option Permit) (need : Need) : List (Word × Nat) → Except AccErr (List Unit8)
  | [] => .ok []
  | (a, len) :: r =>
    match s.units n p need a len with
    | .error e => .error e
    | .ok us =>
      match s.unitsOf n p need r with
      | .error e => .error e
      | .ok vs => .ok (us ++ vs)

/-- The entry with its next reads to make. -/
def QEntry.reading (e : QEntry) (phase : Nat) (us : List Unit8) : QEntry :=
  { e with work := { e.work with phase := phase, reads := unitReads us, got := [] } }

/-- A load with its last row has no fault of its own to come (R188), but for an ACC56 image's parity (R205). -/
def QEntry.rowsPass (e : QEntry) (h : Header) : Bool :=
  match e.instr with
  | .tld _ _ _ => h.fmt != .acc56
  | _ => true

/-- The next payload row of a load, or its trailing areas once every row is there (R189, R192). An address from a TLDH's shape record
that lies in a window is decoded there, as a TLD's is; "never decode an aperture directly" (R25) is read of the handle itself.
(Log entry 67, DEDUCED, unsafe.) -/
def loadNext (s : State) (n : StrandId) (e : QEntry) (h : Header) : Start :=
  let k := e.work.rows.length
  let pl := e.loadPlan h
  let (phase, ranges) := if k < h.rows then (1, [(pl.row k, h.rowBytes)]) else (2, pl.tail)
  match s.unitsOf n e.permit .read ranges with
  | .error x => accErrStart s n e (progressErr true k x)
  | .ok us => .go (s.noteUnits us) { (e.reading phase us) with passed := e.passed || (phase == 2 && e.rowsPass h) }

/-- A load whose header is checked: its space is reserved and its result's header fixed (R80, R85). -/
def loadBegin (s : State) (n : StrandId) (e : QEntry) (h : Header) (o : Offsets) (nums : List Nat) : Start :=
  if !s.hasSpace n h.space then .space h.space
  else
    let s := s.modStrand n (fun t => t.setHeader (e.results.headD 0) h)
    loadNext s n { e with work := { e.work with hdr := some h, offs := some o, rows := [], nums := nums } } h

/-- A load that continues a kept one goes on at its next row (R193). -/
def loadResume (s : State) (n : StrandId) (e : QEntry) (k : Kept) : Start :=
  loadNext s n { e with work := { e.work with hdr := some k.hdr, offs := some k.offs, rows := k.rows, nums := k.nums } } k.hdr

/-- TLD starts. R36, R189 and R191 state no TADDR for the ALIGN of a load's address; that it is the address is the model's choice, for
TLDR too. (Log entry 76, DESIGN CHOICE, unsafe.) -/
def tldStart (s : State) (n : StrandId) (e : QEntry) : Start :=
  match e.keptLoad with
  | some k => loadResume s n e k
  | none =>
    let a := e.scalar 0
    if a.toNat % 32 ≠ 0 then .fault (addrTrap cAlign a) s
    else match s.units n e.permit .read a 32 with
      | .error x => accErrStart s n e (progressErr false 0 x)
      | .ok us => .go (s.noteUnits us) (e.reading 0 us)

def tldhStart (s : State) (n : StrandId) (e : QEntry) : Start :=
  match e.keptLoad with
  | some k => loadResume s n e k
  | none =>
    let h := e.scalar 0
    let c := s.curCtx n
    if c.htlen ≤ handleSlot h then .fault (addrTrap cBounds h) s
    else match s.units n e.permit .read (c.slotAddr h) 256 with
      | .error x => accErrStart s n e (progressErr false 0 x)
      | .ok us => .go (s.noteUnits us) (e.reading 0 us)

/-- TLDR starts. Its ALIGN gives the address in TADDR, as TLD's does. (Log entry 76, DESIGN CHOICE, unsafe.) -/
def tldrStart (fmt : Fmt) (s : State) (n : StrandId) (e : QEntry) : Start :=
  match e.keptLoad with
  | some k => loadResume s n e k
  | none =>
    let a := e.scalar 0
    let h := plainHeader fmt (shapeRows (e.scalar 1)) (shapeCols (e.scalar 1)) false
    if a.toNat % max 1 (fmt.cellBits / 8) ≠ 0 then .fault (addrTrap cAlign a) s
    else if fmt = .acc56 then .fault (hdrTrap cHdrUnsupported 1 opResult) s
    else if (e.scalar 2).toNat < h.rowBytes then .fault (hdrTrap cHdrMismatch 4 opResult) s
    else if !h.valid then .fault (hdrTrap cHdrUnsupported 5 opResult) s
    else loadBegin s n e h ⟨0, 0, 0, 0⟩ []

/-- The image header has been read (R189). -/
def tldHeader (s : State) (n : StrandId) (e : QEntry) : Start :=
  let a := e.scalar 0
  match parseHeader e.work.got with
  | .error sub => .fault (imageTrap cHdrIntegrity a sub) s
  | .ok (h, o) => if layoutOk h o then loadBegin s n e h o [] else .fault (imageTrap cHdrMismatch a 4) s

/-- The alignment conditions of a TLDH's origins (R190). -/
def originOk (h : Header) (c0 r0 : Nat) : Bool :=
  (h.fmt != .int4 || c0 % 2 == 0) && (h.scl != .row || c0 % 128 == 0) &&
  (h.scl != .block || (c0 % 128 == 0 && r0 % 128 == 0)) && (h.spn == .dense || c0 % 48 == 0)

/-- The shape record has been read (R190). A sparse tile clipped at the tensor's edge to a COLS that is no multiple of 48 is built and
loaded with COLS div 48 groups, and later reads find its header bad (R42). (Log entry 67, DEDUCED, unsafe.) R190 states no TADDR for
the ALIGN of an origin condition; the model gives the address of the tile's row 0. (Log entry 76, DESIGN CHOICE, unsafe.) -/
def tldhRecord (s : State) (n : StrandId) (e : QEntry) : Start :=
  let r : Shape := (chunks 8 32 e.work.got).map bytesNat
  let (c0, r0) := origin (e.scalar 1)
  if !Shape.current r (e.scalar 0) then .fault (addrTrap cHandleStale (e.scalar 0)) s
  else match parseTemplate (Shape.template r) with
    | .error sub => .fault (imageTrap cHdrIntegrity 0 sub) s
    | .ok (t, _) =>
      let h : Header := { t with rows := min t.rows (Shape.extent r 1 - r0), cols := min t.cols (Shape.extent r 0 - c0), user := 0 }
      let e := { e with work := { e.work with nums := r } }
      if !originOk t c0 r0 then .fault (addrTrap cAlign ((e.loadPlan h).row 0)) s
      else loadBegin s n e h ⟨0, 0, 0, 0⟩ r

/-- Every byte of a load is there: its parity is checked or computed, and the result is set full (R80, R189, R205, R206). -/
def loadFinish (s : State) (n : StrandId) (e : QEntry) (h : Header) : Start :=
  let got := e.work.got
  let sb := 4 * h.scaleCount
  let x : Tile := { hdr := h, cells := e.work.rows, scales := readScales h got, groups := readGroups h (got.drop sb),
                    parity := [] }
  let fin (s : State) (x : Tile) : Start :=
    .go (s.setFull n (e.results.headD 0) x) { e with stage := .done, passed := true }
  match e.instr with
  | .tld _ _ _ =>
    match parityCheck opResult { x with parity := readParity h (got.drop (sb + h.metaBytes)) } with
    | .error t => .fault { t with addr := e.scalar 0 } s
    | .ok (y, k) => fin ((List.range k).foldl (fun s _ => s.correctedError 0) s) y
  | _ => fin s { x with parity := if h.fmt = .acc56 then parityOf h.cols x.cells else [] }

/-- A phase of a load whose reads are all made. -/
def loadPhase (s : State) (n : StrandId) (e : QEntry) : Start :=
  match e.work.phase, e.work.hdr with
  | 1, some h => loadNext s n { e with work := { e.work with rows := e.work.rows ++ [rowCells h e.work.got] } } h
  | 2, some h => loadFinish s n e h
  | _, _ =>
    match e.instr with
    | .tldh _ _ _ _ _ => tldhRecord s n e
    | _ => tldHeader s n e

/-- What a faulting load keeps through its unwind (R192, R193). -/
def QEntry.keeps (t : Strand) (e : QEntry) : Option Kept :=
  match e.instr, e.fault, e.work.hdr, e.results with
  | .tld _ _ _, some f, some h, id :: _ | .tldh _ _ _ _ _, some f, some h, id :: _ | .tldr _ _ _ _ _ _, some f, some h, id :: _ =>
    if (f.cause = cTranslation ∨ f.cause = cPermission ∨ f.cause = cBounds) ∧ f.info.getLsbD 15 then
      some ⟨id, e.pc, e.slot0, h, e.work.offs.getD ⟨0, 0, 0, 0⟩, e.work.rows, (t.tile? id).bind (·.stamp), e.work.nums⟩
    else none
  | _, _, _, _ => none

/-! ### Tile stores (R194) -/

/-- A store whose tile is not full yet passes its last fault point once its producer has started: the header that the producer has
fixed gives the image's size, and its pages translate. An ACC56 tile's parity is checked at the start. What would fault here faults at
the start. (R80, R188; log entry 63, DEDUCED, safe.) -/
def State.passStore (s : State) (n : StrandId) (e : QEntry) : State :=
  match (e.tiles.head?).bind (s.strand n).tile? with
  | none => s
  | some r =>
    match r.readTrap (s.strand n) 0, r.hdr with
    | none, some h =>
      if e.passed || h.fmt = .acc56 || (e.scalar 0).toNat % 32 ≠ 0 then s
      else match s.units n e.permit .write (e.scalar 0) h.imageSize with
        | .error _ => s
        | .ok us => (s.noteUnits us).putEntry n { e with passed := true, work := { e.work with dst := us } }
    | _, _ => s

/-- TST and TSTK start: the image of the tile, every byte translated before the first is written. -/
def tstStart (s : State) (n : StrandId) (e : QEntry) : Start :=
  let a := e.scalar 0
  match (s.strand n).operands e with
  | .error t => .fault t s
  | .ok ops =>
    if a.toNat % 32 ≠ 0 then .fault (addrTrap cAlign a) s
    else match checkOperands [0] ops with
      | .error t => .fault t s
      | .ok (ops, fixed, k) =>
        if (s.strand n).logFull then .wait
        else
          let img := (ops.headD default).image
          match (if e.passed then .ok e.work.dst else s.units n e.permit .write a img.length) with
          | .error x => accErrStart s n e x
          | .ok us =>
            .go ((s.repair n e fixed k).noteUnits us)
              { e with passed := true, work := { e.work with writes := unitWrites e.permit us img, supp := suppressed e.permit a img } }

/-! ### The tile builder (R195 to R197) -/

/-- TBEG starts: its header is checked and its tile opens. -/
def tbegStart (fmt : Fmt) (s : State) (n : StrandId) (e : QEntry) : Start :=
  let h := plainHeader fmt (shapeRows (e.scalar 0)) (shapeCols (e.scalar 0)) false
  let id := e.results.headD 0
  if !h.valid then .fault (hdrTrap cHdrUnsupported 5 opResult) s
  else if !s.hasSpace n h.space then .space h.space
  else .go (s.modStrand n (fun t => { (t.setHeader id h) with openTile := some ⟨id, h, [], 0, 0⟩ }))
    { e with stage := .done, passed := true, openBefore := (s.strand n).openTile }

/-- The patterns a TROW appends to the cursor's row, and the open tile after them (R196). An open tile with no columns takes nothing,
though the rule's loop would never end its row. (Log entry 75, DESIGN CHOICE, unsafe.) -/
def OpenTile.appendRow (o : OpenTile) (xs : List Nat) : OpenTile :=
  if o.hdr.rows ≤ o.row ∨ o.hdr.cols = 0 then o
  else
    let take := xs.take (o.hdr.cols - o.col)
    let old := o.cells.getD o.row []
    let cells := if o.row < o.cells.length then o.cells.set o.row (old ++ take) else o.cells ++ [take]
    if o.col + take.length = o.hdr.cols then { o with cells := cells, row := o.row + 1, col := 0 }
    else { o with cells := cells, col := o.col + take.length }

def trowStart (a : Arith) (va : VReg) (ty : Ty) (s : State) (n : StrandId) (e : QEntry) : Start :=
  let t := s.strand n
  match t.openTile with
  | none => .wait
  | some o =>
    let room := if o.hdr.rows ≤ o.row then 0 else o.hdr.cols - o.col
    let vals := ((t.lanes ty va).take room).map (fun p =>
      let (x, g) := ty.nfmt.read p
      let (q, h) := convert (o.hdr.fmt.nfmt false) a.rm a.sat x
      (q, g ||| h))
    .go (s.setStrand n { t with openTile := some (o.appendRow (vals.map (·.1))), vstat := t.vstat ||| orFlags vals })
      { e with stage := .done, passed := true, openBefore := some o }

def tendStart (s : State) (n : StrandId) (e : QEntry) : Start :=
  match (s.strand n).openTile with
  | none => .wait
  | some o => .go ((s.setFull n o.id o.close).modStrand n (fun t => { t with openTile := none }))
      { e with stage := .done, passed := true, openBefore := some o }

/-! ### HALT, which closes an open tile (R141, R195) -/

/-- The open tile is closed as TEND would close it, once every row that is to be written stands in it (R195). What the vector engine
holds of it stays, for an unwind to open it again (R91). -/
def State.closeOpen (s : State) (n : StrandId) : State :=
  match (s.strand n).openTile with
  | some o => (s.setFull n o.id o.close).modStrand n (fun t => { t with openId := none })
  | none => s

/-- HALT of R141: older vector instructions first, then an open tile is closed, for which other queues may wait (R195), then the wait
of R119, every other older instruction, and then the strand's end. -/
def execHalt (m : Mods) (s : State) : Out :=
  controlWith m none [] false false (fun s n =>
    let t := s.strand n
    if t.openId.isSome then
      (if (t.queue .V).all (fun e => e.stage == .done) && t.openTile.isSome then .hold (fun s => (s.closeOpen n).settleQueues n) else .wait)
    else if !t.idle || !t.pend.isEmpty || !t.valuesIn || t.cmoWaits then .wait
    else .go (s.halt n)) s

/-! ### Reading a tile's cells (R197) -/

/-- The lanes TRV and TCV write: the cell at each position, converted from its scaled value, and zero outside the tile
(R197). -/
def cellLanes (a : Arith) (ty : Ty) (x : Tile) (pos : Nat → Nat × Nat) : List (Nat × VFlags) :=
  (List.range ty.lanes).map (fun i =>
    let (r, c) := pos i
    if r < x.hdr.rows ∧ c < x.hdr.cols then
      let (v, g) := x.inputOf r c (some ((x.cells.getD r []).getD c 0))
      let (q, h) := convert ty.nfmt a.rm a.sat v
      (q, g ||| h)
    else (0, 0))

end Sys2Proof.Machine
end

