-- ==== Sys2Proof/Machine/Copy.lean ====
section
/-! DEFINITION. The copy engine (R209 to R218): dispatch of copy and tag instructions, the checks of a command's start, its
phases, compressed streams and collectives. -/

namespace Sys2Proof.Machine

/-! ### Dispatch -/

def copyPlan (uses : List SReg) : Plan := ⟨.L, uses, 0, 0, false, 0⟩

def execCpy (m : Mods) (mm : MemMod) (tag : BitVec 6) (sd ss sn : SReg) (s : State) : Out :=
  queuedPlain m (copyPlan [sd, ss, sn]) (.cpy m mm tag sd ss sn) (s.ownCheck .copy) s
def execCpyg (m : Mods) (mm : MemMod) (tag : BitVec 6) (sd sb sl : SReg) (lg : BitVec 6) (s : State) : Out :=
  queuedPlain m (copyPlan [sd, sb, sl]) (.cpyg m mm tag sd sb sl lg) (s.ownCheck .copy) s
/-- CPYD declares its vectors at dispatch (R184). -/
def execCpyd (m : Mods) (mm : MemMod) (tag : BitVec 6) (ss sn : SReg) (s : State) : Out :=
  queued m (copyPlan [ss, sn]) (.cpyd m mm tag ss sn) (s.ownCheck .copy) (fun _ => none)
    (fun t sc _ => { t with declared := t.declared + (sc.getD 1 0).toNat }) s
def execCpye (m : Mods) (mm : MemMod) (tag : BitVec 6) (sd ss sn : SReg) (wc : BitVec 6) (s : State) : Out :=
  queuedPlain m (copyPlan [sd, ss, sn]) (.cpye m mm tag sd ss sn wc) (s.ownCheck .copy) s
def execColl (m : Mods) (mm : MemMod) (tag : BitVec 6) (sa : SReg) (s : State) : Out :=
  queuedPlain m (copyPlan [sa]) (.coll m mm tag sa) (s.ownCheck .copy) s
def execWtall (m : Mods) (sm : SReg) (s : State) : Out := queuedPlain m (copyPlan [sm]) (.wtall m sm) (s.ownCheck .copy) s
def execWtany (m : Mods) (sm : SReg) (s : State) : Out := queuedPlain m (copyPlan [sm]) (.wtany m sm) (s.ownCheck .copy) s
def execTagff (m : Mods) (sd sm : SReg) (s : State) : Out :=
  queuedPlain m (copyPlan [sm, sd]) (.tagff m sd sm) (s.ownCheck .copy) s
def execTagcl (m : Mods) (sm : SReg) (s : State) : Out := queuedPlain m (copyPlan [sm]) (.tagcl m sm) (s.ownCheck .copy) s

/-! ### Tags (R209, R210) -/

/-- The tag of a copy command. -/
def Instr.copyTag : Instr → Option Nat
  | .cpy _ _ t _ _ _ | .cpyg _ _ t _ _ _ _ | .cpyd _ _ t _ _ | .cpye _ _ t _ _ _ _ | .coll _ _ t _ => some t.toNat
  | _ => none

/-- An earlier command with the tag is uncompleted. -/
def Strand.tagBusy (t : Strand) (e : QEntry) : Bool :=
  (t.queue .L).any (fun x => decide (x.seq < e.seq) && x.holds && x.stage != .done &&
    (Instr.copyTag x.instr).isSome && Instr.copyTag x.instr == Instr.copyTag e.instr)

def tagBit (t : Nat) : Word := 1 <<< t

/-- A WTALL or WTANY that waits blocks its queue (R210). -/
def Strand.tagWaits (t : Strand) : Bool :=
  (t.queue .L).any (fun x => x.holds && x.stage == .started && (match x.instr with
    | .wtall _ _ | .wtany _ _ => true
    | _ => false))

/-- The lowest set bit of a word, 64 for none. -/
def lowestBit (x : Word) : Nat := ((List.range 64).find? (fun i => x.getLsbD i)).getD 64

/-- The condition that completes a WTALL (`all`) or a WTANY. -/
def tagsMet (all : Bool) (tags m : Word) : Bool :=
  if all then tags &&& m == m else m == 0 || tags &&& m != 0

/-- A command completes once no older instruction can fault: its tag is set, and SUPP counts its suppressed bytes (R92, R209, R273). -/
def copyDone (s : State) (n : StrandId) (e : QEntry) : Start :=
  if !(s.strand n).passedBefore e.seq then .wait
  else .go ((s.countSupp e.permit e.work.supp).modStrand n (fun t => { t with tags := match Instr.copyTag e.instr with
    | some k => t.tags ||| tagBit k
    | none => t.tags })) { e with stage := .done, passed := true }

/-- A command starts: its tag is cleared. -/
def State.clearTag (s : State) (n : StrandId) (e : QEntry) : State :=
  s.modStrand n (fun t => { t with tags := match Instr.copyTag e.instr with
    | some k => t.tags &&& ~~~tagBit k
    | none => t.tags })

/-- A start with a change of the state where it succeeds. -/
def Start.andThen (f : State → State) : Start → Start
  | .go s e => .go (f s) e
  | x => x

/-- The start of a command, which clears its tag; an unwind sets it again (R91, R209). -/
def Start.clearing (n : StrandId) : Start → Start
  | .go s e => .go (s.clearTag n e) { e with cleared := (s.strand n).tags &&& ~~~((s.clearTag n e).strand n).tags }
  | x => x

/-! ### Ranges (R211) -/

def copyLimit : Nat := 16 * 2 ^ 20

/-- BOUNDS over a limit of the command: TINFO is the length it names. -/
def lengthTrap (len : Nat) : TrapInfo := ⟨cBounds, 0, word len⟩

/-- A command whose ranges are translated reads its source and then writes its destination. -/
def copyRanges (s : State) (n : StrandId) (e : QEntry) (src : List (Word × Nat)) (d : Word) (dlen : Nat)
    (dstPermit : Option Permit) (phase : Nat) (passed : Bool) : Start :=
  match s.unitsOf n e.permit .read src with
  | .error x => accErrStart s n e x
  | .ok us =>
    match s.units n dstPermit .write d dlen with
    | .error x => accErrStart s n e x
    | .ok vs => .go ((s.noteUnits us).noteUnits vs)
        { e with passed := passed, work := { e.work with phase := phase, reads := unitReads us, got := [], dst := vs } }

/-- Writes of data over the destination's units, suppressed bytes counted. -/
def copyWrite (s : State) (e : QEntry) (phase : Nat) (data : List Byte) : Start :=
  let d := (e.work.dst.headD default).addr
  .go s { (e : QEntry) with passed := true, work := { e.work with
    phase := phase, writes := unitWrites e.permit e.work.dst data, got := [], supp := e.work.supp + suppressed e.permit d data } }

def cpyStart (s : State) (n : StrandId) (e : QEntry) : Start :=
  let len := (e.scalar 2).toNat
  if copyLimit < len then .fault (lengthTrap len) s
  else (copyRanges s n e [(e.scalar 1, len)] (e.scalar 0) len e.permit 0 true).clearing n

/-- CPYG starts by reading its count. -/
def cpygStart (s : State) (n : StrandId) (e : QEntry) : Start :=
  match s.units n e.permit .read (e.scalar 2) 8 with
  | .error x => accErrStart s n e x
  | .ok us => Start.clearing n (.go (s.noteUnits us) (e.reading 0 us))

/-- CPYG's list and records, phase by phase: the count, the indices, the records, the writes. -/
def cpygPhase (lg : BitVec 6) (s : State) (n : StrandId) (e : QEntry) : Start :=
  let z := 2 ^ lg.toNat
  match e.work.phase with
  | 0 =>
    let c := bytesNat e.work.got
    if copyLimit < c * z then .fault (lengthTrap (c * z)) s
    else match s.units n e.permit .read (e.scalar 2 + 8) (4 * c) with
      | .error x => accErrStart s n e x
      | .ok us => .go (s.noteUnits us) { (e.reading 1 us) with work := { (e.reading 1 us).work with nums := [c] } }
  | 1 =>
    let c := e.work.nums.headD 0
    let idx := (chunks 4 c e.work.got).map bytesNat
    copyRanges s n e (idx.map (fun i => (e.scalar 1 + word (i * z), z))) (e.scalar 0) (c * z) e.permit 2 true
  | 2 => copyWrite s e 3 e.work.got
  | _ => copyDone s n e

def cpyPhase (s : State) (n : StrandId) (e : QEntry) : Start :=
  match e.work.phase with
  | 0 => copyWrite s e 1 e.work.got
  | _ => copyDone s n e

/-! ### Compressed streams (R212 to R216) -/

/-- floor(log2 v) + 1, and 0 for 0. -/
def bitLen (v : Nat) : Nat := if v = 0 then 0 else v.log2 + 1

/-- The payload bytes of a packed block of width `b` over elements of `w` bits. -/
def packedBytes (w b : Nat) : Nat := ceilDiv (ceilDiv (4096 / w * b) 8) 8 * 8

/-- A block's header (R213). -/
def blockHeader (mode b blen ref : Nat) : List Byte := natBytes 1 mode ++ natBytes 1 b ++ natBytes 2 blen ++ natBytes 4 ref

/-- Packed values as a block. -/
def packedBlock (w mode b ref : Nat) (ps : List Nat) : List Byte :=
  blockHeader mode b (8 + packedBytes w b) ref ++ natBytes (packedBytes w b) (packBits b ps)

/-- The differences of neighbours modulo 2^w. -/
def deltas (w : Nat) : List Nat → List Nat
  | x :: y :: r => (y + 2 ^ w - x) % 2 ^ w :: deltas w (y :: r)
  | _ => []

/-- One block of CPYE: the shortest of raw, frame of reference and delta, raw and then the frame first on a tie (R216). -/
def encodeBlock (w : Nat) (bs : List Byte) : List Byte :=
  let xs := unpackBits w (4096 / w) (bytesNat bs)
  let mn := xs.foldl min (xs.headD 0)
  let mx := xs.foldl max 0
  let bF := bitLen (mx - mn)
  let ds := 0 :: deltas w xs
  let bD := bitLen (ds.foldl max 0)
  let raw := blockHeader 0 0 520 0 ++ bs
  let lenF := 8 + packedBytes w bF
  let lenD := 8 + packedBytes w bD
  if 520 ≤ lenF ∧ 520 ≤ lenD then raw
  else if lenF ≤ lenD then packedBlock w 1 bF mn (xs.map (· - mn))
  else packedBlock w 2 bD (xs.headD 0) ds

/-- CPYE's stream of a source (R212, R216). -/
def encodeStream (wc : Nat) (bs : List Byte) : List Byte :=
  let blocks := (chunks 512 (bs.length / 512) bs).map (encodeBlock (8 * 2 ^ wc))
  let least := blocks.foldl (fun m b => min m b.length) 520
  let rmax := if blocks.isEmpty then 1 else min 64 (ceilDiv 512 least)
  let body := blocks.flatten
  natBytes 1 1 ++ natBytes 1 wc ++ natBytes 1 rmax ++ natBytes 1 0 ++ natBytes 4 blocks.length ++
    natBytes 8 (16 + body.length) ++ body

def cpyeStart (s : State) (n : StrandId) (e : QEntry) : Start :=
  let len := (e.scalar 2).toNat
  if copyLimit < len ∨ len % 512 ≠ 0 then .fault (lengthTrap len) s
  else (copyRanges s n e [(e.scalar 1, len)] (e.scalar 0) (16 + len / 512 * 520) none 0 false).clearing n

def cpyePhase (wc : BitVec 6) (s : State) (n : StrandId) (e : QEntry) : Start :=
  match e.work.phase with
  | 0 =>
    let data := encodeStream wc.toNat e.work.got
    let d := e.scalar 0
    match writeFault e.permit d data.length with
    | some t => .fault t s
    | none =>
      let ws := (unitWrites e.permit e.work.dst data).filter (fun w => !w.data.isEmpty)
      -- the header's units go last
      let k := (unitWrites e.permit e.work.dst (data.take 16)).filter (fun w => !w.data.isEmpty)
      .go s { (e : QEntry) with passed := true, work := { e.work with
        phase := 1, got := [], writes := ws.drop k.length ++ ws.take k.length, supp := suppressed e.permit d data } }
  | _ => copyDone s n e

/-- TINFO of RATIO (R215). (Log entry 27, DEDUCED, unsafe.) -/
def ratioTrap (a : Word) (sub blk : Nat) : TrapInfo := ⟨cRatio, a, word (sub <<< 32 + blk % 2 ^ 32)⟩

def cpydStart (s : State) (n : StrandId) (e : QEntry) : Start :=
  match s.units n e.permit .read (e.scalar 0) 16 with
  | .error x => accErrStart s n e x
  | .ok us => Start.clearing n (.go (s.noteUnits us) (e.reading 0 us))

/-- Streams in program order. -/
def insertStream (l : List CpydStream) (x : CpydStream) : List CpydStream :=
  l.filter (fun y => y.seq < x.seq) ++ x :: l.filter (fun y => x.seq ≤ y.seq)

/-- CPYD's stream header has been read (R214): it is checked, the stream is translated, and it opens. -/
def cpydHeader (tag : BitVec 6) (mm : MemMod) (s : State) (n : StrandId) (e : QEntry) : Start :=
  let a := e.scalar 0
  let h := bytesNat e.work.got
  let wc := bits h 8 8
  let rmax := bits h 16 8
  let nblk := bits h 32 32
  let len := bits h 64 64
  let vecs := (e.scalar 1).toNat
  if bits h 0 8 ≠ 1 ∨ 2 < wc ∨ rmax < 1 ∨ 64 < rmax ∨ bits h 24 8 ≠ 0 ∨ len < 16 + 8 * nblk then .fault (ratioTrap a 3 0) s
  else if copyLimit < len then .fault (lengthTrap len) s
  else match s.units n e.permit .read a len with
    | .error x => accErrStart s n e x
    | .ok us =>
      let s := s.noteUnits us
      if vecs = 0 then copyDone s n e
      else
        let x : CpydStream := ⟨e.seq, tag.toNat, a + 16, a + word len, wc, rmax, 0, nblk, vecs, mm⟩
        .go (s.modStrand n (fun t => { t with streams := insertStream t.streams x }))
          { e with passed := true, work := { e.work with phase := 1 } }

/-- Whether a block's header is bad: the SUB of R214 for the conditions of one block, none for a good one. `room` is how many
bytes of the stream are left. -/
def blockBad (w rmax mode b blen ref room : Nat) : Option Nat :=
  if rmax * blen < 512 then some 1
  else if 2 < mode ∨ w < b ∨ (mode = 0 ∧ (b ≠ 0 ∨ ref ≠ 0)) ∨ blen ≠ 8 + (if mode = 0 then 512 else packedBytes w b) ∨
    room < blen then some 2
  else none

/-- Running sums modulo 2^w. -/
def prefixSums (w acc : Nat) : List Nat → List Nat
  | [] => []
  | p :: ps => let x := (acc + p) % 2 ^ w; x :: prefixSums w x ps

/-- A block's payload decoded (R213). -/
def decodeBlock (w mode b ref : Nat) (pay : List Byte) : BitVec 4096 :=
  if mode = 0 then BitVec.ofNat 4096 (bytesNat pay)
  else
    let ps := unpackBits b (4096 / w) (bytesNat pay)
    let ref := ref % 2 ^ w
    ofLanes w (if mode = 1 then ps.map (fun p => (ref + p) % 2 ^ w) else prefixSums w ref ps)

/-- The bytes of engine reads, all at once, or none when a line cannot be read now. -/
def State.readUnits (s : State) (n : StrandId) : List Unit8 → Option (List Byte × State)
  | [] => some ([], s)
  | u :: us =>
    if s.blocked u.loc then none
    else
      let (bs, s1) := s.engineRead n u.loc u.len
      (s1.readUnits n us).map (fun r => (bs ++ r.1, r.2))

/-- `len` bytes from an address by engine reads of an entry; none when they cannot be made now. -/
def State.readRange (s : State) (n : StrandId) (e : QEntry) (a : Word) (len : Nat) : Option (List Byte × State) :=
  match s.units n none .read a len with
  | .error _ => none
  | .ok us => if s.mayAccess n e then s.readUnits n us else none

/-- The decoder's oldest open stream, when no older CPYD has still to open its own (R214). -/
def Strand.decodable (t : Strand) : Option (CpydStream × QEntry) :=
  match t.streams with
  | [] => none
  | x :: _ =>
    let older := (t.queue .L).any (fun e => decide (e.seq < x.seq) && e.holds && e.stage != .done && (match e.instr with
      | .cpyd _ _ _ _ _ => true
      | _ => false))
    if older then none else ((t.queue .L).find? (fun e => e.seq == x.seq)).map (fun e => (x, e))

/-- The FIFO's capacity (R183). -/
def fifoSize : Nat := 16

/-- An item enters the FIFO; the stream goes on, or it is closed and its CPYD completes (R214, R215). -/
def State.deliver (s : State) (n : StrandId) (x : CpydStream) (e : QEntry) (item : FifoItem) (x' : Option CpydStream) : State :=
  let s := s.modStrand n (fun t => { t with
    fifo := t.fifo ++ [item],
    streams := match x' with
      | some y => t.streams.map (fun z => if z.seq = x.seq then y else z)
      | none => t.streams.filter (fun z => z.seq != x.seq) })
  match x' with
  | some _ => s
  | none =>
    match copyDone s n e with
    | .go s e => (s.putEntry n e).settleQueues n
    | _ => s

/-- CPYD_BLOCK_DECODE (R213 to R215): the next block of the oldest open stream enters the FIFO, once no older instruction can
fault (R92). -/
def execCpydBlockDecode (n : StrandId) (s : State) : Out :=
  let t := s.strand n
  match t.decodable with
  | none => .next s
  | some (x, e) =>
    if fifoSize ≤ t.fifo.length || !t.passedBefore e.seq then .next s
    else if x.blocksLeft = 0 then .next (s.deliver n x e (.bad 4 x.blk x.endAddr) none)
    else
      let w := 8 * 2 ^ x.wc
      let room := (x.endAddr - x.next).toNat
      if room < 8 then .next (s.deliver n x e (.bad 2 x.blk x.next) none)
      else match s.readRange n e x.next 8 with
        | none => .next s
        | some (hb, s1) =>
          let h := bytesNat hb
          let (mode, b, blen, ref) := (bits h 0 8, bits h 8 8, bits h 16 16, bits h 32 32)
          match blockBad w x.rmax mode b blen ref room with
          | some sub => .next (s1.deliver n x e (.bad sub x.blk x.next) none)
          | none =>
            match s1.readRange n e (x.next + 8) (blen - 8) with
            | none => .next s
            | some (pay, s2) =>
              let y : CpydStream := { x with next := x.next + word blen, blk := x.blk + 1, blocksLeft := x.blocksLeft - 1, vecsLeft := x.vecsLeft - 1 }
              .next (s2.deliver n x e (.vec (decodeBlock w mode b ref pay)) (if y.vecsLeft = 0 then none else some y))

/-! ### Collectives (R217, R218, R351, R352) -/

/-- COLL's descriptor. -/
structure CollDesc where
  group : Nat
  root : Nat
  ty : Nat
  op : Nat
  count : Nat
  src : Word
  dst : Word
  bad : Bool

def collDesc (bs : List Byte) : CollDesc :=
  let w (i : Nat) : Nat := bytesNat ((bs.drop (8 * i)).take 8)
  ⟨bits (w 0) 32 32, bits (w 0) 16 16, bits (w 0) 8 3, bits (w 0) 0 4, w 1, word (w 2), word (w 3),
   bits (w 0) 11 5 != 0 || bits (w 0) 4 4 != 0 || w 5 != 0 || w 6 != 0 || w 7 != 0⟩

def collTy (n : Nat) : Option Ty := match n with | 0 => some .fp32 | 1 => some .bf16 | 7 => some .int32 | _ => none

/-- COLL starts: its descriptor is aligned, readable and writable, and is read. -/
def collStart (s : State) (n : StrandId) (e : QEntry) : Start :=
  let a := e.scalar 0
  if a.toNat % 64 ≠ 0 then .fault (addrTrap cAlign a) s
  else match s.units n e.permit .read a 64 with
    | .error x => accErrStart s n e x
    | .ok us =>
      match s.units n e.permit .write (a + 32) 8 with
      | .error x => accErrStart s n e x
      | .ok _ => Start.clearing n (.go (s.noteUnits us) (e.reading 0 us))

/-- The group a COLL names. -/
def State.collGroup? (s : State) (n : StrandId) (g : Nat) : Option CollGroup :=
  (s.part (s.tagOf n)).groups.find? (fun x => x.entry == g)

/-- The tenant number of a strand's partition. -/
def State.tenantOf (s : State) (n : StrandId) : Nat := (s.mgmt.layout.tenants.getD (s.tagOf n).val 0).toNat

/-- COLL's descriptor has been read (R217, R218, R351): it is checked, SRC and DST are translated, and RDV goes to every
member, its own partition's node among them. The entry's numbers are group, op, ty, count, root, sequence and the GTS at which RDV went out. -/
def collBegin (s : State) (n : StrandId) (e : QEntry) : Start :=
  let d := collDesc e.work.got
  match s.collGroup? n d.group, collTy d.ty with
  | some g, some ty =>
    let p := g.members.length
    if d.bad ∨ 5 < d.op ∨ p ≤ d.root then .fault (addrTrap cIllegal (e.scalar 0)) s
    else
      let size := d.count * (ty.width / 8)
      let slen := if d.op = 5 then p * size else size
      let dlen := if d.op = 3 then p * size else size
      if copyLimit < max slen dlen then .fault (lengthTrap (max slen dlen)) s
      else match s.units n e.permit .read d.src slen with
        | .error x => accErrStart s n e x
        | .ok us =>
          match s.units n e.permit .write d.dst dlen with
          | .error x => accErrStart s n e x
          | .ok vs =>
            if !(s.strand n).passedBefore e.seq then .wait
            else
            let s := (s.noteUnits us).noteUnits vs
            let sq := g.nextSeq
            let s := s.modPart (s.tagOf n) (fun x => { x with
              groups := x.groups.map (fun y => if y.entry = g.entry then { y with nextSeq := sq + 1 } else y) })
            let s := g.members.foldl (fun s m => s.send ⟨m, .rdv, [word g.entry, word (s.tenantOf n), word sq], []⟩) s
            .go s { (e : QEntry) with passed := true, work := { e.work with
              phase := 2, src := us, dst := vs, nums := [d.group, d.op, d.ty, d.count, d.root, sq, s.gts], got := [], reads := [] } }
  | _, _ => .fault (addrTrap cIllegal (e.scalar 0)) s

/-- The rendezvous messages received for a COLL, one per other member; none until all are there. -/
def State.rendezvous (s : State) (n : StrandId) (g : CollGroup) (sq : Nat) : Option (List (Option RdvRec)) :=
  let recs := (s.part (s.tagOf n)).rdvs
  let of (m : Nat) : Option RdvRec :=
    recs.find? (fun r => r.node == m && r.group == g.entry && r.tenant == s.tenantOf n && r.sequence == sq)
  let found := g.members.mapIdx (fun i m => (i, of m))
  if found.all (fun f => f.1 == g.rank || f.2.isSome) then some (found.map (·.2)) else none

/-- The elements of a member's SRC. -/
def elements (ty : Ty) (count : Nat) (bs : List Byte) : List Nat := (chunks (ty.width / 8) count bs).map bytesNat

/-- What a COLL writes to DST from every member's SRC in rank order (R218). -/
def collResult (op : Nat) (ty : Ty) (count root rank : Nat) (srcs : List (List Byte)) : List Byte :=
  let p := srcs.length
  let k := bitLen (p - 1)
  let r : RedOp := if op = 1 then .max else if op = 2 then .min else .sum
  let fold (xs : List Nat) : Nat :=
    (reduce r ⟨.rne, false, 0⟩ ty k (xs.map some ++ List.replicate (2 ^ k - p) none)).1
  let enc (xs : List Nat) : List Byte := (xs.map (natBytes (ty.width / 8))).flatten
  let each (cnt : Nat) : List Nat :=
    let els := srcs.map (fun b => (elements ty cnt b).toArray)
    (List.range cnt).map (fun j => fold (els.map (fun a => a.getD j 0)))
  match op with
  | 3 => (srcs.map (fun b => enc (elements ty count b))).flatten
  | 4 => enc (elements ty count (srcs.getD root []))
  | 5 => enc (((each (p * count)).drop (rank * count)).take count)
  | _ => enc (each count)

/-- The phases of a COLL after its start: the rendezvous, its own SRC, DST, the status word, and the tag. -/
def collPhase (s : State) (n : StrandId) (e : QEntry) : Start :=
  let num (i : Nat) : Nat := e.work.nums.getD i 0
  let status (s : State) (k : Nat) : Start :=
    match s.units n none .write (e.scalar 0 + 32) 8 with
    | .error _ => .wait
    | .ok us =>
      let bs := natBytes 8 k
      .go s { (e : QEntry) with work := { e.work with
        phase := 5, got := [], reads := [], writes := unitWrites e.permit us bs, supp := e.work.supp + suppressed e.permit (e.scalar 0 + 32) bs } }
  match e.work.phase with
  | 0 => collBegin s n e
  | 2 =>
    if e.work.status ≠ 0 then status s e.work.status
    else match s.collGroup? n (num 0) with
      | none => .wait
      | some g =>
        if g.aborted then status s 1
        else if g.lost.contains (num 5) then status s 2
        else match s.rendezvous n g (num 5) with
          | none => .wait
          | some _ => .go s { (e : QEntry) with work := { e.work with phase := 3, reads := unitReads e.work.src, got := [] } }
  | 3 =>
    match s.collGroup? n (num 0), collTy (num 2) with
    | some g, some ty =>
      let recs := (s.rendezvous n g (num 5)).getD []
      let srcs := recs.mapIdx (fun i r => if i = g.rank then e.work.got else (r.map (·.src)).getD [])
      let s := s.modPart (s.tagOf n) (fun x => { x with
        rdvs := x.rdvs.filter (fun r => !(r.group == g.entry && r.sequence == num 5)) })
      copyWrite s e 4 (collResult (num 1) ty (num 3) (num 4) g.rank srcs)
    | _, _ => .wait
  | 4 => status s 0
  | _ => copyDone s n e

end Sys2Proof.Machine
end

