-- ==== Sys2Proof/Machine/Lease.lean ====
section
/-! DEFINITION. Dispatch of the matrix and lease instructions (R198 to R208), and the matrix lease: requests, grants, runs and
surrenders (R24, R317), and ageing (R316). -/

namespace Sys2Proof.Machine

/-! ### Dispatch -/

/-- An M-queue instruction: its scalar operands, how many tiles it names and pops, and whether it pushes one. -/
def matrixInstr (m : Mods) (uses : List SReg) (ops pops : Nat) (pushes : Bool) (i : Instr) (s : State) : Out :=
  queuedPlain m ⟨.M, uses, ops, pops, pushes, 2⟩ i (s.ownCheck .matrix) s

def execMma (m : Mods) (s : State) : Out := matrixInstr m [] 2 2 true (.mma m) s
def execMmac (m : Mods) (s : State) : Out := matrixInstr m [] 3 3 true (.mmac m) s
def execMadd (m : Mods) (a : Arith) (s : State) : Out := matrixInstr m [] 2 2 true (.madd m a) s
def execMsub (m : Mods) (a : Arith) (s : State) : Out := matrixInstr m [] 2 2 true (.msub m a) s
def execMmul (m : Mods) (a : Arith) (s : State) : Out := matrixInstr m [] 2 2 true (.mmul m a) s
def execMscal (m : Mods) (a : Arith) (sf : SReg) (s : State) : Out := matrixInstr m [sf] 1 1 true (.mscal m a sf) s
def execMcvt (m : Mods) (a : Arith) (fmt : Fmt) (scl : Scl) (s : State) : Out := matrixInstr m [] 1 1 true (.mcvt m a fmt scl) s
def execMtrn (m : Mods) (s : State) : Out := matrixInstr m [] 1 1 true (.mtrn m) s
def execMzero (m : Mods) (fmt : Fmt) (sx : SReg) (acci : BitVec 6) (s : State) : Out :=
  matrixInstr m [sx] 0 0 true (.mzero m fmt sx acci) s
def execMhdr (m : Mods) (su : SReg) (s : State) : Out := matrixInstr m [su] 1 1 true (.mhdr m su) s
def execMspar (m : Mods) (spn : Spn) (s : State) : Out := matrixInstr m [] 1 1 true (.mspar m spn) s
def execMrsum (m : Mods) (s : State) : Out := matrixInstr m [] 1 1 true (.mrsum m) s
def execMchk (m : Mods) (s : State) : Out := matrixInstr m [] 1 0 false (.mchk m) s
def execLacq (m : Mods) (s : State) : Out := matrixInstr m [] 0 0 false (.lacq m) s
def execLrel (m : Mods) (s : State) : Out := matrixInstr m [] 0 0 false (.lrel m) s

/-! ### Requests (R316, R317) -/

def Instr.isLrel : Instr → Bool
  | .lrel _ => true
  | _ => false

/-- A matrix command, which the array executes and a run counts. -/
def Instr.isCommand (i : Instr) : Bool := !Instr.isLacq i && !Instr.isLrel i

/-- AGE, IDLE and RUN of LEASECTL (R315). -/
def ageLimit (ctl : Word) : Nat := bits ctl.toNat 32 16
def idleLimit (ctl : Word) : Nat := bits ctl.toNat 16 16
def runLimit (ctl : Word) : Nat := bits ctl.toNat 0 9

/-- The head with which a strand asks for the lease. -/
def State.leaseRequest (s : State) (n : StrandId) : Option QEntry :=
  let t := s.strand n
  match t.qhead? .M with
  | none => none
  | some e =>
    if e.asked ≠ 0 ∧ t.ready .M e ∧ !Instr.isLrel e.instr ∧ t.startBlock .M e ≠ .other then some e else none

/-- A request as its rank compares it: aged first, then the role, the longer wait, the lower number (R316). -/
def rankKey (n : StrandId) (e : QEntry) : List Nat := [if e.aged then 0 else 1, e.role, e.asked, n.val]

def keyLess : List Nat → List Nat → Bool
  | x :: xs, y :: ys => decide (x < y) || (x == y && keyLess xs ys)
  | _, _ => false

/-- The highest-ranked of some requests. -/
def bestRequest (rs : List (StrandId × QEntry)) : Option (StrandId × QEntry) :=
  rs.foldl (fun b r => match b with
    | none => some r
    | some x => if keyLess (rankKey r.1 r.2) (rankKey x.1 x.2) then some r else b) none

/-- The requests for a Pod's lease. -/
def State.leaseRequests (s : State) (pod : PodId) : List (StrandId × QEntry) :=
  (podStrands pod).filterMap (fun n => (s.leaseRequest n).map (fun e => (n, e)))

/-- A request for the lease by another strand than `n` is aged. -/
def State.agedRequest (s : State) (pod : PodId) (n : StrandId) : Bool :=
  (s.leaseRequests pod).any (fun r => r.1 != n && r.2.aged)

/-- The partition whose sequencer arbitrates a Pod's lease, once its array has an owner. -/
def State.leasePart (s : State) (pod : PodId) : Option PartId := ownerOf (s.mgmt.layout.mats.getD pod.val 0xFF)

/-- Lease decisions are the recorded ones while the partition replays (R366). -/
def State.leaseReplays (s : State) (pod : PodId) : Bool :=
  match s.leasePart pod with
  | some p => (s.part p).sched.rpl
  | none => false

/-! ### Grants and surrenders -/

/-- The lease goes to a strand, logged (R24, R317, R363); a log without room stalls the sequencer (R267). -/
def State.grantLease (s : State) (pod : PodId) (n : StrandId) : State :=
  match s.leasePart pod with
  | none => s
  | some p =>
    match s.logDecision p 0x04 (word (pod.val <<< 56 + n.val)) 0 with
    | none => s.stallSequencer p ((s.strand n).ctx.getD 0)
    | some s => s.modPod pod (fun x => { x with lease := ⟨some n, 0, 0, 0, none⟩ })

/-- A strand of the Pod has a matrix command partly executed: the lease does not pass (R24). -/
def State.arrayBusy (s : State) (pod : PodId) : Bool := (podStrands pod).any (fun n => (s.strand n).matrixBusy)

/-- A surrender that the log had no room for is tried again (R267, R317). -/
def State.retrySurrender (s : State) (pod : PodId) : State :=
  match (s.pod pod).lease.owed with
  | some r => s.surrenderLease pod r
  | none => s

/-- LEASE_GRANT (R317). -/
def execLeaseGrant (pod : PodId) (s : State) : Out :=
  if (s.pod pod).lease.owed.isSome then .next (s.retrySurrender pod)
  else if (s.pod pod).lease.holder.isSome || s.arrayBusy pod || s.leaseReplays pod then .next s
  else match bestRequest (s.leaseRequests pod) with
    | none => .next s
    | some (n, _) => .next (s.grantLease pod n)

/-- LEASE_RUN_END (R317): after RUN commands, or after one while another request is aged. -/
def execLeaseRunEnd (pod : PodId) (s : State) : Out :=
  let l := (s.pod pod).lease
  match l.holder with
  | none => .next s
  | some h =>
    if l.owed.isSome then .next (s.retrySurrender pod)
    else if (s.strand h).matrixBusy || s.leaseReplays pod || l.done = 0 then .next s
    else if l.run ≤ l.done then .next (s.surrenderLease pod 1)
    else if s.agedRequest pod h then .next (s.surrenderLease pod 4)
    else .next s

/-- LEASE_IDLE_SURRENDER (R317): an empty M queue while another strand asks, a head that has waited IDLE cycles on a token or an
empty tile, and such a head at once while another request is aged. -/
def execLeaseIdleSurrender (pod : PodId) (s : State) : Out :=
  let l := (s.pod pod).lease
  match l.holder with
  | none => .next s
  | some h =>
    let t := s.strand h
    if l.owed.isSome then .next (s.retrySurrender pod)
    else if t.matrixBusy || s.leaseReplays pod then .next s
    else match t.qhead? .M with
      | none => if (s.leaseRequests pod).any (fun r => r.1 != h) then .next (s.surrenderLease pod 3) else .next s
      | some e =>
        if !t.matrixBlocked then .next s
        else if s.agedRequest pod h then .next (s.surrenderLease pod 4)
        else if l.idleSince ≠ 0 ∧ l.idleSince + idleLimit e.leasectl ≤ s.ticks + 1 then .next (s.surrenderLease pod 2)
        else .next (s.noteIdle h)

/-! ### Ageing (R316) -/

/-- REQUEST_AGED: a request has waited AGE − 1,536 cycles. -/
def execRequestAged (n : StrandId) (q : QName) (s : State) : Out :=
  match (s.strand n).qhead? q with
  | none => .next s
  | some e =>
    if e.asked ≠ 0 ∧ e.asked + (ageLimit e.leasectl - 1536) ≤ s.ticks + 1 then .next (s.putEntry n { e with aged := true })
    else .next s

/-! ### The shared engines (R316) -/

/-- The place of an engine among a Pod's five. -/
def engineSlot (k : EngineKind) (num : Fin 2) : Option (Fin 5) :=
  match k with
  | .load => some (if num = 0 then 0 else 1)
  | .store => some (if num = 0 then 2 else 3)
  | .copy => if num = 0 then some 4 else none
  | .matrix => none

/-- The shared engine an instruction runs on. -/
def Instr.engine : Instr → Option EngineKind
  | .tld _ _ _ | .tldh _ _ _ _ _ | .tldr _ _ _ _ _ _ => some .load
  | .tst _ _ _ | .tstk _ _ _ => some .store
  | .cpy _ _ _ _ _ _ | .cpyg _ _ _ _ _ _ _ | .cpyd _ _ _ _ _ | .cpye _ _ _ _ _ _ _ | .coll _ _ _ _ => some .copy
  | _ => none

/-- A started instruction can make its next access, or ask for what follows its last one: it waits for no other queue's instruction
and for no access of the strand's (R92, R252). -/
def State.canProceed (s : State) (n : StrandId) (e : QEntry) : Bool :=
  e.fault.isNone && s.mayAccess n e && (!e.work.reads.isEmpty || e.work.writes.isEmpty || (s.strand n).passedBefore e.seq)

/-- An engine is serving an instruction: one it was given and that has not left it. One that waits for another queue keeps no engine
from other strands (R23). -/
def State.engineBusy (s : State) (pod : PodId) (k : Fin 5) : Bool :=
  match (s.pod pod).engines[k.val] with
  | none => false
  | some (n, seq) => match (s.strand n).entry? seq with
    | some e => e.granted && (e.stage == .waiting || (e.stage == .started && s.canProceed n e))
    | none => false

/-- A queue head that asks for an engine of a kind in its Pod. -/
def State.engineRequest (s : State) (pod : PodId) (k : EngineKind) (num : Fin 2) (n : StrandId) (q : QName) : Option QEntry :=
  let t := s.strand n
  match t.qhead? q with
  | none => none
  | some e =>
    if Instr.engine e.instr = some k ∧ !e.granted ∧ e.asked ≠ 0 ∧ t.ready q e ∧ t.startBlock q e = .free ∧ !s.fenced n e ∧
        !(q == .L && (t.tagWaits || t.tagBusy e)) ∧ (s.partOf n).isSome ∧ s.engineOwner pod k num.val = s.partOf n
    then some e else none

/-- ENGINE_ARBITRATE: a free shared engine takes the highest-ranked head that is ready for it. -/
def execEngineArbitrate (pod : PodId) (k : EngineKind) (num : Fin 2) (s : State) : Out :=
  match engineSlot k num with
  | none => .next s
  | some i =>
    if s.engineBusy pod i then .next s
    else
      let q : QName := if k = .store then .S else .L
      match bestRequest ((podStrands pod).filterMap (fun n => (s.engineRequest pod k num n q).map (fun e => (n, e)))) with
      | none => .next s
      | some (n, e) =>
        .next ((s.putEntry n { e with granted := true }).modPod pod (fun x => { x with engines := x.engines.set i.val (some (n, e.seq)) i.isLt }))

end Sys2Proof.Machine
end

