-- ==== Sys2Proof/Machine/VecInstr.lean ====
section
/-! DEFINITION. Dispatch of the vector instructions (R13, R152, R184): each goes to the V queue with its scalars captured, and
what it does there is its start's (Engine.lean). Their memory accesses (R180 to R182) are here as well. -/

namespace Sys2Proof.Machine

/-- The dispatch of a vector instruction. -/
def vectorInstr (m : Mods) (uses : List SReg) (i : Instr) : State → Out := queuedPlain m ⟨.V, uses, 0, 0, false, 0⟩ i none

def execVadd (m : Mods) (a : Arith) (vd va vb : VReg) (ty : Ty) (k : KReg) (s : State) : Out := vectorInstr m [] (.vadd m a vd va vb ty k) s
def execVsub (m : Mods) (a : Arith) (vd va vb : VReg) (ty : Ty) (k : KReg) (s : State) : Out := vectorInstr m [] (.vsub m a vd va vb ty k) s
def execVmul (m : Mods) (a : Arith) (vd va vb : VReg) (ty : Ty) (k : KReg) (s : State) : Out := vectorInstr m [] (.vmul m a vd va vb ty k) s
def execVdiv (m : Mods) (a : Arith) (vd va vb : VReg) (ty : Ty) (k : KReg) (s : State) : Out := vectorInstr m [] (.vdiv m a vd va vb ty k) s
def execVmin (m : Mods) (a : Arith) (vd va vb : VReg) (ty : Ty) (k : KReg) (s : State) : Out := vectorInstr m [] (.vmin m a vd va vb ty k) s
def execVmax (m : Mods) (a : Arith) (vd va vb : VReg) (ty : Ty) (k : KReg) (s : State) : Out := vectorInstr m [] (.vmax m a vd va vb ty k) s
def execVand (m : Mods) (a : Arith) (vd va vb : VReg) (ty : Ty) (k : KReg) (s : State) : Out := vectorInstr m [] (.vand m a vd va vb ty k) s
def execVor (m : Mods) (a : Arith) (vd va vb : VReg) (ty : Ty) (k : KReg) (s : State) : Out := vectorInstr m [] (.vor m a vd va vb ty k) s
def execVxor (m : Mods) (a : Arith) (vd va vb : VReg) (ty : Ty) (k : KReg) (s : State) : Out := vectorInstr m [] (.vxor m a vd va vb ty k) s
def execVshl (m : Mods) (a : Arith) (vd va vb : VReg) (ty : Ty) (k : KReg) (s : State) : Out := vectorInstr m [] (.vshl m a vd va vb ty k) s
def execVshr (m : Mods) (a : Arith) (vd va vb : VReg) (ty : Ty) (k : KReg) (s : State) : Out := vectorInstr m [] (.vshr m a vd va vb ty k) s
def execVsar (m : Mods) (a : Arith) (vd va vb : VReg) (ty : Ty) (k : KReg) (s : State) : Out := vectorInstr m [] (.vsar m a vd va vb ty k) s
def execVfma (m : Mods) (a : Arith) (vd va vb vc : VReg) (ty : Ty) (k : KReg) (s : State) : Out := vectorInstr m [] (.vfma m a vd va vb vc ty k) s
def execVfms (m : Mods) (a : Arith) (vd va vb vc : VReg) (ty : Ty) (k : KReg) (s : State) : Out := vectorInstr m [] (.vfms m a vd va vb vc ty k) s
def execVfshl (m : Mods) (a : Arith) (vd va vb vc : VReg) (ty : Ty) (k : KReg) (s : State) : Out := vectorInstr m [] (.vfshl m a vd va vb vc ty k) s
def execVfshr (m : Mods) (a : Arith) (vd va vb vc : VReg) (ty : Ty) (k : KReg) (s : State) : Out := vectorInstr m [] (.vfshr m a vd va vb vc ty k) s
def execVabs (m : Mods) (a : Arith) (vd va : VReg) (ty : Ty) (k : KReg) (s : State) : Out := vectorInstr m [] (.vabs m a vd va ty k) s
def execVneg (m : Mods) (a : Arith) (vd va : VReg) (ty : Ty) (k : KReg) (s : State) : Out := vectorInstr m [] (.vneg m a vd va ty k) s
def execVnot (m : Mods) (a : Arith) (vd va : VReg) (ty : Ty) (k : KReg) (s : State) : Out := vectorInstr m [] (.vnot m a vd va ty k) s
def execVsin (m : Mods) (a : Arith) (vd va : VReg) (ty : Ty) (k : KReg) (s : State) : Out := vectorInstr m [] (.vsin m a vd va ty k) s
def execVcos (m : Mods) (a : Arith) (vd va : VReg) (ty : Ty) (k : KReg) (s : State) : Out := vectorInstr m [] (.vcos m a vd va ty k) s
def execVexp (m : Mods) (a : Arith) (vd va : VReg) (ty : Ty) (k : KReg) (s : State) : Out := vectorInstr m [] (.vexp m a vd va ty k) s
def execVlog (m : Mods) (a : Arith) (vd va : VReg) (ty : Ty) (k : KReg) (s : State) : Out := vectorInstr m [] (.vlog m a vd va ty k) s
def execVrcp (m : Mods) (a : Arith) (vd va : VReg) (ty : Ty) (k : KReg) (s : State) : Out := vectorInstr m [] (.vrcp m a vd va ty k) s
def execVrsq (m : Mods) (a : Arith) (vd va : VReg) (ty : Ty) (k : KReg) (s : State) : Out := vectorInstr m [] (.vrsq m a vd va ty k) s
def execVrsum (m : Mods) (a : Arith) (vd va : VReg) (ty : Ty) (k : KReg) (s : State) : Out := vectorInstr m [] (.vrsum m a vd va ty k) s
def execVrmax (m : Mods) (a : Arith) (vd va : VReg) (ty : Ty) (k : KReg) (s : State) : Out := vectorInstr m [] (.vrmax m a vd va ty k) s
def execVrmin (m : Mods) (a : Arith) (vd va : VReg) (ty : Ty) (k : KReg) (s : State) : Out := vectorInstr m [] (.vrmin m a vd va ty k) s
def execVscan (m : Mods) (a : Arith) (vd va : VReg) (ty : Ty) (k : KReg) (s : State) : Out := vectorInstr m [] (.vscan m a vd va ty k) s
def execVscanm (m : Mods) (a : Arith) (vd va : VReg) (ty : Ty) (k : KReg) (s : State) : Out := vectorInstr m [] (.vscanm m a vd va ty k) s
def execVcmpeq (m : Mods) (a : Arith) (kd : KReg) (va vb : VReg) (ty : Ty) (k : KReg) (s : State) : Out := vectorInstr m [] (.vcmpeq m a kd va vb ty k) s
def execVcmpne (m : Mods) (a : Arith) (kd : KReg) (va vb : VReg) (ty : Ty) (k : KReg) (s : State) : Out := vectorInstr m [] (.vcmpne m a kd va vb ty k) s
def execVcmplt (m : Mods) (a : Arith) (kd : KReg) (va vb : VReg) (ty : Ty) (k : KReg) (s : State) : Out := vectorInstr m [] (.vcmplt m a kd va vb ty k) s
def execVcmple (m : Mods) (a : Arith) (kd : KReg) (va vb : VReg) (ty : Ty) (k : KReg) (s : State) : Out := vectorInstr m [] (.vcmple m a kd va vb ty k) s
def execVsel (m : Mods) (a : Arith) (vd va vb : VReg) (kc : KReg) (ty : Ty) (k : KReg) (s : State) : Out := vectorInstr m [] (.vsel m a vd va vb kc ty k) s
def execKand (m : Mods) (kd ka kb : KReg) (s : State) : Out := vectorInstr m [] (.kand m kd ka kb) s
def execKor (m : Mods) (kd ka kb : KReg) (s : State) : Out := vectorInstr m [] (.kor m kd ka kb) s
def execKxor (m : Mods) (kd ka kb : KReg) (s : State) : Out := vectorInstr m [] (.kxor m kd ka kb) s
def execKnot (m : Mods) (kd ka : KReg) (s : State) : Out := vectorInstr m [] (.knot m kd ka) s
def execVcvt (m : Mods) (a : Arith) (vd va : VReg) (tt ty : Ty) (k : KReg) (s : State) : Out := vectorInstr m [] (.vcvt m a vd va tt ty k) s
def execVwid (m : Mods) (a : Arith) (vd va : VReg) (tt ty : Ty) (k : KReg) (s : State) : Out := vectorInstr m [] (.vwid m a vd va tt ty k) s
def execVnar (m : Mods) (a : Arith) (vd va : VReg) (tt ty : Ty) (k : KReg) (s : State) : Out := vectorInstr m [] (.vnar m a vd va tt ty k) s
def execVbcst (m : Mods) (vd : VReg) (sa : SReg) (ty : Ty) (k : KReg) (s : State) : Out := vectorInstr m [sa] (.vbcst m vd sa ty k) s
def execVext (m : Mods) (sd : SReg) (va : VReg) (sb : SReg) (ty : Ty) (s : State) : Out := vectorInstr m [sb, sd] (.vext m sd va sb ty) s
def execVperm (m : Mods) (vd va vb : VReg) (ty : Ty) (k : KReg) (s : State) : Out := vectorInstr m [] (.vperm m vd va vb ty k) s
def execVshuf (m : Mods) (vd va vb : VReg) (pat : BitVec 6) (ty : Ty) (k : KReg) (s : State) : Out := vectorInstr m [] (.vshuf m vd va vb pat ty k) s
def execVlrot (m : Mods) (vd va : VReg) (sb : SReg) (ty : Ty) (k : KReg) (s : State) : Out := vectorInstr m [sb] (.vlrot m vd va sb ty k) s
def execVgsum (m : Mods) (a : Arith) (vd va : VReg) (g : BitVec 6) (ty : Ty) (k : KReg) (s : State) : Out := vectorInstr m [] (.vgsum m a vd va g ty k) s
def execVgmax (m : Mods) (a : Arith) (vd va : VReg) (g : BitVec 6) (ty : Ty) (k : KReg) (s : State) : Out := vectorInstr m [] (.vgmax m a vd va g ty k) s
def execVgmin (m : Mods) (a : Arith) (vd va : VReg) (g : BitVec 6) (ty : Ty) (k : KReg) (s : State) : Out := vectorInstr m [] (.vgmin m a vd va g ty k) s
def execVqnt (m : Mods) (a : Arith) (vd va vs : VReg) (slice : BitVec 6) (ty : Ty) (s : State) : Out := vectorInstr m [] (.vqnt m a vd va vs slice ty) s
def execVld (m : Mods) (mm : MemMod) (vd : VReg) (sa : SReg) (imm : BitVec 6) (ty : Ty) (k : KReg) (s : State) : Out := vectorInstr m [sa] (.vld m mm vd sa imm ty k) s
def execVst (m : Mods) (mm : MemMod) (vd : VReg) (sa : SReg) (imm : BitVec 6) (ty : Ty) (k : KReg) (s : State) : Out := vectorInstr m [sa] (.vst m mm vd sa imm ty k) s
def execVldu (m : Mods) (mm : MemMod) (vd : VReg) (sa : SReg) (imm : BitVec 6) (ty : Ty) (k : KReg) (s : State) : Out := vectorInstr m [sa] (.vldu m mm vd sa imm ty k) s
def execVstm (m : Mods) (mm : MemMod) (vd : VReg) (sa : SReg) (imm : BitVec 6) (ty : Ty) (k : KReg) (s : State) : Out := vectorInstr m [sa] (.vstm m mm vd sa imm ty k) s
def execVgath (m : Mods) (mm : MemMod) (vd : VReg) (sa : SReg) (vc : VReg) (imm : BitVec 6) (ty : Ty) (k : KReg) (s : State) : Out := vectorInstr m [sa] (.vgath m mm vd sa vc imm ty k) s
def execVscat (m : Mods) (mm : MemMod) (vd : VReg) (sa : SReg) (vc : VReg) (imm : BitVec 6) (ty : Ty) (k : KReg) (s : State) : Out := vectorInstr m [sa] (.vscat m mm vd sa vc imm ty k) s

/-- VDEC counts itself at dispatch, and raises BOUNDS beyond what CPYDs have declared (R184). -/
def execVdec (m : Mods) (vd : VReg) (s : State) : Out :=
  queued m ⟨.V, [], 0, 0, false, 0⟩ (.vdec m vd) none
    (fun t => if t.declared < t.vdecs + 1 then some (plainTrap cBounds) else none)
    (fun t _ _ => { t with vdecs := t.vdecs + 1 }) s

/-! ### Vector memory accesses (R180 to R182) -/

/-- One element access: its lane (its byte for VLDU and VSTM), its address and its bytes. -/
structure LaneAcc where
  lane : Nat
  addr : Word
  size : Nat
  deriving DecidableEq, Repr

/-- The active lanes. -/
def activeLanes (k : BitVec 1024) (l : Nat) : List Nat := (List.range l).filter (fun i => k.getLsbD i)

/-- The bytes of an element, one for an INT4 lane's. -/
def laneBytes (ty : Ty) : Nat := max 1 (ty.width / 8)

/-- The first byte of a lane in a contiguous form. -/
def laneOffset (ty : Ty) (i : Nat) : Nat := ty.width * i / 8

/-- The accesses of VLD and VST: one per active lane. (Log entry 26, DEDUCED, unsafe.) -/
def contiguousAccs (a : Word) (ty : Ty) (ls : List Nat) : List LaneAcc :=
  ls.map (fun i => ⟨i, a + word (laneOffset ty i), laneBytes ty⟩)

/-- The bytes that active lanes cover, ascending. -/
def coveredBytes (ty : Ty) (ls : List Nat) : List Nat :=
  ((ls.map (fun i => (List.range (laneBytes ty)).map (fun j => laneOffset ty i + j))).flatten).eraseDups

/-- The accesses of VLDU and VSTM: one per byte. -/
def byteAccs (a : Word) (bs : List Nat) : List LaneAcc := bs.map (fun j => ⟨j, a + word j, 1⟩)

/-- The accesses of VGATH and VSCAT. -/
def gatherAccs (base : Word) (imm : BitVec 6) (t : Strand) (vc : VReg) (ty : Ty) (ls : List Nat) : List LaneAcc :=
  let offs := ((List.range (gathRegs ty)).map (fun j => lanesOf 32 (t.getV (regOf vc j)))).flatten.toArray
  ls.map (fun i => ⟨i, base + (BitVec.ofInt 64 (signedOf 32 (offs.getD i 0)) + imm.signExtend 64) * word (laneBytes ty), laneBytes ty⟩)

/-- TADDR and TINFO of a vector memory fault (R181). -/
def laneTrap (i : Nat) (t : TrapInfo) : TrapInfo :=
  if t.cause = cMemUe then { t with info := t.info + word (i <<< 16) }
  else if t.cause = cFootprint ∨ t.cause = cFootprintRead then t
  else { t with info := word i }

def laneErr (i : Nat) : AccErr → AccErr
  | .trap t => .trap (laneTrap i t)
  | .bad t l w => .bad (laneTrap i t) l w
  | .want pa => .want pa

/-- The checks of one access: the alignment, the end of the window a contiguous form starts in, its place, and the walk's
footprint (R25, R180, R181, R273, R274). -/
def State.laneCheck (s : State) (n : StrandId) (need : Need) (p : Option Permit) (aligned : Bool) (start : Option Region)
    (x : LaneAcc) : Except AccErr (Loc × Option TlbEntry) :=
  let c := s.curCtx n
  if !aligned then .error (.trap (laneTrap x.lane (addrTrap cAlign x.addr)))
  else if (match start with
      | some r => r != Region.none && c.region x.addr != r
      | none => false) then .error (.trap (laneTrap x.lane (addrTrap cBounds x.addr)))
  else
    match s.unitPlace n c .core need x.addr with
    | .error e => .error (laneErr x.lane e)
    | .ok r =>
      match (if need = Need.write then writeFault p x.addr x.size else readFault p x.addr x.size) with
      | some t => .error (.trap t)
      | none => .ok r

/-- Every access in ascending order: their places, or the first fault (R181). -/
def State.laneChecks (s : State) (n : StrandId) (need : Need) (p : Option Permit) (aligned : Word → Bool) (start : Option Region) :
    List LaneAcc → Except AccErr (List (LaneAcc × Loc × Option TlbEntry))
  | [] => .ok []
  | x :: xs =>
    match s.laneCheck n need p (aligned x.addr) start x with
    | .error e => .error e
    | .ok r =>
      match s.laneChecks n need p aligned start xs with
      | .error e => .error e
      | .ok rs => .ok ((x, r) :: rs)

/-- The operand log has an entry for a queued instruction (R327). -/
def Strand.logRoom (t : Strand) : Bool := !t.logFull

/-- A vector load starts: its reads, and a pending write whose data has not arrived (R156, R181). -/
def vloadStart (s : State) (n : StrandId) (e : QEntry) (vd : VReg) (ls : List Nat) (accs : List LaneAcc)
    (aligned : Word → Bool) (start : Option Region) : Start :=
  if !(s.strand n).logRoom then .wait
  else
    match s.laneChecks n .read e.permit aligned start accs with
    | .error x => accErrStart s n e x
    | .ok rs =>
      let s := rs.foldl (fun s r => s.noteDdp r.2.2) s
      let old := (s.strand n).getV vd
      let s := s.modStrand n (fun t => { t with pend := t.pend ++ [⟨6, e.seq, [.v vd old], 0, rs.isEmpty⟩] })
      .go s { e with passed := true, work := { Work.none with reads := rs.map (fun r => (r.2.1, r.1.size)), nums := ls } }

/-- One store access with its data, and the bits it writes. -/
def laneWrite (p : Option Permit) (x : LaneAcc × Loc × Option TlbEntry) (bs : List Byte) (mask : Byte) : List EWrite :=
  (keptRuns p x.1.addr x.2.1 bs).map (fun w => { w with mask := mask })

/-- A vector store starts: its writes, in ascending order, without the bytes a walk suppresses. -/
def vstoreStart (s : State) (n : StrandId) (e : QEntry) (accs : List LaneAcc) (aligned : Word → Bool) (start : Option Region)
    (data : LaneAcc → List Byte × Byte) : Start :=
  if !(s.strand n).logRoom then .wait
  else
    match s.laneChecks n .write e.permit aligned start accs with
    | .error x => accErrStart s n e x
    | .ok rs =>
      let s := rs.foldl (fun s r => s.noteDdp r.2.2) s
      let ws := (rs.map (fun r => laneWrite e.permit r (data r.1).1 (data r.1).2)).flatten
      let supp := (((rs.map (fun r => (List.range r.1.size).map (fun j => r.1.addr + word j))).flatten.eraseDups).filter
        (fun a => match writeVerdict e.permit a with
          | .suppress => true
          | _ => false)).length
      .go s { e with passed := true, work := { Work.none with writes := ws, supp := supp } }

/-- The bytes a store takes from a register for an access, and the bits of each it writes. -/
def storeLane (x : BitVec 4096) (ty : Ty) (a : LaneAcc) : List Byte × Byte :=
  let p := x.toNat >>> (ty.width * a.lane) % 2 ^ ty.width
  if ty = .int4 then (if a.lane % 2 = 0 then ([BitVec.ofNat 8 p], 0x0F) else ([BitVec.ofNat 8 (p * 16)], 0xF0))
  else (natBytes (laneBytes ty) p, 0xFF)

/-- Byte `j` of a register. -/
def regByte (x : BitVec 4096) (j : Nat) : Byte := x.extractLsb' (8 * j) 8

/-- The patterns that a load's bytes give its lanes, the bytes in the order of their accesses. -/
def loadedLanes (ty : Ty) (ls : List Nat) (perByte : Bool) (got : List Byte) : List (Nat × Nat) :=
  let k := laneBytes ty
  let val (i : Nat) (bs : List Byte) : Nat :=
    if ty = .int4 then (bytesNat bs) >>> (4 * (i % 2)) % 16 else bytesNat bs
  if perByte then
    let at_ := (coveredBytes ty ls).zip got
    ls.map (fun i => (i, val i ((List.range k).map (fun j => ((at_.find? (fun p => p.1 == laneOffset ty i + j)).map (·.2)).getD 0))))
  else (ls.zip (chunks k ls.length got)).map (fun p => (p.1, val p.1 p.2))

/-- A register with the patterns of some lanes replaced. -/
def withLanes (ty : Ty) (x : BitVec 4096) (vals : List (Nat × Nat)) : BitVec 4096 :=
  ofLanes ty.width ((lanesOf ty.width x).mapIdx (fun i p => ((vals.find? (fun v => v.1 == i)).map (·.2)).getD p))

/-- The pending write of an entry takes its load's lanes. -/
def Pending.arrive (seq : Nat) (vd : VReg) (ty : Ty) (vals : List (Nat × Nat)) (p : Pending) : Pending :=
  if p.seq = seq then
    { p with ready := true, dests := p.dests.map (fun d => match d with
      | .v r x => if r = vd then .v r (withLanes ty x vals) else .v r x
      | d => d) }
  else p

/-- A load's data has arrived: its pending write holds its value, in what an unwind would restore of it as well (R92, R156). -/
def State.loadArrived (s : State) (n : StrandId) (e : QEntry) (vd : VReg) (ty : Ty) (perByte : Bool) : State :=
  let arrive : Pending → Pending := Pending.arrive e.seq vd ty (loadedLanes ty e.work.nums perByte e.work.got)
  let patch : QEntry → QEntry := fun x => { x with snap := x.snap.map (fun v => { v with pend := v.pend.map arrive }) }
  s.modStrand n (fun t => { t with pend := t.pend.map arrive, queues := t.queues.map (List.map patch) })

/-- The address of VLD and VST: 64-byte steps; and of VLDU and VSTM: bytes (R180). -/
def wideAddr (base : Word) (imm : BitVec 6) : Word := base + 64 * imm.signExtend 64
def byteAddr (base : Word) (imm : BitVec 6) : Word := base + imm.signExtend 64

end Sys2Proof.Machine
end

