-- ==== Sys2Proof/Machine/Engine.lean ====
section
/-! DEFINITION. The start of a queue's head and the completion of a started instruction (R80, R188, R252), the vector engine's
cycles (R155 to R159), the resumption of a stalled dispatch (R17), and the tile store's sinks and raises (R86 to R88). -/

namespace Sys2Proof.Machine

/-! ### What a vector instruction computes at its start, and its latency (R158) -/

/-- The latency and the result of a vector instruction that reads registers alone. -/
def vectorOp (t : Strand) (sc : Nat → Word) : Instr → Option (Nat × VResult)
  | .vadd _ a vd va vb ty k => some (4, vec2 t vd va vb ty k a.bit30 (laneAdd a ty))
  | .vsub _ a vd va vb ty k => some (4, vec2 t vd va vb ty k a.bit30 (laneSub a ty))
  | .vmul _ a vd va vb ty k => some (5, vec2 t vd va vb ty k a.bit30 (laneMul a ty))
  | .vfma _ a vd va vb vc ty k => some (5, vec3 t vd va vb vc ty k a.bit30 (laneFma a ty))
  | .vfms _ a vd va vb vc ty k => some (5, vec3 t vd va vb vc ty k a.bit30 (laneFms a ty))
  | .vdiv _ a vd va vb ty k => some (16, vec2 t vd va vb ty k a.bit30 (laneDiv a ty))
  | .vmin _ a vd va vb ty k => some (4, vec2 t vd va vb ty k a.bit30 (laneMinMax false ty a.bit31))
  | .vmax _ a vd va vb ty k => some (4, vec2 t vd va vb ty k a.bit30 (laneMinMax true ty a.bit31))
  | .vabs _ a vd va ty k => some (2, vec1 t vd va ty k a.bit30 (laneSign ty a.sat Num.abs (fun i => i.natAbs)))
  | .vneg _ a vd va ty k => some (2, vec1 t vd va ty k a.bit30 (laneSign ty a.sat Num.neg (fun i => -i)))
  | .vand _ a vd va vb ty k => some (2, vec2 t vd va vb ty k a.bit30 (pat2 Nat.land))
  | .vor _ a vd va vb ty k => some (2, vec2 t vd va vb ty k a.bit30 (pat2 Nat.lor))
  | .vxor _ a vd va vb ty k => some (2, vec2 t vd va vb ty k a.bit30 (pat2 Nat.xor))
  | .vnot _ a vd va ty k => some (2, vec1 t vd va ty k a.bit30 (fun x => (2 ^ ty.width - 1 - x, 0)))
  | .vshl _ a vd va vb ty k => some (2, vec2 t vd va vb ty k a.bit30 (laneShl a ty))
  | .vshr _ a vd va vb ty k => some (2, vec2 t vd va vb ty k a.bit30 (pat2 (laneShr ty)))
  | .vsar _ a vd va vb ty k => some (2, vec2 t vd va vb ty k a.bit30 (laneSar ty))
  | .vfshl _ a vd va vb vc ty k => some (2, vec3 t vd va vb vc ty k a.bit30 (fun x y n => (laneFunnelL ty x y n, 0)))
  | .vfshr _ a vd va vb vc ty k => some (2, vec3 t vd va vb vc ty k a.bit30 (fun x y n => (laneFunnelR ty x y n, 0)))
  | .vcmpeq _ a kd va vb ty k => some (2, vecCmp .eq a t kd va vb ty k)
  | .vcmpne _ a kd va vb ty k => some (2, vecCmp .ne a t kd va vb ty k)
  | .vcmplt _ a kd va vb ty k => some (2, vecCmp .lt a t kd va vb ty k)
  | .vcmple _ a kd va vb ty k => some (2, vecCmp .le a t kd va vb ty k)
  | .vsel _ a vd va vb kc ty k => some (2, vecSel a t vd va vb kc ty k)
  | .kand _ kd ka kb => some (1, vecK t kd ka kb (fun x y => x &&& y))
  | .kor _ kd ka kb => some (1, vecK t kd ka kb (fun x y => x ||| y))
  | .kxor _ kd ka kb => some (1, vecK t kd ka kb (fun x y => x ^^^ y))
  | .knot _ kd ka => some (1, vecK t kd ka ka (fun x _ => ~~~x))
  | .vcvt _ a vd va tt ty k => some (4, vecCvt a t vd va tt ty k)
  | .vwid _ a vd va tt ty k => some (4, vecWid a t vd va tt ty k)
  | .vnar _ a vd va tt ty k => some (4, vecNar a t vd va tt ty k)
  | .vbcst _ vd _ ty k => some (2, vecBcst t (sc 0) vd ty k)
  | .vext _ sd va _ ty => some (4, ([.s sd (vecExtValue t va (sc 0) ty)], 0))
  | .vperm _ vd va vb ty k => some (4, vecPerm t vd va vb ty k)
  | .vshuf _ vd va vb p ty k => some (4, vecShuf t vd va vb p ty k)
  | .vlrot _ vd va _ ty k => some (4, vecLrot t vd va (sc 0) ty k)
  | .vrsum _ a vd va ty k => some (10, vecReduce .sum a t vd va ty.lanes.log2 ty k)
  | .vrmax _ a vd va ty k => some (10, vecReduce .max a t vd va ty.lanes.log2 ty k)
  | .vrmin _ a vd va ty k => some (10, vecReduce .min a t vd va ty.lanes.log2 ty k)
  | .vgsum _ a vd va g ty k => some (10, vecReduce .sum a t vd va g.toNat ty k)
  | .vgmax _ a vd va g ty k => some (10, vecReduce .max a t vd va g.toNat ty k)
  | .vgmin _ a vd va g ty k => some (10, vecReduce .min a t vd va g.toNat ty k)
  | .vscan _ a vd va ty k => some (12, vecScan false a t vd va ty k)
  | .vscanm _ a vd va ty k => some (12, vecScan true a t vd va ty k)
  | .vsin _ a vd va ty k => some (16, vec1 t vd va ty k a.bit30 (laneTrans (sinCos false) a ty))
  | .vcos _ a vd va ty k => some (16, vec1 t vd va ty k a.bit30 (laneTrans (sinCos true) a ty))
  | .vexp _ a vd va ty k => some (16, vec1 t vd va ty k a.bit30 (laneTrans expNum a ty))
  | .vlog _ a vd va ty k => some (16, vec1 t vd va ty k a.bit30 (laneTrans logNum a ty))
  | .vrcp _ a vd va ty k => some (16, vec1 t vd va ty k a.bit30 (laneTrans rcpNum a ty))
  | .vrsq _ a vd va ty k => some (16, vec1 t vd va ty k a.bit30 (laneTrans rsqNum a ty))
  | .vqnt _ a vd va vs slice ty => some (12, vecQnt a t vd va vs slice.toNat ty)
  | _ => none

/-- The pending writes of a result: VQNT's two destinations are two (R330). -/
def pendings (i : Instr) (lat seq : Nat) (r : VResult) : List Pending :=
  match i with
  | .vqnt _ _ _ _ _ _ _ => r.1.map (fun d => ⟨lat, seq, [d], r.2, true⟩)
  | _ => [⟨lat, seq, r.1, r.2, true⟩]

/-- A start that leaves a pending write (R156, R159). -/
def pendStart (s : State) (n : StrandId) (e : QEntry) (lat : Nat) (r : VResult) : Start :=
  .go (s.modStrand n (fun t => { t with pend := t.pend ++ pendings e.instr lat e.seq r }))
    { e with passed := true }

/-- The region that a contiguous form may not leave. -/
def startRegion (s : State) (n : StrandId) (a : Word) : Option Region := some ((s.curCtx n).region a)

/-- VLD and VST share their alignment rule (R180). -/
def lineAligned (a : Word) (_ : Word) : Bool := a.toNat % 64 == 0

/-- The alignment rule of VGATH and VSCAT (R180). -/
def elementAligned (ty : Ty) (x : Word) : Bool := x.toNat % laneBytes ty == 0

/-- The lanes and the accesses of a vector memory instruction, or none for another instruction. -/
def vectorMemoryStart (s : State) (n : StrandId) (e : QEntry) : Option Start :=
  let t := s.strand n
  let sa := e.scalar 0
  match e.instr with
  | .vld _ _ vd _ imm ty k =>
    let a := wideAddr sa imm
    let ls := activeLanes (t.getK k) ty.lanes
    some (vloadStart s n e vd ls (contiguousAccs a ty ls) (lineAligned a) (startRegion s n a))
  | .vst _ _ vd _ imm ty k =>
    let a := wideAddr sa imm
    let ls := activeLanes (t.getK k) ty.lanes
    some (vstoreStart s n e (contiguousAccs a ty ls) (lineAligned a) (startRegion s n a) (storeLane (t.getV vd) ty))
  | .vldu _ _ vd _ imm ty k =>
    let a := byteAddr sa imm
    let ls := activeLanes (t.getK k) ty.lanes
    some (vloadStart s n e vd ls (byteAccs a (coveredBytes ty ls)) (fun _ => true) (startRegion s n a))
  | .vstm _ _ vd _ imm _ k =>
    let a := byteAddr sa imm
    some (vstoreStart s n e (byteAccs a (activeLanes (t.getK k) 512)) (fun _ => true) (startRegion s n a)
      (fun x => ([regByte (t.getV vd) x.lane], 0xFF)))
  | .vgath _ _ vd _ vc imm ty k =>
    let ls := activeLanes (t.getK k) ty.lanes
    some (vloadStart s n e vd ls (gatherAccs sa imm t vc ty ls) (elementAligned ty) none)
  | .vscat _ _ vd _ vc imm ty k =>
    let ls := activeLanes (t.getK k) ty.lanes
    some (vstoreStart s n e (gatherAccs sa imm t vc ty ls) (elementAligned ty) none (storeLane (t.getV vd) ty))
  | _ => none

/-- VDEC (R183, R215): it pops the FIFO, or meets a failed block there. -/
def vdecStart (s : State) (n : StrandId) (e : QEntry) (vd : VReg) : Start :=
  match (s.strand n).fifo with
  | [] => .wait
  | .bad sub blk a :: _ => .fault (ratioTrap a sub blk) s
  | .vec x :: r => pendStart (s.modStrand n (fun t => { t with fifo := r })) n e 4 ([.v vd x], 0)

/-- TRV and TCV (R197): the checks on the tile, then the lanes. -/
def cellsStart (s : State) (n : StrandId) (e : QEntry) (a : Arith) (vd : VReg) (ty : Ty) (pos : Nat → Nat × Nat) : Start :=
  match (s.strand n).operands e with
  | .error t => .fault t s
  | .ok ops =>
    match ops with
    | [x] =>
      if x.hdr.spn ≠ .dense then .fault (hdrTrap cHdrUnsupported 3 0) s
      else match checkOperands [0] ops with
        | .error t => .fault t s
        | .ok (ops, fixed, k) =>
          let lanes := cellLanes a ty (ops.getD 0 x) pos
          pendStart (s.repair n e fixed k) n e 6 ([.v vd (ofLanes ty.width (lanes.map (·.1)))], orFlags lanes)
    | _ => .wait

/-- The start of an instruction of the V queue. -/
def vectorStart (s : State) (n : StrandId) (e : QEntry) : Start :=
  match vectorOp (s.strand n) e.scalar e.instr with
  | some (lat, r) => pendStart s n e lat r
  | none =>
    match vectorMemoryStart s n e with
    | some st => st
    | none =>
      match e.instr with
      | .vdec _ vd => vdecStart s n e vd
      | .tbeg _ fmt _ => tbegStart fmt s n e
      | .trow _ a va ty => trowStart a va ty s n e
      | .tend _ => tendStart s n e
      | .trv _ a vd _ _ ty => cellsStart s n e a vd ty (fun i => ((e.scalar 0).toNat, (e.scalar 1).toNat + i))
      | .tcv _ a vd _ ty => cellsStart s n e a vd ty (fun i => (i, (e.scalar 0).toNat))
      | _ => .wait

/-! ### Matrix commands (R198 to R207) -/

/-- What a matrix command computes from its operands, the top first. -/
def matrixOp (e : QEntry) (ops : List Tile) : Except TrapInfo MOut :=
  match e.instr with
  | .mma _ => runMma ops
  | .mmac _ => runMmac ops
  | .madd _ a => runElementwise a (Num.add a.rm) ops
  | .msub _ a => runElementwise a (fun x y => Num.add a.rm x y.neg) ops
  | .mmul _ a => runElementwise a Num.mul ops
  | .mscal _ a _ => runMscal a (e.scalar 0) ops
  | .mcvt _ a fmt scl => runMcvt a fmt scl ops
  | .mtrn _ => runMtrn ops
  | .mzero _ fmt _ acci => runMzero fmt (e.scalar 0) acci
  | .mhdr _ _ => runMhdr (e.scalar 0) ops
  | .mspar _ spn => runMspar spn ops
  | .mrsum _ => runMrsum ops
  | _ => runMchk ops

/-- The space a command's result takes (R85). -/
def MOut.space (m : MOut) : Nat := (m.result.map (fun x => x.hdr.space)).getD 0

/-- A matrix command starts: its operands are read and checked, its result's header is fixed, and the array has it. -/
def commandStart (s : State) (n : StrandId) (e : QEntry) : Start :=
  match (s.strand n).operands e with
  | .error t => .fault t s
  | .ok ops =>
    match matrixOp e ops with
    | .error t => .fault t s
    | .ok m =>
      if !s.hasSpace n m.space then .space m.space
      else
        let s := s.repair n e m.fixed m.repairs
        let s := match m.result, e.results with
          | some x, id :: _ => s.modStrand n (fun t => t.setHeader id x.hdr)
          | _, _ => s
        .go s { e with passed := true, work := { e.work with tile := m.result, flags := m.flags, nums := [arrayCycles e.instr ops m.result] } }

/-- The commands under the grant that a Pod's next recorded surrender ends, while the partition replays (R366). -/
def State.recordedRun (s : State) (pod : PodId) : Option Nat :=
  (s.leasePart pod).bind (fun p =>
    let x := s.part p
    ((x.recSched.drop x.repPos).find? (fun r =>
      r.type == 0x05 && decide (256 ≤ r.src) && decide (r.src < 304) && bits (r.w 2) 56 8 == pod.val)).map (fun r => r.w 3))

/-- The holder may run one more command under its grant: by R317, or by the recorded surrender while the partition replays. -/
def State.runOpen (s : State) (n : StrandId) : Bool :=
  let l := (s.pod (podOf n)).lease
  if s.leaseReplays (podOf n) then (match s.recordedRun (podOf n) with
    | some k => decide (l.done < k)
    | none => true)
  else l.done = 0 || (decide (l.done < l.run) && !s.agedRequest (podOf n) n)

/-- The start of an instruction of the M queue: LREL follows every older command; the rest need the lease (R24, R208, R317). A
wait for the lease counts LSTALL. -/
def matrixStart (s : State) (n : StrandId) (e : QEntry) : Start :=
  let l := (s.pod (podOf n)).lease
  if (s.strand n).matrixBusy then .wait
  else match e.instr with
    | .lrel _ => .go (s.surrenderIfHeld n 0) { e with stage := .done, passed := true }
    | .lacq _ => if l.holder = some n ∧ l.owed.isNone then .go s { e with stage := .done, passed := true } else .hold (fun s => s.countStrand n 4 1)
    | _ =>
      if l.holder ≠ some n ∨ l.owed.isSome ∨ !s.runOpen n then .hold (fun s => s.countStrand n 4 1)
      else
        let run := if l.done = 0 then runLimit e.leasectl else l.run
        commandStart (s.modPod (podOf n) (fun x => { x with lease := { l with run := run, idleSince := 0 } })) n e

/-! ### The L and S queues -/

/-- A tag instruction reads TAGS (R210). -/
def tagStart (s : State) (n : StrandId) (e : QEntry) : Start :=
  let t := s.strand n
  let m := e.scalar 0
  match e.instr with
  | .tagff _ sd _ => .go (s.setStrand n (t.setS sd (word (lowestBit (t.tags &&& m))))) { e with stage := .done, passed := true }
  | .tagcl _ _ => .go (s.setStrand n { t with tags := t.tags &&& ~~~m }) { e with stage := .done, passed := true, cleared := t.tags &&& m }
  | _ => .go s { e with passed := true }

/-- The start of a copy command. -/
def copyStart (s : State) (n : StrandId) (e : QEntry) : Start :=
  match e.instr with
  | .cpy _ _ _ _ _ _ => cpyStart s n e
  | .cpyg _ _ _ _ _ _ _ => cpygStart s n e
  | .cpyd _ _ _ _ _ => cpydStart s n e
  | .cpye _ _ _ _ _ _ _ => cpyeStart s n e
  | _ => collStart s n e

/-- The start of an instruction of the L or S queue. -/
def transferStart (s : State) (n : StrandId) (e : QEntry) : Start :=
  let t := s.strand n
  match Instr.engine e.instr with
  | some .load => if !e.granted then .wait else match e.instr with
    | .tld _ _ _ => tldStart s n e
    | .tldh _ _ _ _ _ => tldhStart s n e
    | .tldr _ _ fmt _ _ _ => tldrStart fmt s n e
    | _ => .wait
  | some .store => if e.granted then tstStart s n e else .wait
  | some .copy =>
    if !e.granted || t.tagWaits || t.tagBusy e || t.logFull then .wait
    else (copyStart s n e).andThen (fun s => s.modPod (podOf n) (fun x => { x with engines := x.engines.set 4 none }))
  | _ => if t.tagWaits then .wait else tagStart s n e

/-! ### ENGINE_INSTRUCTION_START (R80, R100, R188) -/

/-- SC of an instruction. -/
def Instr.spacing (i : Instr) : Nat := (i.fields.map (fun f => f.sc.toNat)).getD 0

/-- The place of a queue among the units that R100 spaces. -/
def QName.unit : QName → Fin 4
  | .L => 1 | .M => 2 | .S => 3 | .V => 0

/-- The outcome of a start put into the state; the queue's spacing counts from it. -/
def State.applyStart (s : State) (n : StrandId) (q : QName) (e : QEntry) : Start → State
  | .wait => s
  | .space _ => s
  | .hold f => f s
  | .go s' e' => ((s'.markStarted n q e').modStrand n (fun t => t.spaceFrom (QName.unit q))).tidyQueues n
  | .fault t s' => s'.markFault n e.seq t

/-- What an unwind restores of the vector engine (R92). -/
def Strand.snap (t : Strand) : VSnap := ⟨t.v, t.k, t.vstat, t.pend, t.vgap, t.openTile, t.fifo⟩

/-- The vector engine and the queues of an earlier strand. -/
def Strand.enginesOf (t : Strand) (old : Strand) : Strand :=
  { t with v := old.v, k := old.k, vstat := old.vstat, pend := old.pend, vgap := old.vgap, queues := old.queues }

/-- The vector engine starts its head: the cycles of its spacing pass, then the cycle of its start (R155, R156). A wait or a fault
counts no cycle, so that the instruction meets the same ones when it is tried again (R159). -/
def State.startVector (s : State) (n : StrandId) (e : QEntry) : State :=
  let t := s.strand n
  let w := Instr.spacing e.instr - t.vgap
  if t.countBlocked (w + 1) then s
  else
    let e := { e with snap := some t.snap }
    let s1 := s.setStrand n { t.endCycles w with vgap := t.vgap + w }
    let finish (s : State) (e : QEntry) : State :=
      ((s.markStarted n .V e).modStrand n (fun t => { t.endCycle with vgap := 0 })).tidyQueues n
    if !e.holds then finish s1 { e with stage := .done, passed := true }
    else match vectorStart s1 n e with
      | .go s2 e2 => finish s2 e2
      | .fault tr s2 => (s2.modStrand n (fun x => x.enginesOf t)).markFault n e.seq tr
      | .hold f => f s
      | .wait => s
      | .space _ => s

/-- The start of an instruction of the L, M or S queue. A waiting WTALL or WTANY blocks the L queue for a guard-false one too
(R210). -/
def queueStart (q : QName) (s : State) (n : StrandId) (e : QEntry) : Start :=
  if !e.holds then (if q == .L && (s.strand n).tagWaits then .wait else .go s { e with stage := .done, passed := true })
  else if q = .M then matrixStart s n e else transferStart s n e

/-- An error injected into an operand tile is found before the tile is read (R390). -/
def State.tileErrorDue (s : State) (n : StrandId) (e : QEntry) : Bool :=
  e.holds && s.mgmt.errTiles.any (fun x => x.1 == n && e.tiles.contains x.2.1)

/-- ENGINE_INSTRUCTION_START: the head of a queue starts, or waits on a token (KSTALL) or an empty tile (TSTALL), for its spacing
(R100), a FENCE (R231), or what its own rule asks. -/
def execEngineInstructionStart (n : StrandId) (q : QName) (s : State) : Out :=
  let t := s.strand n
  match t.qhead? q with
  | none => .next s
  | some e =>
    match t.startBlock q e with
    | .other => .next s
    | .token => .next (s.countStrand n 3 1)
    | .tile => .next ((if q = .S then s.passStore n e else s).countStrand n 2 1)
    | .free =>
      if s.fenced n e || s.tileErrorDue n e then .next s
      else if q = .V then .next (s.startVector n e)
      else if !t.spaced (QName.unit q) (Instr.mods e.instr) then .next (s.modStrand n (fun t => t.spaceOn (QName.unit q)))
      else .next (s.applyStart n q e (queueStart q s n e))

/-! ### ENGINE_INSTRUCTION_COMPLETE (R188, R252) -/

/-- Every access of a started instruction is made: what comes next. -/
def nextPhase (s : State) (n : StrandId) (q : QName) (e : QEntry) : Start :=
  let done (s : State) : Start := .go s { e with stage := .done, passed := true }
  let stored : Start := if (s.strand n).passedBefore e.seq then done (s.countSupp e.permit e.work.supp) else .wait
  match e.instr with
  | .vld _ _ vd _ _ ty _ => if e.work.reads.isEmpty then .go (s.loadArrived n e vd ty false) e else .wait
  | .vgath _ _ vd _ _ _ ty _ => if e.work.reads.isEmpty then .go (s.loadArrived n e vd ty false) e else .wait
  | .vldu _ _ vd _ _ ty _ => if e.work.reads.isEmpty then .go (s.loadArrived n e vd ty true) e else .wait
  | .vst _ _ _ _ _ _ _ | .vstm _ _ _ _ _ _ _ | .vscat _ _ _ _ _ _ _ _ => stored
  | .tld _ _ _ | .tldh _ _ _ _ _ | .tldr _ _ _ _ _ _ => loadPhase s n e
  | .tst _ _ _ | .tstk _ _ _ => stored
  | .cpy _ _ _ _ _ _ => cpyPhase s n e
  | .cpyg _ _ _ _ _ _ lg => cpygPhase lg s n e
  | .cpyd _ mm tag _ _ => if e.work.phase = 0 then cpydHeader tag mm s n e else .wait
  | .cpye _ _ _ _ _ _ wc => cpyePhase wc s n e
  | .coll _ _ _ _ => collPhase s n e
  | .wtall _ _ => if tagsMet true (s.strand n).tags (e.scalar 0) then done s else .wait
  | .wtany _ _ => if tagsMet false (s.strand n).tags (e.scalar 0) then done s else .wait
  | _ =>
    if q ≠ .M then .wait
    else
      let s := match e.work.tile, e.results with
        | some x, id :: _ => s.setFull n id x
        | _, _ => s
      let s := s.countStrand n 6 (e.work.nums.headD 0)
      let l := (s.pod (podOf n)).lease
      done (if l.holder = some n then s.modPod (podOf n) (fun x => { x with lease := { l with done := l.done + 1 } }) else s)

/-- ENGINE_INSTRUCTION_COMPLETE: up to `portion` accesses of a started instruction, then its next phase or its end. -/
def execEngineInstructionComplete (n : StrandId) (q : QName) (seq portion : Nat) (s : State) : Out :=
  match ((s.strand n).queue q).find? (fun e => e.seq == seq) with
  | none => .next s
  | some e =>
    if e.stage ≠ .started ∨ !e.holds ∨ e.fault.isSome then .next s
    else
      let (s1, e1) := s.accesses n (q == .V) e portion
      let s1 := s1.putEntry n e1
      if !e1.work.reads.isEmpty || !e1.work.writes.isEmpty then .next s1
      else match nextPhase s1 n q e1 with
        | .wait => .next s1
        | .space _ => .next s1
        | .hold f => .next (f s1)
        | .go s2 e2 => .next ((s2.putEntry n e2).settleQueues n)
        | .fault t s2 => .next (s2.markFault n seq t)

/-! ### PENDING_WRITE_LAND (R155, R156) -/

/-- The head of the V queue waits on a token, a full tile, the decoder FIFO or a FENCE. -/
def State.vectorWaits (s : State) (n : StrandId) (e : QEntry) : Bool :=
  let t := s.strand n
  match t.startBlock .V e with
  | .token => true
  | .tile => true
  | .other => false
  | .free => s.fenced n e || (e.holds && t.fifo.isEmpty && (match e.instr with
    | .vdec _ _ => true
    | _ => false))

/-- The queue to which an instruction goes (R13). -/
def Instr.queue? (i : Instr) : Option QName :=
  match i with
  | .tld .. | .tldh .. | .tldr .. | .cpy .. | .cpyg .. | .cpyd ..
  | .cpye .. | .coll .. | .wtall .. | .wtany .. | .tagff .. | .tagcl .. => some .L
  | .tst .. | .tstk .. => some .S
  | .mma .. | .mmac .. | .madd .. | .msub .. | .mmul .. | .mscal .. | .mcvt .. | .mtrn .. | .mzero .. | .mhdr ..
  | .mspar .. | .mrsum .. | .mchk .. | .lacq .. | .lrel .. => some .M
  | .tbeg .. | .trow .. | .tend .. | .trv .. | .tcv .. | .vdec .. => some .V
  | i => if (vectorOp Strand.reset (fun _ => 0) i).isSome then some .V else match i with
    | .vld .. | .vst .. | .vldu .. | .vstm .. | .vgath ..
    | .vscat .. => some .V
    | _ => none

/-- An instruction that pushes a new tile. -/
def Instr.makesTile : Instr → Bool
  | .tld _ _ _ | .tldh _ _ _ _ _ | .tldr _ _ _ _ _ _ | .mma _ | .mmac _ | .madd _ _ | .msub _ _ | .mmul _ _ | .mscal _ _ _
  | .mcvt _ _ _ _ | .mtrn _ | .mzero _ _ _ _ | .mhdr _ _ | .mspar _ _ | .mrsum _ | .tbeg _ _ _ => true
  | _ => false

/-- Dispatch of the strand's next instruction is stalled: which queue it waits for (R17, R75). -/
def State.stalledOn (s : State) (n : StrandId) : Option (QName × Bool) :=
  match s.nextOf n with
  | .run i _ => (Instr.queue? i).map (fun q => (q, Instr.makesTile i))
  | _ => none

/-- The next instruction is a vector instruction that waits for a queue entry. -/
def State.poolWaits (s : State) (n : StrandId) : Bool :=
  match s.stalledOn n with
  | some (.V, _) => !s.poolRoom n .V
  | _ => false

/-- PENDING_WRITE_LAND: a cycle in which the vector engine drains, or drains while waiting (R155). -/
def execPendingWriteLand (n : StrandId) (s : State) : Out :=
  let t := s.strand n
  let drains := match t.qhead? .V with
    | none => s.coreWaits n || (!t.pend.isEmpty && s.poolWaits n)
    | some e => !t.pend.isEmpty && s.vectorWaits n e
  if !drains || t.countBlocked 1 then .next s
  else .next ((s.setStrand n { t.endCycle with vgap := t.vgap + 1 }).settleQueues n)

/-! ### DISPATCH_RESUME (R17, R75) -/

/-- DISPATCH_RESUME: the condition that stalled the strand's dispatch holds, and its instruction dispatches next. -/
def execDispatchResume (n : StrandId) (s : State) : Out :=
  match s.stalledOn n with
  | none => .next s
  | some (q, makes) =>
    if s.poolRoom n q && (!makes || (s.strand n).freeId?.isSome) then .next { s with agenda := .strand n :: s.agenda }
    else .next s

/-! ### The tile store (R85 to R89) -/

/-- A tile is an operand or result of a started, uncompleted instruction (R86). -/
def Strand.active (t : Strand) (id : Nat) : Bool :=
  t.entries.any (fun e => e.stage == .started && (e.tiles.contains id || e.results.contains id)) || t.openId == some id

/-- A dispatched, uncompleted instruction names the tile: the oldest one's program-order number (R86, R88). -/
def Strand.namedBy (t : Strand) (id : Nat) : Option Nat :=
  ((t.entries.filter (fun e => e.stage == .waiting && e.tiles.contains id)).map (·.seq)).min?

/-- The deepest and the shallowest depth that references a tile. -/
def Strand.deepest (t : Strand) (id : Nat) : Nat := t.image.length - 1 - t.image.findIdx (· == id)
def Strand.shallowest (t : Strand) (id : Nat) : Nat := t.image.reverse.findIdx (· == id)

/-- The order of R86 in which tiles sink: unnamed ones first, the deepest reference first; then named ones, the youngest
first. A smaller key sinks earlier. -/
def Strand.sinkKey (t : Strand) (id : Nat) : List Nat :=
  match t.namedBy id with
  | none => [0, 1024 - t.deepest id, id]
  | some k => [1, t.nseq - k, id]

/-- The order of R88 in which tiles rise: by the oldest instruction that names them, then by the shallowest reference. -/
def Strand.raiseKey (t : Strand) (id : Nat) : List Nat :=
  match t.namedBy id with
  | some k => [0, k, t.shallowest id]
  | none => [1, 0, t.shallowest id]

/-- A tile may sink. -/
def TileRec.sinkable (t : Strand) (r : TileRec) : Bool := r.full && !r.sunk && !t.active r.id

/-- The space a tile takes. -/
def TileRec.space (r : TileRec) : Nat := (r.hdr.map Header.space).getD 0

/-- A start that waits for space of the tile store. -/
def Start.wantsSpace : Start → Bool
  | .space _ => true
  | _ => false

/-- The tile store needs space of the strand (R86, R88): its resident set is over its quota, a producer at a queue's head or a load
whose header is read finds no space, or a sunk tile that is named does. (Log entry 29, DEDUCED, unsafe.) -/
def State.needsSpace (s : State) (n : StrandId) : Bool :=
  let t := s.strand n
  decide (t.tsquota * 65536 < t.residentBytes) ||
  [QName.L, .M, .V].any (fun q => match t.qhead? q with
    | some e => e.holds && Instr.makesTile e.instr && t.startBlock q e == .free &&
        (if q = .V then vectorStart s n e else queueStart q s n e).wantsSpace
    | none => false) ||
  (t.queue .L).any (fun e => e.stage == .started && Instr.makesTile e.instr && e.work.hdr.isNone && e.work.reads.isEmpty &&
    (nextPhase s n .L e).wantsSpace) ||
  t.tiles.any (fun r => r.sunk && (t.namedBy r.id).isSome && !s.hasSpace n r.space)

/-! ### Slots of the backing region (R87, R89) -/

/-- An image written to a slot line by line, or the fault and the state it is met in. -/
def State.slotWrite (s : State) (n : StrandId) (c : Ctx) : Word → List (List Byte) → Except (TrapInfo × State) State
  | _, [] => .ok s
  | a, b :: bs =>
    match s.translateAs (s.tlbOf n .engine) c TlbEntry.allowsTiles .write a with
    | .error t => .error (t, s)
    | .ok (pa, e) =>
      if s.lineBlocked pa then .error (heldAt pa, s)
      else ((s.noteDdp (some e)).writeLine pa c.part b).slotWrite n c (a + 128) bs

/-- `k` lines of a slot, or the fault; uncorrectable data retires its frame (R385). -/
def State.slotRead (s : State) (n : StrandId) (c : Ctx) (a : Word) : Nat → Except (TrapInfo × State) (List Byte)
  | 0 => .ok []
  | k + 1 =>
    match s.translateAs (s.tlbOf n .engine) c TlbEntry.allowsTiles .read a with
    | .error t => .error (t, s)
    | .ok (pa, _) =>
      if s.lineBlocked pa || s.singleBit pa then .error (heldAt pa, s)
      else if (s.scLine? pa).isNone && s.memError pa == some true then .error (⟨cMemUe, a, 1⟩, s.retireFrame (pa / 65536))
      else match s.slotRead n c (a + 128) k with
        | .ok bs => .ok (s.cohN pa 128 ++ bs)
        | .error e => .error e

/-- The tile store's fault on a slot: a line is waited for; uncorrectable memory marks the tile failed; a translation or
permission fault is the context's, and goes to its service strand as an asynchronous trap. (R89; log entry 65, DESIGN CHOICE, unsafe.) -/
def State.slotFault (s : State) (n : StrandId) (c : Ctx) (id : Nat) (sunk : Bool) (t : TrapInfo) : State :=
  if t.cause = cHeld then s.visitLine c.num t.addr.toNat
  else if t.cause = cMemUe then
    s.modStrand n (fun x => x.modTile id (fun r => { r with sunk := sunk, tile := none, failed := some (r.failed.getD .slot) }))
  else s.modStrand c.service (fun x => if x.async.any (fun y => y.cause == t.cause && y.addr == t.addr) then x
    else { x with async := x.async ++ [addrTrap t.cause t.addr] })

/-- A tile leaves for its slot: its canonical image is written there. -/
def State.sinkTile (s : State) (n : StrandId) (r : TileRec) : State :=
  let gone (s : State) : State :=
    (s.modStrand n (fun t => t.modTile r.id (fun r => { r with sunk := true, tile := none }))).countStrand n 7 1
  match s.ctxOf n, r.tile with
  | some c, some x =>
    match s.slotWrite n c (slotAddress (s.strand n) r.id) (chunks 128 (ceilDiv x.image.length 128) x.image) with
    | .ok s' => gone s'
    | .error (t, s') => s'.slotFault n c r.id true t
  | _, _ => gone s

/-- The tile of an image read back from a slot; a header that fails R33 is marked (R39, R40). -/
def TileRec.fromImage (r : TileRec) (bs : List Byte) : TileRec :=
  match parseHeader (bs.take 32) with
  | .ok (h, _) => { r with sunk := false, hdr := some h, tile := some (readCanonical h bs) }
  | .error sub => { r with sunk := false, failed := some (.header sub) }

/-- A sunk tile comes back from its slot; a failed one has nothing to bring. -/
def State.raiseTile (s : State) (n : StrandId) (r : TileRec) : State :=
  let back (f : TileRec → TileRec) : State := ((s.modStrand n (fun t => t.modTile r.id f)).countStrand n 8 1).settleQueues n
  match s.ctxOf n, r.failed, r.hdr with
  | some c, none, some h =>
    match s.slotRead n c (slotAddress (s.strand n) r.id) (ceilDiv h.imageSize 128) with
    | .ok bs => back (fun r => r.fromImage (bs.take h.imageSize))
    | .error (t, s') => s'.slotFault n c r.id false t
  | _, _, _ => back (fun r => { r with sunk := false })

/-- TILE_SINK: a full tile that no started instruction uses leaves for its slot, in the order of R86, once an injected error is
found. -/
def execTileSink (n : StrandId) (id : Nat) (s : State) : Out :=
  let t := s.strand n
  match t.tile? id with
  | none => .next s
  | some r =>
    if !s.needsSpace n ∨ !TileRec.sinkable t r ∨ s.mgmt.errTiles.any (fun x => x.1 == n && x.2.1 == id) ∨
        t.tiles.any (fun x => TileRec.sinkable t x && keyLess (t.sinkKey x.id) (t.sinkKey id)) then .next s
    else .next (s.sinkTile n r)

/-- A sunk tile is to rise: an instruction names it, or the stack references it and the quota has room (R88). -/
def Strand.toRise (t : Strand) (r : TileRec) : Bool :=
  r.sunk && ((t.namedBy r.id).isSome || (t.image.contains r.id && decide (t.residentBytes + r.space ≤ t.tsquota * 65536)))

/-- TILE_RAISE: the first tile in the order of R88 comes back once there is space for it. -/
def execTileRaise (n : StrandId) (id : Nat) (s : State) : Out :=
  let t := s.strand n
  match t.tile? id with
  | none => .next s
  | some r =>
    if !t.toRise r ∨ !s.hasSpace n r.space ∨ t.tiles.any (fun x => t.toRise x && keyLess (t.raiseKey x.id) (t.raiseKey id)) then .next s
    else .next (s.raiseTile n r)

end Sys2Proof.Machine
end

