-- ==== Sys2Proof/Machine/Sched.lean ====
section
/-! DEFINITION. The sequencer (R20, R22, R264 to R277, R308 to R314): launches that start, units handed out, the cover cursor and
skips, DONE, pre-emption with its stops, kills and resumptions. -/

namespace Sys2Proof.Machine

/-! ### When the walker decides -/

/-- An asynchronous trap of the partition's sequencer has not been taken (R326). -/
def State.walkerTrapPending (s : State) (p : PartId) : Bool :=
  allStrands.any (fun n => (s.strand n).async.any (fun t => t.info.toNat % 512 == seqSource p))

/-- The walker is not stalled (R267, R326), and no world switch is in progress (R347). -/
def State.walkerFree (s : State) (p : PartId) : Bool :=
  !(s.part p).stalled && !(s.part p).switching && !s.walkerTrapPending p

/-- The context's launches may run: it is live, not stopped (R353, R354), and its virtual function is resident (R347). -/
def State.ctxRuns (s : State) (p : PartId) (c : Nat) : Bool :=
  match s.ctx? c with
  | none => false
  | some k => k.live && !k.stopped && !k.quiesced && ((s.part p).resident.isNone || (s.part p).resident == some k.vf)

/-- A record's status words, or its log and map, lie in a line that no access may read or write now (R397). -/
def State.vaHeld (s : State) (c : Nat) (a : Word) : Bool :=
  match s.ctx? c with
  | none => false
  | some k => match s.walk k a with
    | some e => s.lineBlocked (e.pa + (a.toNat - e.va))
    | none => false

/-- The strand is free for a launch (R141, R310). What an earlier launch has left in its class queues goes on to its own context. -/
def State.isFree (s : State) (p : PartId) (n : StrandId) : Bool :=
  let t := s.strand n
  s.partOf n == some p && t.run == .free && t.idle

/-- A free walk slot (R308). -/
def State.freeSlot (s : State) (p : PartId) : Option (Fin 4) := allSlots.find? (fun k => (s.slot p k).isNone)

/-- The launch at the head of the queue, among those whose context may run (R309, R353). -/
def State.headLaunch (s : State) (p : PartId) : Option Launch := (s.part p).queue.find? (fun l => s.ctxRuns p l.ctx)

def Launch.same (l m : Launch) : Bool := l.addr == m.addr && l.ctx == m.ctx && l.accepted == m.accepted

def State.unqueue (s : State) (p : PartId) (l : Launch) : State :=
  s.modPart p (fun x => { x with queue := x.queue.filter (fun m => !m.same l) })

/-- A walk slot emptied: its buffered entries are discarded with void records (R258, R359), and strands freed for its launch are free
for every one (R313). -/
def State.dropSlot (s : State) (p : PartId) (k : Fin 4) : State :=
  let dead := s.orbuf.filter (fun e => e.part == p && e.slot == k)
  let s : State := { s with orbuf := s.orbuf.filter (fun e => !(e.part == p && e.slot == k)) }
  let s := dead.foldl (fun s e => s.voidLogs e.strand [e.log]) s
  let s := match s.slot p k with
    | some l => s.modPart p (fun x => { x with heirs := x.heirs.filter (fun h => h.2 != l.addr) })
    | none => s
  let s := s.setSlot p k none
  s.modPart p (fun x => { x with
    preempt := match x.preempt with
      | some q => if q.victim = k then none else some q
      | none => none })

/-- A launch that has ended asks for an evaluation of pre-emption (R311). -/
def State.askEval (s : State) (p : PartId) : State := s.modPart p (fun x => { x with evalDue := true })

/-- What follows an access that the sequencer makes for a context: `bad` where it failed, and the state as it was, but for what the line
needs, where it waits for one (R264, R390, R397). -/
def State.orWait (s : State) (c : Nat) (r : Except TrapInfo State) (bad : BitVec 8 → State) (good : State → State) : State :=
  match r with
  | .ok t => good t
  | .error e => if e.cause = cHeld then s.visitLine c e.addr.toNat else bad e.cause

/-- A status word or the cover map could not be written: the context ends, and this record is not written again (R264). -/
def State.failLaunch (s : State) (p : PartId) (k : Fin 4) (l : Launch) (cause : BitVec 8) : State :=
  (((s.dropSlot p k).unqueue p l).askEval p).terminate l.ctx cause true

/-! ### LAUNCH_START (R309) -/

/-- The launch starts in a slot: its start is logged and STATE is RUNNING (R309, R363). -/
def State.runLaunch (s : State) (p : PartId) (k : Fin 4) (l : Launch) : State :=
  match s.logDecision p 0x06 0 l.addr with
  | none => s.stallSequencer p l.ctx
  | some s1 =>
    let l1 := { l with state := stRunning, started := s.ticks, runSince := s.gts }
    let s2 := (s1.unqueue p l).setSlot p k (some l1)
    s.orWait l.ctx (s2.writeStatus l1 stRunning 0) (s2.failLaunch p k l1) id

/-- The outcome of making and writing the record of a change of STATE. -/
inductive Logged where
  | ok (s : State)
  /-- The log has no room. -/
  | full
  /-- The record's slot lies in a line that the write waits for. -/
  | held (t : TrapInfo)
  /-- The record could not be written, and the launch's context has ended (R360). -/
  | ended (s : State)

/-- STATE of a launch becomes DONE, KILLED or SUSPENDED: the decision's record is made and written first (R264, R361, R363). -/
def State.logState (s : State) (p : PartId) (l : Launch) (state : Nat) : Logged :=
  let before := (s.part p).ready.length
  match s.logDecision p 0x07 (word state) l.addr with
  | none => .full
  | some s1 =>
    match s1.putReady p before with
    | .error t => .held t
    | .ok s2 => if (s2.ctx? l.ctx).any (·.live) then .ok s2 else .ended s2

/-- A change of STATE decided over `s0`, and what follows its record: where the log has no room the sequencer stalls, and the launch
stays as it is in `s` (R267). -/
def State.decideState (s s0 : State) (p : PartId) (l : Launch) (state : Nat) (f : State → State) : State :=
  match s0.logState p l state with
  | .ok s1 => f s1
  | .full => s.stallSequencer p l.ctx
  | .held t => s.visitLine (s.part p).logCtx t.addr.toNat
  | .ended s1 => s1

/-- A launch without iterations goes from ACCEPTED to DONE (R264). -/
def State.emptyLaunch (s : State) (p : PartId) (l : Launch) : State :=
  s.decideState s p l stDone (fun s1 =>
    let s2 := (s1.unqueue p l).askEval p
    s.orWait l.ctx (s2.writeStatus l stDone 0) (fun e => s2.terminate l.ctx e true) id)

/-- LAUNCH_START: the head launch starts once a walk slot is free; a SUSPENDED one is LAUNCH_RESUME's. -/
def execLaunchStart (p : PartId) (s : State) : Out :=
  if (s.part p).sched.rpl || !s.walkerFree p then .next s
  else match s.headLaunch p, s.freeSlot p with
    | some l, some k =>
      if l.state ≠ stAccepted || s.vaHeld l.ctx l.addr then .next s
      else if l.count = 0 then .next (s.emptyLaunch p l)
      else .next (s.runLaunch p k l)
    | _, _ => .next s

/-! ### UNIT_HAND_OUT (R20, R21, R266, R310) -/

/-- A launch that the sequencer hands units of: it runs, and it is no victim (R313). -/
def State.handsOut (s : State) (p : PartId) (k : Fin 4) : Option Launch :=
  match s.slot p k with
  | none => none
  | some l =>
    if s.ctxRuns p l.ctx && !((s.part p).preempt.any (fun q => q.victim == k)) then some l else none

/-- The running launches that would hand a unit to a free strand. -/
def State.wanters (s : State) (p : PartId) (n : StrandId) : List (Fin 4 × Launch) :=
  allSlots.filterMap (fun k => (s.handsOut p k).bind (fun l =>
    if (s.nextUnitFor p l (s.slotOfStrand p l n)).isSome then some (k, l) else none))

/-- A launch ranks before another for a strand: higher PRIO, then the earlier start (R310). -/
def Launch.before (l m : Launch) : Bool := decide (m.prio < l.prio) || (l.prio == m.prio && decide (l.started < m.started))

/-- The strand takes its work from this launch. -/
def State.winsStrand (s : State) (p : PartId) (n : StrandId) (l : Launch) : Bool :=
  (s.wanters p n).all (fun x => !(x.2.before l))

/-- A launch still wants a strand that its pre-emption has freed: it waits in the queue, or it has units for it (R313). -/
def State.claims (s : State) (p : PartId) (a : Word) (n : StrandId) : Bool :=
  (s.part p).queue.any (fun l => l.addr == a && s.ctxRuns p l.ctx) || (s.wanters p n).any (fun x => x.2.addr == a)

/-- A launch may take a strand: no other launch for which a pre-emption has freed it wants it (R313). -/
def State.mayTake (s : State) (p : PartId) (l : Launch) (n : StrandId) : Bool :=
  (s.part p).heirs.all (fun h => h.1 != n || h.2 == l.addr || !s.claims p h.2 n)

/-- The free strands that a launch may take. -/
def State.freeStrands (s : State) (p : PartId) (l : Launch) : List StrandId :=
  allStrands.filter (fun n => s.isFree p n && s.mayTake p l n)

/-- The strands that a unit of a die slot may go to: free ones, lowest first, and then those of the launch that ask for one with NEXT
(R20, R310, R378). (Log entry 30, DEDUCED, unsafe.) -/
def State.takers (s : State) (p : PartId) (k : Fin 4) (l : Launch) (die : Nat) : List StrandId :=
  (s.freeStrands p l).filter (fun n => s.slotOfStrand p l n == die &&
    (s.winsStrand p n l || (s.part p).heirs.contains (n, l.addr))) ++
  allStrands.filter (fun n => s.slotOfStrand p l n == die &&
    (l.assign? n).any (fun a => a.asks && a.granted.isNone && (s.strand n).launch == some (p, k)))

/-- A strand that a launch has taken was freed for no one else any more. -/
def State.dropHeir (s : State) (p : PartId) (n : StrandId) : State :=
  s.modPart p (fun x => { x with heirs := x.heirs.filter (fun h => h.1 != n) })

/-- A strand's part in a launch that it joins with a unit. One that it has had in the launch before is continued: what is left of its
writes is the launch's still. -/
def Launch.join (l : Launch) (n : StrandId) (seq w o : Nat) (record : Option Nat) : Launch :=
  let since := ((l.assign? n).map (·.joinSeq)).getD seq
  { l with assigns := l.assigns.filter (fun x => x.strand != n) ++ [⟨n, w, o, false, false, false, none, [], since, 0, record⟩] }

/-- The unit goes to a strand (R18, R20, R21). -/
def State.giveUnit (s : State) (p : PartId) (k : Fin 4) (l : Launch) (die w o : Nat) (n : StrandId) : State :=
  match s.ctx? l.ctx with
  | none => s
  | some c =>
    let s := s.modLaunch p k (fun l => { l with nextUnit := setNth l.nextUnit die (w + 1) })
    if (s.strand n).run = .free then
      let s := (s.dropHeir p n).modLaunch p k (fun l => l.join n (s.strand n).nseq w o none)
      s.modStrand n (fun t => t.firstIteration n c p k l o (l.permitOf p k o))
    else s.modLaunch p k (fun l => l.modAssign n (fun a => { a with granted := some w, asks := false }))

/-- Words 2 and 3 of a hand-out's record (R363). -/
def handOutWord (first : Nat) (n : StrandId) : Word := word (first <<< 16 + n.val)

/-- The next unit of a die slot and the ordinal with which it begins, once that ordinal may be handed out. -/
def State.unitReady (s : State) (p : PartId) (l : Launch) (die : Nat) : Option (Nat × Nat) :=
  match s.nextUnitFor p l die with
  | none => none
  | some w => match l.firstOfUnit w with
    | .ordinal o => some (w, o)
    | _ => none

/-- UNIT_HAND_OUT: the next unit of a die slot goes to the lowest-numbered strand that may take it. -/
def execUnitHandOut (p : PartId) (slot : Fin 4) (die : DieId) (s : State) : Out :=
  if (s.part p).sched.rpl || !s.walkerFree p then .next s
  else match s.handsOut p slot with
    | none => .next s
    | some l =>
      match s.unitReady p l die.val, s.takers p slot l die.val with
      | some (w, o), n :: _ =>
        match s.logDecision p 0x01 (handOutWord (l.firstOrdinal w) n) l.addr with
        | none => .next (s.stallSequencer p l.ctx)
        | some s1 => .next (s1.giveUnit p slot l die.val w o n)
      | _, _ => .next s

/-! ### The cover cursor and skips (R270 to R272) -/

/-- The address of a cell's bit (R270). -/
def Launch.coverAddr (l : Launch) (cell : Nat) : Word := l.cover + word (cell / 8)

/-- Whether a cell is covered in memory. -/
def State.coverBit (s : State) (c : Ctx) (l : Launch) (cell : Nat) : Except TrapInfo Bool :=
  match s.loadBytesVa c (l.coverAddr cell) 1 with
  | .ok bs => .ok ((bs.headD 0).getLsbD (cell % 8))
  | .error e => .error e

/-- The cells of a footprint that are not covered (R271). -/
def State.uncovered (s : State) (c : Ctx) (l : Launch) : List Nat → Except TrapInfo (List Nat)
  | [] => .ok []
  | x :: xs =>
    match s.uncovered c l xs with
    | .error e => .error e
    | .ok r =>
      if l.covered.contains x then .ok r
      else match s.coverBit c l x with
        | .error e => .error e
        | .ok b => .ok (if b then r else x :: r)

/-- COVER_CURSOR_VISIT: cover_test of the next ordinal. -/
def execCoverCursorVisit (p : PartId) (slot : Fin 4) (s : State) : Out :=
  match s.slot p slot with
  | none => .next s
  | some l =>
    if !l.overwriting || decide (l.count ≤ l.cursor) then .next s
    else match s.ctx? l.ctx with
      | none => .next s
      | some c =>
        let fp := l.footprint l.cursor
        if fp.any (fun x => s.vaHeld l.ctx (l.coverAddr x)) then .next s
        else match s.uncovered c l fp with
          | .error e => .next (if e.cause = cHeld then s.visitLine l.ctx e.addr.toNat else s.failLaunch p slot l e.cause)
          | .ok pm => .next (s.modLaunch p slot (fun l =>
              { l with cursor := l.cursor + 1, covered := addEnded l.covered fp, permits := l.permits ++ [(l.cursor, pm)] }))

/-- The least ordinal with an empty permit mask whose skip has not taken effect (R272). -/
def Launch.nextSkip (l : Launch) : Option Nat := (l.permits.find? (fun x => x.2 == [] && !l.skipped.contains x.1)).map (·.1)

/-- A skip takes effect. -/
def Launch.skip (l : Launch) (o : Nat) : Launch :=
  { l with skipped := l.skipped ++ [o], skips := l.skips + 1, endedSet := addEnded l.endedSet [o] }

/-- ITERATION_SKIP: the next iteration with an empty permit mask is skipped, logged first. -/
def execIterationSkip (p : PartId) (slot : Fin 4) (ordinal : Nat) (s : State) : Out :=
  if (s.part p).sched.rpl || !s.walkerFree p then .next s
  else match s.slot p slot with
    | none => .next s
    | some l =>
      if !l.overwriting || l.nextSkip ≠ some ordinal then .next s
      else match s.logDecision p 0x02 (word (ordinal <<< 16)) l.addr with
        | none => .next (s.stallSequencer p l.ctx)
        | some s1 => .next (s1.modLaunch p slot (fun l => l.skip ordinal))

/-- The bits that the walker has set in one byte of the cover map. -/
def Launch.coverMask (l : Launch) (k : Nat) : Byte :=
  l.covered.foldl (fun m x => if x / 8 = k then m ||| (1#8 <<< (x % 8)) else m) 0

/-- The bytes of the cover map that the walker has changed are written back (R270). -/
def State.writeCoverBytes (s : State) (c : Ctx) (l : Launch) : List Nat → Except TrapInfo State
  | [] => .ok s
  | k :: ks =>
    match s.loadBytesVa c (l.cover + word k) 1 with
    | .error e => .error e
    | .ok bs =>
      let old := bs.headD 0
      let new := old ||| l.coverMask k
      if new = old then s.writeCoverBytes c l ks
      else match s.storeBytesVa c (l.cover + word k) [new] with
        | .error e => .error e
        | .ok s1 => s1.writeCoverBytes c l ks

def State.writeCover (s : State) (l : Launch) : Except TrapInfo State :=
  match s.ctx? l.ctx with
  | none => .ok s
  | some c => s.writeCoverBytes c l ((l.covered.map (· / 8)).eraseDups)

/-! ### LAUNCH_DONE (R22, R264, R361) -/

/-- The launch has no unit left in any die slot. -/
def State.noUnits (s : State) (p : PartId) (l : Launch) : Bool :=
  (List.range (max 1 (s.dieSlots p).length)).all (fun d => (s.nextUnitFor p l d).isNone)

/-- Every strand of the launch has halted, and its writes have performed at domain scope. -/
def State.assignsDone (s : State) (l : Launch) : Bool :=
  l.assigns.all (fun a => a.halted && a.leaving.isEmpty &&
    (s.flying a.strand).all (fun w => decide (a.haltSeq ≤ w.seq)) &&
    (s.strand a.strand).cq.all (fun e => decide (a.haltSeq ≤ e.seq)))

/-- Nothing of the launch is left, and its records are written: it may be DONE (R22, R264, R361). -/
def State.doneReady (s : State) (p : PartId) (k : Fin 4) (l : Launch) : Bool :=
  s.noUnits p l && s.assignsDone l && l.saved.isEmpty && l.nextSkip.isNone &&
  !s.orbuf.any (fun e => e.part == p && e.slot == k) && (s.part p).ready.isEmpty && !s.vaHeld l.ctx l.addr

/-- The cover map is written, then the record of DONE, then DONE. -/
def State.finishLaunch (s : State) (p : PartId) (k : Fin 4) (l : Launch) : State :=
  s.orWait l.ctx (s.writeCover l) (s.failLaunch p k l) (fun s0 =>
    s.decideState s0 p l stDone (fun s1 =>
      s.orWait l.ctx (s1.writeStatus l stDone 0) (s1.failLaunch p k l) (fun s2 => (s2.dropSlot p k).askEval p)))

/-- LAUNCH_DONE. -/
def execLaunchDone (p : PartId) (slot : Fin 4) (s : State) : Out :=
  match s.slot p slot with
  | none => .next s
  | some l =>
    if (s.part p).sched.rpl || !s.walkerFree p || !s.doneReady p slot l then .next s else .next (s.finishLaunch p slot l)

/-! ### Suspending a launch (R309, R313, R331) -/

/-- The context area holds, from its base up, twenty areas of 1 MiB for walk records and then the strands' save areas of 128
KiB (log entry 31, DESIGN CHOICE, unsafe). -/
def walkRecordBytes : Nat := 2 ^ 20
def saveAreaBase : Nat := 20 * 2 ^ 20
def saveAreaBytes : Nat := 2 ^ 17

/-- The launches of a context in a partition, queued or running. -/
def State.launchesOf (s : State) (p : PartId) (c : Nat) : List Launch :=
  ((s.part p).queue ++ allSlots.filterMap (s.slot p)).filter (fun l => l.ctx == c)

/-- The lowest of some places that no launch of the context uses. -/
def freePlace (base size : Nat) (used : List Nat) : Nat → Nat → Nat
  | 0, i => base + size * i
  | k + 1, i => if used.contains (base + size * i) then freePlace base size used k (i + 1) else base + size * i

/-- A strand's save area (R329). -/
def State.saveArea (s : State) (p : PartId) (c : Ctx) : Nat :=
  let used := ((s.launchesOf p c.num).map (fun l => l.saved.map (·.1) ++ l.assigns.filterMap (·.record))).flatten
  freePlace (c.area + saveAreaBase) saveAreaBytes used used.length 0

def State.walkArea (s : State) (p : PartId) (c : Ctx) : Nat :=
  let used := ((s.launchesOf p c.num).filter (fun l => l.state == stSuspended)).map (·.walkAddr)
  freePlace c.area walkRecordBytes used used.length 0

/-- Bytes stored at a physical address by the management core or the sequencer, line by line. -/
def State.storePhysLines (s : State) (tag : PartId) (a : Nat) : List (List Byte) → State
  | [] => s
  | b :: bs => (s.writeLine a tag b).storePhysLines tag (a + b.length) bs

/-- `bs` cut at the line boundaries of an address. -/
def State.storePhys (s : State) (tag : PartId) (a : Nat) (bs : List Byte) : State :=
  let first := 128 - a % 128
  s.storePhysLines tag a ((bs.take first :: chunks 128 (ceilDiv (bs.length - first) 128) (bs.drop first)).filter (!·.isEmpty))

/-- OPCODE of an ordered entry's operation in R113's order, from AADD on. -/
def orderedOpcode (op : Fin 8) : Nat := 0x110 + op.val

/-- A walk record (R331). Its opcode field has 8 bits where an opcode has ten, and holds the low ones. (Log entry 31, DESIGN CHOICE,
unsafe.) -/
def walkRecord (l : Launch) : List Byte :=
  let w (n : Nat) : List Byte := natBytes 8 n
  l.record ++ w l.cursor ++ w l.lowWater ++ ((List.range 4).map (fun d => w (l.nextUnit.getD d 0))).flatten ++
  w (l.savedEntries.length <<< 32 + l.saved.length) ++ w 0 ++
  (l.saved.map (fun x => w x.1 ++ w (x.2 <<< 16))).flatten ++
  (l.savedEntries.map (fun e => w (e.o <<< 16) ++ w (lineOf e.pa) ++
    w ((orderedOpcode e.op % 256) <<< 56 + (if e.wide then 8 else 4) <<< 48 + e.j % 2 ^ 32) ++ w e.x.toNat)).flatten

/-- Every strand of the launch has halted or is switched out. -/
def Launch.emptied (l : Launch) : Bool := l.assigns.all (fun a => a.halted && a.leaving.isEmpty)

/-- A stopped launch whose strands are all switched out becomes SUSPENDED (R264, R277, R309, R331): the cover map is written
back, the unapplied ordered entries and the walk record are saved, and the launch keeps its place in the queue. Strands that have
halted stay with it: their writes may not have performed. -/
def State.suspend (s : State) (p : PartId) (k : Fin 4) (l : Launch) (c : Ctx) : State :=
  s.orWait l.ctx (s.writeCover l) (s.failLaunch p k l) (fun s0 =>
    s.decideState s0 p l stSuspended (fun s1 =>
      let mine := s1.orbuf.filter (fun e => e.part == p && e.slot == k)
      let addr := s1.walkArea p c
      let l1 := { l with state := stSuspended, savedEntries := mine, walkAddr := addr, assigns := l.assigns.filter (·.halted) }
      let s2 : State := { s1 with orbuf := s1.orbuf.filter (fun e => !(e.part == p && e.slot == k)) }
      let bytes := walkRecord l1
      match s1.blockedIn addr bytes.length with
      | some pa => s.visitLine l.ctx pa
      | none =>
      let s3 := (s2.dropSlot p k).storePhys p addr bytes
      s.orWait l.ctx (s3.writeStatus l1 stSuspended 0) (fun e => s3.terminate l.ctx e true)
        (fun s4 => s4.modPart p (fun x => { x with queue := insertLaunch x.queue l1 }))))

/-- The launch has been asked to stop: it is the victim of a drain or a checkpoint, or its context or partition is stopped. -/
def State.stopsLaunch (s : State) (p : PartId) (k : Fin 4) (l : Launch) : Bool :=
  (s.part p).switching || ((s.part p).preempt.any (fun q => q.victim == k && (q.action == 1 || q.action == 2))) ||
  (match s.ctx? l.ctx with
    | some c => c.stopped || c.quiesced
    | none => false)

/-- A launch that a stop has emptied is suspended; one with nothing left to resume is left to LAUNCH_DONE. -/
def State.trySuspend (s : State) (p : PartId) (k : Fin 4) : State :=
  match s.slot p k with
  | none => s
  | some l =>
    match s.ctx? l.ctx with
    | none => s
    | some c =>
      if s.stopsLaunch p k l && l.emptied && !(l.saved.isEmpty && s.noUnits p l) && !s.vaHeld l.ctx l.addr &&
          c.live && !s.walkerTrapPending p && !(s.part p).stalled then s.suspend p k l c
      else s

def State.trySuspendAll (s : State) (p : PartId) : State := allSlots.foldl (fun s k => s.trySuspend p k) s

/-! ### PREEMPT_EVALUATE (R311, R312) -/

/-- The running launches that may ask or give way. -/
def State.running (s : State) (p : PartId) : List (Fin 4 × Launch) :=
  allSlots.filterMap (fun k => (s.slot p k).bind (fun l => if s.ctxRuns p l.ctx then some (k, l) else none))

/-- The one of a list that no other beats. -/
def pick (f : Launch → Launch → Bool) (ls : List (Fin 4 × Launch)) : Option (Fin 4 × Launch) :=
  ls.foldl (fun b x => match b with
    | none => some x
    | some y => if f x.2 y.2 then some x else some y) none

/-- The requester (R311). -/
def State.requester (s : State) (p : PartId) : Option Launch :=
  match s.headLaunch p, s.freeSlot p with
  | some l, none => some l
  | _, _ =>
    if allStrands.any (fun n => s.partOf n == some p && (s.strand n).run == .free) then none
    else (pick Launch.before ((s.running p).filter (fun x => !s.noUnits p x.2))).map (·.2)

/-- The victim is lowest in PRIO, and of equal ones the last to start (R311). -/
def Launch.yields (l m : Launch) : Bool := decide (l.prio < m.prio) || (l.prio == m.prio && decide (m.started < l.started))

def State.victim (s : State) (p : PartId) (r : Launch) : Option (Fin 4 × Launch) :=
  pick Launch.yields ((s.running p).filter (fun x => decide (x.2.prio < r.prio)))

/-- rem of R311 at a GTS. -/
def Launch.remaining (l : Launch) (gts : Nat) : Nat :=
  let run := (gts - l.runSince) / 1000
  if l.est = 0 ∨ l.est ≤ run then 0 else l.est - run

/-- The row of R312 and its action: 0 none, 1 drain, 2 checkpoint, 3 kill. -/
def choice (v : Launch) (rem delta : Nat) : Nat × Nat :=
  if rem ≠ 0 ∧ rem ≤ 50 then (1, 0)
  else if v.pold ∧ rem ≠ 0 ∧ rem ≤ 2000 then (2, 1)
  else if v.polc then (3, 2)
  else if v.pold then (4, 1)
  else if v.polk ∧ 256 ≤ delta then (5, 3)
  else (6, 0)

/-- A strand waits for RESTORE to load its record (R314). -/
def Launch.awaits (l : Launch) (n : StrandId) : Bool := (l.assign? n).any (fun a => a.record.isSome)

/-- A strand is asked to stop. One that a switch has asked already, or that stands switched out, is not asked again; one that drains
is asked for nothing else once it has clamped its loop; and one that a debug stop holds, at a safe point, stops there unless it is to
drain, for which it first goes on (R279, R283, R313, R328). -/
def Strand.ask (t : Strand) (k : StopKind) (gts : Nat) : Strand :=
  if t.stop = .switch ∨ t.draining.isSome then t
  else if t.stop = .debug then (if k = .drain then t else { t with run := .running, stop := k, stopAt := gts })
  else { t with stop := k, stopAt := gts }

/-- Every strand of a launch that has not halted is asked to stop (R313). -/
def State.askStop (s : State) (k : StopKind) (l : Launch) : State :=
  l.assigns.foldl (fun s a => if a.halted then s else s.modStrand a.strand (fun t => t.ask k s.gts)) s

/-- The choice is logged and its action begins (R312, R313, R363). -/
def State.choose (s : State) (p : PartId) (r : Launch) (k : Fin 4) (v : Launch) : State :=
  let (row, act) := choice v (v.remaining s.gts) (r.prio - v.prio)
  let note := (r.addr, v.addr, row)
  if act = 0 ∧ (s.part p).lastChoice = some note then s
  else match s.logDecision p 0x08 (r.addr ||| word (row <<< 3 + act)) v.addr with
    | none => s.stallSequencer p v.ctx
    | some s1 =>
      let s2 := s1.modPart p (fun x => { x with
        lastChoice := some note,
        preempt := if act = 0 then x.preempt else some ⟨r.addr, k, row, act, s.gts⟩ })
      if act = 1 then s2.askStop .drain v else if act = 2 then s2.askStop .checkpoint v else s2

/-- The 10 µs of GTS between evaluations (R311). -/
def evalPeriod : Nat := 10000

/-- An evaluation of pre-emption (R311). -/
def State.evaluate (s : State) (p : PartId) : State :=
  match s.requester p with
  | none => s
  | some r => match s.victim p r with
    | none => s
    | some (k, v) => s.choose p r k v

/-- PREEMPT_EVALUATE: an evaluation when a launch has been accepted or has ended, and at each 10 µs of GTS; one pre-emption at a
time. While one is in progress, its victim may have become empty. (Log entry 50, DEDUCED, unsafe.) -/
def execPreemptEvaluate (p : PartId) (s : State) : Out :=
  let s := s.trySuspendAll p
  let x := s.part p
  if x.preempt.isSome || x.switching || x.sched.rpl || !s.walkerFree p then .next s
  else if !x.evalDue && decide (s.gts / evalPeriod ≤ x.evalAt) then .next s
  else
    let s1 := s.evaluate p
    if (s1.part p).stalled then .next s1
    else .next (s1.modPart p (fun x => { x with evalDue := false, evalAt := s.gts / evalPeriod }))

/-! ### Stops (R279 to R283, R313, R328) -/

/-- An open CPYD that a full decoder FIFO holds back (R328). -/
def Strand.heldCpyd (t : Strand) (e : QEntry) : Bool :=
  (match e.instr with
    | .cpyd _ _ _ _ _ => true
    | _ => false) && e.stage == .started && e.fault.isNone && e.work.reads.isEmpty && t.streams.any (fun x => x.seq == e.seq) &&
  decide (fifoSize ≤ t.fifo.length)

/-- A vector instruction that has started and left nothing but pending writes whose data is there. -/
def Strand.pendingOnly (t : Strand) (e : QEntry) : Bool :=
  e.stage != .waiting && e.fault.isNone && e.work.reads.isEmpty && e.work.writes.isEmpty &&
  t.pend.all (fun p => p.seq != e.seq || p.ready)

/-- The older work of a strand that stops has drained: what is left is pending writes, and commands that are saved open (R94,
R159, R328). -/
def Strand.drained (t : Strand) : Bool :=
  t.fault.isNone && (t.queue .V).all t.pendingOnly && (t.completeVector).entries.all t.heldCpyd

/-- The live map of a safe-point entry (R278). -/
def liveWord (e : List Byte) (i : Nat) : Nat := bytesNat ((e.drop (8 * i)).take 8)

/-- The registers that a live map does not mark are zero at resumption (R280). -/
def Strand.trim (t : Strand) (e : List Byte) : Strand :=
  let sl := liveWord e 1
  let w := liveWord e 2
  { t with
    s := Vector.ofFn (fun i : Fin 64 => if sl.testBit i.val then t.s[i.val] else 0),
    p := t.p &&& (BitVec.ofNat 8 (bits w 40 8) ||| 1),
    k := Vector.ofFn (fun i : Fin 8 => if i.val = 0 ∨ w.testBit (32 + i.val) then t.k[i.val] else 0),
    v := Vector.ofFn (fun i : Fin 32 => if w.testBit i.val then t.v[i.val] else 0) }

/-- Every queued instruction older than `seq` has completed, or has left nothing but pending writes, which become records. -/
def Strand.settledBefore (t : Strand) (seq : Nat) : Bool :=
  t.entries.all (fun e => decide (seq ≤ e.seq) || (e.fault.isNone && (e.stage == .done ||
    ((t.queue .V).any (fun x => x.seq == e.seq) && t.pendingOnly e))))

/-- The trap with cause PREEMPT at level 3, which only the saved record holds: the strand keeps its level, its older work
complete and its pending writes records (R313, R321, R326). The delivery is logged, whether or not its record finds room. The stop of a
STOP or a world switch is made so too. (Log entry 50, DEDUCED, unsafe.) -/
def State.preemptStop (s : State) (n : StrandId) (live : Option (List Byte)) : State :=
  let s := s.logDecision! (s.tagOf n) 0x09 (word (cPreempt.toNat <<< 8)) (word n.val)
  let s := ((s.surrenderIfHeld n 5).withdrawBar n).clearHold n
  let s := match (s.strand n).launch with
    | some (p, k) => s.modLaunch p k (fun l => l.modAssign n (fun a => { a with asks := false }))
    | none => s
  s.modStrand n (fun t =>
    let t := t.completeVector.setTrapRegs 3 ⟨t.pc, causeWord t.level.val cPreempt, 0, 0⟩
    let t := match live with
      | some e => t.trim e
      | none => t
    { t with run := .stopped, stop := .switch, arrived := none, waiting := false, draining := none })

/-- An instruction at which a waiting strand stops (R281). -/
def Instr.waits : Instr → Bool
  | .wait _ _ _ _ | .bar _ _ | .next _ => true
  | _ => false

/-- What the strand would dispatch next, stop or no stop. -/
def State.peek (s : State) (n : StrandId) : Option Instr :=
  let t := s.strand n
  if t.run ≠ .running ∨ t.resultWait then none
  else (s.ctxOf n).bind (fun c => match s.fetchAt n c t.pc t.slot0 with
    | .run i _ => some i
    | _ => none)

/-- A strand waits at a WAIT, a BAR or a NEXT that has no answer (R281). -/
def State.waitsAt (s : State) (n : StrandId) (i : Instr) : Bool :=
  Instr.waits i && ((s.strand n).waiting || (s.strand n).arrived.isSome) && !(Instr.isNext i && s.unitGranted n)

/-- The LACQ at which a strand waits, at the head of its M queue, its older work settled (R281). -/
def State.lacqAt (s : State) (n : StrandId) : Option QEntry :=
  let t := s.strand n
  if t.run ≠ .running then none
  else (t.qhead? .M).filter (fun e => Instr.isLacq e.instr && e.holds && t.settledBefore e.seq)

/-- The strand stands at that LACQ again, which it will execute afresh, and at nothing after it (R281). -/
def State.backTo (s : State) (n : StrandId) (e : QEntry) : State := s.unwind n e none

/-- The entry that trims the registers of a checkpoint at an instruction, where the stop is one and the instruction a safe point
(R280, R281). -/
def State.liveAt (s : State) (n : StrandId) (i : Instr) (pc : Word) : Option (List Byte) :=
  if (s.strand n).stop = .checkpoint then
    (s.launchOf n).bind (fun l => (l.safeOrdinal (Instr.stopBit i) pc).bind (fun o => (l.safe[o]?).map (·.2)))
  else none

/-- A checkpoint or a switch has asked the strand to stop; at a handler level a checkpoint of R313 waits for its return (R313, R328). -/
def Strand.stopAsked (t : Strand) : Bool := t.stop == .switch || (t.stop == .checkpoint && t.level == 0)

/-- CHECKPOINT_STOP: at a safe point or a waiting instruction, older work drained, where a synchronous fault of that instruction goes
first (R326); a checkpoint keeps the live registers alone. -/
def execCheckpointStop (n : StrandId) (s : State) : Out :=
  let t := s.strand n
  if !t.stopAsked then .next s
  else match s.lacqAt n with
    | some e => .next ((s.backTo n e).preemptStop n (s.liveAt n e.instr e.pc))
    | none =>
      match s.peek n with
      | none => .next s
      | some i =>
        let safe := s.atSafePoint n i && !(Instr.isNext i && s.unitGranted n)
        if t.drained && ((safe && t.safeChecked) || s.waitsAt n i) then .next (s.preemptStop n (s.liveAt n i t.pc)) else .next s

/-- DRAIN: at the fall-through of a clamped loop, or, before a loop is clamped, at a NEXT or the instruction at which the strand waits
(R281, R283). -/
def execDrain (n : StrandId) (s : State) : Out :=
  let t := s.strand n
  if t.run ≠ .running ∨ !s.drains n then .next s
  else match (if t.draining.isNone then s.lacqAt n else none) with
    | some e => .next ((s.backTo n e).preemptStop n none)
    | none =>
      if !t.drained then .next s
      else if t.drainArrived then
        .next ((s.modStrand n (fun t => t.setPc ((t.draining.map (·.2)).getD t.pc))).preemptStop n none)
      else match s.peek n with
        | none => .next s
        | some i =>
          if s.drainsAt n i || (t.draining.isNone && s.waitsAt n i) then .next (s.preemptStop n none)
          else .next s

/-! ### KILL (R313) -/

/-- A strand that the pre-emption of a launch frees goes to the requester (R313). -/
def State.freedFor (s : State) (p : PartId) (k : Fin 4) (n : StrandId) : State :=
  match (s.part p).preempt with
  | some q => if q.victim = k then (s.dropHeir p n).modPart p (fun x => { x with heirs := x.heirs ++ [(n, q.requester)] }) else s
  | none => s

/-- The stores of a strand that are not performed at Pod scope yet and that a test picks are never made (R313): its class queue's,
with their records, and those of its buffers. -/
def State.dropStores (s : State) (n : StrandId) (gone : Nat → Bool) : State :=
  let pushed := s.pbOf n
  let s := s.voidLogs n (((s.strand n).cq.filter (fun e => gone e.seq)).map (·.log))
  let s := s.modStrand n (fun t => { t with cq := t.cq.filter (fun e => !gone e.seq) })
  s.dropWrites n (fun w => !gone w.seq || pushed.contains w)

/-- A strand of a killed launch stops at once (R313, R352). -/
def State.killStrand (s : State) (n : StrandId) : State :=
  let s := (s.dropStores n (fun _ => true)).stopStrand n
  (s.modStrand n (fun t => { t with launch := none })).settle n

/-- What a strand's part in a killed launch has left goes: the strand where it runs, else what is left of its stores; and a strand
freed so goes to the requester (R313). -/
def State.killAssign (s : State) (p : PartId) (k : Fin 4) (a : Assign) : State :=
  if a.halted then s.dropStores a.strand (fun seq => decide (a.joinSeq ≤ seq) && decide (seq < a.haltSeq))
  else (s.freedFor p k a.strand).killStrand a.strand

/-- The victim is killed once its record and its status words are written: the cover map written back, KILLED with TDONE, strands and
their references dropped, ordered entries discarded, and the groups that wait for it told (R313, R352). -/
def State.killLaunch (s : State) (p : PartId) (k : Fin 4) (l : Launch) : State :=
  s.orWait l.ctx (s.writeCover l) (s.failLaunch p k l) (fun s0 =>
    s.decideState s0 p l stKilled (fun s1 =>
      s.orWait l.ctx (s1.writeStatus l stKilled 0) (s1.failLaunch p k l) (fun s2 =>
        (((l.assigns.foldl (fun s a => s.killAssign p k a) s2).abortGroups p).dropSlot p k).askEval p)))

/-- KILL: the launch that a choice names, and those of ended contexts whose KILLED has waited. -/
def execKill (p : PartId) (slot : Fin 4) (s : State) : Out :=
  let s := s.retryDying p
  match (s.part p).preempt, s.slot p slot with
  | some q, some l => if q.victim = slot ∧ q.action = 3 ∧ !s.vaHeld l.ctx l.addr then .next (s.killLaunch p slot l) else .next s
  | _, _ => .next s

/-- The 1,000 µs of R313, R328 and R353. -/
def stopLimit : Nat := 1000000

/-- PREEMPT_STOP_TIMEOUT: strands that have not stopped are drained, or the victim is killed, or the sequencer waits on. -/
def execPreemptStopTimeout (p : PartId) (s : State) : Out :=
  match (s.part p).preempt with
  | none => .next s
  | some q =>
    match s.slot p q.victim with
    | none => .next s
    | some l =>
      let late := l.assigns.any (fun a => !a.halted && ((s.strand a.strand).run == .running || a.record.isSome))
      if q.action = 3 ∨ s.gts < q.since + stopLimit ∨ !late then .next s
      else if l.pold then
        .next (l.assigns.foldl (fun s a => if a.halted then s else s.modStrand a.strand (fun t =>
          if t.stop = .checkpoint ∨ t.stop = .none then { t with stop := .drain } else t)) s)
      else if l.polk then
        .next (s.modPart p (fun x => { x with preempt := some { q with action := 3 } }))
      else .next s

/-! ### LAUNCH_RESUME (R309, R314) -/

/-- 8 bytes of a record in memory. -/
def physWord (s : State) (a : Nat) : Nat := bytesNat (s.cohN a 8)

/-- The walker state of a walk record (R331). -/
def State.readWalk (s : State) (l : Launch) : Launch :=
  let a := l.walkAddr
  let cnt := physWord s (a + 0x130) % 2 ^ 32
  { l with
    cursor := physWord s (a + 0x100),
    nextUnit := (List.range 4).map (fun d => physWord s (a + 0x110 + 8 * d)),
    saved := (List.range cnt).map (fun i => (physWord s (a + 0x140 + 16 * i), physWord s (a + 0x148 + 16 * i) / 2 ^ 16)) }

/-- A line of the walk record that its reading waits for. -/
def State.walkRecordDue (s : State) (l : Launch) : Option Nat :=
  (s.dueIn l.walkAddr 0x140).orElse (fun _ => s.dueIn (l.walkAddr + 0x140) (16 * (s.readWalk l).saved.length))

/-- The strands that a resumed launch takes join it, each with the record that RESTORE will load. The permit mask of an iteration in
hand is kept with the launch (R271). -/
def State.resumeAssigns (s : State) (l : Launch) (ns : List StrandId) : Launch :=
  (l.saved.zip ns).foldl (fun l x => l.join x.2 (s.strand x.2).nseq (l.unitOf x.1.2) x.1.2 (some x.1.1)) l

/-- The strands that a resumed launch takes wait for their records (R314, R332). -/
def State.awaitRecord (s : State) (p : PartId) (k : Fin 4) (c : Nat) (n : StrandId) : State :=
  (s.dropHeir p n).modStrand n (fun t => { t with run := .stopped, stop := .none, ctx := some c, launch := some (p, k) })

/-- LAUNCH_RESUME: the SUSPENDED head starts when a walk slot and as many free strands as it has records are there; its walker
state and its ordered entries come back, and each record is RESTORE's. -/
def execLaunchResume (p : PartId) (s : State) : Out :=
  if !s.walkerFree p then .next s
  else match s.headLaunch p, s.freeSlot p with
    | some l, some k =>
      if l.state ≠ stSuspended || s.vaHeld l.ctx l.addr then .next s
      else match s.walkRecordDue l with
      | some pa => .next (s.visitLine l.ctx pa)
      | none =>
        let l1 := s.readWalk l
        let ns := (s.freeStrands p l).take l1.saved.length
        if ns.length < l1.saved.length then .next s
        else
          let l2 := { s.resumeAssigns l1 ns with saved := [], savedEntries := [] }
          match s.logDecision p 0x06 0 l.addr with
          | none => .next (s.stallSequencer p l.ctx)
          | some s1 =>
            let l3 := { l2 with state := stRunning, started := s.ticks, runSince := s.gts }
            let s2 := (s1.unqueue p l).setSlot p k (some l3)
            let s3 : State := { s2 with orbuf := s2.orbuf ++ l1.savedEntries.map (fun e => { e with slot := k }) }
            .next (s.orWait l.ctx (s3.writeStatus l3 stRunning 0) (s3.failLaunch p k l3)
              (fun s4 => ns.foldl (fun s n => s.awaitRecord p k l.ctx n) s4))
    | _, _ => .next s

end Sys2Proof.Machine
end

