-- ==== Sys2Proof/Machine/Switch.lean ====
section
/-! DEFINITION. Traps that wait for older work (R91, R321), asynchronous traps (R326), late memory errors (R327), the strand
record with its save and restore (R328 to R332), world switches (R347), page walks (R341), and the events that safe points alone
admit (R279). -/

namespace Sys2Proof.Machine

/-! ### TRAP_ENTRY (R91, R321) -/

/-- The oldest queued instruction that has faulted. -/
def Strand.oldestFault (t : Strand) : Option (QEntry × TrapInfo) :=
  t.entries.foldl (fun b e => match e.fault, b with
    | some tr, none => some (e, tr)
    | some tr, some (x, old) => if e.seq < x.seq then some (e, tr) else some (x, old)
    | none, b => b) none

/-- The faulted instructions of a strand that dispatches no more are discarded (R313, R325). -/
def Strand.dropFaults (t : Strand) : Strand :=
  { t with queues := Vector.ofFn (fun i : Fin 4 => (t.queues[i.val]).filter (fun e => e.fault.isNone)) }

/-- TRAP_ENTRY: the oldest fault of the strand's engines, else the fault its dispatch has met, is taken once its older work is
complete. -/
def execTrapEntry (n : StrandId) (s : State) : Out :=
  let t := s.strand n
  if t.run = .level3 ∨ t.run = .free then .next ((s.modStrand n Strand.dropFaults).settle n)
  else match t.oldestFault with
    | some (e, tr) =>
      if t.settledBefore e.seq then .next (((s.unwind n e (e.keeps t)).takeTrap n tr e.pc).settleQueues n) else .next s
    | none =>
      match t.fault with
      | some tr => if t.settledBefore t.nseq then .next ((s.takeTrap n tr t.faultPc).settleQueues n) else .next s
      | none => .next s

/-! ### ASYNC_TRAP_DELIVER (R326) -/

/-- A pending trap is delivered: logged whether or not the record finds room, and taken. A replay's window starts again. -/
def State.deliverTrap (s : State) (n : StrandId) (tr : TrapInfo) (rest : List TrapInfo) : State :=
  let p := s.tagOf n
  let s := s.logDecision! p 0x09 (word (tr.cause.toNat <<< 8)) (word n.val)
  let s := s.modPart p (fun x => { x with repSince := s.gts })
  (s.modStrand n (fun t => { t with async := rest })).takeTrap n tr (s.strand n).pc

/-- ASYNC_TRAP_DELIVER: the strand's oldest pending trap is taken at a safe point or a waiting instruction, at level 0, in the context
that the strand runs then. (Log entry 81, DESIGN CHOICE, unsafe.) -/
def execAsyncTrapDeliver (n : StrandId) (s : State) : Out :=
  let t := s.strand n
  match t.async with
  | [] => .next s
  | tr :: rest =>
    if t.level ≠ 0 then .next s
    else match s.lacqAt n with
      | some e => .next ((s.backTo n e).deliverTrap n tr rest)
      | none =>
        match s.peek n with
        | none => .next s
        | some i =>
          if t.drained && ((s.atSafePoint n i && t.safeChecked) || s.waitsAt n i) then .next (s.deliverTrap n tr rest) else .next s

/-! ### LATE_ERROR_REREAD (R327, R385) -/

/-- LATE_ERROR_REREAD: the second read of line `k` of those the strand waits for. Either way the error is counted and its frame is
retired (R381, R385). -/
def execLateErrorReread (n : StrandId) (k : Nat) (correct : Bool) (s : State) : Out :=
  match (s.strand n).late[k]? with
  | none => .next s
  | some pa =>
    let s1 := s.modStrand n (fun t => { t with late := t.late.eraseIdx k })
    if s.memError pa ≠ some true then .next s1 else .next (s1.reread pa (s.strand n).ctx correct)

/-! ### The strand record (R329, R330) -/

/-- One pending-write record: its kind, its count code, its first register and its value. -/
structure PendRec where
  kind : Nat
  cnt : Nat
  reg : Nat
  value : List Byte

/-- The records of one pending write: a run of vector registers is one record where the count has a code (R330). -/
def pendRecs (ds : List VDest) : List PendRec :=
  let vs := ds.filterMap (fun d => match d with
    | .v r x => some (r.val, x)
    | _ => none)
  let first := (vs.headD (0, 0)).1
  let run := (vs.mapIdx (fun i v => v.1 == first + i)).all id
  if vs.length = ds.length ∧ run ∧ (vs.length = 2 ∨ vs.length = 4) then
    [⟨0, vs.length / 2, first, (vs.map (fun v => natBytes 512 v.2.toNat)).flatten⟩]
  else ds.map (fun d => match d with
    | .v r x => ⟨0, 0, r.val, natBytes 512 x.toNat⟩
    | .k r x => ⟨1, 0, r.val, natBytes 128 x.toNat⟩
    | .s r x => ⟨2, 0, r.val, natBytes 8 x.toNat⟩)

/-- 512-byte units of a record's value. -/
def PendRec.units (r : PendRec) : Nat := ceilDiv r.value.length 512

/-- A descriptor (R330). -/
def PendRec.word (r : PendRec) (p : Pending) (voff : Nat) : Nat :=
  1 <<< 63 + (p.n % 16) <<< 59 + r.kind <<< 57 + r.cnt <<< 55 + r.reg <<< 49 + p.flags.toNat <<< 41 + voff <<< 32 + p.seq % 2 ^ 32

/-- Descriptors and values of records, each value at its unit offset. -/
def pendArea : List (Pending × PendRec) → Nat → List Nat × List (Nat × List Byte)
  | [], _ => ([], [])
  | (p, r) :: rest, voff =>
    let (ds, vs) := pendArea rest (voff + r.units)
    (r.word p voff :: ds, (0x6000 + 512 * voff, r.value) :: vs)

/-- Bytes at offsets of a zeroed area of `size` bytes. -/
def placeAll (size : Nat) (ps : List (Nat × List Byte)) : List Byte :=
  ps.foldl (fun b p => splice b p.1 p.2) (List.replicate size 0)

/-- The words of the open CPYD (R329). -/
def openCpydWords (x : CpydStream) (cls : Nat) : List Nat :=
  [x.next.toNat, x.endAddr.toNat, x.vecsLeft <<< 32 + x.blocksLeft,
   1 <<< 63 + x.tag <<< 16 + x.mm.hint.toNat <<< 14 + x.wc <<< 12 + x.rmax <<< 4 + cls]

/-- The vectors of a decoder FIFO. -/
def fifoVecs (f : List FifoItem) : List (BitVec 4096) :=
  f.filterMap (fun i => match i with
    | .vec x => some x
    | .bad _ _ _ => none)

/-- A strand record (R329). -/
def strandRecord (n : StrandId) (c : Ctx) (t : Strand) : List Byte :=
  let w (x : Word) : List Byte := natBytes 8 x.toNat
  let num (k : Nat) : List Byte := natBytes 8 k
  let tokens := ((List.range 8).map (fun i => t.tokens.toList.getD i 0 <<< (4 * i))).foldl (· + ·) 0
  let recs := (t.pend.map (fun p => (pendRecs p.dests).map (fun r => (p, r)))).flatten
  let (descs, vals) := pendArea recs 0
  let vecs := fifoVecs t.fifo
  placeAll 65536 ([
    (0x0000, num (1 <<< 48 + t.level.val <<< 40 + n.val)),
    (0x0008, w t.pc),
    (0x0010, (t.s.toList.map w).flatten),
    (0x0210, num (tokens <<< 8 + (t.p ||| 1).toNat)),
    (0x0218, w t.tags ++ num t.vstat.toNat ++ num t.role ++ w t.leasectl ++ w t.qmin ++ w t.qcap ++ w c.tdeleg ++ num t.tlock.toNat),
    (0x0258, num t.stklim ++ w t.stkbase ++ num t.tsquota ++ num (t.tfloor <<< 16 + t.image.length)),
    (0x0278, num t.ordinal),
    (0x0280, (t.idx.toList.map w).flatten ++ (t.ext.toList.map w).flatten),
    (0x02E0, (t.traps.toList.map (fun r => w r.pc ++ w r.cause ++ w r.addr ++ w r.info)).flatten),
    (0x0340, num (match t.openTile with
      | some o => 1 <<< 63 + o.id <<< 32 + o.col <<< 16 + o.row
      | none => 0)),
    (0x0348, num (match t.kept with
      | some k => 1 <<< 63 + k.id <<< 32 + k.rows.length
      | none => 0)),
    (0x0350, num t.declared ++ num t.vdecs),
    (0x0360, match t.streams with
      | x :: _ => ((openCpydWords x (c.classOf x.mm.cls).toNat).map num).flatten
      | [] => []),
    (0x0380, (t.image.map (natBytes 2)).flatten),
    (0x0980, (t.locks.map (fun l => w l.addr)).flatten),
    (0x0D80, num vecs.length),
    (0x1000, (t.k.toList.map (fun x => natBytes 128 x.toNat)).flatten),
    (0x1400, (descs.map num).flatten),
    (0x2000, (t.v.toList.map (fun x => natBytes 512 x.toNat)).flatten),
    (0xE000, (vecs.map (fun x => natBytes 512 x.toNat)).flatten)] ++ vals)

/-! ### SWITCH_OUT (R328) -/

/-- The machine of R246 is empty for a strand. -/
def State.machineEmpty (s : State) (n : StrandId) : Bool := (s.strand n).cq.isEmpty && (s.flying n).isEmpty

/-- What the record has no field for (R87, R94). -/
def Strand.backing (t : Strand) (record : Nat) : Backing where
  record := record
  tiles := t.tiles
  openTile := t.openTile
  kept := t.kept
  bad := t.fifo.find? (fun i => match i with
    | .vec _ => false
    | .bad _ _ _ => true)
  more := t.streams.drop 1
  spo := t.spo
  atomJ := t.atomJ
  fell := t.fell
  firstCause := t.firstCause
  held := t.held

/-- The image of a core-local memory. -/
def localImage (m : List Host.Cell) : List Byte := Memory.readN m 0 65536

/-- Every full tile of a strand that switches out sinks to its slot (R94, R328). -/
def State.sinkAll (s : State) (n : StrandId) : State :=
  ((s.strand n).tiles.filter (fun r => r.full && !r.sunk)).foldl (fun s r => s.sinkTile n r) s

/-- Every full tile of the strand stands in its slot, and no injected error waits in one. -/
def State.allSunk (s : State) (n : StrandId) : Bool :=
  (s.strand n).tiles.all (fun r => !r.full || (r.sunk && !s.mgmt.errTiles.any (fun x => x.1 == n && x.2.1 == r.id)))

/-- The cells of an open tile are written to its slot; false where the slot cannot take them now (R328). -/
def State.saveOpen (s : State) (n : StrandId) (c : Ctx) : State × Bool :=
  match (s.strand n).openTile with
  | none => (s, true)
  | some o =>
    let bs := o.close.image
    match s.slotWrite n c (slotAddress (s.strand n) o.id) (chunks 128 (ceilDiv bs.length 128) bs) with
    | .ok s' => (s', true)
    | .error (t, s') => (s'.slotFault n c o.id false t, t.cause == cMemUe)

/-- A context that switches out takes its translations out of every buffer (R341). -/
def State.dropTlb (s : State) (c : Nat) : State :=
  let keep : List TlbEntry → List TlbEntry := fun tlb => tlb.filter (fun e => e.ctx != c)
  { s with
    strands := s.strands.map (fun t => { t with tlb := keep t.tlb }),
    pods := s.pods.map (fun x => { x with tlb := keep x.tlb }) }

/-- The strand is saved and becomes free; its launch is suspended with the last of its strands (R328, R329). Its record says which
class an open CPYD has under the revision of the object that it runs (R239, R302). -/
def State.saveStrand (s : State) (n : StrandId) (p : PartId) (k : Fin 4) (c : Ctx) : State :=
  let t := s.strand n
  let a := s.saveArea p c
  let s := (s.surrenderIfHeld n 5).freedFor p k n
  let s := s.storePhys p a (strandRecord n (s.curCtx n) t ++ localImage (s.localMem n c.num))
  let s := s.modCtx c.num (fun c => { c with backing := c.backing.filter (fun b => b.record != a) ++ [t.backing a] })
  let s := s.modLaunch p k (fun l => { l with
    assigns := l.assigns.filter (fun x => x.strand != n), saved := l.saved ++ [(a, t.ordinal)] })
  let s := (s.modStrand n (fun t => { (Strand.freed t) with locks := [] })).dropTlb c.num
  s.trySuspend p k

/-- SWITCH_OUT: a stopped strand whose work and accesses are done is saved, once its tiles stand in their slots. -/
def execSwitchOut (n : StrandId) (s : State) : Out :=
  let t := s.strand n
  match t.launch, s.ctxOf n with
  | some (p, k), some c =>
    if t.run ≠ .stopped ∨ t.stop ≠ .switch ∨ (s.launchOf n).any (fun l => l.awaits n) ∨ !s.machineEmpty n ∨
        !t.entries.all t.heldCpyd then .next s
    else
      let (s1, saved) := (s.sinkAll n).saveOpen n c
      if !saved || !s1.allSunk n then .next s1
      else match s1.blockedIn (s1.saveArea p c) saveAreaBytes with
        | some pa => .next (s1.visitLine c.num pa)
        | none => .next (s1.saveStrand n p k c)
  | _, _ => .next s

/-- SWITCH_OUT_STOP_TIMEOUT: 1,000 µs after a world switch or a STOP began, strands that still run are drained (R328, R353). -/
def execSwitchOutStopTimeout (p : PartId) (s : State) : Out :=
  .next (allStrands.foldl (fun s n =>
    let t := s.strand n
    if s.partOf n = some p ∧ (t.run = .running ∨ (s.launchOf n).any (fun l => l.awaits n)) ∧ t.stop = .switch ∧
        t.stopAt + stopLimit ≤ s.gts then
      s.modStrand n (fun t => { t with stop := .drain })
    else s) s)

/-! ### RESTORE (R332) -/

/-- A field of a record in memory. -/
def field8 (bs : List Byte) (off : Nat) : Nat := bytesNat ((bs.drop off).take 8)

def wordsAt (bs : List Byte) (off : Nat) (i : Nat) : Word := word (field8 bs (off + 8 * i))

def wideAt (bs : List Byte) (off size i : Nat) : Nat := bytesNat ((bs.drop (off + size * i)).take size)

/-- The pending write of a descriptor, none for an absent one (R330). -/
def pendOf (bs : List Byte) (j : Nat) : Option Pending :=
  let d := field8 bs (0x1400 + 8 * j)
  if bits d 63 1 = 0 then none
  else
    let v := 0x6000 + 512 * bits d 32 6
    let reg := bits d 49 6
    let dests : List VDest := match bits d 57 2 with
      | 0 => (List.range (2 ^ bits d 55 2)).map (fun i => .v (Fin.ofNat 32 (reg + i)) (BitVec.ofNat 4096 (wideAt bs v 512 i)))
      | 1 => [.k (Fin.ofNat 8 reg) (BitVec.ofNat 1024 (wideAt bs v 128 0))]
      | _ => [.s (Fin.ofNat 64 reg) (word (field8 bs v))]
    some ⟨bits d 59 4, bits d 0 32, dests, BitVec.ofNat 8 (bits d 41 8), true⟩

/-- The open CPYD of a record. -/
def cpydOf (bs : List Byte) (seq : Nat) : Option CpydStream :=
  let f := field8 bs 0x0378
  if bits f 63 1 = 0 then none
  else
    let c := field8 bs 0x0370
    some ⟨seq, bits f 16 6, word (field8 bs 0x0360), word (field8 bs 0x0368), bits f 12 2, bits f 4 8, 0, bits c 0 32, bits c 32 32,
      { (default : MemMod) with cls := BitVec.ofNat 4 (bits f 0 4), hint := BitVec.ofNat 2 (bits f 14 2) }⟩

/-- The command of an open stream as its queue holds it: started, passed, its header read. -/
def cpydEntry (t : Strand) (x : CpydStream) : QEntry :=
  { (t.newEntry (.cpyd default x.mm (BitVec.ofNat 6 x.tag) 0 0) true t.checkpoint) with
    seq := x.seq, stage := .started, passed := true, granted := true, work := { Work.none with phase := 1 } }

/-- The lines of a lock list that translate, locked again (R148, R332). -/
def State.relock (s : State) (c : Ctx) (addrs : List Word) : List LockLine :=
  addrs.filterMap (fun a => match s.translate [] c .exec a with
    | .ok (pa, _) => some ⟨a, s.cohN pa 128⟩
    | .error _ => none)

/-- A line of a lock list that its fill waits for (R390, R397). -/
def State.relockDue (s : State) (c : Ctx) (addrs : List Word) : Option Nat :=
  addrs.findSome? (fun a => match s.translate [] c .exec a with
    | .ok (pa, _) => if s.lineDue pa then some pa else none
    | .error t => if t.cause = cHeld then some t.addr.toNat else none)

/-- The lock list of a record, up to its end mark. -/
def lockAddrs (bs : List Byte) : List Word := ((List.range 128).map (fun i => wordsAt bs 0x0980 i)).takeWhile (fun a => a != 0)

/-- A record's pending writes, the younger of two last, so that it wins when they land together (R330). -/
def insertPend (p : Pending) : List Pending → List Pending
  | [] => [p]
  | q :: qs => if q.seq ≤ p.seq then q :: insertPend p qs else p :: q :: qs

def pendsOf (bs : List Byte) : List Pending := ((List.range 32).filterMap (pendOf bs)).foldl (fun ps p => insertPend p ps) []

/-- Pending writes numbered afresh from `base` up, in the order of their ages (R156, R330). -/
def renumber (base : Nat) (all ps : List Pending) : List Pending :=
  ps.map (fun p => { p with seq := base + (all.filter (fun q => decide (q.seq < p.seq))).length })

/-- The first cause that a restored strand's double fault reports: the trap's that set TLOCK, which its level's TCAUSE still holds
where its backing region does not; always one of the 26 of R11 (R325). (Log entry 53, DEDUCED, safe.) -/
def Strand.causeOf (t : Strand) (b : Backing) : BitVec 8 :=
  let own := (t.trapRegs t.level.val).cause.setWidth 8
  if listedCauses.contains b.firstCause then b.firstCause else if listedCauses.contains own then own else cDouble

/-- The registers and the control state of a record, as a write of each stores it: reserved bits are dropped, and a reserved code of
ROLE is 1 (R5, R83, R84, R315; R332, step 3). -/
def Strand.load (t : Strand) (bs : List Byte) (b : Backing) : Strand :=
  let tok := field8 bs 0x0210
  let depth := bits (field8 bs 0x0270) 0 10
  let role := bits (field8 bs 0x0228) 0 2
  let t := { t with
    pc := word (field8 bs 0x0008), slot0 := false, level := Fin.ofNat 4 (bits (field8 bs 0) 40 8),
    s := Vector.ofFn (fun i : Fin 64 => wordsAt bs 0x0010 i.val),
    p := BitVec.ofNat 8 (bits tok 0 8),
    tokens := Vector.ofFn (fun i : Fin 8 => bits tok (8 + 4 * i.val) 4),
    tags := wordsAt bs 0x0218 0, vstat := BitVec.ofNat 8 (field8 bs 0x0220), role := if role = 3 then 1 else role,
    leasectl := leasectlStored (wordsAt bs 0x0230 0), qmin := poolStored false (wordsAt bs 0x0238 0),
    qcap := poolStored true (wordsAt bs 0x0240 0), tlock := field8 bs 0x0250 == 1,
    stklim := stklimStored (wordsAt bs 0x0258 0), stkbase := wordsAt bs 0x0260 0 &&& ~~~0x3FFFF,
    tsquota := tsquotaStored (wordsAt bs 0x0268 0),
    tfloor := bits (field8 bs 0x0270) 16 10, ordinal := field8 bs 0x0278,
    idx := Vector.ofFn (fun i : Fin 6 => wordsAt bs 0x0280 i.val),
    ext := Vector.ofFn (fun i : Fin 6 => wordsAt bs 0x02B0 i.val),
    traps := Vector.ofFn (fun i : Fin 3 => ⟨wordsAt bs (0x02E0 + 32 * i.val) 0 &&& ~~~1, wordsAt bs (0x02E0 + 32 * i.val) 1 &&& 0x3FF,
      wordsAt bs (0x02E0 + 32 * i.val) 2, wordsAt bs (0x02E0 + 32 * i.val) 3⟩),
    declared := field8 bs 0x0350, vdecs := field8 bs 0x0358,
    image := (List.range depth).map (fun i => wideAt bs 0x0380 2 i),
    k := Vector.ofFn (fun i : Fin 8 => BitVec.ofNat 1024 (wideAt bs 0x1000 128 i.val)),
    v := Vector.ofFn (fun i : Fin 32 => BitVec.ofNat 4096 (wideAt bs 0x2000 512 i.val)),
    fifo := (List.range (bits (field8 bs 0x0D80) 0 5)).map (fun i => FifoItem.vec (BitVec.ofNat 4096 (wideAt bs 0xE000 512 i))) ++ b.bad.toList,
    tiles := b.tiles, openTile := b.openTile, openId := b.openTile.map OpenTile.id, kept := b.kept,
    spo := b.spo, atomJ := b.atomJ, fell := b.fell }
  let held := b.held.toList.flatten
  let pend := pendsOf bs
  let base := t.nseq + held.length + pend.length + 1
  let streams := (cpydOf bs base).toList ++ b.more.mapIdx (fun i x => { x with seq := base + 1 + i })
  let t : Strand := { t with
    streams := streams, nseq := base + 1 + streams.length, firstCause := t.causeOf b,
    held := b.held.map (renumber t.nseq held), pend := renumber (t.nseq + held.length) pend pend }
  t.setQueue .L (streams.map (cpydEntry t))

/-- A strand resumes from its record (R271, R280, R314, R332). A stop asked of it meanwhile stands (R313, R328). -/
def State.loadStrand (s : State) (n : StrandId) (p : PartId) (k : Fin 4) (c : Ctx) (l : Launch) (a : Nat) : State :=
  let bs := s.cohN a 65536
  let b := (c.backing.find? (fun b => b.record == a)).getD default
  let locks := s.relock c (lockAddrs bs)
  let mem := Memory.writeN [] 0 (s.cohN (a + 65536) 65536)
  let s := s.modCtx c.num (fun c => { c with
    tdeleg := tdelegStored (wordsAt bs 0x0248 0), backing := c.backing.filter (fun b => b.record != a), locals := setLocal c.locals n mem })
  let s := s.modLaunch p k (fun l => l.modAssign n (fun x => { x with record := none, fell := b.fell }))
  let s := b.tiles.foldl (fun s r => s.forgetErrors n r.id) s
  (s.modStrand n (fun t =>
    let base : Strand := { (Strand.freed t) with
      run := .running, ctx := some c.num, launch := some (p, k), locks := locks, stop := t.stop, stopAt := t.stopAt }
    let t := base.load bs b
    { t with permit := if t.fell then none else l.permitOf p k t.ordinal })).noteSettings n

/-- The management core reports a record whose FORMAT is not 1 (R332). -/
def State.reportRecord (s : State) (c : Nat) (n : StrandId) (a : Nat) : State :=
  if s.mgmt.badRecords.contains (c, n, a) then s
  else { s with mgmt := { s.mgmt with badRecords := s.mgmt.badRecords ++ [(c, n, a)] } }

/-- RESTORE: the strand that LAUNCH_RESUME has set aside loads its record; one whose FORMAT is not 1 is refused and reported.
(Log entry 53, DEDUCED, safe.) -/
def execRestore (n : StrandId) (ctx : Nat) (record : Nat) (s : State) : Out :=
  let t := s.strand n
  match t.launch, s.launchOf n, s.ctxOf n with
  | some (p, k), some l, some c =>
    if t.run ≠ .stopped ∨ c.num ≠ ctx ∨ ((l.assign? n).bind (·.record)) ≠ some record then .next s
    else match (s.dueIn record saveAreaBytes).orElse (fun _ => s.relockDue c (lockAddrs (s.cohN record 65536))) with
    | some pa => .next (s.visitLine c.num pa)
    | none =>
    if bits (physWord s record) 48 16 ≠ 1 then .next (s.reportRecord c.num n record)
    else .next (s.loadStrand n p k c l record)
  | _, _, _ => .next s

/-! ### WORLD_SWITCH (R328, R347, R358, R372) -/

/-- The virtual functions bound to a partition, in the order of their binding. -/
def State.boundTo (s : State) (p : PartId) : List VfBinding := s.mgmt.vfs.filter (fun b => b.part == p)

/-- A launch of the virtual function could run. -/
def State.vfReady (s : State) (p : PartId) (v : VfId) : Bool :=
  (s.part p).queue.any (fun l => match s.ctx? l.ctx with
    | some c => c.live && c.vf == v && !c.stopped && !c.quiesced
    | none => false)

/-- The next virtual function in round-robin order that has a ready launch (R347). -/
def State.nextVf (s : State) (p : PartId) (v : VfId) : Option VfBinding :=
  let bs := s.boundTo p
  let i := (bs.findIdx? (fun b => b.vf == v)).getD 0
  (bs.drop (i + 1) ++ bs.take i).find? (fun b => s.vfReady p b.vf)

/-- What leaves with a virtual function. -/
def State.vfState (s : State) (p : PartId) : VfState :=
  let x := s.part p
  { sched := x.sched, mo := x.mo, stamp := x.stamp, logCtx := x.logCtx, seqCount := x.seqCount, snapshots := x.snapshots,
    rwin := x.rwin, recSched := x.recSched, recMo := x.recMo, repPos := x.repPos, repTaken := x.repTaken,
    repPerformed := x.repPerformed, counters := x.counters,
    strands := (allStrands.filter (fun n => s.partOf n == some p)).map (fun n =>
      let t := s.strand n
      ⟨n, t.counters, t.views, t.moCount, t.moFree, t.schedCount⟩),
    ready := x.ready }

/-- A virtual function that has not run: logs disabled, counters zero (R347, R358, R372). -/
def freshVf : VfState :=
  { sched := LogRegs.reset, mo := LogRegs.reset, stamp := LogRegs.reset, logCtx := 0, seqCount := 0, snapshots := none, rwin := 0,
    recSched := [], recMo := [], repPos := 0, repTaken := [], repPerformed := [], counters := Vector.replicate 4 0, strands := [], ready := [] }

/-- What comes with a virtual function; a strand it has no counters for starts from zero. -/
def State.loadVf (s : State) (p : PartId) (v : VfState) : State :=
  let s := s.modPart p (fun x => { x with
    sched := v.sched, mo := v.mo, stamp := v.stamp, logCtx := v.logCtx, seqCount := v.seqCount, snapshots := v.snapshots,
    rwin := v.rwin, recSched := v.recSched, recMo := v.recMo, repPos := v.repPos, repTaken := v.repTaken,
    repPerformed := v.repPerformed, repSince := s.gts, holdSince := [], counters := v.counters, stalled := false, ready := v.ready })
  (allStrands.filter (fun n => s.partOf n == some p)).foldl (fun s n =>
    let e := (v.strands.find? (fun e => e.strand == n)).getD ⟨n, Vector.replicate 9 0, Views.zero, 0, [], 0⟩
    s.modStrand n (fun t => { t with
      counters := e.counters, views := e.views, moCount := e.moCount, moFree := e.moFree, schedCount := e.schedCount })) s

/-- Every strand of the partition that runs, or waits for its record, is asked to stop as a world switch asks (R328). -/
def State.askSwitch (s : State) (p : PartId) (f : Strand → Bool) : State :=
  allStrands.foldl (fun s n =>
    let t := s.strand n
    if s.partOf n = some p ∧ (t.run = .running ∨ t.run = .stopped) ∧ t.launch.isSome ∧ f t then
      s.modStrand n (fun t => t.ask .switch s.gts)
    else s) s

/-- A launch of the resident virtual function still waits to be written KILLED. -/
def State.dyingHere (s : State) (p : PartId) : Bool :=
  (s.part p).dying.any (fun d => (s.ctx? d.1.ctx).any (fun k => (s.part p).resident == some k.vf))

/-- Nothing of the resident virtual function is left on the partition. -/
def State.partEmpty (s : State) (p : PartId) : Bool :=
  !s.dyingHere p && allSlots.all (fun k => (s.slot p k).isNone) && (s.part p).ready.isEmpty && !s.orbuf.any (fun e => e.part == p) &&
  allStrands.all (fun n => s.partOf n != some p || s.machineEmpty n)

/-- The layout commit holds a context of the partition quiesced (R347). -/
def State.quiescedPart (s : State) (p : PartId) : Bool := s.ctxs.any (fun c => c.part == p && c.live && c.quiesced)

/-- The change of the resident virtual function. -/
def State.changeVf (s : State) (p : PartId) (v : VfId) (b : VfBinding) : State :=
  let old := s.vfState p
  let s : State := { s with mgmt := { s.mgmt with vfs := s.mgmt.vfs.map (fun x =>
    if x.vf = v then { x with saved := some old } else if x.vf = b.vf then { x with saved := none } else x) } }
  let s := s.loadVf p (b.saved.getD freshVf)
  let s := (s.ctxs.filter (fun k => k.part == p && k.vf == v)).foldl (fun s k => s.dropTlb k.num) s
  s.modPart p (fun x => { x with resident := some b.vf, switching := false, sliceStart := s.gts })

/-- WORLD_SWITCH: at the end of a slice the partition's strands are asked to stop; once it is empty, the next virtual function
comes in. -/
def execWorldSwitch (p : PartId) (s : State) : Out :=
  let x := s.part p
  match x.resident with
  | none => .next s
  | some v =>
    if x.switching then
      let s := s.trySuspendAll p
      if !s.partEmpty p then .next s
      else match s.nextVf p v with
        | none => .next (s.modPart p (fun x => { x with switching := false, sliceStart := s.gts }))
        | some b => .next (s.changeVf p v b)
    else
      let slice := ((s.mgmt.vfs.find? (fun b => b.vf == v)).map (·.sliceUs)).getD 0
      if s.gts < x.sliceStart + slice * 1000 || s.quiescedPart p || (s.nextVf p v).isNone then .next s
      else .next ((s.askSwitch p (fun _ => true)).modPart p (fun x => { x with switching := true }))

/-! ### PAGE_WALK (R335 to R337, R341) -/

/-- The entries of a control core's and of a Pod's translation buffer (R341). -/
def coreTlb : Nat := 64
def podTlb : Nat := 2048

/-- A walk's result joins a buffer of `size` entries; a full one gives up an entry that the spec does not name. -/
def tlbAdd (size ticks : Nat) (tlb : List TlbEntry) (e : TlbEntry) : List TlbEntry :=
  (if tlb.length < size then tlb else tlb.eraseIdx (Config.tlbVictim ticks % size)) ++ [e]

/-- The strand makes accesses for its context: it has work of a launch, or instructions of one that have not completed. A context that
has switched out has no such strand (R341). -/
def State.holdsContext (s : State) (n : StrandId) : Bool :=
  ((s.strand n).launch.isSome && (s.strand n).run != .stopped) || !(s.strand n).idle

/-- PAGE_WALK: a translation that is not cached is cached. A walk is one step, so that it holds no walk slot across steps. -/
def execPageWalk (n : StrandId) (engine : Bool) (va : Word) (s : State) : Out :=
  match s.ctxOf n with
  | none => .next s
  | some c =>
    let tlb := if engine then (s.pod (podOf n)).tlb else (s.strand n).tlb
    if !s.holdsContext n || tlb.any (fun e => e.covers c.num va.toNat) then .next s
    else match s.walkDue c va, s.walk c va with
      | some pa, _ => .next (s.visitLine c.num pa)
      | none, none => .next s
      | none, some e =>
        if engine then .next (s.modPod (podOf n) (fun x => { x with tlb := tlbAdd podTlb s.ticks x.tlb e }))
        else .next (s.modStrand n (fun t => { t with tlb := tlbAdd coreTlb s.ticks t.tlb e }))

/-! ### Debug stops, samples, trace records (R279) -/

/-- The strand stands at a safe point, its older work drained: an event that safe points admit takes effect. -/
def State.standsSafe (s : State) (n : StrandId) : Bool :=
  let t := s.strand n
  t.drained && (match s.peek n with
    | some i => s.atSafePoint n i && !(Instr.isNext i && s.unitGranted n)
    | none => false)

/-- An event of R279 is requested, or takes effect at the safe point that its request has stopped dispatch at. -/
def State.atSafe (s : State) (n : StrandId) (asked : Strand → Bool) (ask effect : Strand → Strand) : State :=
  if asked (s.strand n) then (if s.standsSafe n then s.modStrand n effect else s)
  else if (s.strand n).run = .running then s.modStrand n ask else s

/-- DEBUG_STOP: the strand stops until RESUME of its context. -/
def execDebugStop (n : StrandId) (s : State) : Out :=
  .next (s.atSafe n (·.debugReq) (fun t => { t with debugReq := true })
    (fun t => { t.completeVector with debugReq := false, run := .stopped, stop := .debug }))

/-- SAMPLE: a pending sample takes effect. (Log entry 54, DEDUCED, safe.) -/
def execSample (n : StrandId) (s : State) : Out :=
  .next (s.atSafe n (·.sampleReq) (fun t => { t with sampleReq := true }) (fun t => { t.completeVector with sampleReq := false }))

/-- The trace's next record: the strand, its GTS, and the ordinal of the safe point at which the strand stands (R278). -/
def State.traceNow (s : State) (n : StrandId) : TraceRec :=
  let o := match s.peek n, s.launchOf n with
    | some i, some l => l.safeOrdinal (Instr.stopBit i) (s.strand n).pc
    | _, _ => none
  ⟨n, s.gts, o.getD noSpo⟩

/-- TRACE_RECORD: a pending trace record is made. (Log entry 54, DEDUCED, safe.) -/
def execTraceRecord (n : StrandId) (s : State) : Out :=
  let made := (s.strand n).traceReq && s.standsSafe n
  let s1 : State := if made then { s with trace := s.trace ++ [s.traceNow n] } else s
  .next (s1.atSafe n (·.traceReq) (fun t => { t with traceReq := true }) (fun t => { t.completeVector with traceReq := false }))

end Sys2Proof.Machine
end

