-- ==== Sys2Proof/Machine/Load.lean ====
section
/-! DEFINITION. The firmware loader (R300 to R304): reading a code object, its checks in their order, and its placement in a
context. -/

namespace Sys2Proof.Machine

/-! ### The object (R300, R301) -/

def u16At (bs : List Byte) (off : Nat) : Nat := bytesNat ((bs.drop off).take 2)
def u32At (bs : List Byte) (off : Nat) : Nat := bytesNat ((bs.drop off).take 4)

/-- A section: its header's fields and its contents. -/
structure Section where
  type : Nat
  alloc : Bool
  exec : Bool
  size : Nat
  link : Nat
  info : Nat
  data : List Byte

def shProgbits : Nat := 1
def shSymtab : Nat := 2
def shRela : Nat := 4
def shNote : Nat := 7
def shNobits : Nat := 8
def cxDict : Nat := 0x70000001
def cxKdesc : Nat := 0x70000002
def cxSafe : Nat := 0x70000003
def cxLoop : Nat := 0x70000004

/-- The section types a loader knows: ELF-64's and R301's. -/
def knownType (t : Nat) : Bool := t ≤ 11 || (cxDict ≤ t && t ≤ cxLoop)

/-- The ELF-64 header's fields (R300). -/
structure ElfHeader where
  good : Bool
  flags : Nat
  shoff : Nat
  shentsize : Nat
  shnum : Nat

def elfHeader (h : List Byte) : ElfHeader where
  good := h.take 4 == [0x7F, 0x45, 0x4C, 0x46] && h.getD 4 0 == 2 && h.getD 5 0 == 1 && u16At h 18 == 0x0CF7 && u16At h 16 == 2
  flags := u32At h 48
  shoff := field8 h 40
  shentsize := u16At h 58
  shnum := u16At h 60

/-- A header that LOAD_E_FORMAT refuses before any section is read: not an executable object for this machine, or one that needs
a revision above FVER.ARCH (R303). -/
def ElfHeader.refused (e : ElfHeader) : Bool := !e.good || decide (3 < e.flags % 256)

/-- One section, read through the context's tables. -/
def State.readSection (s : State) (c : Ctx) (a : Word) (h : List Byte) : Except TrapInfo Section := do
  let type := u32At h 4
  let size := field8 h 32
  let data ← if type = shNobits then .ok (List.replicate size 0) else s.loadBytesVa c (a + word (field8 h 24)) size
  .ok ⟨type, (field8 h 8).testBit 1, (field8 h 8).testBit 2, size, u32At h 40, u32At h 44, data⟩

def State.readSections (s : State) (c : Ctx) (a : Word) (e : ElfHeader) : Nat → Except TrapInfo (List Section)
  | 0 => .ok []
  | k + 1 => do
    let h ← s.loadBytesVa c (a + word (e.shoff + (e.shnum - (k + 1)) * e.shentsize)) 64
    let x ← s.readSection c a h
    let r ← s.readSections c a e k
    .ok (x :: r)

/-! ### Notes and relocations (R301, R302) -/

/-- The notes of a note section: name, type and contents; `fuel` bounds their number. -/
def notesOf : Nat → List Byte → List (List Byte × Nat × List Byte)
  | 0, _ => []
  | fuel + 1, bs =>
    if bs.length < 12 then []
    else
      let nsz := u32At bs 0
      let dsz := u32At bs 4
      let name := (bs.drop 12).take nsz
      let desc := (bs.drop (12 + ceilDiv nsz 4 * 4)).take dsz
      (name, u32At bs 8, desc) :: notesOf fuel (bs.drop (12 + ceilDiv nsz 4 * 4 + ceilDiv dsz 4 * 4))

/-- "Camxia" with its end. -/
def camxia : List Byte := [0x43, 0x61, 0x6D, 0x78, 0x69, 0x61, 0x00]

def objectNotes (ss : List Section) : List (Nat × List Byte) :=
  (((ss.filter (fun x => x.type == shNote)).map (fun x => notesOf (x.data.length / 12 + 1) x.data)).flatten.filter
    (fun n => n.1 == camxia)).map (·.2)

def revisionNotes (ss : List Section) : List (List Byte) :=
  ((objectNotes ss).filter (fun n => n.1 == 0x80000001)).map (·.2)

/-- A relocation: the section it changes, the offset there, the symbol's table and number, its type and its addend. -/
structure Reloc where
  target : Nat
  off : Nat
  symtab : Nat
  sym : Nat
  type : Nat
  addend : Word

def relocsOf (ss : List Section) : List Reloc :=
  ((ss.filter (fun x => x.type == shRela)).map (fun x =>
    (chunks 24 (x.data.length / 24) x.data).map (fun r =>
      ⟨x.info, field8 r 0, x.link, field8 r 8 / 2 ^ 32, field8 r 8 % 2 ^ 32, word (field8 r 16)⟩))).flatten

/-! ### The checks of R303 -/

def safeEntries (ss : List Section) : Bool :=
  (ss.filter (fun x => x.type == cxKdesc)).any (fun x =>
    (chunks 64 (x.data.length / 64) x.data).any (fun d => decide (2 ^ 20 < bits (field8 d 0x18) 0 32)))

def kernelCount (ss : List Section) : Nat := ((ss.filter (fun x => x.type == cxKdesc)).map (fun x => x.data.length / 64)).sum

def dictWords (ss : List Section) : Nat := ((ss.filter (fun x => x.type == cxDict)).map (fun x => x.data.length / 8)).sum

/-- STATUS of the first failing condition, none for an object that loads (R303, R353). -/
def loadError (c : Ctx) (e : ElfHeader) (ss : List Section) : Option Nat :=
  if e.refused || (relocsOf ss).any (fun r => r.type != 1) then some 0x10
  else if (objectNotes ss).any (fun n => n.1.testBit 31 && n.1 != 0x80000001) || (revisionNotes ss).length != 1 then some 0x11
  else if !((revisionNotes ss).all (fun d => u32At d 0 == 1 || u32At d 0 == 2)) then some 0x12
  else if ss.any (fun x => x.alloc && !knownType x.type) ||
    (ss.any (fun x => x.type == cxDict) && c.objects.any (·.dict)) then some 0x13
  else if 1024 < dictWords ss || safeEntries ss ||
    ss.any (fun x => x.type == cxLoop && decide (63 * kernelCount ss < x.data.length / 16)) then some 0x14
  else none

/-! ### Placement (R303, R304; log entry 32, DESIGN CHOICE, unsafe) -/

/-- Section start addresses: the allocated ones follow one another from `place`, each at a 64 KiB boundary. -/
def sectionAddrs : Word → List Section → List Word
  | _, [] => []
  | a, x :: xs => if x.alloc then a :: sectionAddrs (a + word (ceilDiv x.size 65536 * 65536)) xs else 0 :: sectionAddrs a xs

/-- The load address of a symbol's section: the section a symbol lies in is the 16-bit field at offset 6 of its entry. -/
def symbolSection (ss : List Section) (symtab sym : Nat) : Nat :=
  match ss[symtab]? with
  | some t => u16At t.data (24 * sym + 6)
  | none => 0

/-- A section's contents under the object's relocations: CX_ABS64 adds the symbol's section's load address and the addend. -/
def relocate (ss : List Section) (addrs : List Word) (i : Nat) (data : List Byte) : List Byte :=
  (relocsOf ss).foldl (fun d r =>
    if r.target ≠ i then d
    else
      let w := word (field8 d r.off) + addrs.getD (symbolSection ss r.symtab r.sym) 0 + r.addend
      splice d r.off (natBytes 8 w.toNat)) data

/-- What the loader writes into an object's kernel descriptors (R304): the code section's address and size, the addresses of its
safe-point and loop sections where it has them, and the object's revision. -/
structure KdescWords where
  code : Nat
  csize : Nat
  safe : Option Nat
  loop : Option Nat
  rev : Nat

/-- One 8-byte field of a descriptor written. -/
def putWord (d : List Byte) (off v : Nat) : List Byte := splice d off (natBytes 8 v)

/-- The kernel descriptors of a section as the loader writes them, from descriptor `k` on, `before` safe-point entries lying
before them (R301, R304): each kernel's run of the safe-point table follows the one before, and 63 loop entries are each
kernel's. -/
def writeDescs (w : KdescWords) : Nat → Nat → List (List Byte) → List (List Byte)
  | _, _, [] => []
  | k, before, d :: ds =>
    let nsafe := bits (field8 d 0x18) 0 32
    let nloop := bits (field8 d 0x28) 0 6
    let place (base : Option Nat) (count off : Nat) : Nat := match base with
      | some a => if count = 0 then 0 else a + off
      | none => 0
    let d := putWord (putWord d 0x00 w.code) 0x08 w.csize
    let d := putWord (putWord d 0x10 (place w.safe nsafe (24 * before))) 0x20 (place w.loop nloop (1008 * k))
    putWord d 0x30 (field8 d 0x30 / 16 * 16 + w.rev) :: writeDescs w (k + 1) (before + nsafe) ds

def stampDescs (w : KdescWords) (data : List Byte) : List Byte := (writeDescs w 0 0 (chunks 64 (data.length / 64) data)).flatten

/-- The physical address of the leaf entry that maps a virtual address, from a level with `fuel` levels left. -/
def State.leafFrom (s : State) (va : Nat) : Nat → Nat → Nat → Option Nat
  | 0, _, _ => none
  | fuel + 1, lvl, t =>
    let a := t + 8 * pageIndex va lvl
    let e := physWord s a
    if bits e 0 1 = 0 then none
    else if bits e 1 1 = 1 then some a
    else s.leafFrom va fuel (lvl + 1) (bits e 12 40 * 4096 + (if lvl = 3 then bits e 8 4 * 256 else 0))

/-- The rights of a mapped page replaced: read, write, execute. -/
def State.setRights (s : State) (c : Ctx) (va : Word) (r w x : Bool) : State :=
  match s.leafFrom va.toNat 5 0 c.ptroot with
  | none => s
  | some a => s.writeLine a c.part
      (natBytes 8 (physWord s a &&& (2 ^ 64 - 1 - 0x1C) ||| (r.toNat <<< 2 + w.toNat <<< 3 + x.toNat <<< 4)))

/-- Bytes placed at a virtual address, its pages written whatever rights they give: TRANSLATION where one is not mapped or is
larger than 64 KiB, whose rights the sections beside would share. -/
def State.placeBytes (s : State) (c : Ctx) (a : Word) : List Byte → Except TrapInfo State
  | [] => .ok s
  | b :: bs =>
    match s.walkDue c a, s.walk c a with
    | some x, _ => .error (heldAt x)
    | none, none => .error (addrTrap cTranslation a)
    | none, some e =>
      let pa := e.pa + (a.toNat - e.va)
      if e.size ≠ 65536 then .error (addrTrap cTranslation a)
      else if s.blocked (.glob pa) then .error (heldAt pa)
      else (s.writeLine pa c.part [b]).placeBytes c (a + 1) bs

/-- The pages of a range get their rights, 64 KiB after 64 KiB. -/
def State.protect (s : State) (c : Ctx) (r w x : Bool) (a : Word) : Nat → State
  | 0 => s
  | k + 1 => (s.setRights c a r w x).protect c r w x (a + 65536) k

/-- A section as it is placed: its contents under the object's relocations, the kernel descriptors written (R304). -/
def Section.contents (x : Section) (ss : List Section) (addrs : List Word) (w : KdescWords) (i : Nat) : List Byte :=
  let d := relocate ss addrs i x.data
  if x.type = cxKdesc then stampDescs w d else d

/-- The sections of an object placed with their rights: code may be executed only, tables read only, the rest read and
written. -/
def State.placeSections (s : State) (c : Ctx) (ss : List Section) (addrs : List Word) (w : KdescWords) :
    List (Nat × Section × Word) → Except TrapInfo State
  | [] => .ok s
  | (i, x, a) :: rest =>
    if !x.alloc then s.placeSections c ss addrs w rest
    else do
      let s1 ← s.placeBytes c a (x.contents ss addrs w i)
      let table := x.type = cxKdesc || x.type = cxSafe || x.type = cxLoop
      (s1.protect c (!x.exec) (!x.exec && !table) x.exec a (ceilDiv x.size 65536)).placeSections c ss addrs w rest

/-- The load address of the first section that passes a test. -/
def addrOf (xs : List (Nat × Section × Word)) (f : Section → Bool) : Option Nat :=
  (xs.find? (fun x => x.2.1.alloc && f x.2.1)).map (fun x => x.2.2.toNat)

/-- What an object's descriptors say of its sections (R304). -/
def kdescWords (xs : List (Nat × Section × Word)) (rev : Nat) : KdescWords where
  code := (addrOf xs (·.exec)).getD 0
  csize := ((xs.find? (fun x => x.2.1.alloc && x.2.1.exec)).map (fun x => x.2.1.size)).getD 0
  safe := addrOf xs (fun x => x.type == cxSafe)
  loop := addrOf xs (fun x => x.type == cxLoop)
  rev := rev

/-- The descriptors of an object's kernels. -/
def descAddrs (xs : List (Nat × Section × Word)) : List Word :=
  ((xs.filter (fun x => x.2.1.type == cxKdesc)).map (fun x =>
    (List.range (x.2.1.data.length / 64)).map (fun k => x.2.2 + word (64 * k)))).flatten

/-- The dictionary of an object, entries beyond the loaded ones zero (R111). -/
def dictOf (ss : List Section) : List Word :=
  let ws := ((ss.filter (fun x => x.type == cxDict)).map (fun x =>
    (chunks 8 (x.data.length / 8) x.data).map (fun b => word (bytesNat b)))).flatten
  ws ++ List.replicate (1024 - ws.length) 0

/-- The outcome of LOAD_CODE: a STATUS that leaves the context unchanged, a wait for a line that no access may take now (R390, R397),
or the new state and how many sections the report lists as skipped. -/
inductive Loaded where
  | failed (status : Nat)
  | waits (t : TrapInfo)
  | ok (s : State) (skipped : Nat)

/-- The sections that a load skips, by number and type (R303). -/
def skippedSections (ss : List Section) : List (Nat × Nat) :=
  ((ss.mapIdx (fun i x => (i, x))).filter (fun x => !knownType x.2.type)).map (fun x => (x.1, x.2.type))

/-- The object's bytes, for the digest of R355: its header and its sections' contents. -/
def objectBytes (h : List Byte) (ss : List Section) : List Byte := h ++ (ss.map (·.data)).flatten

/-- A read or a placement that does not succeed: BAD_ARG, or the wait for a line. -/
def loadStops (e : TrapInfo) : Loaded := if e.cause = cHeld then .waits e else .failed 0x02

/-- The line of a page table at which the look at a section's pages waits. -/
def State.pagesDue (s : State) (c : Ctx) (xs : List (Section × Word)) : Option Nat :=
  xs.findSome? (fun x => if x.1.alloc then (List.range (ceilDiv x.1.size 65536)).findSome? (fun i =>
    s.walkDue c (x.2 + word (65536 * i))) else none)

/-- Every mapped page of the sections is one of 64 KiB, whose rights are one section's. -/
def State.smallPages (s : State) (c : Ctx) (xs : List (Section × Word)) : Bool :=
  xs.all (fun x => !x.1.alloc || (List.range (ceilDiv x.1.size 65536)).all (fun i =>
    match s.walk c (x.2 + word (65536 * i)) with
    | some e => e.size == 65536
    | none => true))

/-- LOAD_CODE's work on a context (R303): the checks in their order, then the placement, and the object with its load report. A place
off a 64 KiB boundary, or in a larger page, whose rights no two sections could have of their own, is BAD_ARG. (Log entry 32, DESIGN
CHOICE, unsafe.) -/
def State.loadObject (s : State) (c : Ctx) (a place : Word) : Loaded :=
  match s.loadBytesVa c a 64 with
  | .error e => loadStops e
  | .ok h =>
    let e := elfHeader h
    if e.refused then .failed 0x10
    else match s.readSections c a e e.shnum with
      | .error e => loadStops e
      | .ok ss =>
        match loadError c e ss with
        | some k => .failed k
        | none =>
          if place.toNat % 65536 ≠ 0 then .failed 0x02
          else
            let rev := ((revisionNotes ss).map (fun d => u32At d 0)).headD 2
            let addrs := sectionAddrs place ss
            let xs := (ss.zip addrs).mapIdx (fun i p => (i, p.1, p.2))
            match s.pagesDue c (ss.zip addrs) with
            | some pa => .waits (heldAt pa)
            | none =>
            if !s.smallPages c (ss.zip addrs) then .failed 0x02
            else match s.placeSections c ss addrs (kdescWords xs rev) xs with
            | .error e => loadStops e
            | .ok s1 =>
              let obj : CodeObject := ⟨descAddrs xs, objectBytes h ss, dictWords ss != 0, skippedSections ss⟩
              .ok (s1.modCtx c.num (fun c => { c with
                mmrev := rev, objects := c.objects ++ [obj], dict := if dictWords ss ≠ 0 then dictOf ss else c.dict }))
                (skippedSections ss).length

end Sys2Proof.Machine
end

