-- ==== Sys2Proof/Machine/Sha.lean ====
section
/-! DEFINITION. SHA-256 (FIPS 180-4), which R355's quote is made of. -/

namespace Sys2Proof.Machine

abbrev W32 := BitVec 32

/-- The greatest `x` of `k` bits or fewer, on top of `x`, whose `e`-th power does not exceed `n`. -/
def floorRoot (e n : Nat) : Nat → Nat → Nat
  | 0, x => x
  | k + 1, x => floorRoot e n k (if (x + 2 ^ k) ^ e ≤ n then x + 2 ^ k else x)

/-- The first 32 bits of the fractional part of the `e`-th root of `p`, as FIPS 180-4 defines its constants. -/
def rootFraction (e p : Nat) : W32 := BitVec.ofNat 32 (floorRoot e (p * 2 ^ (32 * e)) 38 0)

/-- The first 64 primes. -/
def shaPrimes : List Nat := (List.range 312).filter (fun n => 2 ≤ n && (List.range n).all (fun d => d < 2 || n % d != 0))

/-- The round constants K: from the cube roots of the first 64 primes. -/
def shaK : List W32 := shaPrimes.map (rootFraction 3)

/-- The initial hash value: from the square roots of the first eight primes. -/
def shaInit : List W32 := (shaPrimes.take 8).map (rootFraction 2)

/-- A message padded to whole 64-byte blocks. -/
def shaPad (m : List Byte) : List Byte :=
  m ++ [0x80] ++ List.replicate ((119 - m.length % 64) % 64) 0 ++ (natBytes 8 (8 * m.length)).reverse

/-- Big-endian words of a block. -/
def shaWords (b : List Byte) : List W32 := (chunks 4 16 b).map (fun w => BitVec.ofNat 32 (bytesNat w.reverse))

/-- The exclusive or of a word's rotations. -/
def rotations (x : W32) (ks : List Nat) : W32 := (ks.map x.rotateRight).foldl (· ^^^ ·) 0

/-- `k` further words of the message schedule, which is held newest first. -/
def shaSchedule : Nat → List W32 → List W32
  | 0, w => w
  | k + 1, w =>
    let g (i : Nat) : W32 := w.getD i 0
    let low := rotations (g 14) [7, 18] ^^^ g 14 >>> 3
    let high := rotations (g 1) [17, 19] ^^^ g 1 >>> 10
    shaSchedule k ((g 15 + low + g 6 + high) :: w)

/-- One round on the working words a to h: two new words enter, the others move down (FIPS 180-4, 6.2.2). -/
def shaRound (h : List W32) (kw : W32) : List W32 :=
  let g (i : Nat) : W32 := h.getD i 0
  let choose := (g 4 &&& g 5) ||| (~~~g 4 &&& g 6)
  let majority := (g 0 &&& (g 1 ||| g 2)) ||| (g 1 &&& g 2)
  let t1 := g 7 + rotations (g 4) [6, 11, 25] + choose + kw
  [t1 + (rotations (g 0) [2, 13, 22] + majority)] ++ (h.take 3) ++ [g 3 + t1] ++ (h.drop 4).take 3

/-- One block. -/
def shaBlock (h : List W32) (b : List Byte) : List W32 :=
  let w := (shaSchedule 48 (shaWords b).reverse).reverse
  let r := ((w.zip shaK).map (fun x => x.1 + x.2)).foldl shaRound h
  (h.zip r).map (fun x => x.1 + x.2)

/-- SHA-256 of a message, 32 bytes. (Log entry 58, DEDUCED, unsafe.) -/
def sha256 (m : List Byte) : List Byte :=
  let p := shaPad m
  (((chunks 64 (p.length / 64) p).foldl shaBlock shaInit).map (fun w => (natBytes 4 w.toNat).reverse)).flatten

end Sys2Proof.Machine
end

