-- ==== Sys2Proof/Machine/Host.lean ====
section
/-! DEFINITION. The firmware commands (R346 to R348, R351 to R355, R374, R377, R390). A command that cannot finish yet leaves what it
has done and is carried on when its event is repeated; its REPLY comes with its end. -/

namespace Sys2Proof.Machine

/-! ### Replies and issuers (R353) -/

def okStatus : Nat := 0x00
def busyStatus : Nat := 0x01
def badArg : Nat := 0x02
def deniedStatus : Nat := 0x03
def abortedStatus : Nat := 0x04
def exhaustedStatus : Nat := 0x06
def refusedStatus : Nat := 0x20
def queueFull : Nat := 0x21

/-- The one REPLY of a command, which ends it. -/
def State.reply (s : State) (c : Cmd) (status : Nat) (results : List Word) : State :=
  let s := s.send ⟨c.node, .reply, word (c.seq.toNat <<< 48 + status) :: results, []⟩
  { s with mgmt := { s.mgmt with executing := none } }

/-- A command as its issuer names it. -/
def Cmd.key (c : Cmd) : Nat × Nat := (c.node, c.seq.toNat)

/-- The command executes on: no other begins before its REPLY (R353). -/
def State.pend (s : State) (c : Cmd) : State := { s with mgmt := { s.mgmt with executing := some (Cmd.key c) } }

/-- A command waits for a line that it reads or writes for a context, and finds the line's error (R386, R390, R397; log entry 72,
DESIGN CHOICE, safe). Where that ends the context the command is ABORTED. -/
def State.pendFor (s : State) (c : Cmd) (ctx : Nat) (pa : Nat) : State :=
  let t := s.visitLine ctx pa
  if (s.ctx? ctx).any (·.live) && !(t.ctx? ctx).any (·.live) then t.reply c abortedStatus [] else t.pend c

/-- Another command executes. -/
def State.otherCommand (s : State) (c : Cmd) : Bool := s.mgmt.executing.any (· != Cmd.key c)

def Cmd.operator (c : Cmd) : Bool := c.node == Config.operatorNode

/-- The binding of the virtual function for which a command comes from its host node. -/
def State.issuerVf (s : State) (c : Cmd) : Option VfBinding := s.mgmt.vfs.find? (fun b => b.vf == c.vf && b.node == c.node)

/-- The command may be issued: by the operator, or where it is marked VF by a bound virtual function's host node. -/
def State.mayIssue (s : State) (c : Cmd) (vf : Bool) : Bool := Cmd.operator c || (vf && (s.issuerVf c).isSome)

/-- An owner byte or a partition argument that names a partition. -/
def partArg (n : Nat) : Option PartId := if h : n < 48 then some ⟨n, h⟩ else none

/-- The owner bytes of a layout. -/
def Layout.owners (l : Layout) : List Byte := l.cores ++ l.mats ++ l.loads ++ l.stores ++ l.copies

/-- A layout change affects a partition whose engines, mask or tenant change (R354). -/
def layoutAffects (a b : Layout) (p : PartId) : Bool :=
  (a.owners.zip b.owners).any (fun x => x.1 != x.2 && (x.1.toNat == p.val || x.2.toNat == p.val)) ||
  a.masks.getD p.val 0 != b.masks.getD p.val 0 || a.tenants.getD p.val 0 != b.tenants.getD p.val 0

def State.affected (s : State) (p : PartId) : Bool :=
  match s.mgmt.shadow with
  | some l => layoutAffects s.mgmt.layout l p
  | none => false

/-- The course of a command (R353, R354, R391): it waits while another executes; BUSY after a failed start but for FW_UPDATE and ATTEST,
DENIED for another issuer, and while a COMMIT executes BUSY where it names an affected partition; another command waits for its end.
(Log entry 41, DEDUCED, unsafe.) -/
def command (c : Cmd) (vf always : Bool) (parts : List PartId) (body : State → State) (s : State) : Out :=
  if s.otherCommand c then .next s
  else if s.mgmt.failedStart && !always then .next (s.reply c busyStatus [])
  else if !s.mayIssue c vf then .next (s.reply c deniedStatus [])
  else if s.mgmt.committing then (if parts.any s.affected then .next (s.reply c busyStatus []) else .next s)
  else .next (body s)

/-- The live context an argument names. -/
def State.liveCtx (s : State) (x : Word) : Option Ctx := (s.ctx? x.toNat).filter (·.live)

/-- The course of a command that names a context: BAD_ARG for one that does not exist or has ended, DENIED for another virtual
function's. -/
def ctxCommand (c : Cmd) (x : Word) (body : Ctx → State → State) (s : State) : Out :=
  command c true false ((s.liveCtx x).map (·.part)).toList (fun s =>
    match s.liveCtx x with
    | none => s.reply c badArg []
    | some k => if !Cmd.operator c && k.vf != c.vf then s.reply c deniedStatus [] else body k s) s

/-! ### Layouts (R346, R354, R391) -/

/-- A layout image of 1,120 bytes. -/
def layoutOf (bs : List Byte) : Layout :=
  let at_ (off n : Nat) : List Byte := (bs.drop off).take n
  ⟨at_ 0 256, at_ 0x100 64, at_ 0x140 128, at_ 0x1C0 128, at_ 0x240 64,
   (chunks 8 48 (at_ 0x280 384)).map (fun w => word (bytesNat w)), (chunks 2 48 (at_ 0x400 96)).map (fun w => BitVec.ofNat 16 (bytesNat w))⟩

/-- The image of a layout. -/
def layoutImage (l : Layout) : List Byte :=
  l.owners ++ (l.masks.map (fun w => natBytes 8 w.toNat)).flatten ++ (l.tenants.map (fun w => natBytes 2 w.toNat)).flatten

/-- The image has its size, each owner byte names a partition or none, and no unit that BIST marked absent is assigned. -/
def layoutGood (bs : List Byte) : Bool :=
  bs.length == 1120 && ((layoutOf bs).owners.mapIdx (fun i b => (i, b))).all (fun x =>
    x.2 == 0xFF || (decide (x.2.toNat < 48) && Config.startStepOk 3 x.1))

def execPartitionPrepare (c : Cmd) (image : List Byte) (s : State) : Out :=
  command c false false [] (fun s =>
    if s.mgmt.journal = .prepared then s.reply c busyStatus []
    else if !layoutGood image then s.reply c badArg []
    else State.reply { s with mgmt := { s.mgmt with shadow := some (layoutOf image), journal := .prepared } } c okStatus []) s

/-- Running strands of a context, or a partition, are asked to stop as a world switch asks (R328, R353). -/
def State.stopCtx (s : State) (c : Ctx) : State := s.askSwitch c.part (fun t => t.ctx == some c.num)

/-- Nothing of a context runs: none of its launches is in a walk slot and its strands hold nothing (R328). -/
def State.ctxEmpty (s : State) (c : Ctx) : Bool :=
  allSlots.all (fun k => match s.slot c.part k with
    | some l => l.ctx != c.num
    | none => true) &&
  allStrands.all (fun n => (s.strand n).ctx != some c.num || ((s.strand n).launch.isNone && s.machineEmpty n))

/-- Step 2 of R354: every affected partition is quiesced. -/
def State.quiesce (s : State) : State :=
  (s.ctxs.filter (fun k => k.live && s.affected k.part)).foldl (fun s k =>
    (s.stopCtx k).modCtx k.num (fun k => { k with quiesced := true, stopSince := s.gts })) s

def State.quiesceDone (s : State) : Bool := s.ctxs.all (fun k => !k.live || !s.affected k.part || s.ctxEmpty k)

/-- Colours that leave a partition's mask between two layouts. -/
def colourLeaves (old new : Layout) (p : PartId) (colour : Nat) : Bool :=
  (old.masks.getD p.val 0).getLsbD colour && !(new.masks.getD p.val 0).getLsbD colour

/-- The owner bytes of a Pod's shared engines, in the order of `engineSlot`. -/
def Layout.shared (l : Layout) (p : PodId) : List Byte :=
  [l.loads.getD (2 * p.val) 0xFF, l.loads.getD (2 * p.val + 1) 0xFF, l.stores.getD (2 * p.val) 0xFF, l.stores.getD (2 * p.val + 1) 0xFF,
   l.copies.getD p.val 0xFF]

/-- The owner bytes of a Pod's engines. -/
def Layout.podOwners (l : Layout) (p : PodId) : List Byte :=
  (List.range 4).map (fun c => l.cores.getD (4 * p.val + c) 0xFF) ++ l.mats.getD p.val 0xFF :: l.shared p

/-- The Pods concerned: those in which an affected partition owns an engine before or after (R354). -/
def podConcerned (old new : Layout) (p : PodId) : Bool :=
  (old.podOwners p ++ new.podOwners p).any (fun b => match ownerOf b with
    | some q => layoutAffects old new q
    | none => false)

/-- A moved engine serves nothing any more. -/
def Pod.clearMoved (x : Pod) (old new : List Byte) : Pod :=
  { x with engines := Vector.ofFn (fun i : Fin 5 => if old.getD i.val 0xFF = new.getD i.val 0xFF then x.engines[i.val] else none) }

/-- The frames of a run that keep their owner when colours leave. -/
def keepFrames (old new : Layout) (e : OwnEntry) : List OwnEntry :=
  if (List.range 64).any (colourLeaves old new e.part) then
    ((List.range e.count).filter (fun i => !colourLeaves old new e.part (colourOf ((e.frame + i) * 65536)))).map
      (fun i => { e with frame := e.frame + i, count := 1 })
  else [e]

/-- Step 4 of R354. -/
def State.cleanup (s : State) (old : Layout) : State :=
  let new := s.mgmt.layout
  let pods := (List.ofFn (fun i : Fin 64 => i)).filter (podConcerned old new)
  let s := pods.foldl (fun s p => s.modPod p (fun x => { (x.clearMoved (old.shared p) (new.shared p)) with tlb := [] })) s
  let s := allStrands.foldl (fun s n => if pods.contains (podOf n) then s.modStrand n (fun t => { t with tlb := [] }) else s) s
  let gone := s.sc.filter (fun l => colourLeaves old new l.tag (colourOf l.pa) && !(l.held || l.bad || s.tagBad l.pa))
  let s := gone.foldl (fun s l => s.evictLine l) s
  { s with mgmt := { s.mgmt with
    owners := (s.mgmt.owners.map (keepFrames old new)).flatten, shadow := none, journal := .done, committing := false } }

/-- Step 3 of R354: every ownership register in one step; the old layout stays for the cleanup. -/
def State.swapLayout (s : State) (new : Layout) : State :=
  { s with mgmt := { s.mgmt with layout := new, shadow := some s.mgmt.layout, journal := .swapped } }

/-- The COMMIT that executes goes on. -/
def State.commitStep (s : State) (c : Cmd) : State :=
  let s := allParts.foldl State.trySuspendAll s
  match s.mgmt.journal, s.mgmt.shadow with
  | .prepared, some l => if s.quiesceDone then s.swapLayout l else s
  | .swapped, some old => (s.cleanup old).reply c okStatus []
  | _, _ => s

/-- PARTITION_COMMIT: it quiesces, swaps, and cleans up. -/
def execPartitionCommit (c : Cmd) (s : State) : Out :=
  if s.mgmt.committing ∧ s.mayIssue c false ∧ s.mgmt.commitSeq = c.seq then .next (s.commitStep c)
  else command c false false [] (fun s =>
    if s.mgmt.journal ≠ .prepared then s.reply c badArg []
    else State.quiesce { s with mgmt := { s.mgmt with committing := true, commitSeq := c.seq } }) s

/-! ### VF_BIND (R347) -/

def State.vfContexts (s : State) (v : VfId) : List Ctx := s.ctxs.filter (fun k => k.live && k.vf == v)

/-- Counters at zero. -/
def VfState.zeroed (v : VfState) : VfState :=
  { v with counters := Vector.replicate 4 0,
           strands := v.strands.map (fun e => { e with counters := Vector.replicate 9 0, views := Views.zero }) }

/-- The counters of a partition and of its strands set to zero. -/
def State.zeroCounters (s : State) (p : PartId) : State :=
  allStrands.foldl (fun s n => if s.partOf n = some p then
      s.modStrand n (fun t => { t with counters := Vector.replicate 9 0, views := Views.zero })
    else s) (s.modPart p (fun x => { x with counters := Vector.replicate 4 0 }))

/-- A binding added; the first of its partition becomes resident, with its counters at zero. A virtual function bound again keeps
its place and its logs, its counters at zero (R372). -/
def State.bindVf (s : State) (b : VfBinding) : State :=
  if s.mgmt.vfs.any (fun x => x.vf == b.vf) then
    let again : VfBinding → VfBinding := fun x => if x.vf = b.vf then { b with saved := x.saved.map VfState.zeroed } else x
    let s : State := { s with mgmt := { s.mgmt with vfs := s.mgmt.vfs.map again } }
    if (s.part b.part).resident = some b.vf then s.zeroCounters b.part else s
  else
    let s : State := { s with mgmt := { s.mgmt with vfs := s.mgmt.vfs ++ [b] } }
    if (s.part b.part).resident.isSome then s
    else (s.loadVf b.part { freshVf with ready := (s.part b.part).ready }).modPart b.part (fun x => { x with resident := some b.vf, sliceStart := s.gts })

/-- A binding removed; where it was resident, the partition's next bound one takes its place. -/
def State.unbindVf (s : State) (v : VfId) : State :=
  match s.mgmt.vfs.find? (fun b => b.vf == v) with
  | none => s
  | some b =>
    let s : State := { s with mgmt := { s.mgmt with vfs := s.mgmt.vfs.filter (fun x => x.vf != v) } }
    if (s.part b.part).resident ≠ some v then s
    else match s.boundTo b.part with
      | [] => s.modPart b.part (fun x => { x with resident := none })
      | n :: _ => s.changeVf b.part v n

def execVfBind (c : Cmd) (vf part node sliceUs : Nat) (s : State) : Out :=
  command c false false (partArg part).toList (fun s =>
    if h : vf < 384 then
      let v : VfId := ⟨vf, h⟩
      let busy := !(s.vfContexts v).isEmpty
      if part = 0xFF then
        if busy then s.reply c badArg [] else (s.unbindVf v).reply c okStatus []
      else match partArg part with
        | none => s.reply c badArg []
        | some p =>
          let moves := s.mgmt.vfs.any (fun b => b.vf == v && b.part != p)
          if sliceUs < 100 ∨ 100000 < sliceUs ∨ node < 4096 ∨ 8192 ≤ node ∨ (busy ∧ moves) then s.reply c badArg []
          else ((if moves then s.unbindVf v else s).bindVf ⟨v, p, node, sliceUs, none⟩).reply c okStatus []
    else s.reply c badArg []) s

/-! ### PAGE_GRANT (R338, R385) -/

/-- The only live context of a partition, which takes the frames granted to it (log entry 33, DESIGN CHOICE, unsafe). -/
def State.onlyCtx (s : State) (p : PartId) : Option Nat :=
  match s.ctxs.filter (fun k => k.live && k.part == p) with
  | [k] => some k.num
  | _ => none

/-- A frame may be granted to a partition. -/
def State.grantable (s : State) (p : PartId) (frame : Nat) : Bool :=
  (homeDie (frame * 65536)).isSome && (s.mgmt.layout.masks.getD p.val 0).getLsbD (colourOf (frame * 65536)) &&
  !s.mgmt.retired.contains frame && !s.mgmt.untilCold.contains frame &&
  (match s.ownerOf? frame with
    | some e => e.part == p
    | none => true)

def execPageGrant (c : Cmd) (frame count part : Nat) (s : State) : Out :=
  command c false false (partArg part).toList (fun s =>
    if part = 0xFF then
      State.reply { s with mgmt := { s.mgmt with owners := removeFrames s.mgmt.owners frame count } } c okStatus []
    else match partArg part with
      | none => s.reply c badArg []
      | some p =>
        if !((List.range count).all (fun i => s.grantable p (frame + i))) then s.reply c badArg []
        else
          let new := ((List.range count).filter (fun i => (s.ownerOf? (frame + i)).isNone)).map
            (fun i => OwnEntry.mk (frame + i) 1 p (s.onlyCtx p))
          State.reply { s with mgmt := { s.mgmt with owners := s.mgmt.owners ++ new } } c okStatus []) s

/-! ### DEDUP_JOIN, ERRINJ, COUNTER_POLICY, FW_UPDATE -/

/-- Copies of one domain with equal data made one (R348). -/
def mergeCopies (cs : List DedupCopy) : List DedupCopy :=
  cs.foldl (fun acc c =>
    if acc.any (fun d => d.domain == c.domain && d.data == c.data) then
      acc.map (fun d => if d.domain = c.domain ∧ d.data = c.data then { d with count := d.count + c.count } else d)
    else acc ++ [c]) []

def execDedupJoin (c : Cmd) (a b : Nat) (s : State) : Out :=
  command c false false ((partArg a).toList ++ (partArg b).toList) (fun s =>
    match partArg a, partArg b with
    | some p, some q =>
      let (d, e) := ((s.part p).dedup, (s.part q).dedup)
      let s := allParts.foldl (fun s r => if (s.part r).dedup = e then s.modPart r (fun x => { x with dedup := d }) else s) s
      State.reply { s with
        dedup := mergeCopies (s.dedup.map (fun x => if x.domain = e then { x with domain := d } else x)),
        dind := s.dind.map (fun x => if x.2 = e then (x.1, d) else x) } c okStatus []
    | _, _ => s.reply c badArg []) s

/-- The injection of R390; none for a target that is not present or a word that breaks the map. -/
def State.inject (s : State) (kind target : Nat) (unc : Bool) : Option State :=
  let m := s.mgmt
  match kind with
  | 1 =>
    let n := bits target 40 8
    let id := bits target 0 10
    if n / 4 ≠ bits target 56 8 ∨ (((s.strand (Fin.ofNat 256 n)).tile? id).isNone) then none
    else some { s with mgmt := { m with errTiles := m.errTiles ++ [(Fin.ofNat 256 n, id, unc)] } }
  | 2 =>
    match s.scLine? target with
    | none => none
    | some l =>
      if unc then some { s with sc := s.sc.map (fun x => if x.pa = l.pa then { x with bad := true } else x) }
      else some { s with mgmt := { m with errLines := m.errLines ++ [l.pa] } }
  | 3 =>
    match s.scLine? target with
    | none => none
    | some l => some { s with mgmt := { m with errTags := m.errTags ++ [(l.pa, unc)] } }
  | 4 => if (homeDie target).isNone then none else some { s with mgmt := { m with errHbm := m.errHbm ++ [(target, unc)] } }
  | 5 => if !isSecondTier target then none else some { s with mgmt := { m with errDedup := m.errDedup ++ [(target, unc)] } }
  | 6 => some { s with mgmt := { m with watchdogStopped := true } }
  | _ => none

def execErrinj (c : Cmd) (kind target flags : Word) (s : State) : Out :=
  command c false false [] (fun s =>
    if flags.toNat / 2 ≠ 0 then s.reply c badArg []
    else match s.inject kind.toNat target.toNat (flags.getLsbD 0) with
      | none => s.reply c badArg []
      | some s1 => s1.reply c okStatus []) s

def execCounterPolicy (c : Cmd) (v : Word) (s : State) : Out :=
  command c false false [] (fun s => State.reply { s with mgmt := { s.mgmt with cntpol := cntpolStored v } } c okStatus []) s

def execFwUpdate (c : Cmd) (image : List Byte) (s : State) : Out :=
  command c false true [] (fun s => State.reply { s with mgmt := { s.mgmt with staged := some image } } c okStatus []) s

/-! ### Contexts (R329, R342 to R344, R353) -/

/-- The aperture bases that firmware gives every context (log entry 34, DESIGN CHOICE, unsafe). -/
def aplocBase : Word := 0xFFFF000000000000
def appodBase : Word := 0xFFFE000000000000
def apfabBase : Word := 0xFFFD000000000000

/-- A new context of a virtual function. -/
def newCtx (num : Nat) (b : VfBinding) (build : BitVec 16) (area ptroot htbase htlen sup : Word) (service : StrandId)
    (isExport : Bool) : Ctx where
  num := num
  vf := b.vf
  part := b.part
  live := true
  terminating := none
  area := area.toNat
  ptroot := ptroot.toNat
  htbase := htbase
  htlen := htlen.toNat
  sup := sup
  service := service
  isExport := isExport
  aploc := aplocBase
  appod := appodBase
  apfab := apfabBase
  build := build
  migr := 0
  mmrev := 2
  ordmode := false
  tdeleg := 0
  dict := List.replicate 1024 0
  objects := []
  locals := []
  backing := []
  settings := []
  stopped := false
  quiesced := false
  stopSince := 0

/-- Its partition's unclaimed frames become a context's (log entry 33, DESIGN CHOICE, unsafe). -/
def claimFrames (es : List OwnEntry) (p : PartId) (c : Nat) : List OwnEntry :=
  es.map (fun e => if e.part = p ∧ e.ctx = none then { e with ctx := some c } else e)

/-! The stack backing regions that CONTEXT_CREATE maps (R87, R336, R353; log entry 69, DESIGN CHOICE, unsafe) -/

/-- The frames of the context area: walk records and every strand's save area. -/
def areaFrames : Nat := (saveAreaBase + 256 * saveAreaBytes) / 65536

/-- The frames granted to a partition and no context's yet, the last granted first, but for the context area's and the root table's. -/
def State.spareFrames (s : State) (p : PartId) (area root : Nat) : List Nat :=
  (((s.mgmt.owners.filter (fun e => e.part == p && e.ctx == none)).map (fun e => (List.range e.count).map (· + e.frame))).flatten.filter
    (fun f => !(decide (area / 65536 ≤ f) && decide (f < area / 65536 + areaFrames)) && f != root / 65536 &&
      !s.mgmt.poisoned.contains f)).reverse

/-- The frames of one strand's region: one for its tables, and the 4,096 of its 1,024 slots. -/
def regionFrames : Nat := 4097

/-- A leaf entry of a backing page: device-only, readable and writable (R87, R336). -/
def backingLeaf (frame : Nat) : Nat := frame * 65536 + 0x2F

/-- The last tables of a strand's region, 128 of them with 32 entries each. -/
def regionTables (data : List Nat) : List Byte := (data.map (fun f => natBytes 8 (backingLeaf f))).flatten

/-- The tables of a Pod's regions, 128 entries a strand: each strand with its table frame. -/
def podTable (own : Fin 4 → Option Nat) : List Byte :=
  (([0, 1, 2, 3] : List (Fin 4)).map (fun c => (List.range 128).map (fun i => natBytes 8 (match own c with
    | some f => f * 65536 + 256 * i + 1
    | none => 0)))).flatten.flatten

/-- The table frame of a strand among a partition's strands. -/
def tableFrame (ns : List StrandId) (frames : List Nat) (n : StrandId) : Option Nat :=
  (ns.findIdx? (· == n)).bind (fun i => frames[regionFrames * i]?)

/-- Where a Pod's table lies: in the second half of the first of its strands' table frames. -/
def podTableAt (ns : List StrandId) (frames : List Nat) (p : PodId) : Option Nat :=
  ((podStrands p).findSome? (tableFrame ns frames)).map (fun f => f * 65536 + 0x8000)

/-- The backing regions of a partition's strands mapped in a context's tables: the first frame holds the two upper tables, below entry
128 of the root. -/
def State.mapBacking (s : State) (p : PartId) (root : Nat) (ns : List StrandId) : List Nat → State
  | [] => s
  | top :: frames =>
    let pods := List.ofFn (fun i : Fin 64 => i)
    let s := (ns.mapIdx (fun i n => (i, n))).foldl (fun s x => match frames[regionFrames * x.1]? with
      | some f => s.storePhys p (f * 65536) (regionTables ((frames.drop (regionFrames * x.1 + 1)).take 4096))
      | none => s) s
    let s := pods.foldl (fun s q => match podTableAt ns frames q with
      | some a => s.storePhys p a (podTable (fun c => tableFrame ns frames (strandOf q c)))
      | none => s) s
    let upper := natBytes 8 (top * 65536 + 4096 + 1) ++ List.replicate 4088 0 ++
      (pods.map (fun q => natBytes 8 (((podTableAt ns frames q).map (· + 1)).getD 0))).flatten ++ List.replicate 3584 0
    (s.storePhys p (top * 65536) upper).storePhys p (root + 8 * 128) (natBytes 8 (top * 65536 + 1))

def execContextCreate (c : Cmd) (area ptroot htbase htlen sup service expt : Word) (s : State) : Out :=
  let b? := s.mgmt.vfs.find? (fun b => b.vf == c.vf)
  command c true false (b?.map (·.part)).toList (fun s =>
    match b?, (if h : service.toNat < 256 then some (⟨service.toNat, h⟩ : StrandId) else none) with
    | some b, some n =>
      if area.toNat % 65536 ≠ 0 ∨ (homeDie area.toNat).isNone ∨ ptroot.toNat % 4096 ≠ 0 ∨ (homeDie ptroot.toNat).isNone ∨ htbase.toNat % 256 ≠ 0 ∨ htlen.toNat < 1 ∨
          2 ^ 20 < htlen.toNat ∨ s.partOf n ≠ some b.part ∨ 1 < expt.toNat ∨
          (expt = 1 ∧ (s.part b.part).exportCtx.isSome) then s.reply c badArg []
      else
      let ns := allStrands.filter (fun n => s.partOf n == some b.part)
      let frames := s.spareFrames b.part area.toNat ptroot.toNat
      if 8 ≤ (s.vfContexts b.vf).length ∨ frames.length < 1 + regionFrames * ns.length then s.reply c exhaustedStatus []
      else
        let num := s.mgmt.nextCtx
        let k := newCtx num b (Config.imageBuild s.mgmt.image) area ptroot htbase htlen sup n (expt == 1)
        let s1 : State := { s with
          ctxs := s.ctxs ++ [k],
          mgmt := { s.mgmt with nextCtx := num + 1, owners := claimFrames s.mgmt.owners b.part num } }
        let s2 := if expt = 1 then s1.modPart b.part (fun x => { x with exportCtx := some num }) else s1
        (s2.mapBacking b.part ptroot.toNat ns (frames.take (1 + regionFrames * ns.length))).reply c okStatus
          [word num, aplocBase, appodBase, apfabBase]
    | _, _ => s.reply c badArg []) s

/-- The frames of a context are no context's any more. -/
def releaseFrames (es : List OwnEntry) (c : Nat) : List OwnEntry :=
  es.map (fun e => if e.ctx = some c then { e with ctx := none } else e)

/-- The KILLED of a context's launches that wait for room in the log are written without their records: once the context is destroyed
nothing is left to wait for. (Log entry 60, DEDUCED, safe.) -/
def State.endDying (s : State) (k : Ctx) : State :=
  let due (d : Launch × Bool) : Bool := d.1.ctx == k.num && !d.2
  (((s.part k.part).dying.filter due).map (·.1)).foldl (fun s l => s.writeKilled k l)
    (s.modPart k.part (fun x => { x with dying := x.dying.filter (fun d => !due d) }))

/-- The context that a CONTEXT_DESTROY names: one not destroyed before, ended or not. -/
def State.destroyable (s : State) (c : Cmd) (x : Word) : Option Ctx :=
  (s.ctx? x.toNat).filter (fun k => k.live || k.terminating != some 0 || s.mgmt.executing == some (Cmd.key c))

/-- CONTEXT_DESTROY of a context, live or ended: it ends, and once every KILLED of its launches is written its frames are no
context's (R325, R353). -/
def execContextDestroy (c : Cmd) (ctx : Word) (s : State) : Out :=
  command c true false ((s.destroyable c ctx).map (·.part)).toList (fun s =>
    match s.destroyable c ctx with
    | none => s.reply c badArg []
    | some k =>
      if !Cmd.operator c && k.vf != c.vf then s.reply c deniedStatus []
      else
        let s := (((s.terminate k.num 0 false).retryDying k.part).endDying k)
        if (s.part k.part).dying.any (fun d => d.1.ctx == k.num) then s.pend c
        else
          let s := s.modCtx k.num (fun k => { k with terminating := some 0 })
          State.reply { s with mgmt := { s.mgmt with owners := releaseFrames s.mgmt.owners k.num } } c okStatus []) s

/-- A context some launch of which is started or suspended, or whose strands work. -/
def State.ctxBusy (s : State) (k : Ctx) : Bool := !s.ctxEmpty k

def execLoadCode (c : Cmd) (ctx addr place : Word) (s : State) : Out :=
  ctxCommand c ctx (fun k s =>
    if s.ctxBusy k then s.reply c busyStatus []
    else match s.loadObject k addr place with
      | .failed status => s.reply c status []
      | .waits t => s.pendFor c k.num t.addr.toNat
      | .ok s1 n => s1.reply c okStatus [word n]) s

/-- START (R308): a record that cannot be read is BAD_ARG; START does not wait for a full queue. -/
def execStart (c : Cmd) (ctx addr : Word) (s : State) : Out :=
  ctxCommand c ctx (fun k s =>
    if k.quiesced then s.reply c busyStatus []
    else if addr.toNat % 64 ≠ 0 then s.reply c badArg []
    else match s.loadBytesVa k addr 256 with
      | .error e => if e.cause = cHeld then s.pendFor c k.num e.addr.toNat else s.reply c badArg []
      | .ok _ =>
        if queueSize ≤ (s.part k.part).queue.length then s.reply c queueFull []
        else match s.acceptLaunch k.part k addr with
          | .queued s1 => s1.reply c okStatus []
          | .refused s1 => s1.reply c refusedStatus []
          | .failed e => if e.cause = cHeld then s.pendFor c k.num e.addr.toNat else (s.terminate k.num e.cause true).reply c abortedStatus []) s

/-- STOP (R328, R341, R353): its reply comes once every strand is switched out, and the context's cached translations are dropped. -/
def execStop (c : Cmd) (ctx : Word) (s : State) : Out :=
  ctxCommand c ctx (fun k s =>
    let s := if k.stopped then s
      else (s.stopCtx k).modCtx k.num (fun k => { k with stopped := true, stopSince := s.gts })
    let s := s.trySuspendAll k.part
    if s.ctxEmpty k then (s.dropTlb k.num).reply c okStatus [] else s.pend c) s

/-- RESUME (R353) ends a stop that has ended, and every debug stop of the context's strands. -/
def execResume (c : Cmd) (ctx : Word) (s : State) : Out :=
  ctxCommand c ctx (fun k s =>
    if (k.stopped || k.quiesced) && s.ctxBusy k then s.pend c
    else
      let s := s.modCtx k.num (fun k => { k with stopped := false, quiesced := false })
      let s := s.modPart k.part (fun x => { x with repSince := s.gts })
      let s := allStrands.foldl (fun s n =>
        let t := s.strand n
        if t.ctx = some k.num ∧ t.run = .stopped ∧ t.stop = .debug then
          s.modStrand n (fun t => { t with run := .running, stop := .none })
        else s) s
      s.reply c okStatus []) s

/-! ### TLB_INVAL (R341, R353, R385) -/

/-- Some leaf under a table maps a frame; `fuel` counts the levels left. -/
def State.tableMaps (s : State) (frame : Nat) : Nat → Nat → Nat → Bool
  | 0, _, _ => false
  | fuel + 1, lvl, t =>
    (List.range (tableBytes lvl / 8)).any (fun i =>
      let e := physWord s (t + 8 * i)
      let pa := bits e 12 40 * 4096
      if bits e 0 1 = 0 then false
      else if bits e 1 1 = 1 then decide (pa ≤ frame * 65536) && decide (frame * 65536 < pa + pageSize lvl)
      else s.tableMaps frame fuel (lvl + 1) (pa + (if lvl = 3 then bits e 8 4 * 256 else 0)))

/-- A line at which the look through a table's entries waits (R390, R397). -/
def State.tableDue (s : State) : Nat → Nat → Nat → Option Nat
  | 0, _, _ => none
  | fuel + 1, lvl, t =>
    match s.dueIn t (tableBytes lvl) with
    | some pa => some pa
    | none => (List.range (tableBytes lvl / 8)).findSome? (fun i =>
      let e := physWord s (t + 8 * i)
      if bits e 0 2 ≠ 1 then none
      else s.tableDue fuel (lvl + 1) (bits e 12 40 * 4096 + (if lvl = 3 then bits e 8 4 * 256 else 0)))

/-- The poisoned frames that a context owns. -/
def State.poisonedOf (s : State) (k : Ctx) : List Nat :=
  s.mgmt.poisoned.filter (fun f => match s.ownerOf? f with
    | some e => e.ctx == some k.num
    | none => false)

/-- Stage 2 of R385 for the poisoned frames that a context's tables no longer map. Their entries keep the POISON mark (R396). -/
def State.revokeUnmapped (s : State) (k : Ctx) : State :=
  let mine := (s.poisonedOf k).filter (fun f => !s.tableMaps f 5 0 k.ptroot)
  mine.foldl (fun s f =>
    let m : Mgmt := { s.mgmt with owners := removeFrames s.mgmt.owners f 1 }
    if m.retired.length < 8192 then { s with mgmt := { m with retired := m.retired ++ [f] } }
    else ({ s with mgmt := { m with untilCold := m.untilCold ++ [f] } }).event none [0x0014, word m.retired.length]) s

/-- The translations of a range leave a TLB. -/
def invalTlb (tlb : List TlbEntry) (c va len : Nat) : List TlbEntry :=
  tlb.filter (fun e => !(e.ctx == c && (len == 0 || rangesMeet e.va e.size va len)))

/-- A write on its way may be a context's: it goes to a frame that no other context owns. -/
def State.maybeOf (s : State) (c : Nat) (w : Write) : Bool :=
  match Loc.home? w.loc with
  | none => false
  | some pa => match (s.ownerOf? (pa / 65536)).bind (·.ctx) with
    | some x => x == c
    | none => true

/-- Every access of a context has performed at package scope, its engines' and those of strands that run another context by now among
them (R341, R353). -/
def State.ctxQuiet (s : State) (c : Nat) : Bool :=
  allStrands.all (fun n =>
    let t := s.strand n
    if t.ctx = some c then t.cq.isEmpty && t.ib.isEmpty && (s.pbOf n).isEmpty &&
      t.entries.all (fun e => e.stage != .started || (e.work.reads.isEmpty && e.work.writes.isEmpty))
    else (s.pbOf n).all (fun w => !s.maybeOf c w))

def execTlbInval (c : Cmd) (ctx va len : Word) (s : State) : Out :=
  ctxCommand c ctx (fun k s =>
    let s := allStrands.foldl (fun s n => s.modStrand n (fun t => { t with tlb := invalTlb t.tlb k.num va.toNat len.toNat })) s
    let s := (List.ofFn (fun i : Fin 64 => i)).foldl (fun s p =>
      s.modPod p (fun x => { x with tlb := invalTlb x.tlb k.num va.toNat len.toNat })) s
    if !s.ctxQuiet k.num then s.pend c
    else match (if (s.poisonedOf k).isEmpty then none else s.tableDue 5 0 k.ptroot) with
      | some pa => s.pendFor c k.num pa
      | none => (s.revokeUnmapped k).reply c okStatus []) s

/-! ### COLL_GROUP (R351, R352; log entry 35, DESIGN CHOICE, unsafe) -/

/-- A group table in memory: P in bits 31:0 and the rank in 63:32 of word 0, TRDV in word 1, then the members, 2 bytes each. -/
def execCollGroup (c : Cmd) (entry addr : Word) (s : State) : Out :=
  let b? := s.mgmt.vfs.find? (fun b => b.vf == c.vf)
  command c true false (b?.map (·.part)).toList (fun s =>
    match b? with
    | none => s.reply c badArg []
    | some b =>
      let a := addr.toNat
      let mine (x : Nat) : Bool := (homeDie x).isSome && (s.ownerOf? (x / 65536)).any (fun e => e.part == b.part) &&
        !s.mgmt.poisoned.contains (x / 65536)
      let owner (x : Nat) : Nat := ((s.ownerOf? (x / 65536)).bind (·.ctx)).getD 0
      if 256 ≤ entry.toNat ∨ a % 8 ≠ 0 ∨ !mine a ∨ !mine (a + 15) then s.reply c badArg []
      else match s.dueIn a 16 with
      | some pa => s.pendFor c (owner pa) pa
      | none =>
        let w0 := physWord s a
        let (p, rank, trdv) := (bits w0 0 32, bits w0 32 32, physWord s (a + 8))
        if p < 2 ∨ 4096 < p ∨ p ≤ rank ∨ 65535 < trdv ∨ !mine (a + 15 + 2 * p) then s.reply c badArg []
        else match s.dueIn a (16 + 2 * p) with
        | some pa => s.pendFor c (owner pa) pa
        | none =>
          let ms := (List.range p).map (fun i => bytesNat (s.cohN (a + 16 + 2 * i) 2))
          let g : CollGroup := ⟨entry.toNat, ms, rank, trdv, 0, false, []⟩
          (s.modPart b.part (fun x => { x with groups := x.groups.filter (fun y => y.entry != g.entry) ++ [g] })).reply c okStatus []) s

/-! ### LOG_CONFIG (R358, R365, R377) -/

/-- A log register value: only BASE and SIZE may be set. -/
def logWordGood (w : Word) : Bool := w &&& 0xFE00000000000FE0 == 0

/-- A range is mapped with a right, 64 KiB after 64 KiB. -/
def State.mapped (s : State) (k : Ctx) (need : Need) (a : Word) (len : Nat) : Bool :=
  (List.range (ceilDiv len 65536 + 1)).all (fun i =>
    let x := min (i * 65536) (len - 1)
    len == 0 || (s.translate [] k need (a + word x)).toOption.isSome)

/-- One log's registers as LOG_CONFIG leaves them. -/
def LogRegs.configure (r : LogRegs) (en rpl : Bool) (w : Word) : LogRegs :=
  if en then
    let base := w &&& 0x01FFFFFFFFFFF000
    let r1 : LogRegs := ⟨true, rpl, base, min 20 (bits w.toNat 0 5), base, false, 0⟩
    { r1 with lim := r1.limit }
  else { r with en := false, rpl := rpl }

/-- `n` recorded records from an address. -/
def State.readRecords (s : State) (k : Ctx) (a : Word) (n : Nat) : List Record :=
  (List.range n).filterMap (fun i =>
    match s.loadBytesVa k (a + word (32 * i)) 32 with
    | .ok bs => some ⟨a + word (32 * i), (chunks 8 4 bs).map (fun b => word (bytesNat b)), false⟩
    | .error _ => none)

/-- The logs of a virtual function configured. -/
def VfState.configure (v : VfState) (ctx : Nat) (w2 w3 w4 w5 w7 : Word) (sched mo : List Record) : VfState :=
  let rpl := w2.getLsbD 3
  { v with
    sched := v.sched.configure (w2.getLsbD 0) rpl w3, mo := v.mo.configure (w2.getLsbD 1) rpl w4,
    stamp := v.stamp.configure (w2.getLsbD 2) false w5, logCtx := ctx,
    seqCount := if w2.getLsbD 0 then 0 else v.seqCount,
    snapshots := if w2.getLsbD 4 then some w7 else none, rwin := bits w2.toNat 32 32,
    recSched := sched, recMo := mo, repPos := 0, repTaken := [], repPerformed := [],
    strands := v.strands.map (fun e =>
      let fresh := w2.getLsbD 1 || rpl
      { e with moCount := if fresh then 0 else e.moCount, moFree := if fresh then [] else e.moFree,
               schedCount := if w2.getLsbD 0 || rpl then 0 else e.schedCount }) }

/-- Pending records are written (R377). -/
def State.flushRecords (s : State) (p : PartId) : Nat → State
  | 0 => s
  | k + 1 => (s.writeRecord p 0).flushRecords p k

/-- LOGRECS of a virtual function that is not resident counts a record (R372). -/
def State.countSaved (s : State) (p : PartId) (v : VfId) : State :=
  match s.savedVf v with
  | none => s
  | some x =>
    let n := x.counters[2] + 1
    let s := s.modSaved v (fun y => { y with counters := y.counters.set 2 n })
    if n = 0 then { s with mgmt := { s.mgmt with wraps := s.mgmt.wraps ++ [(p, none, partCounter 2, some v, s.gts)] } } else s

/-- The pending records of a virtual function that is not resident are written. -/
def State.flushSaved (s : State) (p : PartId) (v : VfId) : Nat → State
  | 0 => s
  | k + 1 =>
    match s.savedVf v with
    | none => s
    | some x => match x.ready with
      | [] => s
      | r :: _ => match (s.modSaved v (fun y => { y with ready := y.ready.tail })).putRecord x.logCtx r with
        | .ok (s1, written) => (if written && !r.stamp then s1.countSaved p v else s1).flushSaved p v k
        | .error e => s.visitLine x.logCtx e.addr.toNat

/-- The bytes of a log's area. -/
def logBytes (w : Word) : Nat := 2 ^ min 20 (bits w.toNat 0 5) * 4096

/-- LOG_CONFIG's argument words hold, and its areas are mapped. -/
def State.logConfigGood (s : State) (k : Ctx) (w2 w3 w4 w5 w6 w7 : Word) : Bool :=
  let rpl := w2.getLsbD 3
  let rwin := bits w2.toNat 32 32
  let area (en : Bool) (w : Word) : Bool :=
    logWordGood w && (!en || s.mapped k .write (w &&& 0x01FFFFFFFFFFF000) (logBytes w))
  let replay : Bool := !rpl || (match s.loadBytesVa k w6 32 with
    | .error _ => false
    | .ok d => s.mapped k .read (word (field8 d 0)) (32 * field8 d 8) && s.mapped k .read (word (field8 d 16)) (32 * field8 d 24))
  bits w2.toNat 5 27 == 0 && decide (rwin ≤ 2 ^ 20) && (!rpl || rwin != 0) && area (w2.getLsbD 0) w3 && area (w2.getLsbD 1) w4 &&
  area (w2.getLsbD 2) w5 && replay && (!w2.getLsbD 4 || (w7.toNat % 8 == 0 && s.mapped k .write w7 2048))

/-- A line at which a read of `n` recorded records, or of the replay's descriptor, waits (R390, R397). -/
def State.readDue (s : State) (k : Ctx) (a : Word) (n : Nat) : Option Nat :=
  (List.range n).findSome? (fun i => match s.loadBytesVa k (a + word (32 * i)) 32 with
    | .ok _ => none
    | .error e => if e.cause = cHeld then some e.addr.toNat else none)

/-- A line of a page table at which the look at a range's pages waits. -/
def State.mapDue (s : State) (k : Ctx) (a : Word) (len : Nat) : Option Nat :=
  (List.range (ceilDiv len 65536 + 1)).findSome? (fun i =>
    if len = 0 then none else s.walkDue k (a + word (min (i * 65536) (len - 1))))

/-- A line at which LOG_CONFIG waits: of the replay's descriptor and records, or of the tables that map its areas (R377, R397). -/
def State.logDue (s : State) (k : Ctx) (w2 w3 w4 w5 w6 w7 : Word) : Option Nat :=
  let area (en : Bool) (w : Word) : Option Nat := if en then s.mapDue k (w &&& 0x01FFFFFFFFFFF000) (logBytes w) else none
  let records (d : List Byte) (off : Nat) : Option Nat :=
    (s.mapDue k (word (field8 d off)) (32 * field8 d (off + 8))).orElse (fun _ =>
      s.readDue k (word (field8 d off)) (field8 d (off + 8)))
  ((((area (w2.getLsbD 0) w3).orElse (fun _ => area (w2.getLsbD 1) w4)).orElse (fun _ => area (w2.getLsbD 2) w5)).orElse (fun _ =>
    if w2.getLsbD 4 then s.mapDue k w7 2048 else none)).orElse (fun _ =>
    if !w2.getLsbD 3 then none
    else (s.readDue k w6 1).orElse (fun _ => match s.loadBytesVa k w6 32 with
      | .ok d => (records d 0).orElse (fun _ => records d 16)
      | .error _ => none))

def execLogConfig (c : Cmd) (w1 w2 w3 w4 w5 w6 w7 : Word) (s : State) : Out :=
  ctxCommand c w1 (fun k s =>
    let p := k.part
    if allSlots.any (fun i => (s.slot p i).isSome) || (s.part p).queue.any (fun l => l.state == stSuspended) then
      s.reply c busyStatus []
    else match s.logDue k w2 w3 w4 w5 w6 w7 with
    | some pa => s.pendFor c k.num pa
    | none =>
      if !s.logConfigGood k w2 w3 w4 w5 w6 w7 then s.reply c badArg []
      else
      let d := if w2.getLsbD 3 then (s.loadBytesVa k w6 32).toOption.getD [] else []
      let rs := s.readRecords k (word (field8 d 0)) (field8 d 8)
      let rm := s.readRecords k (word (field8 d 16)) (field8 d 24)
      let f (v : VfState) : VfState := v.configure k.num w2 w3 w4 w5 w7 rs rm
      if (s.part p).resident.isNone || (s.part p).resident == some k.vf then
        let s := s.flushRecords p (s.part p).ready.length
        if !(s.part p).ready.isEmpty then s.pend c
        else (s.loadVf p (f (s.vfState p))).reply c okStatus []
      else
        let s := s.flushSaved p k.vf (((s.savedVf k.vf).map (·.ready.length)).getD 0)
        if !(((s.savedVf k.vf).map (·.ready.isEmpty)).getD true) then s.pend c
        else State.reply { s with mgmt := { s.mgmt with vfs := s.mgmt.vfs.map (fun b =>
          if b.vf = k.vf then { b with saved := some (f (b.saved.getD freshVf)) } else b) } } c okStatus []) s

/-! ### ATTEST (R355) -/

/-- The signed part of a quote. -/
def quoteBody (s : State) (k : Ctx) (nonce : List Byte) : List Byte :=
  natBytes 8 (1 <<< 56 + Config.nodeNumber.toNat) ++ natBytes 8 k.fver.toNat ++ nonce ++ Config.romDigest ++ sha256 s.mgmt.image ++
  sha256 (layoutImage s.mgmt.layout) ++ sha256 ((k.objects.map (·.bytes)).flatten)

/-- How many quotes the root tree's attestation trees can sign. -/
def leafLimit : Nat := 2 ^ 40

/-- The course of a command that any issuer may send and that a failed start does not refuse (R353, R354, R391). -/
def attestCourse (c : Cmd) (part : Option PartId) (body : State → State) (s : State) : Out :=
  if s.otherCommand c then .next s
  else if s.mgmt.committing then (if part.toList.any s.affected then .next (s.reply c busyStatus []) else .next s)
  else .next (body s)

/-- ATTEST, which any issuer may send, for a live context of the package (R353, R355). -/
def execAttest (c : Cmd) (nonce quote ctx : Word) (s : State) : Out :=
  attestCourse c ((s.liveCtx ctx).map (·.part)) (fun s =>
    match s.liveCtx ctx with
    | none => s.reply c badArg []
    | some k =>
      if leafLimit ≤ s.mgmt.leaf then s.reply c exhaustedStatus []
      else match s.loadBytesVa k nonce 32 with
        | .error e => if e.cause = cHeld then s.pendFor c k.num e.addr.toNat else s.reply c badArg []
        | .ok nb =>
          let body := quoteBody s k nb
          let q := body ++ Config.hssSign s.mgmt.leaf body
          let s1 : State := { s with mgmt := { s.mgmt with leaf := s.mgmt.leaf + 1 } }
          match s1.storeBytesVa k quote q with
          | .error e => if e.cause = cHeld then s.pendFor c k.num e.addr.toNat else s1.reply c badArg []
          | .ok s2 => s2.reply c okStatus [word q.length]) s

/-! ### Other codes -/

/-- The codes of R353's table. -/
def commandCodes : List Nat := [0x01, 0x02, 0x03, 0x04, 0x05, 0x06, 0x07, 0x08, 0x10, 0x11, 0x12, 0x13, 0x14, 0x15, 0x16, 0x17, 0x18, 0x20]

def execCommandOtherCode (c : Cmd) (code : BitVec 16) (s : State) : Out :=
  if commandCodes.contains code.toNat then .next s else command c true false [] (fun s => s.reply c badArg []) s

end Sys2Proof.Machine
end

