-- ==== Sys2Proof/Machine/Counters.lean ====
section
/-! DEFINITION. The decisions that a replaying sequencer repeats and the windows that expire (R366 to R368), and counters that wrap or
are refreshed (R375 to R377). -/

namespace Sys2Proof.Machine

/-! ### REPLAY_DECISION (R366) -/

/-- A recorded record of a sequencer that a replay takes (R365, R366). -/
def Record.decides (r : Record) : Bool :=
  decide (256 ≤ r.src) && decide (r.src < 304) && [0x01, 0x02, 0x04, 0x05, 0x06, 0x07].contains r.type

/-- The next recorded decision and its place in the log. -/
def State.nextDecision (s : State) (p : PartId) : Option (Nat × Record) :=
  let x := s.part p
  ((x.recSched.mapIdx (fun i r => (i, r))).drop x.repPos).find? (fun ir => ir.2.decides)

/-- The recorded decision has been repeated, or needs no step. -/
def State.takeDecision (s : State) (p : PartId) (i : Nat) : State :=
  s.modPart p (fun x => { x with repPos := i + 1, repSince := s.gts })

/-- The running launch a record names by its address. -/
def State.slotAt (s : State) (p : PartId) (a : Word) : Option (Fin 4 × Launch) :=
  allSlots.findSome? (fun k => (s.slot p k).bind (fun l => if l.addr = a then some (k, l) else none))

/-- The queued launch a record names. -/
def State.queuedAt (s : State) (p : PartId) (a : Word) : Option Launch :=
  (s.part p).queue.find? (fun l => l.addr == a && l.state == stAccepted && s.ctxRuns p l.ctx)

/-- The strand of a hand-out, a grant or a surrender. -/
def Record.strand (r : Record) : Option StrandId := if h : bits (r.w 2) 0 9 < 256 then some ⟨bits (r.w 2) 0 9, h⟩ else none

/-- The Pod of a grant or a surrender. -/
def Record.pod (r : Record) : PodId := Fin.ofNat 64 (bits (r.w 2) 56 8)

/-- What comes of trying a recorded decision. -/
inductive Decided where
  /-- Not possible yet. -/
  | later
  | made (s : State)
  /-- The recorded strand is not the partition's. -/
  | notOwned

/-- A recorded hand-out: possible when the strand is free for it, or asks for a unit, and the unit is the next. -/
def State.redoHandOut (s : State) (p : PartId) (r : Record) (n : StrandId) : Decided :=
  match s.slotAt p (r.words.getD 3 0) with
  | none => .later
  | some (k, l) =>
    let die := s.slotOfStrand p l n
    let asks := (l.assign? n).any (fun a => a.asks && a.granted.isNone) && (s.strand n).launch == some (p, k)
    match s.unitReady p l die with
    | some (w, o) =>
      if l.firstOrdinal w ≠ r.w 2 / 2 ^ 16 || !s.ctxRuns p l.ctx || !(asks || s.isFree p n) then .later
      else match s.logDecision p 0x01 (handOutWord (l.firstOrdinal w) n) l.addr with
        | none => .made (s.stallSequencer p l.ctx)
        | some s1 => .made (s1.giveUnit p k l die w o n)
    | none => .later

/-- A recorded skip. -/
def State.redoSkip (s : State) (p : PartId) (r : Record) : Decided :=
  match s.slotAt p (r.words.getD 3 0) with
  | none => .later
  | some (k, l) =>
    let o := r.w 2 / 2 ^ 16
    if l.nextSkip ≠ some o then .later
    else match s.logDecision p 0x02 (word (o <<< 16)) l.addr with
      | none => .made (s.stallSequencer p l.ctx)
      | some s1 => .made (s1.modLaunch p k (fun l => l.skip o))

/-- A recorded grant: possible when the strand's request is ready. -/
def State.redoGrant (s : State) (p : PartId) (r : Record) (n : StrandId) : Decided :=
  if s.leasePart r.pod ≠ some p || (s.pod r.pod).lease.holder.isSome || s.arrayBusy r.pod || podOf n != r.pod ||
      (s.leaseRequest n).isNone then .later
  else .made (s.grantLease r.pod n)

/-- A recorded surrender: after the recorded number of commands, or at LREL; one that has happened needs no step. -/
def State.redoSurrender (s : State) (r : Record) (n : StrandId) : Decided :=
  let l := (s.pod r.pod).lease
  if l.holder ≠ some n then .made s
  else if l.owed.isSome then .later
  else if bits (r.w 2) 12 4 ≠ 0 && !(s.strand n).matrixBusy && l.done == r.w 3 then
    .made (s.surrenderLease r.pod (bits (r.w 2) 12 4))
  else .later

/-- A recorded start; that of a launch which is running already needs no step, since no pre-emption is repeated. -/
def State.redoStart (s : State) (p : PartId) (r : Record) : Decided :=
  if (s.slotAt p (r.words.getD 3 0)).isSome then .made s
  else match s.queuedAt p (r.words.getD 3 0), s.freeSlot p with
    | some l, some k => if l.count = 0 || s.vaHeld l.ctx l.addr then .later else .made (s.runLaunch p k l)
    | _, _ => .later

/-- A recorded STATE: DONE is written once the launch is done; KILLED and SUSPENDED come of pre-emption. -/
def State.redoState (s : State) (p : PartId) (r : Record) : Decided :=
  if bits (r.w 2) 0 4 ≠ stDone then .made s
  else match s.slotAt p (r.words.getD 3 0), s.queuedAt p (r.words.getD 3 0) with
    | some (k, l), _ => if s.doneReady p k l then .made (s.finishLaunch p k l) else .later
    | none, some l => if l.count = 0 && !s.vaHeld l.ctx l.addr then .made (s.emptyLaunch p l) else .later
    | none, none => .later

/-- A recorded decision tried. (Log entry 43, DEDUCED, unsafe.) -/
def State.redo (s : State) (p : PartId) (r : Record) : Decided :=
  if r.type = 0x02 then s.redoSkip p r
  else if r.type = 0x06 then s.redoStart p r
  else if r.type = 0x07 then s.redoState p r
  else match r.strand with
    | none => .notOwned
    | some n =>
      if s.partOf n ≠ some p then .notOwned
      else if r.type = 0x01 then s.redoHandOut p r n
      else if r.type = 0x04 then s.redoGrant p r n
      else s.redoSurrender r n

/-- The context whose service strand takes the sequencer's mismatch: the launch's that the record names, else the one that
configured the logs. -/
def State.divergeCtx (s : State) (p : PartId) (r : Option Record) : Nat :=
  match r.bind (fun r => if r.type = 0x04 ∨ r.type = 0x05 then none else
      (((s.slotAt p (r.words.getD 3 0)).map (·.2)).orElse (fun _ => s.queuedAt p (r.words.getD 3 0)))) with
  | some l => l.ctx
  | none => (s.part p).logCtx

/-- REPLAY_DIVERGE of the sequencer waits at the service strand (R326, R366). -/
def State.divergeSequencer (s : State) (p : PartId) (r : Option Record) (why : Nat) : State :=
  let tr := diverge r ((r.map Record.seq).getD (s.part p).seqCount) why false (seqSource p)
  match s.ctx? (s.divergeCtx p r) with
  | some k => s.modStrand k.service (fun t => { t with async := t.async ++ [tr] })
  | none => s

/-- REPLAY_DECISION: the next recorded decision is repeated once it is possible. -/
def execReplayDecision (p : PartId) (s : State) : Out :=
  if !(s.part p).sched.rpl || !s.walkerFree p then .next s
  else match s.nextDecision p with
    | none => .next s
    | some (i, r) =>
      match s.redo p r with
      | .later => .next s
      | .notOwned => .next ((s.divergeSequencer p (some r) 5).takeDecision p i)
      | .made s1 => if (s1.part p).stalled then .next s1 else .next (s1.takeDecision p i)

/-! ### REPLAY_WINDOW_EXPIRY (R366 to R368) -/

/-- Work of the partition waits for its sequencer. -/
def State.decisionWanted (s : State) (p : PartId) : Bool :=
  (s.headLaunch p).isSome || allSlots.any (fun k => (s.slot p k).isSome)

/-- The recorded record of the synchronising access that a strand would reserve next, with its place. -/
def State.recordedNext (s : State) (n : StrandId) : Option (Nat × Record) :=
  ((recordedOf (s.part (s.tagOf n)).recMo n.val).find? (fun e => e.2.2 == ((s.strand n).count true : Int))).map (fun e => (e.1, e.2.1))

/-- The recorded decision that comes next is not possible yet, while work waits for it. -/
def State.decisionLate (s : State) (p : PartId) (r : Record) : Bool :=
  s.decisionWanted p && (match s.redo p r with
    | .later => true
    | _ => false)

/-- REPLAY_WINDOW_EXPIRY of a strand's held access whose record is still not the first of its line, or of the sequencer's next
decision, which is still not possible. -/
def execReplayWindowExpiry (p : PartId) (n : Option StrandId) (s : State) : Out :=
  let x := s.part p
  let window := x.rwin * 1000
  match n with
  | some n =>
    match x.holdSince.find? (fun h => h.1 == n), s.recordedNext n with
    | some h, some (i, r) =>
      if !x.mo.rpl || s.tagOf n != p || (s.strand n).run != .running || decide (s.gts < h.2 + window) || firstOfLine x i r then
        .next s
      else
        let tr := diverge (some r) ((s.strand n).count true) 2 true n.val
        let s := (s.clearHold n).modStrand n (fun t => { t with arrived := none, waiting := false })
        .next (s.raise n tr (s.strand n).pc)
    | _, _ => .next s
  | none =>
    if !x.sched.rpl || !s.walkerFree p || decide (s.gts < x.repSince + window) then .next s
    else
      let again (s : State) : State := s.modPart p (fun x => { x with repSince := s.gts })
      match s.nextDecision p with
      | some (_, r) => .next (if s.decisionLate p r then again (s.divergeSequencer p (some r) 2) else s)
      | none => .next (if s.decisionWanted p then again (s.divergeSequencer p none 4) else s)

/-! ### COUNTER_WRAP (R376) -/

/-- A fabric counter (R372). -/
def isFabric (c : Nat) : Bool := c == 0x18 || c == 0x19

/-- The EVENT of a wrap: for the virtual function that ran on the partition when the counter wrapped. -/
def State.wrapEvent (s : State) (w : Wrap) : State :=
  s.event (if w.2.2.1 = 0x19 then none else w.2.2.2.1) [0x0002, word w.2.2.1, word ((w.2.1.map (·.val)).getD 0x1FF)]

/-- A pending wrap is done with. -/
def State.dropWrap (s : State) (w : Wrap) : State := { s with mgmt := { s.mgmt with wraps := s.mgmt.wraps.erase w } }

/-- COUNTER_WRAP: a stall counter's EVENT waits for its refresh point, and a hidden fabric counter sends none. -/
def execCounterWrap (p : PartId) (n : Option StrandId) (c : Nat) (s : State) : Out :=
  match s.mgmt.wraps.find? (fun w => w.1 == p && w.2.1 == n && w.2.2.1 == c) with
  | none => .next s
  | some w =>
    if n.isSome && isStall c && !polExact s.mgmt.cntpol then .next s
    else if isFabric c && !polFab s.mgmt.cntpol then .next (s.dropWrap w)
    else .next ((s.dropWrap w).wrapEvent w)

/-! ### COUNTER_REFRESH (R375 to R377) -/

/-- Every counter number of R372 with the value that a snapshot shows of it. -/
def State.snapshotValues (s : State) (p : PartId) : List (Nat × Word) :=
  let mine := allStrands.filter (fun n => s.partOf n == some p)
  let strand (c : Nat) : Word := match mine with
    | [n] => s.guestView n c
    | _ => Config.snapshotValue s.ticks c
  let part (c : Nat) : Word := match mine with
    | n :: _ => s.guestView n c
    | [] => 0
  (List.range 9).map (fun c => (c, strand c)) ++ [0x10, 0x11, 0x12, 0x18, 0x19].map (fun c => (c, part c))

/-- The snapshot written through the tables of the context that configured it; a word that does not translate is not written. -/
def State.writeSnapshot (s : State) (p : PartId) : State :=
  match (s.part p).snapshots, s.ctx? (s.part p).logCtx with
  | some a, some k =>
    (s.snapshotValues p).foldl (fun s cv => match s.storeVa k (a + word (8 * cv.1)) cv.2 with
      | .ok s1 => s1
      | .error _ => s) s
  | _, _ => s

/-- A line at which the write of the partition's snapshot waits (R390, R397). -/
def State.snapshotDue (s : State) (p : PartId) : Option Nat :=
  match (s.part p).snapshots, s.ctx? (s.part p).logCtx with
  | some a, some k => (s.snapshotValues p).findSome? (fun cv => match s.storeVa k (a + word (8 * cv.1)) cv.2 with
      | .error e => if e.cause = cHeld then some e.addr.toNat else none
      | .ok _ => none)
  | _, _ => none

/-- The stall wraps of a partition that wait for a refresh point and came before it (R376). -/
def State.wrapsUpTo (s : State) (p : PartId) (point : Nat) : List Wrap :=
  s.mgmt.wraps.filter (fun w => w.1 == p && w.2.1.isSome && isStall w.2.2.1 && decide (w.2.2.2.2 ≤ point))

/-- COUNTER_REFRESH: at a multiple of the period, the EVENTs that were held for it go, and snapshots are written.
(Log entry 44, DEDUCED, unsafe.) -/
def execCounterRefresh (p : PartId) (s : State) : Out :=
  let period := refreshPeriod s.mgmt.cntpol
  if s.gts / period ≤ (s.part p).lastRefresh / period then .next s
  else match s.snapshotDue p with
    | some pa => .next (s.visitLine (s.part p).logCtx pa)
    | none =>
      let s := s.modPart p (fun x => { x with lastRefresh := s.gts })
      let s := (s.wrapsUpTo p (s.gts / period * period)).foldl (fun s w => (s.dropWrap w).wrapEvent w) s
      .next (s.writeSnapshot p)

end Sys2Proof.Machine
end

