-- ==== Sys2Proof/Machine/Errors.lean ====
section
/-! DEFINITION. Errors of the shared cache and the tile stores with the management core's registers for them (R384 to R388, R395 to
R398), clocks and links (R349, R394), and starts (R391 to R393). -/

namespace Sys2Proof.Machine

/-! ### Reports (R395, R397) -/

/-- SCEINFO of a report. -/
def ScReport.info (r : ScReport) : Word :=
  word (1 <<< 63 + r.dirty.toNat <<< 62 + r.tag.val <<< 54 + r.way <<< 50 + r.die <<< 48 + r.set)

/-- A report fills SCEPA and SCEINFO. -/
def State.showReport (s : State) (r : ScReport) : State :=
  { s with mgmt := { s.mgmt with scepa := word r.pa, sceinfo := r.info } }

/-- A report is posted, behind the one that is held. -/
def State.postReport (s : State) (r : ScReport) : State :=
  if s.mgmt.sceinfo.getLsbD 63 then { s with mgmt := { s.mgmt with reports := s.mgmt.reports ++ [r] } } else s.showReport r

/-- The report of a line. -/
def reportOf (l : ScLine) : ScReport := ⟨l.pa, l.dirty, l.tag, l.way, ((homeDie l.pa).map (·.val)).getD 0, setOf l.pa⟩

def State.modLine (s : State) (pa : Nat) (f : ScLine → ScLine) : State :=
  { s with sc := s.sc.map (fun x => if x.pa = pa then f x else x) }

/-- An uncorrectable error in a line's data (R386): a clean line is refetched and counted, a dirty one is held; both are
reported. A clean line that memory cannot give again leaves the shared cache. (Log entry 45, DEDUCED, unsafe.) -/
def State.dataError (s : State) (l : ScLine) : State :=
  if l.dirty then (s.modLine l.pa (fun x => { x with bad := true, held := true })).postReport (reportOf l)
  else
    let s := if s.memError l.pa = some true then s.removeLine l.pa
      else (s.correctMem l.pa).modLine l.pa (fun x => { x with bad := false, data := Memory.readN s.mem l.pa 128 })
    (s.correctedError 1).postReport (reportOf l)

/-- SC_DATA_ERROR: a line's error is found; a single-bit one is corrected and counted. -/
def execScDataError (pa : Nat) (s : State) : Out :=
  match s.scLine? pa with
  | none => .next s
  | some l =>
    if l.held then .next s
    else if !l.bad && s.mgmt.errLines.contains l.pa then .next (s.correctLine l.pa)
    else .next (s.dataError l)

/-! ### Quarantine and tag errors (R387, R388) -/

/-- The quarantined ways of a set. -/
def State.quarantinedWays (s : State) (die set : Nat) : Nat :=
  (s.mgmt.quarantine.filter (fun q => q.1 == die && q.2.1 == set)).length

/-- A way is quarantined; in a set that has eight quarantined ways it returns to service. -/
def State.quarantineWay (s : State) (die set way : Nat) : State :=
  if s.mgmt.quarantine.contains (die, set, way) || decide (8 ≤ s.quarantinedWays die set) then s
  else
    let s : State := { s with mgmt := { s.mgmt with quarantine := s.mgmt.quarantine ++ [(die, set, way)] } }
    let s := s.event none [0x0012, word die, word set, word way]
    if s.quarantinedWays die set = 4 then s.event none [0x0013, word die, word set, 4] else s

/-- The lines of a set. -/
def State.setLines (s : State) (die set : Nat) : List ScLine :=
  s.sc.filter (fun l => (homeDie l.pa).map (·.val) == some die && setOf l.pa == set)

/-- The presence vector of a set: the partitions that hold a way of it. -/
def State.presence (s : State) (die set : Nat) : List PartId := ((s.setLines die set).map (·.tag)).eraseDups

/-- An uncorrectable tag error: the line is discarded, its way quarantined, and every context of the partitions in the presence
vector ends. -/
def State.tagError (s : State) (die set : Nat) (l : ScLine) : State :=
  let present := s.presence die set
  let s := (s.removeLine l.pa).quarantineWay die set l.way
  let cs := (s.ctxs.filter (fun k => k.live && present.contains k.part)).map (·.num)
  cs.foldl (fun s c => s.terminate c cMemUe true) s

/-- A tag error of a line: an injected single-bit one is corrected, and any other is handled (R388, R390). -/
def State.tagVisit (s : State) (die set : Nat) (l : ScLine) : State :=
  if !s.tagBad l.pa && s.mgmt.errTags.contains (l.pa, false) then s.correctLine l.pa else s.tagError die set l

/-- SC_TAG_ERROR: the tag entry of a way is found bad. -/
def execScTagError (die : DieId) (set way : Nat) (s : State) : Out :=
  match (s.setLines die.val set).find? (fun l => l.way == way) with
  | none => .next s
  | some l => .next (s.tagVisit die.val set l)

/-! ### PATROL_SCRUB (R386) -/

/-- PATROL_SCRUB: the scrub visits a valid line and finds the errors it has. -/
def execPatrolScrub (die : DieId) (pa : Nat) (s : State) : Out :=
  match s.scLine? pa with
  | none => .next s
  | some l =>
    if homeDie l.pa ≠ some die ∨ l.held then .next s
    else if s.tagBad l.pa then .next (s.tagVisit die.val (setOf l.pa) l)
    else if l.bad then .next (s.dataError l)
    else .next (s.correctLine l.pa)

/-! ### The management core's registers (R395) -/

/-- The page ownership entry of a frame (R396): POISON, CV and CTX, and PART, 0xFF where no partition owns the frame. -/
def State.ownWord (s : State) (frame : Nat) : Word :=
  let poison := word ((s.mgmt.poisoned.contains frame).toNat <<< 63)
  match s.ownerOf? frame with
  | none => poison ||| 0xFF
  | some e => poison ||| word ((e.ctx.isSome).toNat <<< 62) ||| word (((e.ctx.getD 0) % 2 ^ 16) <<< 40) ||| word e.part.val

/-- The address of the page ownership entry of the frame at a physical address (R396). -/
def State.ownAddr (s : State) (pa : Nat) : Word := s.mgmt.pownbase + word (8 * bits pa 16 36)

/-- PGPOIS: the frame is poisoned, and PAGE_RETIRED is sent. -/
def execPgpois (v : Word) (s : State) : Out :=
  .next (State.poisonFrame { s with mgmt := { s.mgmt with pgpois := v &&& 0x000FFFFFFFFF0000 } } (bits v.toNat 16 36))

/-- SCQUAR: with GO the line at DIE, SET and WAY is discarded and its way quarantined. -/
def execScquar (v : Word) (s : State) : Out :=
  let (way, die, set) := (bits v.toNat 50 4, bits v.toNat 48 2, bits v.toNat 0 15)
  let s : State := { s with mgmt := { s.mgmt with scquar := v &&& 0x803F000000007FFF } }
  if !v.getLsbD 63 then .next s
  else match (s.setLines die set).find? (fun l => l.way == way) with
    | some l => .next ((s.removeLine l.pa).quarantineWay die set way)
    | none => .next (s.quarantineWay die set way)

/-- The cause that CTXTERM gives TERMINATED: the byte written where R11 lists it. (Log entry 70, DESIGN CHOICE, safe.) -/
def termCause (b : BitVec 8) : BitVec 8 :=
  if listedCauses.contains b then b else listedCauses.getD (Config.termCause b.toNat).val cMemUe

/-- CTXTERM: a context ends with a cause. -/
def execCtxterm (v : Word) (s : State) : Out :=
  let s : State := { s with mgmt := { s.mgmt with ctxterm := v &&& 0x0000000000FFFFFF } }
  .next (s.terminate (bits v.toNat 0 16) (termCause (v.extractLsb' 16 8)) true)

/-- The report that SCEPA and SCEINFO show. -/
def State.shownReport (s : State) : ScReport :=
  let i := s.mgmt.sceinfo.toNat
  ⟨s.mgmt.scepa.toNat, s.mgmt.sceinfo.getLsbD 62, Fin.ofNat 48 (bits i 54 6), bits i 50 4, bits i 48 2, bits i 0 15⟩

/-- What memory holds of a line is lost data. -/
def State.loseLine (s : State) (pa : Nat) : State :=
  let m := (s.clearMemError pa).mgmt
  { s with mgmt := { m with errHbm := m.errHbm ++ [(pa, true)] } }

/-- The release of a dirty line's report, once SCQUAR has discarded the line (R386, R397): what memory holds of the line is lost data
from then on, and an access that waited for it meets R327. A line that SCQUAR has not discarded stays held.
(Log entry 45, DEDUCED, unsafe.) -/
def State.finishDirty (s : State) (r : ScReport) : State := if (s.scLine? r.pa).any (·.held) then s else s.loseLine r.pa

/-- SCEINFO_RELEASE: writing 1 to V releases the report, and the next one is posted. -/
def execSceinfoRelease (v : Word) (s : State) : Out :=
  if !v.getLsbD 63 || !s.mgmt.sceinfo.getLsbD 63 then .next s
  else
    let r := s.shownReport
    let s := if r.dirty then s.finishDirty r else s
    let s : State := { s with mgmt := { s.mgmt with sceinfo := s.mgmt.sceinfo &&& 0x7FFFFFFFFFFFFFFF } }
    match s.mgmt.reports with
    | [] => .next s
    | r :: rs => .next (State.showReport { s with mgmt := { s.mgmt with reports := rs } } r)

/-! ### The ROM's routine (R386, R395 to R397) -/

/-- The writes that the routine scerr makes of the report that SCEPA and SCEINFO show, in its order: it reads the frame's page ownership
entry before the first of them. -/
def State.scerrWrites (s : State) : List RomWrite :=
  let info := s.mgmt.sceinfo
  let frame := bits s.mgmt.scepa.toNat 16 36
  let e := s.ownWord frame
  if !info.getLsbD 62 then [.release info]
  else
    .pgpois (word (frame * 65536)) :: .scquar info ::
      ((if bits e.toNat 0 8 = bits info.toNat 54 6 ∧ bits e.toNat 62 1 = 1 then
          [.ctxterm (word (0x28 * 65536 + bits e.toNat 40 16))] else []) ++ [.release info])

/-- The write of the management core's error registers that a step of the device is. -/
def Instr.romWrite? : Instr → Option RomWrite
  | .pgpois v => some (.pgpois v)
  | .scquar v => some (.scquar v)
  | .ctxterm v => some (.ctxterm v)
  | .sceinfoRelease v => some (.release v)
  | _ => none

/-- The writes that the ROM has still to make. -/
def State.romDue (s : State) : List RomWrite :=
  if !s.mgmt.scerr.isEmpty then s.mgmt.scerr else if s.mgmt.sceinfo.getLsbD 63 then s.scerrWrites else []

/-- The ROM makes a write of the error registers where its routine comes to it, and no other; every other step of the device may come
at any time. None is a write that the ROM does not make now. -/
def State.romWrite (s : State) (i : Instr) : Option State :=
  match Instr.romWrite? i with
  | none => some s
  | some w => if s.romDue.head? = some w then some { s with mgmt := { s.mgmt with scerr := s.romDue.tail } } else none

/-! ### TILE_STORE_ERROR (R384) -/

/-- TILE_STORE_ERROR: a word of a full tile. A single-bit error, and one of an ACC56 tile that R206 repairs, is corrected and counted;
another marks the tile failed. (Log entry 68, DESIGN CHOICE, safe.) -/
def execTileStoreError (n : StrandId) (id : Nat) (s : State) : Out :=
  match (s.strand n).tile? id with
  | none => .next s
  | some r =>
    if !r.full then .next s
    else
      let inj := s.mgmt.errTiles.find? (fun e => e.1 == n && e.2.1 == id)
      let s : State := { s with mgmt := { s.mgmt with errTiles := s.mgmt.errTiles.filter (fun e => !(e.1 == n && e.2.1 == id)) } }
      let acc := (r.hdr.map (fun h => h.fmt == Fmt.acc56)).getD false
      if (acc && Config.accRepairs s.ticks) || (inj.map (fun e => !e.2.2)).getD false then .next (s.correctedError 0)
      else
        let f := if r.sunk then TileFail.slot else TileFail.store
        .next (s.modStrand n (fun t => t.modTile id (fun x => { x with failed := some (x.failed.getD f) })))

/-! ### Clocks and links (R349, R394) -/

/-- POD_CLOCK_LOWER: a Pod island's clock falls; no result depends on it (R48). -/
def execPodClockLower (island : Fin 16) (s : State) : Out :=
  let old := s.mgmt.clocks[island.val]'(by omega)
  let new := min old (Config.podClock s.ticks island.val)
  .next { s with mgmt := { s.mgmt with clocks := s.mgmt.clocks.set island.val new (by omega) } }

/-- The port that a line's traffic to a node takes: the trained ones of the node's set in the routing table share the lines by a hash,
so that one line always takes one path (R349). No other rule depends on the port. (Log entry 59, DESIGN CHOICE, safe.) -/
def State.fabricPort (s : State) (node line : Nat) : Option (Fin 24) :=
  let set : BitVec 24 := if h : node < 8192 then s.mgmt.routes[node] &&& s.mgmt.ports else 0
  let up := (List.finRange 24).filter (fun p => set.getLsbD p.val)
  up[Config.lineHash line % up.length]?

/-- LINK_LEVEL_RETRY: a flit on a port that has trained is retried, and both counts rise. -/
def execLinkLevelRetry (port : Fin 24) (s : State) : Out :=
  if !s.mgmt.ports.getLsbD port.val then .next s
  else
    let v := s.mgmt.fabricRetries + 1
    let s : State := { s with mgmt := { s.mgmt with
      fabricRetries := v, wraps := if v = 0 then s.mgmt.wraps ++ [(0, none, 0x19, none, s.gts)] else s.mgmt.wraps } }
    .next (s.correctedError 4)

/-! ### The layout journal after a reset (R393) -/

/-- LAYOUT_RESOLVED: the outcome, the journal state found (1 PREPARED, 2 SWAPPED: log entry 37, DESIGN CHOICE, unsafe) and the lost command's SEQ. -/
def State.resolved (s : State) (outcome found : Nat) (seq : BitVec 16) : State :=
  s.event none [0x0021, word outcome, word found, seq.setWidth 64]

/-- Firmware reads the journal after a reset of the management core; a command that was executing gets no REPLY. -/
def State.resolveJournal (s : State) : State :=
  let seq := if s.mgmt.committing then s.mgmt.commitSeq else 0
  let s : State := { s with mgmt := { s.mgmt with committing := false } }
  match s.mgmt.journal, s.mgmt.shadow with
  | .prepared, _ => State.resolved { s with mgmt := { s.mgmt with shadow := none, journal := .empty } } 1 1 seq
  | .swapped, some old => (s.cleanup old).resolved 0 2 seq
  | _, _ => s

/-- WATCHDOG_RESET: the management core alone is reset once its watchdog is not serviced. -/
def execWatchdogReset (s : State) : Out :=
  if !s.mgmt.watchdogStopped then .next s
  else .next (State.resolveJournal { s with mgmt := { s.mgmt with watchdogStopped := false, executing := none, scerr := [] } })

/-! ### Cold start (R391) -/

/-- STARTED: 0 cold or 1 warm, the result, and the step. -/
def State.started (s : State) (kind result step : Nat) : State := s.event none [0x0020, word kind, word result, word step]

/-- A step of a cold start passes. -/
def coldStepOk (image : List Byte) (k : Nat) : Bool := if k = 2 then Config.lmsValid image else k == 3 || Config.startStepOk k 0

/-- The memory that a cold start leaves: retired frames alone keep what they held. -/
def clearedMemory (mem : List Host.Cell) (retired : List Nat) : List Host.Cell := mem.filter (fun c => retired.contains (c.1 / 65536))

/-- What a cold start keeps: the model's own fields, other packages, messages already sent, non-volatile storage, and in retention
SRAM the count of failed warm starts, which a start that succeeds clears (R392). -/
def State.coldKept (s : State) : State :=
  { State.reset with
    ticks := s.ticks, agenda := s.agenda, remote := s.remote,
    mgmt := { Mgmt.reset with
      warmFails := s.mgmt.warmFails, retired := s.mgmt.retired, leaf := s.mgmt.leaf, image := s.mgmt.image, outbox := s.mgmt.outbox } }

/-- A cold start: its steps in order, up to the first that fails. -/
def State.coldStart (s : State) : State :=
  match [1, 2, 3, 4, 5, 6, 7].find? (fun k => !coldStepOk s.mgmt.image k) with
  | some k =>
    let t := s.coldKept
    State.started { t with
      mem := if k ≤ 5 then s.mem else clearedMemory s.mem s.mgmt.retired, mgmt := { t.mgmt with failedStart := true } } 0 1 k
  | none =>
    let t := s.coldKept
    State.started { t with mem := clearedMemory s.mem s.mgmt.retired, mgmt := { t.mgmt with warmFails := 0 } } 0 0 0

/-- COLD_RST_N. -/
def execColdRstN (s : State) : Out := .next s.coldStart

/-! ### Warm start (R392) -/

/-- A log's registers after a warm start: BASE, SIZE, LIM and PTR are kept (R358). -/
def LogRegs.warm (r : LogRegs) : LogRegs := ⟨false, false, r.base, r.size, r.ptr, false, r.lim⟩

/-- A virtual function's saved logs and counters after a warm start. -/
def VfState.warm (v : VfState) : VfState := { freshVf with sched := v.sched.warm, mo := v.mo.warm, stamp := v.stamp.warm }

def Part.warm (n : Nat) (x : Part) : Part :=
  { Part.reset n with sched := x.sched.warm, mo := x.mo.warm, stamp := x.stamp.warm, resident := x.resident, dying := x.dying }

/-- Every context ends with its EVENT, and every line that no error holds is written back (R254, R392). -/
def State.endAll (s : State) : State :=
  let s := (s.ctxs.filter (·.live)).foldl (fun s k => s.terminate k.num (listedCauses.getD Config.warmCause.val cMemUe) true) s
  (s.sc.filter (fun l => !(l.held || l.bad || s.tagBad l.pa))).foldl (fun s l => (s.correctLine l.pa).writeBack l) s

/-- Step 1: what a warm start leaves of the package. The contexts, all ended, stay until they are destroyed, their grants with them. -/
def State.warmKept (s : State) : State :=
  { State.reset with
    gts := s.gts, ticks := s.ticks, agenda := s.agenda, remote := s.remote, mem := s.mem, dedup := s.dedup, dind := s.dind,
    ddpPages := s.ddpPages, ctxs := s.ctxs, trace := s.trace,
    parts := Vector.ofFn (fun i : Fin 48 => (s.part i).warm i.val),
    mgmt := { Mgmt.reset with
      layout := s.mgmt.layout, shadow := s.mgmt.shadow, journal := s.mgmt.journal, commitSeq := s.mgmt.commitSeq,
      committing := s.mgmt.committing,
      vfs := s.mgmt.vfs.map (fun b => { b with saved := b.saved.map VfState.warm }),
      owners := s.mgmt.owners,
      poisoned := s.mgmt.poisoned, retired := s.mgmt.retired, untilCold := s.mgmt.untilCold, quarantine := s.mgmt.quarantine,
      corrected := s.mgmt.corrected, outbox := s.mgmt.outbox, image := s.mgmt.image, staged := s.mgmt.staged,
      warmFails := s.mgmt.warmFails, leaf := s.mgmt.leaf, nextCtx := s.mgmt.nextCtx, errHbm := s.mgmt.errHbm,
      errDedup := s.mgmt.errDedup, poisonedBlocks := s.mgmt.poisonedBlocks } }

/-- A firmware update is applied while the context exists (R333). -/
def Ctx.migrated (k : Ctx) (image : List Byte) : Ctx := { k with build := Config.imageBuild image, migr := k.migr + 1 }

/-- Step 2: a staged image that verifies is applied, and the contexts' FVER follows (R333); another is discarded. -/
def State.applyStaged (s : State) : State :=
  match s.mgmt.staged with
  | none => s
  | some im =>
    let s : State := { s with mgmt := { s.mgmt with staged := none } }
    if Config.lmsValid im then { s with ctxs := s.ctxs.map (·.migrated im), mgmt := { s.mgmt with image := im } } else s

/-- A warm start that fails is counted, and the third in a row begins a cold start. -/
def State.warmFailed (s : State) (result step : Nat) : State :=
  let s := State.started { s with mgmt := { s.mgmt with
    failedStart := true, startedAt := none, warmFails := s.mgmt.warmFails + 1 } } 1 result step
  if 3 ≤ s.mgmt.warmFails then s.coldStart else s

/-- A warm start: its steps in order. One whose last step does not come waits for its time limit.
(Log entry 46, DEDUCED, unsafe.) -/
def State.warmStart (s : State) : State :=
  let s := s.endAll.warmKept
  if !Config.startStepOk 1 1 then s.warmFailed 1 1
  else if !Config.lmsValid s.mgmt.image then s.warmFailed 1 2
  else
    let s := s.applyStaged.resolveJournal
    if !Config.startStepOk 4 1 then s.warmFailed 1 4
    else if !Config.startStepOk 5 1 then { s with mgmt := { s.mgmt with failedStart := true, startedAt := some s.gts } }
    else State.started { s with mgmt := { s.mgmt with warmFails := 0 } } 1 0 0

/-- WARM_RST_N, and every package-class error. -/
def execWarmRstN (s : State) : Out := .next s.warmStart

/-- WARM_START_TIMEOUT: 2 s without STARTED. -/
def execWarmStartTimeout (s : State) : Out :=
  match s.mgmt.startedAt with
  | none => .next s
  | some g => if s.gts < g + 2000000000 then .next s else .next (s.warmFailed 2 5)

end Sys2Proof.Machine
end

