-- ==== Sys2Proof/Machine/Messages.lean ====
section
/-! DEFINITION. Messages from other packages and host nodes: accesses into exports (R344, R350), bulk accesses (R254), and the
rendezvous with its aborts and time limits (R351, R352). -/

namespace Sys2Proof.Machine

/-! ### Accesses into an export (R344, R350) -/

/-- The right a message needs (R220), and a CMO what R233 asks. -/
def MsgOp.needs : MsgOp → List Need
  | .read _ => [.read]
  | .write _ => [.write]
  | .atomic _ _ _ _ => [.write]
  | .cmo op _ _ => if op = 0 then [.read] else [.write]

def MsgOp.bytes : MsgOp → Nat
  | .read n => n
  | .write d => d.length
  | .atomic _ wide _ _ => widBytes wide
  | .cmo _ _ len => len

/-- The answer to a message into an export: refused, waiting for a line that no access may take now, or performed. -/
inductive Answer where
  | refused (s : State)
  | waits (s : State)
  | done (data : List Byte) (s : State)

/-- A byte of an export translated with the rights a message needs (R337, R344, R385). -/
def State.exportByte (s : State) (k : Ctx) (op : MsgOp) (off : Nat) : Option (Nat × TlbEntry) :=
  if 2 ^ 36 ≤ off then none
  else match s.walk k (word (2 ^ 56 + off)) with
    | none => none
    | some e =>
      let pa := e.pa + (2 ^ 56 + off - e.va)
      if (MsgOp.needs op).all e.allows && !s.mgmt.poisoned.contains (pa / 65536) then some (pa, e) else none

/-- The line of a page table at which the walk of an export's offset waits (R390, R397). -/
def State.exportDue (s : State) (k : Ctx) (off : Nat) : Option Nat := s.walkDue k (word (2 ^ 56 + off))

/-- A message's atomic is a synchronising access at its line (R357). -/
def MsgOp.syncs : MsgOp → Bool
  | .atomic _ _ _ _ => true
  | _ => false

/-- A read, write or atomic within one line at the home shared cache, as an access of class 0 at domain scope (R350). -/
def State.performMessage (s : State) (p : PartId) (pa : Nat) : MsgOp → List Byte × State
  | .read n => let s := s.fillLine pa p; (s.cohN pa n, s)
  | .write d => ([], s.writeLine pa p d)
  | .atomic op wide x c =>
    let s := s.fillLine pa p
    let k := widBytes wide
    let old := bytesNat (s.cohN pa k)
    match atomNew op wide old x.toNat c.toNat with
    | some v => (natBytes k old, (s.writeLine pa p (natBytes k v)).noteSync (.glob pa))
    | none => (natBytes k old, s.noteSync (.glob pa))
  | .cmo _ _ _ => ([], s)

/-- The offset at which each line of an export's range begins (R233). -/
def exportOffsets (off len : Nat) : List Nat :=
  if len = 0 then [] else (List.range ((off + len - 1) / 128 - off / 128 + 1)).map (fun i => off / 128 * 128 + 128 * i)

/-- The part of a CMO at this package: the steps of R254 at the home of each line. -/
def State.cmoMessage (s : State) (p : PartId) (op level : Nat) (lines : List Nat) : State :=
  (cmoSteps op level (lines.map LineRef.phys)).foldl (fun s x => match x with
    | (0, _) => s
    | (i, .phys pa) => s.cmoHome p (i == 1) pa
    | _ => s) s

/-- An access into a partition's export (R344). -/
def State.exportAccess (s : State) (p : PartId) (k : Ctx) (off : Nat) (op : MsgOp) : Answer :=
  match op with
  | .cmo o level len =>
    let offs := exportOffsets off len
    let lines := offs.map (fun x => (s.exportByte k op x).map (fun y => lineOf y.1))
    match offs.findSome? (s.exportDue k) with
    | some pa => .waits (s.visitLine k.num pa)
    | none =>
    if lines.any (·.isNone) then .refused s
    else if level ≠ 0 && (lines.filterMap id).any (fun pa => s.blocked (.glob pa)) then .waits s
    else .done [] (s.cmoMessage p o level (lines.filterMap id))
  | _ =>
    match s.exportDue k off with
    | some pa => .waits (s.visitLine k.num pa)
    | none =>
    match s.exportByte k op off with
    | none => .refused s
    | some (pa, e) =>
      if s.entryBad (.glob pa) (some e) then .refused (s.poisonBlock pa)
      else if (s.lateAt (.glob pa)).isSome then .refused (s.retireFrame (pa / 65536))
      else if s.lineBlocked pa || (MsgOp.syncs op && s.syncBusy (.glob pa)) then .waits s
      else if s.singleBit pa then .waits (s.visitLine k.num pa)
      else
        let (bs, s) := (s.noteDdp (some e)).performMessage p pa op
        .done bs s

/-- The message's course once its partition is known: an answer to its sender. -/
def messageCourse (node : Nat) (p : PartId) (off : Nat) (op : MsgOp) (s : State) : Out :=
  let refuse (s : State) : State := s.send ⟨node, .errorResponse, [], []⟩
  match s.exporter? p with
  | none => .next (refuse s)
  | some k => match s.exportAccess p k off op with
    | .refused s1 => .next (refuse s1)
    | .waits s1 => .next s1
    | .done bs s1 => .next (s1.send ⟨node, .response, [], bs⟩)

/-- A host message may come from the operator's node, or from a node of a virtual function bound to the partition (R350). -/
def State.hostAllowed (s : State) (node : Nat) (p : PartId) : Bool :=
  node == Config.operatorNode || s.mgmt.vfs.any (fun b => b.part == p && b.node == node)

/-- A read, write or atomic is of 8 bytes or of one line (R349), aligned. (Log entry 42, DESIGN CHOICE, unsafe.) -/
def messageShape (off : Nat) (op : MsgOp) : Bool :=
  (MsgOp.bytes op == 8 && off % 8 == 0) || (MsgOp.bytes op == 128 && off % 128 == 0)

/-- A host sends reads, writes and atomics (R349). -/
def hostShape (off : Nat) : MsgOp → Bool
  | .cmo _ _ _ => false
  | op => messageShape off op

/-- HOST_ACCESS_MESSAGE (R350). -/
def execHostAccessMessage (node tenant off : Nat) (op : MsgOp) (s : State) : Out :=
  match s.tenantPart tenant with
  | some p =>
    if s.hostAllowed node p && hostShape off op then messageCourse node p off op s
    else .next (s.send ⟨node, .errorResponse, [], []⟩)
  | none => .next (s.send ⟨node, .errorResponse, [], []⟩)

/-- Another package of the domain, a node below 4,096, sends reads, writes, atomics and CMOs (R233, R349). -/
def fabricShape (node off : Nat) (op : MsgOp) : Bool :=
  decide (node < 4096) && (match op with
    | .cmo op level _ => decide (op ≤ 2) && decide (level ≤ 3)
    | op => messageShape off op)

/-- FABRIC_ACCESS_MESSAGE (R344). -/
def execFabricAccessMessage (node tenant off : Nat) (op : MsgOp) (s : State) : Out :=
  match s.tenantPart tenant with
  | some p => if fabricShape node off op then messageCourse node p off op s else .next (s.send ⟨node, .errorResponse, [], []⟩)
  | none => .next (s.send ⟨node, .errorResponse, [], []⟩)

/-! ### BULK_ACCESS (R254, R350) -/

/-- The pieces of a range within the lines it touches: where each begins and its length. -/
def linePieces (off len : Nat) : List (Nat × Nat) :=
  (exportOffsets off len).map (fun x => (max off x, min (off + len) (x + 128) - max off x))

/-- A line of MEM cannot be read. -/
def State.memUnreadable (s : State) (line : Nat) : Bool :=
  s.memError line == some true || (s.isDdp line && s.mgmt.poisonedBlocks.contains (blockOf line))

/-- MEM bytes of one line replaced from below the shared cache: a line of a DDP page then stands unshared (R348). -/
def State.bulkWrite (s : State) (pa : Nat) (d : List Byte) : State :=
  let hit := s.dind.filter (fun x => x.1 == lineOf pa)
  let copies := hit.foldl (fun cs x => dedupDrop cs x.2 (Memory.readN s.mem x.1 128)) s.dedup
  { s with dedup := copies, dind := s.dind.filter (fun x => x.1 != lineOf pa), mem := Memory.writeN s.mem pa d }

/-- The physical places of a bulk range's pieces, none where a piece fails translation or lacks the right (R350). -/
def State.bulkPlaces (s : State) (k : Ctx) (op : MsgOp) : List (Nat × Nat) → Option (List (Nat × Nat))
  | [] => some []
  | x :: xs => match s.exportByte k op x.1, s.bulkPlaces k op xs with
    | some y, some ys => some ((y.1, x.2) :: ys)
    | _, _ => none

/-- A bulk write takes its bytes piece by piece. -/
def State.bulkStore (s : State) : List (Nat × Nat) → List Byte → State
  | [], _ => s
  | x :: xs, d => (s.bulkWrite x.1 (d.take x.2)).bulkStore xs (d.drop x.2)

/-- A bulk access whose range translates: a read answers MEM, a write changes MEM alone. One that touches a held line waits, and MEM
that cannot be read is not answered. -/
def bulkCourse (node : Nat) (places : List (Nat × Nat)) (data : Nat ⊕ List Byte) (s : State) : Out :=
  if places.any (fun x => s.lineBlocked x.1) then .next s
  else match data with
    | .inr d => .next ((s.bulkStore places d).send ⟨node, .response, [], []⟩)
    | .inl _ =>
      if places.any (fun x => s.memUnreadable (lineOf x.1)) then .next (s.send ⟨node, .errorResponse, [], []⟩)
      else
        let s := places.foldl (fun s x => s.correctMem x.1) s
        .next (s.send ⟨node, .response, [], (places.map (fun x => Memory.readN s.mem x.1 x.2)).flatten⟩)

/-- BULK_ACCESS: a host's bulk read or bulk write, routed, translated and refused as its reads and writes are (R350), acts on MEM. -/
def execBulkAccess (node tenant off : Nat) (data : Nat ⊕ List Byte) (s : State) : Out :=
  let refuse : Out := .next (s.send ⟨node, .errorResponse, [], []⟩)
  let op : MsgOp := match data with
    | .inr d => .write d
    | .inl n => .read n
  match s.tenantPart tenant with
  | none => refuse
  | some p =>
    if !s.hostAllowed node p then refuse
    else match s.exporter? p with
      | none => refuse
      | some k =>
        let pieces := linePieces off (MsgOp.bytes op)
        match pieces.findSome? (fun x => s.exportDue k x.1) with
        | some pa => .next (s.visitLine k.num pa)
        | none => match s.bulkPlaces k op pieces with
          | none => refuse
          | some places => bulkCourse node places data s

/-! ### Rendezvous (R351, R352) -/

/-- The partition whose tenant a collective's message names. -/
def State.collPart (s : State) (tenant : Nat) : Option PartId := s.tenantPart tenant

/-- RDV: a member has sent its RDV, and its SRC is there to be read. (Log entry 28, DESIGN CHOICE, unsafe.) -/
def execRdv (node group tenant sequence : Nat) (src : List Byte) (s : State) : Out :=
  match s.collPart tenant with
  | none => .next s
  | some p => .next (s.modPart p (fun x => { x with rdvs := x.rdvs ++ [⟨node, group, tenant, sequence, src⟩] }))

/-- A sequence of a group ends with STATUS 2. -/
def CollGroup.lose (g : CollGroup) (q : Nat) : CollGroup := if g.lost.contains q then g else { g with lost := g.lost ++ [q] }

/-- ABORT of a group, or of one sequence of it. -/
def execAbort (node group tenant : Nat) (sequence : Option Nat) (s : State) : Out :=
  match s.collPart tenant with
  | none => .next s
  | some p => .next (s.modPart p (fun x => { x with groups := x.groups.map (fun g =>
      if g.entry = group ∧ g.members.contains node then (match sequence with
        | none => { g with aborted := true }
        | some q => g.lose q)
      else g) }))

/-- ABORT(group, tenant, sequence) to every other member. -/
def State.sendAbort (s : State) (n : StrandId) (g : CollGroup) (q : Nat) : State :=
  (g.members.mapIdx (fun i m => (i, m))).foldl (fun s im =>
    if im.1 = g.rank then s else s.send ⟨im.2, .abort, [word g.entry, word (s.tenantOf n), word q], []⟩) s

/-- RENDEZVOUS_LIMIT_EXPIRY: TRDV milliseconds after the COLL's RDV. -/
def execRendezvousLimitExpiry (n : StrandId) (seq : Nat) (s : State) : Out :=
  match (s.strand n).entry? seq with
  | none => .next s
  | some e =>
    let num (i : Nat) : Nat := e.work.nums.getD i 0
    match s.collGroup? n (num 0) with
    | none => .next s
    | some g =>
      if !e.atRendezvous || g.trdv = 0 || g.aborted || g.lost.contains (num 5) || decide (s.gts < num 6 + g.trdv * 1000000) ||
          (s.rendezvous n g (num 5)).isSome then .next s
      else
        let s := s.modPart (s.tagOf n) (fun x => { x with groups := x.groups.map (fun y =>
          if y.entry = g.entry then y.lose (num 5) else y) })
        .next (s.sendAbort n g (num 5))

/-- A COLL of the strand waits for its rendezvous. -/
def Strand.inRendezvous (t : Strand) : Bool := t.entries.any QEntry.atRendezvous

/-- 10 ms (R351). -/
def rendezvousSwitchLimit : Nat := 10000000

/-- RENDEZVOUS_SWITCH_TIMEOUT: a COLL still waits for its rendezvous 10 ms after its strand was asked to switch out. -/
def execRendezvousSwitchTimeout (n : StrandId) (s : State) : Out :=
  let t := s.strand n
  match t.ctx with
  | none => .next s
  | some c =>
    if t.stop = .none ∨ t.stop = .debug ∨ s.gts < t.stopAt + rendezvousSwitchLimit ∨ !t.inRendezvous then .next s
    else .next (s.terminate c cPreempt true)

end Sys2Proof.Machine
end

