-- ==== Sys2Proof/Machine/Stack.lean ====
section
/-! DEFINITION. The stack-manipulation instructions (R78, R79): they execute at dispatch, and change the reference image, TFLOOR
and, for TMARK, a scalar. DBND (R107, R109) is here too: it begins the slots of a bundle. -/

namespace Sys2Proof.Machine

/-- The course of a stack-manipulation instruction: the checks of R77 with its p and q, then the new image. -/
def stackInstr (m : Mods) (ops pops pushes : Nat) (f : Strand → List Nat) : State → Out :=
  control m [] (fun s n =>
    match (s.strand n).stackCheck ops pops pushes with
    | some t => .trap t s
    | none => .go (((s.modStrand n (fun t => { t with image := f t })).advance n).sweep n))

/-- The image with a copy of the reference at a depth on top. -/
def Strand.picked (t : Strand) (d : Nat) : List Nat := t.image ++ [t.atDepth d]

/-- The image with the reference at a depth brought to the top. -/
def Strand.rotated (t : Strand) (d : Nat) : List Nat :=
  let k := t.image.length - 1 - d
  t.image.take k ++ t.image.drop (k + 1) ++ [t.atDepth d]

/-- The image with its top sent to a depth. -/
def Strand.buried (t : Strand) (d : Nat) : List Nat :=
  let k := t.image.length - 1 - d
  t.image.take k ++ [t.atDepth 0] ++ (t.image.drop k).dropLast

def execTdup (m : Mods) (s : State) : Out := stackInstr m 1 0 1 (fun t => t.picked 0) s
def execTdrop (m : Mods) (s : State) : Out := stackInstr m 1 1 0 (fun t => t.image.dropLast) s
def execTswap (m : Mods) (s : State) : Out := stackInstr m 2 0 0 (fun t => t.rotated 1) s
def execTover (m : Mods) (s : State) : Out := stackInstr m 2 0 1 (fun t => t.picked 1) s
def execTpick (m : Mods) (n : BitVec 6) (s : State) : Out := stackInstr m (n.toNat + 1) 0 1 (fun t => t.picked n.toNat) s
def execTrot (m : Mods) (n : BitVec 6) (s : State) : Out := stackInstr m (n.toNat + 1) 0 0 (fun t => t.rotated n.toNat) s
def execTbury (m : Mods) (n : BitVec 6) (s : State) : Out := stackInstr m (n.toNat + 1) 0 0 (fun t => t.buried n.toNat) s

/-- TMARK sd, n (R79): the top n references become a new frame's arguments. -/
def execTmarkOpen (m : Mods) (sd : SReg) (k : BitVec 12) (s : State) : Out :=
  control m [sd] (fun s n =>
    let t := s.strand n
    let d := t.image.length
    if d < t.tfloor + k.toNat then .trap ⟨cStackUnderflow, 0, stackInfo t.tfloor d k.toNat⟩ s
    else .go ((s.setStrand n { t.setS sd (word t.tfloor) with tfloor := d - k.toNat }).advance n)) s

/-- TMARK ss (R79): the saved floor is restored. -/
def execTmarkClose (m : Mods) (ss : SReg) (s : State) : Out :=
  control m [ss] (fun s n =>
    let t := s.strand n
    let x := (t.getS ss).toNat
    if t.image.length < x then .trap ⟨cStackUnderflow, 0, stackInfo t.tfloor t.image.length x⟩ s
    else .go ((s.setStrand n { t with tfloor := x }).advance n)) s

/-- DBND (R109): slot 0 of the bundle at the program counter is the next to dispatch. -/
def execDbnd (_c2 _c1 _c0 : BitVec 16) (s : State) : Out :=
  .next (s.modStrand s.cur.strand (fun t => { t with slot0 := true }))

end Sys2Proof.Machine
end

