-- ==== Sys2Proof/Machine/Dispatch.lean ====
section
/-! DEFINITION. The dispatch of `exec`: one arm per constructor of `Instr`. -/

namespace Sys2Proof.Machine

def exec (i : Instr) (s : State) : Host.Outcome State Fault Refusal :=
  match i with
  | .add m sd sa sb => Sys2Proof.Machine.execAdd m sd sa sb s
  | .sub m sd sa sb => Sys2Proof.Machine.execSub m sd sa sb s
  | .mul m sd sa sb => Sys2Proof.Machine.execMul m sd sa sb s
  | .mulh m sd sa sb => Sys2Proof.Machine.execMulh m sd sa sb s
  | .mulhu m sd sa sb => Sys2Proof.Machine.execMulhu m sd sa sb s
  | .div m sd sa sb => Sys2Proof.Machine.execDiv m sd sa sb s
  | .divu m sd sa sb => Sys2Proof.Machine.execDivu m sd sa sb s
  | .rem m sd sa sb => Sys2Proof.Machine.execRem m sd sa sb s
  | .remu m sd sa sb => Sys2Proof.Machine.execRemu m sd sa sb s
  | .and m sd sa sb => Sys2Proof.Machine.execAnd m sd sa sb s
  | .or m sd sa sb => Sys2Proof.Machine.execOr m sd sa sb s
  | .xor m sd sa sb => Sys2Proof.Machine.execXor m sd sa sb s
  | .andn m sd sa sb => Sys2Proof.Machine.execAndn m sd sa sb s
  | .shl m sd sa sb => Sys2Proof.Machine.execShl m sd sa sb s
  | .shr m sd sa sb => Sys2Proof.Machine.execShr m sd sa sb s
  | .sar m sd sa sb => Sys2Proof.Machine.execSar m sd sa sb s
  | .rol m sd sa sb => Sys2Proof.Machine.execRol m sd sa sb s
  | .ror m sd sa sb => Sys2Proof.Machine.execRor m sd sa sb s
  | .min m sd sa sb => Sys2Proof.Machine.execMin m sd sa sb s
  | .max m sd sa sb => Sys2Proof.Machine.execMax m sd sa sb s
  | .minu m sd sa sb => Sys2Proof.Machine.execMinu m sd sa sb s
  | .maxu m sd sa sb => Sys2Proof.Machine.execMaxu m sd sa sb s
  | .clz m sd sa => Sys2Proof.Machine.execClz m sd sa s
  | .ctz m sd sa => Sys2Proof.Machine.execCtz m sd sa s
  | .popc m sd sa => Sys2Proof.Machine.execPopc m sd sa s
  | .addi m sd sa imm => Sys2Proof.Machine.execAddi m sd sa imm s
  | .andi m sd sa imm => Sys2Proof.Machine.execAndi m sd sa imm s
  | .ori m sd sa imm => Sys2Proof.Machine.execOri m sd sa imm s
  | .xori m sd sa imm => Sys2Proof.Machine.execXori m sd sa imm s
  | .shli m sd sa imm => Sys2Proof.Machine.execShli m sd sa imm s
  | .shri m sd sa imm => Sys2Proof.Machine.execShri m sd sa imm s
  | .sari m sd sa imm => Sys2Proof.Machine.execSari m sd sa imm s
  | .bfx m sd sa pos wcode => Sys2Proof.Machine.execBfx m sd sa pos wcode s
  | .bfxu m sd sa pos wcode => Sys2Proof.Machine.execBfxu m sd sa pos wcode s
  | .bfi m sd sa sb pos wcode => Sys2Proof.Machine.execBfi m sd sa sb pos wcode s
  | .movi m sd imm => Sys2Proof.Machine.execMovi m sd imm s
  | .movl m sd lit => Sys2Proof.Machine.execMovl m sd lit s
  | .addl m sd sa lit => Sys2Proof.Machine.execAddl m sd sa lit s
  | .cmpeq m pd sa sb => Sys2Proof.Machine.execCmpeq m pd sa sb s
  | .cmpne m pd sa sb => Sys2Proof.Machine.execCmpne m pd sa sb s
  | .cmplt m pd sa sb => Sys2Proof.Machine.execCmplt m pd sa sb s
  | .cmple m pd sa sb => Sys2Proof.Machine.execCmple m pd sa sb s
  | .cmpltu m pd sa sb => Sys2Proof.Machine.execCmpltu m pd sa sb s
  | .cmpleu m pd sa sb => Sys2Proof.Machine.execCmpleu m pd sa sb s
  | .cmpeqi m pd sa imm => Sys2Proof.Machine.execCmpeqi m pd sa imm s
  | .cmpnei m pd sa imm => Sys2Proof.Machine.execCmpnei m pd sa imm s
  | .cmplti m pd sa imm => Sys2Proof.Machine.execCmplti m pd sa imm s
  | .cmplei m pd sa imm => Sys2Proof.Machine.execCmplei m pd sa imm s
  | .cmpltui m pd sa imm => Sys2Proof.Machine.execCmpltui m pd sa imm s
  | .cmpleui m pd sa imm => Sys2Proof.Machine.execCmpleui m pd sa imm s
  | .pand m pd pa pb => Sys2Proof.Machine.execPand m pd pa pb s
  | .por m pd pa pb => Sys2Proof.Machine.execPor m pd pa pb s
  | .pxor m pd pa pb => Sys2Proof.Machine.execPxor m pd pa pb s
  | .pandn m pd pa pb => Sys2Proof.Machine.execPandn m pd pa pb s
  | .pset m pd sa => Sys2Proof.Machine.execPset m pd sa s
  | .pget m sd pa => Sys2Proof.Machine.execPget m sd pa s
  | .lea m sd sa sb sh => Sys2Proof.Machine.execLea m sd sa sb sh s
  | .apcv m sd sa f => Sys2Proof.Machine.execApcv m sd sa f s
  | .apts m sd sa => Sys2Proof.Machine.execApts m sd sa s
  | .hget m sd sa sel => Sys2Proof.Machine.execHget m sd sa sel s
  | .hchk m pd sa => Sys2Proof.Machine.execHchk m pd sa s
  | .br m off => Sys2Proof.Machine.execBr m off s
  | .call m off => Sys2Proof.Machine.execCall m off s
  | .jmp m sa => Sys2Proof.Machine.execJmp m sa s
  | .callr m sa => Sys2Proof.Machine.execCallr m sa s
  | .ret m => Sys2Proof.Machine.execRet m s
  | .brl m lit => Sys2Proof.Machine.execBrl m lit s
  | .calll m lit => Sys2Proof.Machine.execCalll m lit s
  | .loopp m sa idx off => Sys2Proof.Machine.execLoopp m sa idx off s
  | .endl m => Sys2Proof.Machine.execEndl m s
  | .next m => Sys2Proof.Machine.execNext m s
  | .lnch m sa => Sys2Proof.Machine.execLnch m sa s
  | .wait m sd sa sb => Sys2Proof.Machine.execWait m sd sa sb s
  | .trap m imm => Sys2Proof.Machine.execTrap m imm s
  | .brk m imm => Sys2Proof.Machine.execBrk m imm s
  | .tack m => Sys2Proof.Machine.execTack m s
  | .eret m => Sys2Proof.Machine.execEret m s
  | .halt m => Sys2Proof.Machine.execHalt m s
  | .nop m => Sys2Proof.Machine.execNop m s
  | .srd m sd num => Sys2Proof.Machine.execSrd m sd num s
  | .srdVstat m sd => Sys2Proof.Machine.execSrdVstat m sd s
  | .srdTags m sd => Sys2Proof.Machine.execSrdTags m sd s
  | .swr m num sa => Sys2Proof.Machine.execSwr m num sa s
  | .swrVstat m sa => Sys2Proof.Machine.execSwrVstat m sa s
  | .swrStklim m sa => Sys2Proof.Machine.execSwrStklim m sa s
  | .swrTsquota m sa => Sys2Proof.Machine.execSwrTsquota m sa s
  | .swrOrdmode m sa => Sys2Proof.Machine.execSwrOrdmode m sa s
  | .swrTdeleg m sa => Sys2Proof.Machine.execSwrTdeleg m sa s
  | .swrRole m sa => Sys2Proof.Machine.execSwrRole m sa s
  | .swrLeasectl m sa => Sys2Proof.Machine.execSwrLeasectl m sa s
  | .swrQminQcap m cap sa => Sys2Proof.Machine.execSwrQminQcap m cap sa s
  | .swrTags m sa => Sys2Proof.Machine.execSwrTags m sa s
  | .logMove m which sa => Sys2Proof.Machine.execLogMove m which sa s
  | .iclk m sd sa sb => Sys2Proof.Machine.execIclk m sd sa sb s
  | .icul m sd sa sb => Sys2Proof.Machine.execIcul m sd sa sb s
  | .logw m sa sb => Sys2Proof.Machine.execLogw m sa sb s
  | .ldb m mm sd sa sc imm => Sys2Proof.Machine.execLdb m mm sd sa sc imm s
  | .ldh m mm sd sa sc imm => Sys2Proof.Machine.execLdh m mm sd sa sc imm s
  | .ldw m mm sd sa sc imm => Sys2Proof.Machine.execLdw m mm sd sa sc imm s
  | .ldd m mm sd sa sc imm => Sys2Proof.Machine.execLdd m mm sd sa sc imm s
  | .ldbu m mm sd sa sc imm => Sys2Proof.Machine.execLdbu m mm sd sa sc imm s
  | .ldhu m mm sd sa sc imm => Sys2Proof.Machine.execLdhu m mm sd sa sc imm s
  | .ldwu m mm sd sa sc imm => Sys2Proof.Machine.execLdwu m mm sd sa sc imm s
  | .stb m mm sd sa sc imm => Sys2Proof.Machine.execStb m mm sd sa sc imm s
  | .sth m mm sd sa sc imm => Sys2Proof.Machine.execSth m mm sd sa sc imm s
  | .stw m mm sd sa sc imm => Sys2Proof.Machine.execStw m mm sd sa sc imm s
  | .std m mm sd sa sc imm => Sys2Proof.Machine.execStd m mm sd sa sc imm s
  | .ldaqw m cls sd sa scope => Sys2Proof.Machine.execLdaqw m cls sd sa scope s
  | .ldaqd m cls sd sa scope => Sys2Proof.Machine.execLdaqd m cls sd sa scope s
  | .strlw m cls sd sa scope => Sys2Proof.Machine.execStrlw m cls sd sa scope s
  | .strld m cls sd sa scope => Sys2Proof.Machine.execStrld m cls sd sa scope s
  | .aadd m am sd sa sb wid scope => Sys2Proof.Machine.execAadd m am sd sa sb wid scope s
  | .afadd m am sd sa sb wid scope => Sys2Proof.Machine.execAfadd m am sd sa sb wid scope s
  | .amin m am sd sa sb wid scope => Sys2Proof.Machine.execAmin m am sd sa sb wid scope s
  | .amax m am sd sa sb wid scope => Sys2Proof.Machine.execAmax m am sd sa sb wid scope s
  | .aand m am sd sa sb wid scope => Sys2Proof.Machine.execAand m am sd sa sb wid scope s
  | .aor m am sd sa sb wid scope => Sys2Proof.Machine.execAor m am sd sa sb wid scope s
  | .axch m am sd sa sb wid scope => Sys2Proof.Machine.execAxch m am sd sa sb wid scope s
  | .acas m am sd sa sb sc wid scope => Sys2Proof.Machine.execAcas m am sd sa sb sc wid scope s
  | .fence m scope eng cm => Sys2Proof.Machine.execFence m scope eng cm s
  | .cmo m cls op sa sb level => Sys2Proof.Machine.execCmo m cls op sa sb level s
  | .bar m imm => Sys2Proof.Machine.execBar m imm s
  | .dbnd c2 c1 c0 => Sys2Proof.Machine.execDbnd c2 c1 c0 s
  | .vadd m a vd va vb ty k => Sys2Proof.Machine.execVadd m a vd va vb ty k s
  | .vsub m a vd va vb ty k => Sys2Proof.Machine.execVsub m a vd va vb ty k s
  | .vmul m a vd va vb ty k => Sys2Proof.Machine.execVmul m a vd va vb ty k s
  | .vfma m a vd va vb vc ty k => Sys2Proof.Machine.execVfma m a vd va vb vc ty k s
  | .vfms m a vd va vb vc ty k => Sys2Proof.Machine.execVfms m a vd va vb vc ty k s
  | .vdiv m a vd va vb ty k => Sys2Proof.Machine.execVdiv m a vd va vb ty k s
  | .vmin m a vd va vb ty k => Sys2Proof.Machine.execVmin m a vd va vb ty k s
  | .vmax m a vd va vb ty k => Sys2Proof.Machine.execVmax m a vd va vb ty k s
  | .vabs m a vd va ty k => Sys2Proof.Machine.execVabs m a vd va ty k s
  | .vneg m a vd va ty k => Sys2Proof.Machine.execVneg m a vd va ty k s
  | .vand m a vd va vb ty k => Sys2Proof.Machine.execVand m a vd va vb ty k s
  | .vor m a vd va vb ty k => Sys2Proof.Machine.execVor m a vd va vb ty k s
  | .vxor m a vd va vb ty k => Sys2Proof.Machine.execVxor m a vd va vb ty k s
  | .vnot m a vd va ty k => Sys2Proof.Machine.execVnot m a vd va ty k s
  | .vshl m a vd va vb ty k => Sys2Proof.Machine.execVshl m a vd va vb ty k s
  | .vshr m a vd va vb ty k => Sys2Proof.Machine.execVshr m a vd va vb ty k s
  | .vsar m a vd va vb ty k => Sys2Proof.Machine.execVsar m a vd va vb ty k s
  | .vfshl m a vd va vb vc ty k => Sys2Proof.Machine.execVfshl m a vd va vb vc ty k s
  | .vfshr m a vd va vb vc ty k => Sys2Proof.Machine.execVfshr m a vd va vb vc ty k s
  | .vcmpeq m a kd va vb ty k => Sys2Proof.Machine.execVcmpeq m a kd va vb ty k s
  | .vcmpne m a kd va vb ty k => Sys2Proof.Machine.execVcmpne m a kd va vb ty k s
  | .vcmplt m a kd va vb ty k => Sys2Proof.Machine.execVcmplt m a kd va vb ty k s
  | .vcmple m a kd va vb ty k => Sys2Proof.Machine.execVcmple m a kd va vb ty k s
  | .vsel m a vd va vb kc ty k => Sys2Proof.Machine.execVsel m a vd va vb kc ty k s
  | .kand m kd ka kb => Sys2Proof.Machine.execKand m kd ka kb s
  | .kor m kd ka kb => Sys2Proof.Machine.execKor m kd ka kb s
  | .kxor m kd ka kb => Sys2Proof.Machine.execKxor m kd ka kb s
  | .knot m kd ka => Sys2Proof.Machine.execKnot m kd ka s
  | .vcvt m a vd va tt ty k => Sys2Proof.Machine.execVcvt m a vd va tt ty k s
  | .vwid m a vd va tt ty k => Sys2Proof.Machine.execVwid m a vd va tt ty k s
  | .vnar m a vd va tt ty k => Sys2Proof.Machine.execVnar m a vd va tt ty k s
  | .vbcst m vd sa ty k => Sys2Proof.Machine.execVbcst m vd sa ty k s
  | .vext m sd va sb ty => Sys2Proof.Machine.execVext m sd va sb ty s
  | .vperm m vd va vb ty k => Sys2Proof.Machine.execVperm m vd va vb ty k s
  | .vshuf m vd va vb pat ty k => Sys2Proof.Machine.execVshuf m vd va vb pat ty k s
  | .vlrot m vd va sb ty k => Sys2Proof.Machine.execVlrot m vd va sb ty k s
  | .vrsum m a vd va ty k => Sys2Proof.Machine.execVrsum m a vd va ty k s
  | .vrmax m a vd va ty k => Sys2Proof.Machine.execVrmax m a vd va ty k s
  | .vrmin m a vd va ty k => Sys2Proof.Machine.execVrmin m a vd va ty k s
  | .vgsum m a vd va g ty k => Sys2Proof.Machine.execVgsum m a vd va g ty k s
  | .vgmax m a vd va g ty k => Sys2Proof.Machine.execVgmax m a vd va g ty k s
  | .vgmin m a vd va g ty k => Sys2Proof.Machine.execVgmin m a vd va g ty k s
  | .vscan m a vd va ty k => Sys2Proof.Machine.execVscan m a vd va ty k s
  | .vscanm m a vd va ty k => Sys2Proof.Machine.execVscanm m a vd va ty k s
  | .vsin m a vd va ty k => Sys2Proof.Machine.execVsin m a vd va ty k s
  | .vcos m a vd va ty k => Sys2Proof.Machine.execVcos m a vd va ty k s
  | .vexp m a vd va ty k => Sys2Proof.Machine.execVexp m a vd va ty k s
  | .vlog m a vd va ty k => Sys2Proof.Machine.execVlog m a vd va ty k s
  | .vrcp m a vd va ty k => Sys2Proof.Machine.execVrcp m a vd va ty k s
  | .vrsq m a vd va ty k => Sys2Proof.Machine.execVrsq m a vd va ty k s
  | .vqnt m a vd va vs slice ty => Sys2Proof.Machine.execVqnt m a vd va vs slice ty s
  | .vld m mm vd sa imm ty k => Sys2Proof.Machine.execVld m mm vd sa imm ty k s
  | .vst m mm vd sa imm ty k => Sys2Proof.Machine.execVst m mm vd sa imm ty k s
  | .vldu m mm vd sa imm ty k => Sys2Proof.Machine.execVldu m mm vd sa imm ty k s
  | .vstm m mm vd sa imm ty k => Sys2Proof.Machine.execVstm m mm vd sa imm ty k s
  | .vgath m mm vd sa vc imm ty k => Sys2Proof.Machine.execVgath m mm vd sa vc imm ty k s
  | .vscat m mm vd sa vc imm ty k => Sys2Proof.Machine.execVscat m mm vd sa vc imm ty k s
  | .vdec m vd => Sys2Proof.Machine.execVdec m vd s
  | .tdup m => Sys2Proof.Machine.execTdup m s
  | .tdrop m => Sys2Proof.Machine.execTdrop m s
  | .tswap m => Sys2Proof.Machine.execTswap m s
  | .tover m => Sys2Proof.Machine.execTover m s
  | .tpick m n => Sys2Proof.Machine.execTpick m n s
  | .trot m n => Sys2Proof.Machine.execTrot m n s
  | .tbury m n => Sys2Proof.Machine.execTbury m n s
  | .tmarkOpen m sd n => Sys2Proof.Machine.execTmarkOpen m sd n s
  | .tmarkClose m ss => Sys2Proof.Machine.execTmarkClose m ss s
  | .tld m mm sa => Sys2Proof.Machine.execTld m mm sa s
  | .tldh m mm sh so sx => Sys2Proof.Machine.execTldh m mm sh so sx s
  | .tldr m mm fmt sa sx sp => Sys2Proof.Machine.execTldr m mm fmt sa sx sp s
  | .cpy m mm tag sd ss sn => Sys2Proof.Machine.execCpy m mm tag sd ss sn s
  | .cpyg m mm tag sd sb sl lg => Sys2Proof.Machine.execCpyg m mm tag sd sb sl lg s
  | .cpyd m mm tag ss sn => Sys2Proof.Machine.execCpyd m mm tag ss sn s
  | .cpye m mm tag sd ss sn wc => Sys2Proof.Machine.execCpye m mm tag sd ss sn wc s
  | .coll m mm tag sa => Sys2Proof.Machine.execColl m mm tag sa s
  | .wtall m sm => Sys2Proof.Machine.execWtall m sm s
  | .wtany m sm => Sys2Proof.Machine.execWtany m sm s
  | .tagff m sd sm => Sys2Proof.Machine.execTagff m sd sm s
  | .tagcl m sm => Sys2Proof.Machine.execTagcl m sm s
  | .tst m mm sa => Sys2Proof.Machine.execTst m mm sa s
  | .tstk m mm sa => Sys2Proof.Machine.execTstk m mm sa s
  | .mma m => Sys2Proof.Machine.execMma m s
  | .mmac m => Sys2Proof.Machine.execMmac m s
  | .madd m a => Sys2Proof.Machine.execMadd m a s
  | .msub m a => Sys2Proof.Machine.execMsub m a s
  | .mmul m a => Sys2Proof.Machine.execMmul m a s
  | .mscal m a sf => Sys2Proof.Machine.execMscal m a sf s
  | .mcvt m a fmt scl => Sys2Proof.Machine.execMcvt m a fmt scl s
  | .mtrn m => Sys2Proof.Machine.execMtrn m s
  | .mzero m fmt sx acci => Sys2Proof.Machine.execMzero m fmt sx acci s
  | .mhdr m su => Sys2Proof.Machine.execMhdr m su s
  | .mspar m spn => Sys2Proof.Machine.execMspar m spn s
  | .mrsum m => Sys2Proof.Machine.execMrsum m s
  | .mchk m => Sys2Proof.Machine.execMchk m s
  | .lacq m => Sys2Proof.Machine.execLacq m s
  | .lrel m => Sys2Proof.Machine.execLrel m s
  | .tbeg m fmt sx => Sys2Proof.Machine.execTbeg m fmt sx s
  | .trow m a va ty => Sys2Proof.Machine.execTrow m a va ty s
  | .tend m => Sys2Proof.Machine.execTend m s
  | .trv m a vd sr sc ty => Sys2Proof.Machine.execTrv m a vd sr sc ty s
  | .tcv m a vd sc ty => Sys2Proof.Machine.execTcv m a vd sc ty s
  | .dispatchResume n => Sys2Proof.Machine.execDispatchResume n s
  | .engineInstructionStart n q => Sys2Proof.Machine.execEngineInstructionStart n q s
  | .engineInstructionComplete n q seq portion => Sys2Proof.Machine.execEngineInstructionComplete n q seq portion s
  | .pendingWriteLand n => Sys2Proof.Machine.execPendingWriteLand n s
  | .tileSink n id => Sys2Proof.Machine.execTileSink n id s
  | .tileRaise n id => Sys2Proof.Machine.execTileRaise n id s
  | .cpydBlockDecode n => Sys2Proof.Machine.execCpydBlockDecode n s
  | .bind n c => Sys2Proof.Machine.execBind n c s
  | .leave n c => Sys2Proof.Machine.execLeave n c s
  | .push n c => Sys2Proof.Machine.execPush n c s
  | .commit n c => Sys2Proof.Machine.execCommit n c s
  | .atom n c => Sys2Proof.Machine.execAtom n c s
  | .fill n line => Sys2Proof.Machine.execFill n line s
  | .drop n line => Sys2Proof.Machine.execDrop n line s
  | .evict pa => Sys2Proof.Machine.execEvict pa s
  | .fenceComplete n seq => Sys2Proof.Machine.execFenceComplete n seq s
  | .barComplete pod memb => Sys2Proof.Machine.execBarComplete pod memb s
  | .orderedEntryApply line => Sys2Proof.Machine.execOrderedEntryApply line s
  | .logRecordWrite p k => Sys2Proof.Machine.execLogRecordWrite p k s
  | .launchStart p => Sys2Proof.Machine.execLaunchStart p s
  | .unitHandOut p slot die => Sys2Proof.Machine.execUnitHandOut p slot die s
  | .coverCursorVisit p slot => Sys2Proof.Machine.execCoverCursorVisit p slot s
  | .iterationSkip p slot ordinal => Sys2Proof.Machine.execIterationSkip p slot ordinal s
  | .launchDone p slot => Sys2Proof.Machine.execLaunchDone p slot s
  | .preemptEvaluate p => Sys2Proof.Machine.execPreemptEvaluate p s
  | .drain n => Sys2Proof.Machine.execDrain n s
  | .checkpointStop n => Sys2Proof.Machine.execCheckpointStop n s
  | .kill p slot => Sys2Proof.Machine.execKill p slot s
  | .preemptStopTimeout p => Sys2Proof.Machine.execPreemptStopTimeout p s
  | .launchResume p => Sys2Proof.Machine.execLaunchResume p s
  | .leaseGrant pod => Sys2Proof.Machine.execLeaseGrant pod s
  | .leaseRunEnd pod => Sys2Proof.Machine.execLeaseRunEnd pod s
  | .leaseIdleSurrender pod => Sys2Proof.Machine.execLeaseIdleSurrender pod s
  | .requestAged n q => Sys2Proof.Machine.execRequestAged n q s
  | .engineArbitrate pod e num => Sys2Proof.Machine.execEngineArbitrate pod e num s
  | .trapEntry n => Sys2Proof.Machine.execTrapEntry n s
  | .asyncTrapDeliver n => Sys2Proof.Machine.execAsyncTrapDeliver n s
  | .lateErrorReread n k correct => Sys2Proof.Machine.execLateErrorReread n k correct s
  | .switchOut n => Sys2Proof.Machine.execSwitchOut n s
  | .restore n ctx record => Sys2Proof.Machine.execRestore n ctx record s
  | .worldSwitch p => Sys2Proof.Machine.execWorldSwitch p s
  | .pageWalk n engine va => Sys2Proof.Machine.execPageWalk n engine va s
  | .partitionPrepare c image => Sys2Proof.Machine.execPartitionPrepare c image s
  | .partitionCommit c => Sys2Proof.Machine.execPartitionCommit c s
  | .vfBind c vf part node sliceUs => Sys2Proof.Machine.execVfBind c vf part node sliceUs s
  | .pageGrant c frame count part => Sys2Proof.Machine.execPageGrant c frame count part s
  | .dedupJoin c a b => Sys2Proof.Machine.execDedupJoin c a b s
  | .errinj c kind target flags => Sys2Proof.Machine.execErrinj c kind target flags s
  | .counterPolicy c v => Sys2Proof.Machine.execCounterPolicy c v s
  | .fwUpdate c image => Sys2Proof.Machine.execFwUpdate c image s
  | .contextCreate c area ptroot htbase htlen sup service expt => Sys2Proof.Machine.execContextCreate c area ptroot htbase htlen sup service expt s
  | .contextDestroy c ctx => Sys2Proof.Machine.execContextDestroy c ctx s
  | .loadCode c ctx addr place => Sys2Proof.Machine.execLoadCode c ctx addr place s
  | .start c ctx addr => Sys2Proof.Machine.execStart c ctx addr s
  | .stop c ctx => Sys2Proof.Machine.execStop c ctx s
  | .resume c ctx => Sys2Proof.Machine.execResume c ctx s
  | .tlbInval c ctx va len => Sys2Proof.Machine.execTlbInval c ctx va len s
  | .collGroup c entry addr => Sys2Proof.Machine.execCollGroup c entry addr s
  | .logConfig c w1 w2 w3 w4 w5 w6 w7 => Sys2Proof.Machine.execLogConfig c w1 w2 w3 w4 w5 w6 w7 s
  | .attest c nonce quote ctx => Sys2Proof.Machine.execAttest c nonce quote ctx s
  | .hostAccessMessage node tenant offset op => Sys2Proof.Machine.execHostAccessMessage node tenant offset op s
  | .bulkAccess node tenant offset data => Sys2Proof.Machine.execBulkAccess node tenant offset data s
  | .rdv node group tenant sequence src => Sys2Proof.Machine.execRdv node group tenant sequence src s
  | .abort node group tenant sequence => Sys2Proof.Machine.execAbort node group tenant sequence s
  | .rendezvousLimitExpiry n seq => Sys2Proof.Machine.execRendezvousLimitExpiry n seq s
  | .rendezvousSwitchTimeout n => Sys2Proof.Machine.execRendezvousSwitchTimeout n s
  | .partialWriteIndirectionFetch n c bad => Sys2Proof.Machine.execPartialWriteIndirectionFetch n c bad s
  | .replayDecision p => Sys2Proof.Machine.execReplayDecision p s
  | .replayWindowExpiry p n => Sys2Proof.Machine.execReplayWindowExpiry p n s
  | .counterWrap p n c => Sys2Proof.Machine.execCounterWrap p n c s
  | .counterRefresh p => Sys2Proof.Machine.execCounterRefresh p s
  | .patrolScrub die pa => Sys2Proof.Machine.execPatrolScrub die pa s
  | .scDataError pa => Sys2Proof.Machine.execScDataError pa s
  | .scTagError die set way => Sys2Proof.Machine.execScTagError die set way s
  | .pgpois v => Sys2Proof.Machine.execPgpois v s
  | .scquar v => Sys2Proof.Machine.execScquar v s
  | .ctxterm v => Sys2Proof.Machine.execCtxterm v s
  | .sceinfoRelease v => Sys2Proof.Machine.execSceinfoRelease v s
  | .tileStoreError n id => Sys2Proof.Machine.execTileStoreError n id s
  | .podClockLower island => Sys2Proof.Machine.execPodClockLower island s
  | .coldRstN => Sys2Proof.Machine.execColdRstN s
  | .warmRstN => Sys2Proof.Machine.execWarmRstN s
  | .warmStartTimeout => Sys2Proof.Machine.execWarmStartTimeout s
  | .watchdogReset => Sys2Proof.Machine.execWatchdogReset s
  | .linkLevelRetry port => Sys2Proof.Machine.execLinkLevelRetry port s
  | .fabricAccessMessage node tenant offset op => Sys2Proof.Machine.execFabricAccessMessage node tenant offset op s
  | .switchOutStopTimeout p => Sys2Proof.Machine.execSwitchOutStopTimeout p s
  | .debugStop n => Sys2Proof.Machine.execDebugStop n s
  | .sample n => Sys2Proof.Machine.execSample n s
  | .traceRecord n => Sys2Proof.Machine.execTraceRecord n s
  | .commandOtherCode c code => Sys2Proof.Machine.execCommandOtherCode c code s

end Sys2Proof.Machine
end

