-- ==== Sys2Proof/Machine/Step.lean ====
section
/-! DEFINITION. One step of the package: whose turn it is, and what a strand's turn or a step of the device does. -/

namespace Sys2Proof.Machine

/-- The model's clock moves: a tick, and the nanoseconds of GTS it takes. -/
def State.tick (s : State) : State := { s with ticks := s.ticks + 1, gts := s.gts + Config.elapsed s.ticks }

/-- The move that comes next: the head of the agenda, else the free choice of R246 (log entry 1, DESIGN CHOICE, safe). -/
def State.nextTurn (s : State) : Turn :=
  match s.agenda with
  | t :: _ => t
  | [] => Config.turn s.ticks

/-- The state in which a move is made: the agenda has lost its head and the clock has moved. -/
def State.beginStep (s : State) : State := State.tick { s with agenda := s.agenda.tail }

/-- The state in which a fetched instruction executes. -/
def State.withLatch (s : State) (n : StrandId) (next : Word) : State := { s with cur := ⟨n, next⟩ }

/-- A row of the table that is a step of the device and no instruction of R113 to R115. -/
def isDeviceStep (i : Instr) : Bool := (encode i).isEmpty

/-- A strand's turn: its next instruction dispatches, an empty slot passes, a trap is raised, or nothing can dispatch: a fetch waits for a line, and
finds its error. -/
def strandTurn (n : StrandId) (s : State) : Host.Outcome State Fault Refusal :=
  match s.nextOf n with
  | .hold =>
    match s.heldForAsync n with
    | some (i, next) => .next (s.syncFirst n (exec i (s.withLatch n next)))
    | none => .next s
  | .empty next => .next (s.modStrand n (fun t => t.setPc next))
  | .trap t pc => .next (s.raise n t pc)
  | .run i next => exec i (s.withLatch n next)
  | .due pa => .next (s.visitLine ((s.strand n).ctx.getD 0) pa)

def step (s : State) : Host.Outcome State Fault Refusal :=
  match s.nextTurn with
  | .strand n => strandTurn n s.beginStep
  | .event i =>
    if !isDeviceStep i then .refused .notAnEvent
    else match s.beginStep.romWrite i with
      | some u => exec i u
      | none => .next s.beginStep

/-! ### Placing an instruction where the next step fetches it -/

/-- The context, the tables and the page that `withFetchWord` fetches through: virtual address 0 lies at 0x4000_0000, in a
page of 1 GiB that may be read, written and executed. -/
def fetchCtx : Ctx :=
  { (default : Ctx) with
    num := 1, live := true, ptroot := 0x1000, tdeleg := 0,
    aploc := 0xFFFF000000000000, appod := 0xFFFE000000000000, apfab := 0xFFFD000000000000,
    dict := List.replicate 1024 0 }

/-- A page-table pointer to a table (R336). -/
def tableEntry (pa : Nat) : List Byte := leBytes 8 (pa + 1)

/-- A leaf with read, write and execute permission (R336). -/
def leafEntry (pa : Nat) : List Byte := leBytes 8 (pa + 0x1F)

/-- The bytes of an instruction and of its page tables in memory. -/
def fetchMemory (mem : List Host.Cell) (nbits w : Nat) : List Host.Cell :=
  Memory.writeN (Memory.writeN (Memory.writeN (Memory.writeN mem 0x1000 (tableEntry 0x2000)) 0x2000 (tableEntry 0x3000))
    0x3000 (leafEntry 0x40000000)) 0x40000000 (leBytes 16 (w % 2 ^ nbits))

/-- Strand 0, in partition 0 with every engine of its Pod, about to fetch at virtual address 0.
(Log entry 11, DESIGN CHOICE, safe.) -/
def State.withFetchWord (s : State) (nbits w : Nat) : State :=
  { s with
    agenda := [.strand 0],
    mem := fetchMemory s.mem nbits w,
    ctxs := [fetchCtx],
    strands := s.strands.set 0 { s.strand 0 with run := .running, ctx := some 1, pc := 0, slot0 := false, fault := none },
    mgmt := { s.mgmt with
      owners := [⟨0, 32768, 0, some 1⟩],
      layout := { s.mgmt.layout with
        cores := s.mgmt.layout.cores.set 0 0,
        mats := s.mgmt.layout.mats.set 0 0,
        loads := s.mgmt.layout.loads.set 0 0,
        stores := s.mgmt.layout.stores.set 0 0,
        copies := s.mgmt.layout.copies.set 0 0 } } }

end Sys2Proof.Machine
end

