-- ==== Sys2Proof/Safety.lean ====
section
/-! DEFINITION. What counts as a safe run: every step answers a next state. With it, the terms in which the claims are made: who
acts, when an instruction may dispatch, and what an instruction leaves as it was. -/

namespace Sys2Proof.Safety

open Sys2Proof.Machine

/-- A state from which the next step goes on. -/
def StepsOn (s : State) : Prop := ∃ t, step s = .next t

/-- A state that `k` steps lead to. -/
inductive Reaches : Nat → State → State → Prop where
  | here (s : State) : Reaches 0 s s
  | onward {k : Nat} {s t u : State} : step s = .next t → Reaches k t u → Reaches (k + 1) s u

/-- A run that no fault and no refusal ends within `k` steps. -/
def SafeFor (k : Nat) (s : State) : Prop := ∀ j u, j < k → Reaches j s u → StepsOn u

/-! ### Who acts, and when -/

/-- The strand whose instruction executes. -/
abbrev me (s : State) : StrandId := s.cur.strand

/-- That strand's registers and control state. -/
abbrev mine (s : State) : Strand := s.strand s.cur.strand

/-- The state of `s`'s acting strand in a later state `t`. -/
abbrev after (s t : State) : Strand := t.strand s.cur.strand

/-- The control core has waited out the instruction's spacing, both guards hold, and no register the instruction names waits for a
load's data (R97, R100, R221). -/
structure Dispatches (m : Mods) (uses : List SReg) (s : State) : Prop where
  spaced : (mine s).spaced 0 m = true
  guards : (mine s).holds m = true
  loaded : ∀ r ∈ uses, (mine s).busy r = false

/-- Every older instruction of the strand has passed its last fault point (R92, R119). -/
def Settled (s : State) : Prop := (mine s).passedBefore (mine s).nseq = true

/-! ### What stays as it was -/

/-- Every byte of memory reads, in every strand's view, as before. -/
def SameBytes (s t : State) : Prop := ∀ n l, t.viewByte n l = s.viewByte n l

/-- Nothing but the acting strand has changed (and the list of counters that have wrapped). -/
structure OnlyMe (s t : State) : Prop where
  others : ∀ n, n ≠ me s → t.strand n = s.strand n
  rest : t = { s with strands := t.strands, mgmt := { s.mgmt with wraps := t.mgmt.wraps } }
  bytes : SameBytes s t

/-- No strand but the acting one has changed, and no byte of memory. -/
structure Elsewhere (s t : State) : Prop where
  others : ∀ n, n ≠ me s → t.strand n = s.strand n
  bytes : SameBytes s t

/-- The scalar registers and the predicates are as before. -/
structure SameScalars (a b : Strand) : Prop where
  scalars : b.s = a.s
  predicates : b.p = a.p

/-- The vector registers, the masks, what waits to land in them, and VSTAT are as before. -/
structure SameVectors (a b : Strand) : Prop where
  vectors : b.v = a.v
  masks : b.k = a.k
  pending : b.pend = a.pend
  flags : b.vstat = a.vstat

/-- The tiles, the reference image and its floor, the queues, the tokens and TAGS are as before. -/
structure SameTiles (a b : Strand) : Prop where
  image : b.image = a.image
  floor : b.tfloor = a.tfloor
  tiles : b.tiles = a.tiles
  queues : b.queues = a.queues
  tokens : b.tokens = a.tokens
  tags : b.tags = a.tags

/-- The level, TLOCK, the trap registers and the registers an SWR writes for the strand are as before. -/
structure SameControl (a b : Strand) : Prop where
  level : b.level = a.level
  lock : b.tlock = a.tlock
  traps : b.traps = a.traps
  limits : b.stklim = a.stklim ∧ b.tsquota = a.tsquota ∧ b.stkbase = a.stkbase
  role : b.role = a.role ∧ b.leasectl = a.leasectl
  pool : b.qmin = a.qmin ∧ b.qcap = a.qcap

/-- The indices, the extents and the iteration are as before. -/
structure SameIteration (a b : Strand) : Prop where
  idx : b.idx = a.idx
  ext : b.ext = a.ext
  ordinal : b.ordinal = a.ordinal

/-- The log takes one more record, or is not enabled (R358, R359). -/
def HasRoom (r : LogRegs) : Prop := r.en = true → r.full = false ∧ r.ptr.toNat + 32 ≤ r.lim

/-- The scheduler log of the acting strand's partition takes a record, and no replay is under way (R359, R365). -/
structure SchedFree (s : State) : Prop where
  room : HasRoom (s.part (s.tagOf (me s))).sched
  norpl : (s.part (s.tagOf (me s))).sched.rpl = false

/-- The memory-order log of the acting strand's partition takes a record, and no replay is under way. -/
structure MoFree (s : State) : Prop where
  room : HasRoom (s.part (s.tagOf (me s))).mo
  norpl : (s.part (s.tagOf (me s))).mo.rpl = false

/-- Every scalar register but `r` keeps its value; s0 always does. -/
def ScalarsBut (r : SReg) (a b : Strand) : Prop := ∀ x, x ≠ r → b.getS x = a.getS x

/-- Every predicate but `r` keeps its value; p0 always does. -/
def PredicatesBut (r : PReg) (a b : Strand) : Prop := ∀ x, x ≠ r → b.getP x = a.getP x

/-- A strand after an instruction of its control core: INSTR has counted it (R372), the core's spacing counts from it (R100), and
beside the scalar registers, the predicates, the program counter and the last safe point nothing is different. -/
structure Counted (a b : Strand) : Prop where
  instr : b.counters[0] = a.counters[0] + 1
  counters : ∀ c : Fin 9, c ≠ 0 → b.counters[c.val] = a.counters[c.val]
  rest : b = { a with
    s := b.s, p := b.p, pc := b.pc, slot0 := false, safeChecked := false, waiting := false, spo := b.spo,
    counters := b.counters, views := b.views, gaps := a.gaps.set 0 0 }

/-- An instruction of the acting strand that takes one cycle, touches scalar registers and predicates alone, and goes on at
`pc`. -/
structure Takes (s t : State) (pc : Word) : Prop where
  only : OnlyMe s t
  counted : Counted (mine s) (after s t)
  next : (after s t).pc = pc

/-! ### The canonical form of memory -/

/-- Every memory that the state lists in cells is in its canonical form: HBM and second tier, what this package has written to
other packages, the Pods' scratches and the contexts' core-local memories. -/
structure Canonical (s : State) : Prop where
  mem : Memory.wf s.mem = true
  remote : Memory.wf s.remote = true
  scratch : ∀ p, Memory.wf (s.pod p).scratch = true
  locals : ∀ c ∈ s.ctxs, ∀ l ∈ c.locals, Memory.wf l.2 = true

end Sys2Proof.Safety
end

