-- ==== Sys2Proof/Certificates/Slice0/Obligations.lean ====
section
/-! DEFINITION. What is claimed of the model: statements for the provers, from the numbered rules of the spec. -/

namespace Sys2Proof.Claims

open Sys2Proof.Machine Sys2Proof.Safety

/-- R120, R121 and R128: the fields, the destination, the registers an instruction names, and what its destination gets. -/
def registerForm (t : Strand) : Instr → Option (Mods × SReg × List SReg × Word)
  | .add m d a b => some (m, d, [d, a, b], t.getS a + t.getS b)
  | .sub m d a b => some (m, d, [d, a, b], t.getS a - t.getS b)
  | .mul m d a b => some (m, d, [d, a, b], BitVec.ofNat 64 ((t.getS a).toNat * (t.getS b).toNat))
  | .mulh m d a b => some (m, d, [d, a, b], BitVec.ofInt 64 ((t.getS a).toInt * (t.getS b).toInt / 2 ^ 64))
  | .mulhu m d a b => some (m, d, [d, a, b], BitVec.ofNat 64 ((t.getS a).toNat * (t.getS b).toNat / 2 ^ 64))
  | .div m d a b => some (m, d, [d, a, b],
      if t.getS b = 0 then BitVec.ofInt 64 (-1) else BitVec.ofInt 64 ((t.getS a).toInt.tdiv (t.getS b).toInt))
  | .divu m d a b => some (m, d, [d, a, b],
      if t.getS b = 0 then BitVec.ofNat 64 (2 ^ 64 - 1) else BitVec.ofNat 64 ((t.getS a).toNat / (t.getS b).toNat))
  | .rem m d a b => some (m, d, [d, a, b],
      if t.getS b = 0 then t.getS a
      else BitVec.ofInt 64 ((t.getS a).toInt - (t.getS b).toInt * (t.getS a).toInt.tdiv (t.getS b).toInt))
  | .remu m d a b => some (m, d, [d, a, b],
      if t.getS b = 0 then t.getS a else BitVec.ofNat 64 ((t.getS a).toNat % (t.getS b).toNat))
  | .and m d a b => some (m, d, [d, a, b], t.getS a &&& t.getS b)
  | .or m d a b => some (m, d, [d, a, b], t.getS a ||| t.getS b)
  | .xor m d a b => some (m, d, [d, a, b], t.getS a ^^^ t.getS b)
  | .andn m d a b => some (m, d, [d, a, b], t.getS a &&& ~~~t.getS b)
  | .shl m d a b => some (m, d, [d, a, b], BitVec.ofNat 64 ((t.getS a).toNat * 2 ^ ((t.getS b).toNat % 64)))
  | .shr m d a b => some (m, d, [d, a, b], BitVec.ofNat 64 ((t.getS a).toNat / 2 ^ ((t.getS b).toNat % 64)))
  | .sar m d a b => some (m, d, [d, a, b], BitVec.ofInt 64 ((t.getS a).toInt / 2 ^ ((t.getS b).toNat % 64)))
  | .rol m d a b => some (m, d, [d, a, b], BitVec.ofNat 64
      ((t.getS a).toNat * 2 ^ ((t.getS b).toNat % 64) + (t.getS a).toNat / 2 ^ (64 - (t.getS b).toNat % 64)))
  | .ror m d a b => some (m, d, [d, a, b], BitVec.ofNat 64
      ((t.getS a).toNat / 2 ^ ((t.getS b).toNat % 64) + (t.getS a).toNat * 2 ^ (64 - (t.getS b).toNat % 64)))
  | .min m d a b => some (m, d, [d, a, b], if (t.getS a).toInt ≤ (t.getS b).toInt then t.getS a else t.getS b)
  | .max m d a b => some (m, d, [d, a, b], if (t.getS a).toInt ≤ (t.getS b).toInt then t.getS b else t.getS a)
  | .minu m d a b => some (m, d, [d, a, b], if (t.getS a).toNat ≤ (t.getS b).toNat then t.getS a else t.getS b)
  | .maxu m d a b => some (m, d, [d, a, b], if (t.getS a).toNat ≤ (t.getS b).toNat then t.getS b else t.getS a)
  | .lea m d a b sh => some (m, d, [d, a, b], BitVec.ofNat 64 ((t.getS a).toNat + (t.getS b).toNat * 2 ^ sh.toNat))
  | _ => none


/-- The field `w` bits wide at bit `pos` of a word. -/
def fieldAt (a : Word) (pos w : Nat) : Nat := a.toNat / 2 ^ pos % 2 ^ w

/-- R122 to R125, R127 (PGET), R129: the fields, the destination, the registers an instruction names, and what its destination
gets. -/
def immediateForm (c : Ctx) (t : Strand) : Instr → Option (Mods × SReg × List SReg × Word)
  | .clz m d a => some (m, d, [d, a],
      BitVec.ofNat 64 ((List.range 64).takeWhile (fun i => !(t.getS a).getLsbD (63 - i))).length)
  | .ctz m d a => some (m, d, [d, a], BitVec.ofNat 64 ((List.range 64).takeWhile (fun i => !(t.getS a).getLsbD i)).length)
  | .popc m d a => some (m, d, [d, a], BitVec.ofNat 64 ((List.range 64).filter (fun i => (t.getS a).getLsbD i)).length)
  | .addi m d a imm => some (m, d, [d, a], BitVec.ofInt 64 ((t.getS a).toInt + imm.toInt))
  | .andi m d a imm => some (m, d, [d, a], t.getS a &&& BitVec.ofInt 64 imm.toInt)
  | .ori m d a imm => some (m, d, [d, a], t.getS a ||| BitVec.ofInt 64 imm.toInt)
  | .xori m d a imm => some (m, d, [d, a], t.getS a ^^^ BitVec.ofInt 64 imm.toInt)
  | .shli m d a imm => some (m, d, [d, a], BitVec.ofNat 64 ((t.getS a).toNat * 2 ^ imm.toNat))
  | .shri m d a imm => some (m, d, [d, a], BitVec.ofNat 64 ((t.getS a).toNat / 2 ^ imm.toNat))
  | .sari m d a imm => some (m, d, [d, a], BitVec.ofInt 64 ((t.getS a).toInt / 2 ^ imm.toNat))
  | .bfx m d a pos w => some (m, d, [d, a],
      BitVec.ofInt 64 (Int.bmod (fieldAt (t.getS a) pos.toNat (w.toNat + 1)) (2 ^ (w.toNat + 1))))
  | .bfxu m d a pos w => some (m, d, [d, a], BitVec.ofNat 64 (fieldAt (t.getS a) pos.toNat (w.toNat + 1)))
  | .bfi m d a b pos w => some (m, d, [d, a, b], BitVec.ofNat 64
      ((t.getS a).toNat - fieldAt (t.getS a) pos.toNat (w.toNat + 1) * 2 ^ pos.toNat +
        fieldAt (t.getS b) 0 (w.toNat + 1) * 2 ^ pos.toNat))
  | .movi m d imm => some (m, d, [d], BitVec.ofInt 64 imm.toInt)
  | .movl m d lit => some (m, d, [d], lit)
  | .addl m d a lit => some (m, d, [d, a], t.getS a + lit)
  | .pget m d p => some (m, d, [d], if t.getP p then 1 else 0)
  | .apts m d a => some (m, d, [d, a],
      if c.aploc.toNat ≤ (t.getS a).toNat ∧ (t.getS a).toNat < c.aploc.toNat + 2 ^ 16 then 1
      else if c.appod.toNat ≤ (t.getS a).toNat ∧ (t.getS a).toNat < c.appod.toNat + 2 ^ 20 then 2
      else if c.apfab.toNat ≤ (t.getS a).toNat ∧ (t.getS a).toNat < c.apfab.toNat + 2 ^ 48 then 3 else 0)
  | _ => none

/-- R126 and R127: the fields, the destination, the registers an instruction names, and the truth its destination gets. -/
def predicateForm (t : Strand) : Instr → Option (Mods × PReg × List SReg × Prop)
  | .cmpeq m d a b => some (m, d, [a, b], (t.getS a).toNat = (t.getS b).toNat)
  | .cmpne m d a b => some (m, d, [a, b], (t.getS a).toNat ≠ (t.getS b).toNat)
  | .cmplt m d a b => some (m, d, [a, b], (t.getS a).toInt < (t.getS b).toInt)
  | .cmple m d a b => some (m, d, [a, b], (t.getS a).toInt ≤ (t.getS b).toInt)
  | .cmpltu m d a b => some (m, d, [a, b], (t.getS a).toNat < (t.getS b).toNat)
  | .cmpleu m d a b => some (m, d, [a, b], (t.getS a).toNat ≤ (t.getS b).toNat)
  | .cmpeqi m d a imm => some (m, d, [a], (t.getS a).toInt = imm.toInt)
  | .cmpnei m d a imm => some (m, d, [a], (t.getS a).toInt ≠ imm.toInt)
  | .cmplti m d a imm => some (m, d, [a], (t.getS a).toInt < imm.toInt)
  | .cmplei m d a imm => some (m, d, [a], (t.getS a).toInt ≤ imm.toInt)
  | .cmpltui m d a imm => some (m, d, [a], (t.getS a).toNat < (BitVec.ofInt 64 imm.toInt).toNat)
  | .cmpleui m d a imm => some (m, d, [a], (t.getS a).toNat ≤ (BitVec.ofInt 64 imm.toInt).toNat)
  | .pand m d p q => some (m, d, [], t.getP p = true ∧ t.getP q = true)
  | .por m d p q => some (m, d, [], t.getP p = true ∨ t.getP q = true)
  | .pxor m d p q => some (m, d, [], t.getP p ≠ t.getP q)
  | .pandn m d p q => some (m, d, [], t.getP p = true ∧ t.getP q = false)
  | .pset m d a => some (m, d, [a], (t.getS a).toNat ≠ 0)
  | _ => none

/-- The window that bits 2:1 of an APCV's selector name (R25, R130): its base and its size. -/
def apcvBase (c : Ctx) (f : BitVec 6) : Nat × Nat :=
  if f.toNat / 2 = 0 then (c.aploc.toNat, 2 ^ 16)
  else if f.toNat / 2 = 1 then (c.appod.toNat, 2 ^ 20) else (c.apfab.toNat, 2 ^ 48)

/-- What APCV computes, none where it raises BOUNDS (R130). -/
def apcvResult (c : Ctx) (f : BitVec 6) (a : Word) : Option Nat :=
  if f.toNat % 2 = 0 then (if (apcvBase c f).2 ≤ a.toNat then none else some ((apcvBase c f).1 + a.toNat))
  else if a.toNat < (apcvBase c f).1 ∨ (apcvBase c f).1 + (apcvBase c f).2 ≤ a.toNat then none
  else some (a.toNat - (apcvBase c f).1)

/-- The value that HGET gives for selector `sel` from a slot's thirty-two words (R132, R342). -/
def shapeField (w : List Nat) (sel : Nat) : Nat :=
  if sel = 0 then w.getD 0 0
  else if sel = 1 then w.getD 1 0 / 2 ^ 32 % 8
  else if sel ≤ 7 then (if sel - 2 < w.getD 1 0 / 2 ^ 32 % 8 then w.getD sel 0 else 1)
  else if sel ≤ 13 then (if sel - 8 < w.getD 1 0 / 2 ^ 32 % 8 then w.getD sel 0 else 0)
  else if sel = 14 then w.getD 14 0 / 2 ^ 40 % 256 + w.getD 14 0 / 2 ^ 31 % 512 * 65536
  else w.getD 14 0 - w.getD 14 0 % 65536

/-- R133: a branch's fields, the registers it names, its target, and what lr gets. -/
def branchForm (t : Strand) (next : Word) : Instr → Option (Mods × List SReg × Word × Option Word)
  | .br m off => some (m, [], BitVec.ofInt 64 (t.pc.toInt + 2 * off.toInt), none)
  | .call m off => some (m, [62], BitVec.ofInt 64 (t.pc.toInt + 2 * off.toInt), some next)
  | .jmp m a => some (m, [a], t.getS a, none)
  | .callr m a => some (m, [a, 62], t.getS a, some next)
  | .ret m => some (m, [62], t.getS 62, none)
  | .brl m lit => some (m, [], lit, none)
  | .calll m lit => some (m, [62], lit, some next)
  | _ => none

/-- A branch whose target is relative to the program counter. -/
def isRelative : Instr → Bool
  | .br _ _ | .call _ _ => true
  | _ => false

/-- A scalar is written, or none is: s0 reads 0 whatever is written. -/
def Writes (d : Option (SReg × Word)) (a b : Strand) : Prop :=
  ∀ r, b.getS r = (match d with
    | some (x, v) => if r = x ∧ x ≠ 0 then v else a.getS r
    | none => a.getS r)

/-- A control instruction's word with no guard, no token, no STOP and no spacing, by the ruler of R95 and R105: OP in bits 61:52,
FA in 29:24, FB in 23:18, and FC, FD and FE, or an immediate in their place, in the bits below. -/
def controlWord (op fa fb low : Nat) : List Word := [BitVec.ofNat 64 (op * 2 ^ 52 + fa * 2 ^ 24 + fb * 2 ^ 18 + low)]

/-- No guard, no token, no STOP and no spacing. -/
def plainMods : Mods := ⟨⟨false, 0⟩, ⟨false, 0⟩, false, 0, 0⟩

/-- The instruction raises a trap at its own address: the state in which it is raised is the one that has counted it, and the
trap's course is `State.raise` (R321). -/
def Raises (i : Instr) (s : State) (m : Mods) (tr : TrapInfo) : Prop :=
  exec i s = .next ((s.dispatched (me s) m).raise (me s) tr (mine s).pc)

end Sys2Proof.Claims

open Sys2Proof Sys2Proof.Machine Sys2Proof.Safety Sys2Proof.Claims

/-- R120, R121, R128: a register form whose guards hold writes its result in one step of the model, whatever number of cycles R118's
table has dispatch held for it (log entry 13, DESIGN CHOICE, the model's choice); a write to s0 is discarded, and nothing else changes.
LEA has OP 0x058 and layout H. -/
def Obligations.RegisterFormsWriteTheirResult : Prop :=
  (∀ (i : Instr) (s : State) (m : Mods) (d : SReg) (uses : List SReg) (x : Word),
    registerForm (mine s) i = some (m, d, uses, x) → Dispatches m uses s →
    ∃ t, exec i s = .next t ∧ Takes s t s.cur.next ∧ (after s t).getS d = (if d = 0 then 0 else x) ∧
      ScalarsBut d (mine s) (after s t) ∧ (after s t).p = (mine s).p) ∧
  ∀ (d a b : SReg) (sh : BitVec 6),
    encode (.lea plainMods d a b sh) = controlWord 0x058 d.val a.val (b.val * 2 ^ 12 + sh.toNat * 2 ^ 6)

/-- R118, R122 to R125, R127, R129: a count, an immediate form, a bitfield, a constant, PGET or APTS writes its result in one step,
and nothing else changes. CLZ, CTZ, POPC and APTS have OP 0x018, 0x019, 0x01A and 0x05B and layout U. -/
def Obligations.ImmediateFormsWriteTheirResult : Prop :=
  (∀ (i : Instr) (s : State) (m : Mods) (d : SReg) (uses : List SReg) (x : Word),
    WellFormed i → immediateForm (s.curCtx (me s)) (mine s) i = some (m, d, uses, x) → Dispatches m uses s →
    ∃ t, exec i s = .next t ∧ Takes s t s.cur.next ∧ (after s t).getS d = (if d = 0 then 0 else x) ∧
      ScalarsBut d (mine s) (after s t) ∧ (after s t).p = (mine s).p) ∧
  ∀ (d a : SReg),
    encode (.clz plainMods d a) = controlWord 0x018 d.val a.val 0 ∧ encode (.ctz plainMods d a) = controlWord 0x019 d.val a.val 0 ∧
    encode (.popc plainMods d a) = controlWord 0x01A d.val a.val 0 ∧ encode (.apts plainMods d a) = controlWord 0x05B d.val a.val 0

/-- R118, R126, R127: a compare or a predicate instruction writes the truth of its relation, and nothing else changes; a write to
p0 is discarded. The compares have the OPs of R126 and layouts P and Q. -/
def Obligations.PredicateFormsWriteTheirTruth : Prop :=
  (∀ (i : Instr) (s : State) (m : Mods) (d : PReg) (uses : List SReg) (x : Prop),
    predicateForm (mine s) i = some (m, d, uses, x) → Dispatches m uses s →
    ∃ t, exec i s = .next t ∧ Takes s t s.cur.next ∧ ((after s t).getP d = true ↔ d = 0 ∨ x) ∧
      PredicatesBut d (mine s) (after s t) ∧ (after s t).s = (mine s).s) ∧
  (∀ (d : PReg) (a b : SReg),
    encode (.cmpeq plainMods d a b) = controlWord 0x040 d.val a.val (b.val * 2 ^ 12) ∧
    encode (.cmpne plainMods d a b) = controlWord 0x041 d.val a.val (b.val * 2 ^ 12) ∧
    encode (.cmplt plainMods d a b) = controlWord 0x042 d.val a.val (b.val * 2 ^ 12) ∧
    encode (.cmple plainMods d a b) = controlWord 0x043 d.val a.val (b.val * 2 ^ 12) ∧
    encode (.cmpltu plainMods d a b) = controlWord 0x044 d.val a.val (b.val * 2 ^ 12) ∧
    encode (.cmpleu plainMods d a b) = controlWord 0x045 d.val a.val (b.val * 2 ^ 12)) ∧
  ∀ (d : PReg) (a : SReg) (imm : BitVec 12),
    encode (.cmpeqi plainMods d a imm) = controlWord 0x048 d.val a.val imm.toNat ∧
    encode (.cmpnei plainMods d a imm) = controlWord 0x049 d.val a.val imm.toNat ∧
    encode (.cmplti plainMods d a imm) = controlWord 0x04A d.val a.val imm.toNat ∧
    encode (.cmplei plainMods d a imm) = controlWord 0x04B d.val a.val imm.toNat ∧
    encode (.cmpltui plainMods d a imm) = controlWord 0x04C d.val a.val imm.toNat ∧
    encode (.cmpleui plainMods d a imm) = controlWord 0x04D d.val a.val imm.toNat

/-- R130: APCV converts within the selected window, or raises BOUNDS with TADDR the operand. -/
def Obligations.ApcvConvertsOrRaisesBounds : Prop :=
  ∀ (s : State) (m : Mods) (d a : SReg) (f : BitVec 6),
    WellFormed (.apcv m d a f) → Dispatches m [d, a] s →
    match apcvResult (s.curCtx (me s)) f ((mine s).getS a) with
    | some x => ∃ t, exec (.apcv m d a f) s = .next t ∧ Takes s t s.cur.next ∧
        Writes (some (d, BitVec.ofNat 64 x)) (mine s) (after s t) ∧ (after s t).p = (mine s).p
    | none => Raises (.apcv m d a f) s m ⟨0x22, (mine s).getS a, 0⟩

/-- R131, R132: HGET of a current handle writes the selected field of the slot's record, which it reads as 8-byte loads through
the context's tables; a slot beyond the table raises BOUNDS, any other handle that is not current HANDLE_STALE. HCHK answers
whether its handle is current, and never faults. Both wait while the loads wait for a line or for an older access that stands before
them; what a wait for a line does is `State.visitLine`. -/
def Obligations.HandlesReadTheShapeRecord : Prop :=
  (∀ (s : State) (m : Mods) (d a : SReg) (sel : BitVec 6),
    sel.toNat ≤ 15 → Dispatches m [d, a] s → (mine s).class0Clear = true →
    ((s.curCtx (me s)).htlen ≤ ((mine s).getS a).toNat / 4096 % 2 ^ 20 →
      Raises (.hget m d a sel) s m ⟨0x22, (mine s).getS a, 0⟩) ∧
    ∀ w s', ((mine s).getS a).toNat / 4096 % 2 ^ 20 < (s.curCtx (me s)).htlen →
      (s.dispatched (me s) m).loadWords (me s)
        ((s.curCtx (me s)).htbase + BitVec.ofNat 64 (256 * (((mine s).getS a).toNat / 4096 % 2 ^ 20))) 32 = .ok (w, s') →
      (Shape.current w ((mine s).getS a) = true →
        ∃ t, exec (.hget m d a sel) s = .next t ∧
          Writes (some (d, BitVec.ofNat 64 (shapeField w sel.toNat))) (mine s) (after s t) ∧
          (after s t).pc = s.cur.next ∧ (after s t).p = (mine s).p ∧ ∀ n, n ≠ me s → t.strand n = s.strand n) ∧
      (Shape.current w ((mine s).getS a) = false → Raises (.hget m d a sel) s m ⟨0x23, (mine s).getS a, 0⟩)) ∧
  (∀ (s : State) (m : Mods) (d a : SReg) (sel : BitVec 6) (e : TrapInfo),
    sel.toNat ≤ 15 → Dispatches m [d, a] s → (mine s).class0Clear = true →
    ((mine s).getS a).toNat / 4096 % 2 ^ 20 < (s.curCtx (me s)).htlen →
    (s.dispatched (me s) m).loadWords (me s)
      ((s.curCtx (me s)).htbase + BitVec.ofNat 64 (256 * (((mine s).getS a).toNat / 4096 % 2 ^ 20))) 32 = .error e → e.cause = cHeld →
    exec (.hget m d a sel) s = .next (s.visitLine ((mine s).ctx.getD 0) e.addr.toNat)) ∧
  ∀ (s : State) (m : Mods) (d : PReg) (a : SReg) (r : Except TrapInfo (List Nat × State)),
    Dispatches m [a] s → (mine s).class0Clear = true →
    r = (s.dispatched (me s) m).loadWords (me s)
      ((s.curCtx (me s)).htbase + BitVec.ofNat 64 (256 * (((mine s).getS a).toNat / 4096 % 2 ^ 20))) 32 →
    (((mine s).getS a).toNat / 4096 % 2 ^ 20 < (s.curCtx (me s)).htlen → ∀ e, r = .error e → e.cause = cHeld →
      exec (.hchk m d a) s = .next (s.visitLine ((mine s).ctx.getD 0) e.addr.toNat)) ∧
    ((((mine s).getS a).toNat / 4096 % 2 ^ 20 < (s.curCtx (me s)).htlen → ∀ e, r = .error e → e.cause ≠ cHeld) →
    ∃ t, exec (.hchk m d a) s = .next t ∧ (after s t).pc = s.cur.next ∧ (after s t).s = (mine s).s ∧
      (after s t).level = (mine s).level ∧ PredicatesBut d (mine s) (after s t) ∧
      ((s.curCtx (me s)).htlen ≤ ((mine s).getS a).toNat / 4096 % 2 ^ 20 → ((after s t).getP d = true ↔ d = 0)) ∧
      ∀ w s', ((mine s).getS a).toNat / 4096 % 2 ^ 20 < (s.curCtx (me s)).htlen → r = .ok (w, s') →
        ((after s t).getP d = true ↔ d = 0 ∨ Shape.current w ((mine s).getS a) = true))

/-- R133: a branch goes to its target and, where it calls, puts next in lr, and nothing else changes; a register or literal
target with bit 0 set raises ALIGN at the branch, with TADDR holding the target. -/
def Obligations.BranchesGoToTheirTarget : Prop :=
  ∀ (i : Instr) (s : State) (m : Mods) (uses : List SReg) (x : Word) (link : Option Word),
    branchForm (mine s) s.cur.next i = some (m, uses, x, link) → Dispatches m uses s →
    ((isRelative i = true ∨ x.getLsbD 0 = false) →
      ∃ t, exec i s = .next t ∧ Takes s t x ∧ Writes (link.map (fun v => (62, v))) (mine s) (after s t) ∧
        (after s t).p = (mine s).p) ∧
    (isRelative i = false → x.getLsbD 0 = true → Raises i s m ⟨0x24, x, 0⟩)

/-- R134: LOOPP begins the loop or skips its body and its ENDL; ENDL counts down and branches to la while two or more
iterations are left, an odd la raising ALIGN there, and falls through otherwise, no drain being asked for. -/
def Obligations.LoopsBeginAndCountDown : Prop :=
  (∀ (s : State) (m : Mods) (a : SReg) (idx : BitVec 6) (off : BitVec 12),
    Dispatches m [a, 60, 61] s →
    ∃ t, exec (.loopp m a idx off) s = .next t ∧
      (after s t).getS 60 = s.cur.next ∧ (∀ r, r ≠ 60 → r ≠ 61 → (after s t).getS r = (mine s).getS r) ∧
      (after s t).p = (mine s).p ∧
      (if ((mine s).getS a).toNat % 2 ^ 48 = 0 then
        Takes s t (BitVec.ofInt 64 ((mine s).pc.toInt + 2 * off.toInt + 8)) ∧ (after s t).getS 61 = 0
      else Takes s t s.cur.next ∧
        (after s t).getS 61 = BitVec.ofNat 64 (idx.toNat * 2 ^ 58 + ((mine s).getS a).toNat % 2 ^ 48))) ∧
  ∀ (s : State) (m : Mods),
    Dispatches m [60, 61] s → (mine s).stop ≠ .drain →
    (2 ≤ ((mine s).getS 61).toNat % 2 ^ 48 → ((mine s).getS 60).getLsbD 0 = true →
      Raises (.endl m) s m ⟨0x24, (mine s).getS 60, 0⟩) ∧
    ((2 ≤ ((mine s).getS 61).toNat % 2 ^ 48 → ((mine s).getS 60).getLsbD 0 = false) →
      ∃ t, exec (.endl m) s = .next t ∧ (∀ r, r ≠ 61 → (after s t).getS r = (mine s).getS r) ∧ (after s t).p = (mine s).p ∧
        (if 2 ≤ ((mine s).getS 61).toNat % 2 ^ 48 then
          Takes s t ((mine s).getS 60) ∧ (after s t).getS 61 = (mine s).getS 61 - 1
        else Takes s t s.cur.next ∧ (after s t).getS 61 = 0))

/-! ### The walker and launches -/

namespace Sys2Proof.Claims

/-- R18, R19, R21: the strand stands at the kernel entry of an iteration, with its indices and extents. -/
structure Enters (l : Launch) (o : Nat) (a b : Strand) : Prop where
  entry : b.pc = l.entry
  ordinal : b.ordinal = o
  running : b.fell = false
  idx : ∀ k : Fin 6, b.idx[k.val] = word (l.index o k.val)
  ext : ∀ k : Fin 6, b.ext[k.val] = word (l.extent k.val)
  scalars : SameScalars a b
  vectors : SameVectors a b
  tiles : SameTiles a b
  control : SameControl a b

/-- A NEXT that has fallen through (R21): the strand goes on after it, its indices and extents as they were. -/
structure FallsThrough (next : Word) (a b : Strand) : Prop where
  pc : b.pc = next
  fell : b.fell = true
  iteration : SameIteration a b
  scalars : SameScalars a b
  vectors : SameVectors a b
  tiles : SameTiles a b
  control : SameControl a b

/-- NEXT dispatches at level 0, and its record finds room. -/
structure NextRuns (m : Mods) (s : State) : Prop where
  dispatches : Dispatches m [] s
  settled : Settled s
  base : (mine s).level = 0
  noCmo : (mine s).cmoWaits = false
  log : SchedFree s

/-- The registers and the mode that a trap's handler at level `L` finds (R319 to R322): the trap's report in the level's set,
the level and TLOCK set, the pending vector writes held, and the program counter at the entry. -/
structure InHandler (c : Ctx) (code : Word) (L : Nat) (tr : TrapInfo) (pc : Word) (a b : Strand) : Prop where
  level : b.level.val = L
  lock : b.tlock = true
  tpc : (b.traps.toList.getD (L - 1) TrapRegs.zero).pc = pc - BitVec.ofNat 64 (pc.toNat % 2)
  tcause : (b.traps.toList.getD (L - 1) TrapRegs.zero).cause = BitVec.ofNat 64 (256 * a.level.val + tr.cause.toNat)
  taddr : (b.traps.toList.getD (L - 1) TrapRegs.zero).addr = tr.addr
  tinfo : (b.traps.toList.getD (L - 1) TrapRegs.zero).info = tr.info
  others : ∀ k, k ≠ L - 1 → b.traps.toList[k]? = a.traps.toList[k]?
  pc : b.pc = if L = 1 then code + BitVec.ofNat 64 (c.tdeleg.toNat / 2 ^ 32) else c.sup
  held : b.pend = [] ∧ b.held.toList[L - 1]? = some a.pend
  scalars : SameScalars a b
  vectors : b.v = a.v ∧ b.k = a.k ∧ b.vstat = a.vstat
  image : b.image = a.image ∧ b.tfloor = a.tfloor

/-- R320: the causes TDELEG can delegate, by DMASK's bits. -/
def delegable : List (BitVec 8) :=
  [0x01, 0x02, 0x08, 0x09, 0x10, 0x11, 0x12, 0x14, 0x15, 0x18, 0x22, 0x23, 0x24, 0x29, 0x38, 0x39]

/-- R319, first and second cases: a trap at level 0 whose cause is delegated goes to level 1. -/
def Delegated (c : Ctx) (a : Strand) (cause : BitVec 8) : Prop :=
  a.level = 0 ∧ ∃ b, delegable[b]? = some cause ∧ c.tdeleg.getLsbD b = true

/-- The kernel code address of the launch a strand works for (R304), 0 with no launch. -/
def codeOf (s : State) (n : StrandId) : Word := ((s.launchOf n).map (·.code)).getD 0

end Sys2Proof.Claims

/-- R21, R136: within a unit NEXT moves to the next iteration; at a unit's end it takes a granted unit, falls through when none
remains, and else asks and waits; after a NEXT that fell through it falls through again; in a trap handler it raises ILLEGAL.
No other strand and no memory changes. -/
def Obligations.NextMovesOnAsksOrFallsThrough : Prop :=
  (∀ (s : State) (m : Mods), Dispatches m [] s → Settled s → (mine s).level ≠ 0 → Raises (.next m) s m ⟨0x01, 0, 0⟩) ∧
  ∀ (s : State) (m : Mods) (p : PartId) (k : Fin 4) (l : Launch),
    NextRuns m s → (mine s).launch = some (p, k) → s.slot p k = some l →
    ((mine s).fell = true → ∃ t, exec (.next m) s = .next t ∧ FallsThrough s.cur.next (mine s) (after s t) ∧ Elsewhere s t) ∧
    ((mine s).fell = false →
      (∀ o, l.nextInUnit (mine s).ordinal = .ordinal o →
        ∃ t, exec (.next m) s = .next t ∧ Enters l o (mine s) (after s t) ∧ Elsewhere s t) ∧
      (l.nextInUnit (mine s).ordinal = .unitEnd →
        (∀ w o, (l.assign? (me s)).bind (·.granted) = some w → l.firstOfUnit w = .ordinal o →
          ∃ t, exec (.next m) s = .next t ∧ Enters l o (mine s) (after s t) ∧ Elsewhere s t) ∧
        ((l.assign? (me s)).bind (·.granted) = none →
          (s.nextUnitFor p l (s.slotOfStrand p l (me s)) = none →
            ∃ t, exec (.next m) s = .next t ∧ FallsThrough s.cur.next (mine s) (after s t) ∧ Elsewhere s t) ∧
          (s.nextUnitFor p l (s.slotOfStrand p l (me s)) ≠ none →
            ∃ t, exec (.next m) s = .next t ∧ after s t = { mine s with waiting := true } ∧
              ∀ x, (l.assign? (me s)) = some x → ∃ l', t.slot p k = some l' ∧
                l'.assign? (me s) = some { x with asks := true }))))

/-- R137: LNCH raises ALIGN for a record that is not 64-byte aligned and PERMISSION for one in a window or a backing region;
otherwise it waits for the strand's stores and for the queue, and hands the record over. R137 states no TADDR for the two traps, and it
is then zero (R322). -/
def Obligations.LnchHandsTheRecordOver : Prop :=
  ∀ (s : State) (m : Mods) (a : SReg), Dispatches m [a] s → Settled s →
    (((mine s).getS a).toNat % 64 ≠ 0 → Raises (.lnch m a) s m ⟨0x24, 0, 0⟩) ∧
    (((mine s).getS a).toNat % 64 = 0 →
      ((s.curCtx (me s)).region ((mine s).getS a) ≠ .none ∨ inBacking ((mine s).getS a) = true →
        Raises (.lnch m a) s m ⟨0x21, 0, 0⟩) ∧
      ((s.curCtx (me s)).region ((mine s).getS a) = .none → inBacking ((mine s).getS a) = false →
        ∀ pa, (s.dispatched (me s) m).translate (mine s).tlb (s.curCtx (me s)) .read ((mine s).getS a) = .ok pa →
        ((s.storesPerformed (me s) = false ∨ 16 ≤ (s.part (s.curCtx (me s)).part).queue.length) →
          exec (.lnch m a) s = .next s) ∧
        (s.storesPerformed (me s) = true → (s.part (s.curCtx (me s)).part).queue.length < 16 →
          ∀ copy s', (s.dispatched (me s) m).loadBytesVa (s.curCtx (me s)) ((mine s).getS a) 256 = .ok copy →
            (s.dispatched (me s) m).acceptLaunch (s.curCtx (me s)).part (s.curCtx (me s)) ((mine s).getS a) = .queued s' →
            ∃ t, exec (.lnch m a) s = .next t ∧ (after s t).pc = s.cur.next ∧ SameScalars (mine s) (after s t) ∧
              ∃ l ∈ (t.part (s.curCtx (me s)).part).queue,
                l.addr = (mine s).getS a ∧ l.ctx = (s.curCtx (me s)).num ∧ l.record = copy ∧ l.state = 1)))

/-- R138: WAIT reads the word as an acquire load of class 0 does; it stays while the word equals b, and otherwise writes the
value and goes on with no L1 copy kept. -/
def Obligations.WaitEndsWhenTheWordDiffers : Prop :=
  ∀ (s : State) (m : Mods) (d a b : SReg) (l : Loc) (e : Option TlbEntry) (v : Word),
    Dispatches m [d, a, b] s → Settled s → MoFree s → ((mine s).getS a).toNat % 8 = 0 →
    (s.curCtx (me s)).region ((mine s).getS a) ≠ .core →
    (s.dispatched (me s) m).access (me s) .read 8 ((mine s).getS a) = .ok (l, e) →
    (s.dispatched (me s) m).readChecks (me s) 8 ((mine s).getS a) l e = none →
    s.loadFirst (me s) l = true → (s.dispatched (me s) m).blocked l = false → s.syncBusy l = false →
    v = word (bytesNat (((s.dispatched (me s) m).noteDdp e).bindLoad (me s) (mine s).nseq false l 8).1) →
    (v = (mine s).getS b → exec (.wait m d a b) s =
      .next ((s.modStrand (me s) (fun t => { t with waiting := true })).clearHold (me s))) ∧
    (v ≠ (mine s).getS b → ∃ t, exec (.wait m d a b) s = .next t ∧ (after s t).pc = s.cur.next ∧
      Writes (some (d, v)) (mine s) (after s t) ∧ (after s t).p = (mine s).p ∧ (after s t).l1 = [] ∧
      SameVectors (mine s) (after s t) ∧ SameTiles (mine s) (after s t) ∧ SameControl (mine s) (after s t) ∧
      ∀ n, n ≠ me s → t.strand n = s.strand n)

/-- R139: TRAP and BRK enter the handler for TRAP and BREAK with the immediate in TINFO; TPC is the next instruction for TRAP and
the BRK itself for BRK. -/
def Obligations.TrapAndBrkEnterTheirHandler : Prop :=
  ∀ (s : State) (m : Mods) (imm : BitVec 12) (c : Ctx),
    Dispatches m [] s → (mine s).idle = true → s.ctxOf (me s) = some c → (mine s).tlock = false → (mine s).level.val ≤ 1 →
    (∃ t, exec (.trap m imm) s = .next t ∧
      (Delegated c (mine s) 0x39 →
        InHandler c (codeOf s (me s)) 1 ⟨0x39, 0, imm.setWidth 64⟩ s.cur.next (mine s) (after s t)) ∧
      (¬ Delegated c (mine s) 0x39 →
        InHandler c (codeOf s (me s)) 2 ⟨0x39, 0, imm.setWidth 64⟩ s.cur.next (mine s) (after s t))) ∧
    ∃ t, exec (.brk m imm) s = .next t ∧
      (Delegated c (mine s) 0x38 →
        InHandler c (codeOf s (me s)) 1 ⟨0x38, 0, imm.setWidth 64⟩ (mine s).pc (mine s) (after s t)) ∧
      (¬ Delegated c (mine s) 0x38 →
        InHandler c (codeOf s (me s)) 2 ⟨0x38, 0, imm.setWidth 64⟩ (mine s).pc (mine s) (after s t))

/-- R319 to R322, R325: a trap other than PREEMPT and DOUBLE, raised at level 0 or 1 with no engine work outstanding and TLOCK
clear, enters level 1 when its cause is delegated and level 2 otherwise. A fault while TLOCK is set leaves the first trap's
registers, puts CODE 0x3A, TPC, TADDR and both causes in the level-3 set and ends the context; so does, with its own cause, a trap
taken at level 2. -/
def Obligations.TrapsEnterTheirLevel : Prop :=
  ∀ (s : State) (n : StrandId) (c : Ctx) (tr : TrapInfo) (pc : Word),
    s.ctxOf n = some c → (s.strand n).idle = true → tr.cause ≠ 0 →
    ((s.strand n).tlock = false → (s.strand n).level.val ≤ 1 → tr.cause ≠ 0x40 → tr.cause ≠ 0x3A →
      (Delegated c (s.strand n) tr.cause →
        InHandler c (codeOf s n) 1 tr pc (s.strand n) ((s.raise n tr pc).strand n)) ∧
      (¬ Delegated c (s.strand n) tr.cause →
        InHandler c (codeOf s n) 2 tr pc (s.strand n) ((s.raise n tr pc).strand n))) ∧
    ((s.strand n).tlock = true →
      ((s.raise n tr pc).strand n).traps.toList[2]? = some
        ⟨pc - BitVec.ofNat 64 (pc.toNat % 2), BitVec.ofNat 64 (256 * (s.strand n).level.val + 0x3A), tr.addr,
          BitVec.ofNat 64 ((s.strand n).firstCause.toNat + 256 * tr.cause.toNat)⟩ ∧
      (∀ k < 2, ((s.raise n tr pc).strand n).traps.toList[k]? = (s.strand n).traps.toList[k]?) ∧
      ∀ x, (s.raise n tr pc).ctx? c.num = some x → x.live = false) ∧
    ((s.strand n).tlock = false → (s.strand n).level = 2 → tr.cause ≠ 0x40 →
      ∀ x, (s.raise n tr pc).ctx? c.num = some x → x.live = false)

/-- R140, R324: TACK clears TLOCK and nothing else; ERET outside a handler, or to a level not below the current one, raises
PRIV; otherwise it waits for every older instruction and then clears TLOCK, restores level and program counter, and reinstates the
held records. -/
def Obligations.TackAndEretLeaveTheHandler : Prop :=
  ∀ (s : State) (m : Mods), Dispatches m [] s → Settled s →
    (∃ t, exec (.tack m) s = .next t ∧ OnlyMe s t ∧ Counted { mine s with tlock := false } (after s t) ∧
      SameScalars (mine s) (after s t) ∧ (after s t).pc = s.cur.next) ∧
    (((mine s).level = 0 ∨
      (mine s).level.val ≤ ((mine s).trapRegs (mine s).level.val).cause.toNat / 256 % 4) →
      Raises (.eret m) s m ⟨0x03, 0, 0⟩) ∧
    ((mine s).level ≠ 0 → ((mine s).trapRegs (mine s).level.val).cause.toNat / 256 % 4 < (mine s).level.val →
      ((mine s).idle = false ∨ (mine s).pend ≠ []) → exec (.eret m) s = .next s) ∧
    ((mine s).level ≠ 0 → ((mine s).trapRegs (mine s).level.val).cause.toNat / 256 % 4 < (mine s).level.val →
      (mine s).idle = true → (mine s).pend = [] →
      ∃ t, exec (.eret m) s = .next t ∧ OnlyMe s t ∧ (after s t).tlock = false ∧
        (after s t).level.val = ((mine s).trapRegs (mine s).level.val).cause.toNat / 256 % 4 ∧
        (after s t).pc = ((mine s).trapRegs (mine s).level.val).pc ∧
        (mine s).held.toList[(mine s).level.val - 1]? = some (after s t).pend ∧
        (after s t).traps = (mine s).traps ∧ SameScalars (mine s) (after s t) ∧ (after s t).v = (mine s).v ∧
        (after s t).k = (mine s).k ∧ SameTiles (mine s) (after s t))

/-- R141, R195: HALT closes an open tile once every older vector instruction is complete, so that what waits for the tile goes on; once
its work is complete, it drops every
reference and makes the strand free; its unit and one granted to it count as ended early where its last NEXT did not fall through, and
their remaining iterations as ended. -/
def Obligations.HaltFreesTheStrand : Prop :=
  ∀ (s : State) (m : Mods), Dispatches m [] s → (mine s).run = .running →
    (∀ o, (mine s).openId.isSome = true → (mine s).openTile = some o → (∀ e ∈ (mine s).queue .V, e.stage = .done) →
      ∃ t, exec (.halt m) s = .next t ∧ (after s t).openId = none ∧ (after s t).pc = (mine s).pc ∧ (after s t).run = .running ∧
        (∀ r ∈ (after s t).tiles, r.id = o.id → r.full = true ∧ r.tile = some o.close) ∧
        SameScalars (mine s) (after s t) ∧ ∀ n, n ≠ me s → t.strand n = s.strand n) ∧
    ((mine s).openId = none → (mine s).idle = true → (mine s).pend = [] → (mine s).valuesIn = true → (mine s).cmoWaits = false →
      ∃ t, exec (.halt m) s = .next t ∧ (after s t).run = .free ∧ (after s t).launch = none ∧ (after s t).image = [] ∧
        (after s t).tfloor = 0 ∧ (∀ n, n ≠ me s → t.strand n = s.strand n) ∧ SameBytes s t ∧
        ∀ p k l x, (mine s).launch = some (p, k) → s.slot p k = some l → l.assign? (me s) = some x →
          ∃ l', t.slot p k = some l' ∧
            l'.early = l.early + (if x.fell = true then 0 else 1 + x.granted.toList.length) ∧
            ∀ o, o ∈ l'.endedSet ↔ o ∈ l.endedSet ∨ x.fell = false ∧
              (x.ordinal ≤ o ∧ o < (x.unit + 1) * l.temporal ∨
                ∃ w, x.granted = some w ∧ w * l.temporal ≤ o ∧ o < (w + 1) * l.temporal))

/-! ### Special registers, locks and user records -/

namespace Sys2Proof.Claims

/-- LOGBASE, MOBASE and STAMPBASE as read (R358, R370). -/
def baseRead (r : LogRegs) : Word :=
  BitVec.ofNat 64 ((if r.en then 2 ^ 63 else 0) + (if r.rpl then 2 ^ 62 else 0) + r.base.toNat + r.size)

/-- LOGPTR, MOPTR and STAMPPTR as read (R358, R370). -/
def ptrRead (r : LogRegs) : Word := BitVec.ofNat 64 ((if r.full then 2 ^ 63 else 0) + r.ptr.toNat)

/-- LOGLIM and MOLIM as read (R358). -/
def limRead (r : LogRegs) : Word := BitVec.ofNat 64 r.lim

/-- What SRD returns for a register of R144 that does not wait for older work, the counters apart (R83, R84, R145, R315, R318,
R320, R322, R358, R370, R374, R19). -/
def srdValue (s : State) (num : Nat) : Option Word :=
  let t := mine s
  let c := s.curCtx (me s)
  let x := s.part (s.tagOf (me s))
  let r := t.traps.toList.getD (t.level.val - 1) TrapRegs.zero
  match num with
  | 0x000 => some (BitVec.ofNat 64 (3 * 2 ^ 48 + c.build.toNat * 2 ^ 32 + c.migr.toNat))
  | 0x001 => some (BitVec.ofNat 64 c.mmrev)
  | 0x002 => some (if c.ordmode then 1 else 0)
  | 0x008 => some (BitVec.ofNat 64 s.gts)
  | 0x010 => some (BitVec.ofNat 64 t.image.length)
  | 0x011 => some (BitVec.ofNat 64 t.tfloor)
  | 0x012 => some (BitVec.ofNat 64 t.stklim)
  | 0x013 => some t.stkbase
  | 0x014 => some (BitVec.ofNat 64 t.tsquota)
  | 0x020 => some r.pc
  | 0x021 => some r.cause
  | 0x022 => some r.addr
  | 0x023 => some r.info
  | 0x024 => some (if t.tlock then 1 else 0)
  | 0x025 => some c.tdeleg
  | 0x030 => some (baseRead x.sched)
  | 0x031 => some (limRead x.sched)
  | 0x032 => some (ptrRead x.sched)
  | 0x033 => some (baseRead x.stamp)
  | 0x034 => some (baseRead x.mo)
  | 0x035 => some (limRead x.mo)
  | 0x036 => some (ptrRead x.mo)
  | 0x037 => some (ptrRead x.stamp)
  | 0x050 => some (BitVec.ofNat 64 t.role)
  | 0x051 => some t.leasectl
  | 0x052 => some t.qmin
  | 0x053 => some t.qcap
  | 0x060 => some s.mgmt.cntpol
  | 0x070 => some c.aploc
  | 0x071 => some c.appod
  | 0x072 => some c.apfab
  | k => if 0x080 ≤ k ∧ k ≤ 0x085 then t.idx.toList[k - 0x080]?
      else if 0x088 ≤ k ∧ k ≤ 0x08D then t.ext.toList[k - 0x088]? else none

/-- R372, R375: a counter as SRD reads it; that INSTR has counted the SRD itself is the model's reading (log entry 44, DEDUCED,
unsafe). -/
def counterRead (s : State) (k : Nat) : Word :=
  let t := mine s
  let exact := (mine s).level = 3 ∨ s.mgmt.cntpol.getLsbD 22 = true
  let fab := (mine s).level = 3 ∨ s.mgmt.cntpol.getLsbD 23 = true
  let part (i : Nat) : Word := BitVec.ofNat 64 (((s.part (s.tagOf (me s))).counters.toList.getD i 0).toNat)
  if k = 0 then BitVec.ofNat 64 (t.counters[0] + 1).toNat
  else if k ≤ 5 then
    (if exact then BitVec.ofNat 64 (t.counters.toList.getD k 0).toNat
      else
        let v := (t.viewsAt s.gts (polDly s.mgmt.cntpol)).toList.getD k 0
        BitVec.ofNat 64 (v.toNat - v.toNat % 2 ^ (s.mgmt.cntpol.toNat % 32)))
  else if k ≤ 8 then BitVec.ofNat 64 (t.counters.toList.getD k 0).toNat
  else if 0x10 ≤ k ∧ k ≤ 0x12 then part (k - 0x10)
  else if k = 0x18 then (if fab then part 3 else 0)
  else if k = 0x19 then (if fab then BitVec.ofNat 64 s.mgmt.fabricRetries.toNat else 0)
  else 0

/-- A field of a special register's written value. -/
def field (a : Word) (lo w : Nat) : Nat := a.toNat / 2 ^ lo % 2 ^ w

/-- A value moved to the nearest limit of a range. -/
def clamp (lo hi n : Nat) : Nat := if n < lo then lo else if hi < n then hi else n

/-- The strand's registers after an SWR that may be executed, for the registers of the strand: the fields, the source, the level
it needs, and the strand with its RW fields written (R72, R84, R143, R209, R315, R322). -/
def swrStrand (t : Strand) : Instr → Option (Mods × SReg × Nat × Strand)
  | .swr m num a =>
    let r := t.trapRegs t.level.val
    let x := t.getS a
    let put (r : TrapRegs) : Option (Mods × SReg × Nat × Strand) := some (m, a, 0, t.setTrapRegs t.level.val r)
    match num.toNat with
    | 0x020 => put { r with pc := x - BitVec.ofNat 64 (x.toNat % 2) }
    | 0x021 => put { r with cause := BitVec.ofNat 64 (x.toNat % 1024) }
    | 0x022 => put { r with addr := x }
    | 0x023 => put { r with info := x }
    | _ => none
  | .swrVstat m a => some (m, a, 0, { t with vstat := BitVec.ofNat 8 (t.getS a).toNat })
  | .swrTags m a => some (m, a, 0, { t with tags := t.getS a })
  | .swrStklim m a => some (m, a, 2, { t with stklim := clamp 0 768 (field (t.getS a) 0 10) })
  | .swrTsquota m a => some (m, a, 2, { t with tsquota := clamp 32 192 (field (t.getS a) 0 8) })
  | .swrLeasectl m a =>
    let x := clamp 2048 65535 (field (t.getS a) 32 16) * 2 ^ 32 + clamp 1 65535 (field (t.getS a) 16 16) * 2 ^ 16 +
      clamp 1 256 (field (t.getS a) 0 9)
    some (m, a, 2, { t with leasectl := BitVec.ofNat 64 x })
  | _ => none

/-- The context's registers after an SWR that may be executed (R145, R256, R320). -/
def swrContext (x : Word) (c : Ctx) : Instr → Option (Mods × SReg × Nat × Ctx)
  | .swr m num a =>
    match num.toNat with
    | 0x070 => some (m, a, 3, { c with aploc := x - BitVec.ofNat 64 (x.toNat % 2 ^ 16) })
    | 0x071 => some (m, a, 3, { c with appod := x - BitVec.ofNat 64 (x.toNat % 2 ^ 20) })
    | 0x072 => some (m, a, 3, { c with apfab := x - BitVec.ofNat 64 (x.toNat % 2 ^ 48) })
    | _ => none
  | .swrOrdmode m a => some (m, a, 2, { c with ordmode := decide (x.toNat % 2 = 1) })
  | .swrTdeleg m a => some (m, a, 2, { c with tdeleg := BitVec.ofNat 64 (x.toNat / 2 ^ 32 * 2 ^ 32 + x.toNat % 2 ^ 16) })
  | _ => none

/-- The source register of an SWR. -/
def swrSource : Instr → Option SReg
  | .swr _ _ a | .swrVstat _ a | .swrStklim _ a | .swrTsquota _ a | .swrOrdmode _ a | .swrTdeleg _ a | .swrRole _ a
  | .swrLeasectl _ a | .swrQminQcap _ _ a | .swrTags _ a | .logMove _ _ a => some a
  | _ => none

/-- The level an SRD or SWR needs (R144): 1 + 3 where the write level is a dash and no level may write. -/
def levelNeeded : Instr → Nat
  | .srd _ _ num => if num.toNat = 0x060 then 2 else 0
  | .swr _ num _ =>
    if 0x020 ≤ num.toNat ∧ num.toNat ≤ 0x023 then 0
    else if num.toNat = 0x031 ∨ num.toNat = 0x032 ∨ num.toNat = 0x035 ∨ num.toNat = 0x036 then 2
    else if num.toNat = 0x060 ∨ (0x070 ≤ num.toNat ∧ num.toNat ≤ 0x072) then 3 else 4
  | .swrStklim _ _ | .swrTsquota _ _ | .swrOrdmode _ _ | .swrTdeleg _ _ | .swrLeasectl _ _ | .swrQminQcap _ _ _
  | .logMove _ _ _ => 2
  | _ => 0

/-- A special-register instruction leaves the strand's registers but `b`'s fields, goes on, and changes no other strand and no
memory. -/
structure Wrote (s t : State) (b : Strand) : Prop where
  counted : Counted b (after s t)
  scalars : SameScalars (mine s) (after s t)
  next : (after s t).pc = s.cur.next
  elsewhere : Elsewhere s t

/-- The field of a queue in QMIN or QCAP, the queues in the order L, M, V, S (R318). -/
def poolOf (w : Word) (q : Nat) : Nat := field w (11 * q) 11

/-- QMIN or QCAP as stored from a written value (R318): a QCAP field of 0 is 1. -/
def poolWritten (cap : Bool) (x : Word) : Word :=
  let f (q : Nat) : Nat := if cap = true ∧ poolOf x q = 0 then 1 else poolOf x q
  BitVec.ofNat 64 (f 0 + f 1 * 2 ^ 11 + f 2 * 2 ^ 22 + f 3 * 2 ^ 33)

/-- R318: no minimum above its cap, and at most 1,024 in the Pod. -/
def PoolAccepts (s : State) (qmin qcap : Word) : Prop :=
  (∀ q < 4, poolOf qmin q ≤ poolOf qcap q) ∧
  (((List.range 4).map (fun i =>
    let n : StrandId := Fin.ofNat 256 ((me s).val / 4 * 4 + i)
    let w := if n = me s then qmin else (s.strand n).qmin
    poolOf w 0 + poolOf w 1 + poolOf w 2 + poolOf w 3)).sum ≤ 1024)

/-- R360, R370: a log's registers after an SWR of its base register. -/
def moved (r : LogRegs) (x : Word) : LogRegs :=
  if r.full = true ∨ (r.en = true ∧ r.ptr.toNat = r.lim) then
    { r with base := BitVec.ofNat 64 (x.toNat / 2 ^ 12 % 2 ^ 45 * 2 ^ 12), size := clamp 0 20 (x.toNat % 32),
             ptr := BitVec.ofNat 64 (x.toNat / 2 ^ 12 % 2 ^ 45 * 2 ^ 12), full := false,
             lim := x.toNat / 2 ^ 12 % 2 ^ 45 * 2 ^ 12 + 2 ^ clamp 0 20 (x.toNat % 32) * 4096 }
  else r

/-- R147: the lines of 128 bytes that meet the b bytes from a, ascending. -/
def linesOf (a b : Word) : List Nat :=
  (List.range ((a.toNat + b.toNat - 1) / 128 - a.toNat / 128 + 1)).map (fun i => (a.toNat / 128 + i) * 128)

/-- R147: how many of a strand's locked lines meet the b bytes from a. -/
def lockedIn (a b : Word) (t : Strand) : Nat :=
  (t.locks.filter (fun l => decide (l.addr.toNat + 128 > a.toNat ∧ l.addr.toNat < a.toNat + b.toNat))).length

end Sys2Proof.Claims

/-- R72, R143 to R146, R209: SRD returns the register's value, at the level R144 asks for, and nothing else changes; SRD of VSTAT
waits until older vector and M-queue instructions are complete, and SRD of TAGS until the L queue has started. That INSTR counts the
SRD itself, which its own value shows, is the model's reading (log entry 44, DEDUCED, unsafe). -/
def Obligations.SrdReturnsTheRegister : Prop :=
  ∀ (s : State) (m : Mods) (d : SReg) (num : BitVec 12), Dispatches m [d] s →
    levelNeeded (.srd m d num) ≤ (mine s).level.val →
    (∀ v, srdValue s num.toNat = some v →
      ∃ t, exec (.srd m d num) s = .next t ∧ Takes s t s.cur.next ∧ (after s t).getS d = (if d = 0 then 0 else v) ∧
        ScalarsBut d (mine s) (after s t) ∧ (after s t).p = (mine s).p) ∧
    (0x100 ≤ num.toNat → num.toNat ≤ 0x1FF →
      ∃ t, exec (.srd m d num) s = .next t ∧ Takes s t s.cur.next ∧
        (after s t).getS d = (if d = 0 then 0 else counterRead s (num.toNat - 0x100)) ∧
        ScalarsBut d (mine s) (after s t) ∧ (after s t).p = (mine s).p) ∧
    ((mine s).flagsIn = false → exec (.srdVstat m d) s = .next s) ∧
    ((mine s).flagsIn = true → ∃ t, exec (.srdVstat m d) s = .next t ∧ Takes s t s.cur.next ∧
      (after s t).getS d = (if d = 0 then 0 else BitVec.ofNat 64 (mine s).vstat.toNat) ∧
      ScalarsBut d (mine s) (after s t) ∧ (after s t).p = (mine s).p) ∧
    ((∃ e ∈ (mine s).queue .L, e.stage = .waiting) → exec (.srdTags m d) s = .next s) ∧
    ((∀ e ∈ (mine s).queue .L, e.stage ≠ .waiting) → ∃ t, exec (.srdTags m d) s = .next t ∧ Takes s t s.cur.next ∧
      (after s t).getS d = (if d = 0 then 0 else (mine s).tags) ∧
      ScalarsBut d (mine s) (after s t) ∧ (after s t).p = (mine s).p)

/-- R143, R144: an SRD or SWR below its register's level raises PRIV, before its guards; an SWR of a register whose write level
is a dash raises it from every level. -/
def Obligations.SpecialRegistersCheckTheLevel : Prop :=
  ∀ (s : State) (i : Instr),
    ((∃ m d num, i = .srd m d num) ∨ (swrSource i).isSome) → (mine s).spaced 0 (Instr.mods i) = true →
    (mine s).level.val < levelNeeded i →
    exec i s = .next (s.raise (me s) ⟨0x03, 0, 0⟩ (mine s).pc)

/-- R143 with R72, R84, R209, R315 and R322: SWR of a register of the strand writes its RW fields, held to their limits, and
nothing else. -/
def Obligations.SwrWritesTheStrandsRegister : Prop :=
  ∀ (s : State) (i : Instr) (m : Mods) (a : SReg) (L : Nat) (b : Strand),
    swrStrand (mine s) i = some (m, a, L, b) → Dispatches m [a] s → Settled s → L ≤ (mine s).level.val →
    ((∃ m a, i = .swrVstat m a) → (mine s).flagsIn = true) →
    ((∃ m a, i = .swrTags m a) → ∀ e ∈ (mine s).queue .L, e.stage ≠ .waiting) →
    ∃ t, exec i s = .next t ∧ Wrote s t b

/-- R315, R318: SWR of ROLE writes the role and raises ILLEGAL for 3; SWR of QMIN or QCAP writes the fields that the pool
accepts, and raises ILLEGAL and changes nothing for others. -/
def Obligations.SwrOfRoleAndPoolChecks : Prop :=
  ∀ (s : State) (m : Mods) (a : SReg), Dispatches m [a] s → Settled s →
    (((mine s).getS a).toNat % 4 = 3 → Raises (.swrRole m a) s m ⟨0x01, 0, 0⟩) ∧
    (((mine s).getS a).toNat % 4 ≠ 3 →
      ∃ t, exec (.swrRole m a) s = .next t ∧ Wrote s t { mine s with role := ((mine s).getS a).toNat % 4 }) ∧
    (2 ≤ (mine s).level.val → ∀ cap : Bool, ∀ qmin qcap,
      qmin = (if cap then (mine s).qmin else poolWritten false ((mine s).getS a)) →
      qcap = (if cap then poolWritten true ((mine s).getS a) else (mine s).qcap) →
      (PoolAccepts s qmin qcap →
        ∃ t, exec (.swrQminQcap m cap a) s = .next t ∧ Wrote s t { mine s with qmin := qmin, qcap := qcap }) ∧
      (¬ PoolAccepts s qmin qcap → Raises (.swrQminQcap m cap a) s m ⟨0x01, 0, 0⟩))

/-- R145, R256, R320, R374: SWR of a register of the context or of CNTPOL writes it. -/
def Obligations.SwrWritesContextAndPolicy : Prop :=
  (∀ (s : State) (i : Instr) (m : Mods) (a : SReg) (L : Nat) (c b : Ctx),
    s.ctxOf (me s) = some c → swrSource i = some a → swrContext ((mine s).getS a) c i = some (m, a, L, b) →
    Dispatches m [a] s → Settled s → L ≤ (mine s).level.val →
    ∃ t, exec i s = .next t ∧ Wrote s t (mine s) ∧ t.ctxOf (me s) = some b) ∧
  (∀ (s : State) (m : Mods) (a : SReg), Dispatches m [a] s → Settled s → (mine s).level = 3 →
    ∃ t, exec (.swr m 0x060 a) s = .next t ∧ Wrote s t (mine s) ∧
      t.mgmt.cntpol.toNat = field ((mine s).getS a) 22 2 * 2 ^ 22 + clamp 0 20 (field ((mine s).getS a) 8 5) * 2 ^ 8 +
        clamp 0 24 (field ((mine s).getS a) 0 5))

/-- R143, R144, R358, R360, R370: SWR of LOGBASE, MOBASE or STAMPBASE moves its log only while it is full, or enabled at its limit; one
of LOGLIM, LOGPTR, MOLIM or MOPTR, whose fields are all RO, changes no log. -/
def Obligations.LogsMoveOnlyWhenFull : Prop :=
  (∀ (s : State) (m : Mods) (which : Fin 3) (a : SReg) (x : Part),
    Dispatches m [a] s → Settled s → 2 ≤ (mine s).level.val → x = s.part (s.tagOf (me s)) →
    ∃ t, exec (.logMove m which a) s = .next t ∧ Wrote s t (mine s) ∧
      (t.part (s.tagOf (me s))).sched = (if which = 0 then moved x.sched ((mine s).getS a) else x.sched) ∧
      (t.part (s.tagOf (me s))).mo = (if which = 1 then moved x.mo ((mine s).getS a) else x.mo) ∧
      (t.part (s.tagOf (me s))).stamp = (if which = 2 then moved x.stamp ((mine s).getS a) else x.stamp)) ∧
  ∀ (s : State) (m : Mods) (num : BitVec 12) (a : SReg),
    Dispatches m [a] s → Settled s → 2 ≤ (mine s).level.val → num ∈ ([0x031, 0x032, 0x035, 0x036] : List (BitVec 12)) →
    ∃ t, exec (.swr m num a) s = .next t ∧ Wrote s t (mine s) ∧ ∀ p, t.part p = s.part p

/-- R147, R148: ICLK locks the range's lines while the capacity of 128 lasts and writes the number of its lines that are locked then,
and ICUL unlocks them and writes their number; neither changes another scalar or a predicate. b = 0 writes 0, a range past 2^64 − 1
raises BOUNDS with TADDR zero (R322), and ICLK of a range that begins in a backing region raises PERMISSION (R87). -/
def Obligations.LocksCountTheRangesLines : Prop :=
  ∀ (s : State) (m : Mods) (d a b : SReg) (x y : Word),
    Dispatches m [d, a, b] s → Settled s → x = (mine s).getS a → y = (mine s).getS b →
    (y = 0 → ∀ i, i = .iclk m d a b ∨ i = .icul m d a b →
      ∃ t, exec i s = .next t ∧ Takes s t s.cur.next ∧ Writes (some (d, 0)) (mine s) (after s t) ∧ (after s t).p = (mine s).p) ∧
    (2 ^ 64 < x.toNat + y.toNat → Raises (.iclk m d a b) s m ⟨0x22, 0, 0⟩ ∧ Raises (.icul m d a b) s m ⟨0x22, 0, 0⟩) ∧
    (y ≠ 0 → x.toNat + y.toNat ≤ 2 ^ 64 →
      (∃ t, exec (.icul m d a b) s = .next t ∧ (after s t).pc = s.cur.next ∧ (after s t).p = (mine s).p ∧
        Writes (some (d, BitVec.ofNat 64 (lockedIn x y (mine s)))) (mine s) (after s t) ∧
        (∀ l, l ∈ (after s t).locks ↔
          l ∈ (mine s).locks ∧ ¬ (l.addr.toNat + 128 > x.toNat ∧ l.addr.toNat < x.toNat + y.toNat)) ∧
        Elsewhere s t) ∧
      (inBacking (BitVec.ofNat 64 (x.toNat / 128 * 128)) = true →
        Raises (.iclk m d a b) s m ⟨0x21, BitVec.ofNat 64 (x.toNat / 128 * 128), 0⟩) ∧
      ((∀ l ∈ linesOf x y, inBacking (BitVec.ofNat 64 l) = false ∧ ∃ pa e,
          s.translate (mine s).tlb (s.curCtx (me s)) .exec (BitVec.ofNat 64 l) = .ok (pa, e) ∧ s.lineDue pa = false) →
        ∃ t, exec (.iclk m d a b) s = .next t ∧ (after s t).pc = s.cur.next ∧ (after s t).p = (mine s).p ∧ Elsewhere s t ∧
          Writes (some (d, BitVec.ofNat 64 (lockedIn x y (after s t)))) (mine s) (after s t) ∧
          (∀ l ∈ (mine s).locks, l ∈ (after s t).locks) ∧
          ((mine s).locks.length ≤ 128 → (after s t).locks.length ≤ 128) ∧
          (((mine s).locks.length + (linesOf x y).length ≤ 128) →
            ∀ l ∈ linesOf x y, ∃ e ∈ (after s t).locks, e.addr = BitVec.ofNat 64 l)))

/-- R149, R362, R363: LOGW makes a record of type 0x0A with a, b[31:0], the strand's number and the GTS of its dispatch while the
log is enabled, and has no effect while it is not; without room it raises LOG_OVERFLOW and writes nothing. -/
def Obligations.LogwAppendsAUserRecord : Prop :=
  ∀ (s : State) (m : Mods) (a b : SReg) (x : Part),
    Dispatches m [a, b] s → Settled s → x = s.part (s.tagOf (me s)) → x.sched.rpl = false →
    (x.sched.en = false →
      ∃ t, exec (.logw m a b) s = .next t ∧ Takes s t s.cur.next ∧ SameScalars (mine s) (after s t)) ∧
    (x.sched.en = true → x.sched.full = false → x.sched.ptr.toNat + 32 ≤ x.sched.lim →
      ∃ t r, exec (.logw m a b) s = .next t ∧ (after s t).pc = s.cur.next ∧ SameScalars (mine s) (after s t) ∧
        Elsewhere s t ∧
        (t.part (s.tagOf (me s))).ready = x.ready ++ [r] ∧ r.addr = x.sched.ptr ∧
        (t.part (s.tagOf (me s))).sched.ptr = x.sched.ptr + 32 ∧
        r.words[0]? = some (BitVec.ofNat 64 s.gts) ∧ r.src = (me s).val ∧ r.type = 0x0A ∧
        r.words[2]? = some ((mine s).getS a) ∧
        r.words[3]? = some (BitVec.ofNat 64 (((mine s).getS b).toNat % 2 ^ 32))) ∧
    (x.sched.en = true → (x.sched.full = true ∨ x.sched.lim < x.sched.ptr.toNat + 32) →
      exec (.logw m a b) s = .next (((s.dispatched (me s) m).schedFull (me s)).raise (me s)
        ⟨0x30, x.sched.ptr, BitVec.ofNat 64 (me s).val⟩ (mine s).pc))

namespace Sys2Proof.Claims

/-- The fields of a control instruction other than the branches, the loop instructions and those of the memory (R98, R142). -/
def plainFields : Instr → Option Mods
  | .add m _ _ _ | .sub m _ _ _ | .mul m _ _ _ | .mulh m _ _ _ | .mulhu m _ _ _ | .div m _ _ _ | .divu m _ _ _ | .rem m _ _ _
  | .remu m _ _ _ | .and m _ _ _ | .or m _ _ _ | .xor m _ _ _ | .andn m _ _ _ | .shl m _ _ _ | .shr m _ _ _ | .sar m _ _ _
  | .rol m _ _ _ | .ror m _ _ _ | .min m _ _ _ | .max m _ _ _ | .minu m _ _ _ | .maxu m _ _ _ | .clz m _ _ | .ctz m _ _
  | .popc m _ _ | .addi m _ _ _ | .andi m _ _ _ | .ori m _ _ _ | .xori m _ _ _ | .shli m _ _ _ | .shri m _ _ _ | .sari m _ _ _
  | .bfx m _ _ _ _ | .bfxu m _ _ _ _ | .bfi m _ _ _ _ _ | .movi m _ _ | .movl m _ _ | .addl m _ _ _ => some m
  | .cmpeq m _ _ _ | .cmpne m _ _ _ | .cmplt m _ _ _ | .cmple m _ _ _ | .cmpltu m _ _ _ | .cmpleu m _ _ _ | .cmpeqi m _ _ _
  | .cmpnei m _ _ _ | .cmplti m _ _ _ | .cmplei m _ _ _ | .cmpltui m _ _ _ | .cmpleui m _ _ _ | .pand m _ _ _ | .por m _ _ _
  | .pxor m _ _ _ | .pandn m _ _ _ | .pset m _ _ | .pget m _ _ => some m
  | .lea m _ _ _ _ | .apcv m _ _ _ | .apts m _ _ | .hget m _ _ _ | .hchk m _ _ | .lnch m _ | .wait m _ _ _ => some m
  | .trap m _ | .brk m _ | .tack m | .halt m | .nop m | .srd m _ _ | .srdVstat m _ | .srdTags m _ => some m
  | .swr m _ _ | .swrVstat m _ | .swrStklim m _ | .swrTsquota m _ | .swrOrdmode m _ | .swrTdeleg m _ | .swrRole m _
  | .swrLeasectl m _ | .swrQminQcap m _ _ | .swrTags m _ | .logMove m _ _ | .iclk m _ _ _ | .icul m _ _ _ | .logw m _ _ => some m
  | _ => none

/-- The fields of a control instruction or of a stack manipulation (R98, R142). -/
def guardedFields : Instr → Option Mods
  | .br m _ | .call m _ | .jmp m _ | .callr m _ | .ret m | .brl m _ | .calll m _ | .loopp m _ _ _ | .endl m => some m
  | .next m | .eret m => some m
  | .ldb m _ _ _ _ _ | .ldh m _ _ _ _ _ | .ldw m _ _ _ _ _ | .ldd m _ _ _ _ _ | .ldbu m _ _ _ _ _ | .ldhu m _ _ _ _ _
  | .ldwu m _ _ _ _ _ | .stb m _ _ _ _ _ | .sth m _ _ _ _ _ | .stw m _ _ _ _ _ | .std m _ _ _ _ _ => some m
  | .ldaqw m _ _ _ _ | .ldaqd m _ _ _ _ | .strlw m _ _ _ _ | .strld m _ _ _ _ => some m
  | .aadd m _ _ _ _ _ _ | .afadd m _ _ _ _ _ _ | .amin m _ _ _ _ _ _ | .amax m _ _ _ _ _ _ | .aand m _ _ _ _ _ _
  | .aor m _ _ _ _ _ _ | .axch m _ _ _ _ _ _ | .acas m _ _ _ _ _ _ _ => some m
  | .fence m _ _ _ | .cmo m _ _ _ _ _ | .bar m _ => some m
  | .tdup m | .tdrop m | .tswap m | .tover m | .tpick m _ | .trot m _ | .tbury m _ | .tmarkOpen m _ _ | .tmarkClose m _ => some m
  | i => plainFields i

/-- What R112 has checked before the guards: the level of an SRD or SWR, HGET's sel and BAR's MEMB. -/
structure Unrefused (s : State) (i : Instr) : Prop where
  level : levelNeeded i ≤ (mine s).level.val
  sel : ∀ m d a x, i = .hget m d a x → x.toNat ≤ 15
  memb : ∀ m imm, i = .bar m imm → s.barOk (me s) imm = true

end Sys2Proof.Claims

/-- R98, R100, R112, R142: a control or stack-manipulation instruction waits out its spacing, a cycle at a time; one that no check
before the guards refuses and whose guards do not both hold then changes no register, memory, predicate or image and goes on after
itself, its literal skipped; NOP does the same with guards that hold. That a guard-false NEXT in a handler and a guard-false ERET at
level 0 pass without a trap is the model's reading (log entry 16, DEDUCED, unsafe). -/
def Obligations.GuardFalseInstructionsAndNopPass : Prop :=
  ∀ (s : State) (i : Instr) (m : Mods), guardedFields i = some m →
    ((mine s).gaps[0] < m.sc.toNat → exec i s = .next (s.modStrand (me s) (fun t => { t with gaps := t.gaps.set 0 (t.gaps[0] + 1) }))) ∧
    (m.sc.toNat ≤ (mine s).gaps[0] → Unrefused s i → ((mine s).holds m = false ∨ ∃ m', i = .nop m') →
      ∃ t, exec i s = .next t ∧ Takes s t s.cur.next ∧ SameScalars (mine s) (after s t))

/-! ### Memory instructions and the ordering machine -/

namespace Sys2Proof.Claims

/-- The state in which a dispatching instruction's rule applies: it has been counted. -/
abbrev counted (s : State) (m : Mods) : State := s.dispatched (me s) m

/-- R224: a + c · size + simm12. -/
def scaled (a c : Word) (size : Nat) (imm : BitVec 12) : Word :=
  BitVec.ofInt 64 (a.toInt + c.toInt * size + imm.toInt)

/-- R224: the loads: fields, class, destination, base, index, displacement, size, and whether the value is sign-extended. -/
def loadForm : Instr → Option (Mods × BitVec 4 × SReg × SReg × SReg × BitVec 12 × Nat × Bool)
  | .ldb m mm d a c imm => some (m, mm.cls, d, a, c, imm, 1, true)
  | .ldh m mm d a c imm => some (m, mm.cls, d, a, c, imm, 2, true)
  | .ldw m mm d a c imm => some (m, mm.cls, d, a, c, imm, 4, true)
  | .ldd m mm d a c imm => some (m, mm.cls, d, a, c, imm, 8, true)
  | .ldbu m mm d a c imm => some (m, mm.cls, d, a, c, imm, 1, false)
  | .ldhu m mm d a c imm => some (m, mm.cls, d, a, c, imm, 2, false)
  | .ldwu m mm d a c imm => some (m, mm.cls, d, a, c, imm, 4, false)
  | _ => none

/-- R224: the stores: fields, class, data, base, index, displacement and size. -/
def storeForm : Instr → Option (Mods × BitVec 4 × SReg × SReg × SReg × BitVec 12 × Nat)
  | .stb m mm d a c imm => some (m, mm.cls, d, a, c, imm, 1)
  | .sth m mm d a c imm => some (m, mm.cls, d, a, c, imm, 2)
  | .stw m mm d a c imm => some (m, mm.cls, d, a, c, imm, 4)
  | .std m mm d a c imm => some (m, mm.cls, d, a, c, imm, 8)
  | _ => none

/-- R226: the acquire loads and, with `true`, the release stores: fields, class, register, base, scope and size. -/
def syncForm : Instr → Option (Bool × Mods × BitVec 4 × SReg × SReg × Scope × Nat)
  | .ldaqw m cls d a sc => some (false, m, cls, d, a, sc, 4)
  | .ldaqd m cls d a sc => some (false, m, cls, d, a, sc, 8)
  | .strlw m cls d a sc => some (true, m, cls, d, a, sc, 4)
  | .strld m cls d a sc => some (true, m, cls, d, a, sc, 8)
  | _ => none

/-- R227, R228: the atomics: the operation's place in R113's order, fields, modifier, registers, width and scope. -/
def atomicForm : Instr → Option (Fin 8 × Mods × AtomMod × SReg × SReg × SReg × SReg × Wid × Scope)
  | .aadd m am d a b w sc => some (0, m, am, d, a, b, 0, w, sc)
  | .afadd m am d a b w sc => some (1, m, am, d, a, b, 0, w, sc)
  | .amin m am d a b w sc => some (2, m, am, d, a, b, 0, w, sc)
  | .amax m am d a b w sc => some (3, m, am, d, a, b, 0, w, sc)
  | .aand m am d a b w sc => some (4, m, am, d, a, b, 0, w, sc)
  | .aor m am d a b w sc => some (5, m, am, d, a, b, 0, w, sc)
  | .axch m am d a b w sc => some (6, m, am, d, a, b, 0, w, sc)
  | .acas m am d a b c w sc => some (7, m, am, d, a, b, c, w, sc)
  | _ => none

/-- R220: the fields, the registers, the address and the size of a scalar access. -/
def accessForm (t : Strand) (i : Instr) : Option (Mods × List SReg × Word × Nat) :=
  match loadForm i, storeForm i, syncForm i, atomicForm i with
  | some (m, _, d, a, c, imm, n, _), _, _, _ => some (m, [d, a, c], scaled (t.getS a) (t.getS c) n imm, n)
  | _, some (m, _, d, a, c, imm, n), _, _ => some (m, [d, a, c], scaled (t.getS a) (t.getS c) n imm, n)
  | _, _, some (_, m, _, d, a, _, n), _ => some (m, [d, a], t.getS a, n)
  | _, _, _, some (_, m, _, d, a, b, c, w, _) => some (m, [d, a, b, c], t.getS a, if w then 8 else 4)
  | _, _, _, _ => none

/-- R239: the class queue an access is entered in. -/
def classMask (c : Ctx) (cls : BitVec 4) : BitVec 16 := if c.mmrev = 1 then 1 else BitVec.ofNat 16 (2 ^ cls.toNat)

/-- A scalar access has entered the strand's class queues, and nothing else of the strand or of memory has changed; `page` marks an
atomic to an ordered page, and `supp` is what a store suppresses (R273). -/
structure Entered (s t : State) (classes : BitVec 16) (kind : CqKind) (j : Nat) (page : Bool)
    (supp : Option ((PartId × Fin 4) × Nat) := none) : Prop where
  entry : ∃ slot, (after s t).cq =
    (mine s).cq ++ [⟨(mine s).nseq, (mine s).pc, classes, kind, slot, (mine s).ordinal, j, page, supp⟩]
  younger : (after s t).nseq = (mine s).nseq + 1
  next : (after s t).pc = s.cur.next
  scalars : SameScalars (mine s) (after s t)
  vectors : SameVectors (mine s) (after s t)
  tiles : SameTiles (mine s) (after s t)
  control : SameControl (mine s) (after s t)
  elsewhere : Elsewhere s t

/-- The shared cache holds the line of a physical address, or has a free way for it. -/
def Held (s : State) (pa : Nat) : Prop :=
  (∃ x, s.scLine? pa = some x ∧ x.data.length = 128) ∨
  (s.scLine? pa = none ∧ s.freeWays (((homeDie pa).map (·.val)).getD 0) (setOf pa) ≠ [])

/-- The coherent bytes of memory after a run of bytes is written at a physical address: every other byte is as before. -/
def WritesRun (s t : State) (pa : Nat) (bs : List Byte) : Prop :=
  ∀ a, t.coh a = if pa ≤ a ∧ a < pa + bs.length then bs.getD (a - pa) 0 else s.coh a

/-- R227, R228: the value an atomic of `w` bits leaves in memory, none when it writes nothing: the sum, the single-precision sum,
the signed minimum and maximum, AND, OR, the exchange and the compare-and-swap. -/
def atomicLeaves (op : Fin 8) (w old x c : Nat) : Option Nat :=
  match op.val with
  | 0 => some ((old + x) % 2 ^ w)
  | 1 => some (FFmt.fp32.write (round32 ((fp32 old).add .rne (fp32 (x % 2 ^ w))).1).1)
  | 2 => some (if (BitVec.ofNat w (x % 2 ^ w)).toInt < (BitVec.ofNat w old).toInt then x % 2 ^ w else old)
  | 3 => some (if (BitVec.ofNat w old).toInt < (BitVec.ofNat w (x % 2 ^ w)).toInt then x % 2 ^ w else old)
  | 4 => some (old &&& x % 2 ^ w)
  | 5 => some (old ||| x % 2 ^ w)
  | 6 => some (x % 2 ^ w)
  | _ => if old = c % 2 ^ w then some (x % 2 ^ w) else none

/-- R228: the old value as an atomic returns it: sign-extended for 32-bit forms but AFADD's. -/
def atomicReturns (op : Fin 8) (wide : Bool) (old : Nat) : Word :=
  if wide = true ∨ op = 1 then BitVec.ofNat 64 old else BitVec.ofInt 64 (BitVec.ofNat 32 old).toInt

/-- The `k` coherent bytes from a physical address, as a number (R4). -/
def cohNumber (s : State) (pa : Nat) : Nat → Nat
  | 0 => 0
  | k + 1 => (s.coh pa).toNat + 256 * cohNumber s (pa + 1) k

/-- The last writes of the `k` bytes from a place, as a number (R4, R243). -/
def coNumber (s : State) (n : StrandId) (l : Loc) : Nat → Nat
  | 0 => 0
  | k + 1 => (s.coByte n l).toNat + 256 * coNumber s n (l.shift 1) k

/-- A memory after a run of bytes is written at an address: every other byte is as before. -/
def Run (a b : List Host.Cell) (off : Nat) (bs : List Byte) : Prop :=
  ∀ x, Memory.read b x = if off ≤ x ∧ x < off + bs.length then bs.getD (x - off) 0 else Memory.read a x

/-- `k` bytes may be appended to CO at a place: within one line that the shared cache holds or has room for, or in a memory in
canonical form. -/
def Takeable (s : State) (n : StrandId) (l : Loc) (k : Nat) : Prop :=
  match l with
  | .glob pa | .fab _ (some pa) => pa % 128 + k ≤ 128 ∧ Held s pa
  | .fab _ none => Memory.wf s.remote = true
  | .scratch p _ => Memory.wf (s.pod p).scratch = true
  | .loc c _ => (s.ctx? c).isSome = true ∧ Memory.wf (s.localMem n c) = true

/-- Bytes have been appended to CO at a place of a strand, and every other byte of every memory is as before (R243, R244). -/
def Lands (s t : State) (n : StrandId) (l : Loc) (bs : List Byte) : Prop :=
  match l with
  | .glob pa | .fab _ (some pa) =>
    WritesRun s t pa bs ∧ t.remote = s.remote ∧ t.ctxs = s.ctxs ∧ ∀ p, (t.pod p).scratch = (s.pod p).scratch
  | .fab f none =>
    Run s.remote t.remote f bs ∧ (∀ a, t.coh a = s.coh a) ∧ t.ctxs = s.ctxs ∧ ∀ p, (t.pod p).scratch = (s.pod p).scratch
  | .scratch p off =>
    Run (s.pod p).scratch (t.pod p).scratch off bs ∧ (∀ a, t.coh a = s.coh a) ∧ t.remote = s.remote ∧ t.ctxs = s.ctxs ∧
      ∀ q, q ≠ p → (t.pod q).scratch = (s.pod q).scratch
  | .loc c off =>
    Run (s.localMem n c) (t.localMem n c) off bs ∧ (∀ a, t.coh a = s.coh a) ∧ t.remote = s.remote ∧
      (∀ p, (t.pod p).scratch = (s.pod p).scratch) ∧ ∀ n' c', n' ≠ n ∨ c' ≠ c → t.localMem n' c' = s.localMem n' c'

/-- A strand is as before, but that it may keep fewer L1 copies (R244, R245). -/
structure OnlyCopiesGo (a b : Strand) : Prop where
  rest : { b with l1 := [] } = { a with l1 := [] }
  copies : ∀ c ∈ b.l1, c ∈ a.l1

/-- A buffer's writes without one of a strand's. -/
def without (ws : List Write) (n : StrandId) (seq : Nat) : List Write := ws.filter (fun x => !(x.strand == n && x.seq == seq))

end Sys2Proof.Claims

/-- R220, R224, R226, R228: a scalar access whose address is not a multiple of its size raises ALIGN with that address. -/
def Obligations.MisalignedAccessesRaiseAlign : Prop :=
  ∀ (s : State) (i : Instr) (m : Mods) (uses : List SReg) (a : Word) (n : Nat) (c : Ctx),
    accessForm (mine s) i = some (m, uses, a, n) → Dispatches m uses s → s.ctxOf (me s) = some c → a.toNat % n ≠ 0 →
    Raises i s m ⟨0x24, a, 0⟩

/-- R119, R219, R221, R224, R239, R273: a load that faults in nothing enters the queue of its class with its place, size and
destination, and its register is written later, by BIND; a store that faults in nothing enters it with its bytes, the value's
lowest ones first, and an overwriting walk's suppressed store writes no byte. -/
def Obligations.LoadsAndStoresEnterTheirClass : Prop :=
  (∀ (s : State) (i : Instr) (m : Mods) (cls : BitVec 4) (d a c : SReg) (imm : BitVec 12) (n : Nat) (sg : Bool)
      (l : Loc) (e : Option TlbEntry),
      loadForm i = some (m, cls, d, a, c, imm, n, sg) → Dispatches m [d, a, c] s →
      (counted s m).access (me s) .read n (scaled ((mine s).getS a) ((mine s).getS c) n imm) = .ok (l, e) →
      readFault (mine s).permit (scaled ((mine s).getS a) ((mine s).getS c) n imm) n = none →
      (counted s m).entryBad l e = false → (mine s).logFull = false →
      ∃ t, exec i s = .next t ∧ Entered s t (classMask (s.curCtx (me s)) cls) (.load l n sg d none) 0 false) ∧
  ∀ (s : State) (i : Instr) (m : Mods) (cls : BitVec 4) (d a c : SReg) (imm : BitVec 12) (n : Nat)
    (l : Loc) (e : Option TlbEntry) (x : Word),
    storeForm i = some (m, cls, d, a, c, imm, n) → Dispatches m [d, a, c] s →
    x = scaled ((mine s).getS a) ((mine s).getS c) n imm →
    (counted s m).access (me s) .write n x = .ok (l, e) → writeFault (mine s).permit x n = none →
    (counted s m).wantsEntry l e = none →
    ∃ t bs, exec i s = .next t ∧ Entered s t (classMask (s.curCtx (me s)) cls) (.store l bs none) 0 false
        (suppOf (mine s).permit (n - bs.length)) ∧
      ((∀ k < n, writeVerdict (mine s).permit (x + BitVec.ofNat 64 k) = .write) →
        bs = (List.range n).map (fun k => BitVec.ofNat 8 (((mine s).getS d).toNat / 2 ^ (8 * k)))) ∧
      ((∃ k < n, writeVerdict (mine s).permit (x + BitVec.ofNat 64 k) = .suppress) → bs = [])

/-- R119, R226, R236, R239: an acquire load and a release store enter the queue of their class with their scope. -/
def Obligations.AcquiresAndReleasesEnterTheirClass : Prop :=
  ∀ (s : State) (i : Instr) (rel : Bool) (m : Mods) (cls : BitVec 4) (d a : SReg) (sc : Scope) (n : Nat)
    (l : Loc) (e : Option TlbEntry),
    syncForm i = some (rel, m, cls, d, a, sc, n) → Dispatches m [d, a] s → MoFree s →
    (rel = false → (mine s).logFull = false ∧ readFault (mine s).permit ((mine s).getS a) n = none ∧
      (counted s m).entryBad l e = false) →
    (rel = true → (counted s m).wantsEntry l e = none ∧
      ∀ k < n, writeVerdict (mine s).permit ((mine s).getS a + BitVec.ofNat 64 k) = .write) →
    (counted s m).access (me s) (if rel then .write else .read) n ((mine s).getS a) = .ok (l, e) →
    ∃ t, exec i s = .next t ∧ Entered s t (classMask (s.curCtx (me s)) cls)
      (if rel then .store l ((List.range n).map (fun k => BitVec.ofNat 8 (((mine s).getS d).toNat / 2 ^ (8 * k)))) (some sc)
        else .load l n false d (some sc)) 0 false

/-- R119, R227, R228, R237, R239: an atomic enters the queue of its class with its operation, operands, destination and order; in
fixed-order mode one to an ordered global page takes the iteration's next number, and raises BOUNDS beyond 2^32. -/
def Obligations.AtomicsEnterTheirClass : Prop :=
  ∀ (s : State) (i : Instr) (op : Fin 8) (m : Mods) (am : AtomMod) (d a b c : SReg) (w : Wid) (sc : Scope)
    (l : Loc) (e : Option TlbEntry) (page ordered : Bool),
    atomicForm i = some (op, m, am, d, a, b, c, w, sc) → Dispatches m [d, a, b, c] s → MoFree s → (mine s).logFull = false →
    (counted s m).access (me s) .write (if w then 8 else 4) ((mine s).getS a) = .ok (l, e) →
    atomFault (mine s).permit ((mine s).getS a) (if w then 8 else 4) = none → (counted s m).wantsEntry l e = none →
    (page = true ↔ (∃ pa, l = .glob pa) ∧ ∃ p, e = some p ∧ p.ord = true) →
    (ordered = true ↔ (s.curCtx (me s)).ordmode = true ∧ page = true) →
    (ordered = true → 2 ^ 32 ≤ (mine s).atomJ → Raises i s m ⟨0x22, (mine s).getS a, 0⟩) ∧
    ((ordered = true → (mine s).atomJ < 2 ^ 32) →
      ∃ t, exec i s = .next t ∧
        Entered s t (classMask (s.curCtx (me s)) am.cls)
          (.atom op l w ((mine s).getS b) ((mine s).getS c) d
            (if am.ord = .acquire ∨ am.ord = .acqrel then some sc else none)
            (if am.ord = .release ∨ am.ord = .acqrel then some sc else none) ordered) (mine s).atomJ page ∧
        (after s t).atomJ = (mine s).atomJ + (if ordered then 1 else 0))

/-- R230, R232 to R236, R239: FENCE enters every class of its mask (every class under revision 1); CMO passes over an empty or
on-package window range, enters its class with the lines of a global or fabric range, or raises what a page of the range refuses; BAR
reserves its record, arrives once the strand's older accesses have performed, waits before, and raises ILLEGAL for a MEMB that omits
its own core or names one of another partition. -/
def Obligations.FenceCmoAndBarTakeTheirPlace : Prop :=
  (∀ (s : State) (m : Mods) (sc : Scope) (eng : Bool) (cm : BitVec 16), Dispatches m [] s → MoFree s →
    ∃ t, exec (.fence m sc eng cm) s = .next t ∧
      Entered s t (if (s.curCtx (me s)).mmrev = 1 then BitVec.allOnes 16 else cm) (.fence sc eng) 0 false) ∧
  (∀ (s : State) (m : Mods) (cls : BitVec 4) (op level : BitVec 6) (a b : SReg) (x y : Word),
    Dispatches m [a, b] s → x = (mine s).getS a → y = (mine s).getS b →
    (y = 0 → ∃ t, exec (.cmo m cls op a b level) s = .next t ∧ Takes s t s.cur.next ∧ SameScalars (mine s) (after s t)) ∧
    (y ≠ 0 → (2 ^ 64 < x.toNat + y.toNat ∨ 2 ^ 30 < y.toNat) → Raises (.cmo m cls op a b level) s m ⟨0x22, x, 0⟩) ∧
    (y ≠ 0 → x.toNat + y.toNat ≤ 2 ^ 64 → y.toNat ≤ 2 ^ 30 →
      ((s.curCtx (me s)).rangeRegion x y = .error () → Raises (.cmo m cls op a b level) s m ⟨0x22, x, 0⟩) ∧
      (((s.curCtx (me s)).rangeRegion x y = .ok .core ∨ (s.curCtx (me s)).rangeRegion x y = .ok .pod) →
        ∃ t, exec (.cmo m cls op a b level) s = .next t ∧ Takes s t s.cur.next ∧ SameScalars (mine s) (after s t)) ∧
      (∀ r, (s.curCtx (me s)).rangeRegion x y = .ok .none →
        r = (counted s m).cmoFault (me s) (s.curCtx (me s)) (if op = 0 then .read else .write) x
          ((x.toNat + y.toNat - 1) / 65536 - x.toNat / 65536 + 1) →
        (∀ tr, r = some tr → tr.cause ≠ 0 → Raises (.cmo m cls op a b level) s m tr) ∧
        (r = none → ∃ t lines, exec (.cmo m cls op a b level) s = .next t ∧
          Entered s t (classMask (s.curCtx (me s)) cls)
            (.cmo op.toNat level.toNat lines (cmoSteps op.toNat level.toNat lines)) 0 false ∧
          ∀ v ∈ linesOf x y, ∀ pa p,
            (counted s m).translate (mine s).tlb (s.curCtx (me s)) .read (BitVec.ofNat 64 v) = .ok (pa, p) →
            .phys (pa / 128 * 128) ∈ lines)) ∧
      (∀ r, (s.curCtx (me s)).rangeRegion x y = .ok .fabric →
        r = (if level = 0 then none else (counted s m).fabricFault (me s) (s.curCtx (me s)) (if op = 0 then .read else .write) x
          ((x.toNat + y.toNat - 1) / 65536 - x.toNat / 65536 + 1)) →
        (∀ tr, r = some tr → tr.cause ≠ 0 → Raises (.cmo m cls op a b level) s m tr) ∧
        (r = none → ∃ t lines, exec (.cmo m cls op a b level) s = .next t ∧
          Entered s t (classMask (s.curCtx (me s)) cls)
            (.cmo op.toNat level.toNat lines (cmoSteps op.toNat level.toNat lines)) 0 false ∧
          lines.length = (linesOf x y).length)))) ∧
  (∀ (s : State) (m : Mods) (imm : BitVec 12), imm.toNat < 32 → (mine s).spaced 0 m = true →
    ((imm.getLsbD ((me s).val % 4) = false ∨ ∃ c : Fin 4, imm.getLsbD c.val = true ∧
        (s.partOf (strandOf (podOf (me s)) c) = none ∨ s.partOf (strandOf (podOf (me s)) c) ≠ s.partOf (me s))) →
      exec (.bar m imm) s = .next (s.raise (me s) ⟨0x01, 0, 0⟩ (mine s).pc)) ∧
    (s.barOk (me s) imm = true → Dispatches m [] s →
      ((mine s).barLog = none → MoFree s →
        ∃ t, exec (.bar m imm) s = .next t ∧ (after s t).barLog ≠ none ∧ (after s t).pc = (mine s).pc ∧
          (after s t).arrived = (mine s).arrived ∧ SameScalars (mine s) (after s t) ∧ SameVectors (mine s) (after s t) ∧
          SameTiles (mine s) (after s t) ∧ SameControl (mine s) (after s t) ∧ Elsewhere s t) ∧
      ((mine s).barLog ≠ none → (mine s).barReady (imm.getLsbD 4) = false →
        ∃ t, exec (.bar m imm) s = .next t ∧ after s t = { mine s with waiting := true }) ∧
      ((mine s).barLog ≠ none → (mine s).barReady (imm.getLsbD 4) = true →
        ∃ t, exec (.bar m imm) s = .next t ∧
          after s t = { mine s with waiting := true, arrived := some (BitVec.ofNat 5 imm.toNat) })))

/-- R221, R222, R224, R244, R245, R248: BIND of the load at the head of a class queue, no older acquire and no older atomic to its
bytes being left, writes its register with the bytes the load sees, sign- or zero-extended, and the load leaves its queue; an acquire
of pod scope or wider then drops the strand's L1 copies. -/
def Obligations.BindDeliversTheLoadsValue : Prop :=
  ∀ (s : State) (n : StrandId) (c : BitVec 4) (e : CqEntry) (l : Loc) (k : Nat) (sg : Bool) (d : SReg) (acq : Option Scope)
    (v : Nat),
    (s.strand n).head? c = some e → e.kind = .load l k sg d acq → 1 ≤ k → k ≤ 8 →
    s.acquireBefore n e.seq = false → (s.strand n).atomBefore e.seq l k = false → s.blocked l = false →
    (acq.isSome = true → s.syncBusy l = false) →
    v = bytesNat ((s.bindBytes n e.seq acq.isNone l k).map (·.1)) →
    ∃ t, exec (.bind n c) s = .next t ∧
      Writes (some (d, if sg then BitVec.ofInt 64 (BitVec.ofNat (8 * k) v).toInt else BitVec.ofNat 64 v))
        (s.strand n) (t.strand n) ∧
      (t.strand n).p = (s.strand n).p ∧ (t.strand n).pc = (s.strand n).pc ∧
      (t.strand n).cq = (s.strand n).cq.filter (fun x => x.seq != e.seq) ∧
      (∀ sc, acq = some sc → sc ≠ .strand → (t.strand n).l1 = []) ∧ ∀ n', n' ≠ n → t.strand n' = s.strand n'

/-- R92, R244, R248, R249, R273: LEAVE takes a store from its class queue to the issue buffer once every older instruction has passed
its last fault point, no older acquire is left and, for a release, every older access has performed at its scope; the strand's L1 copy
takes the store's bytes, and SUPP counts what the store suppresses, which that it does at this step is the model's reading (log entry
55, DEDUCED, unsafe). PUSH takes the oldest write of a class on: a global one to the Pod buffer, a fabric one to the fabric transit, one
to the Pod scratch or core-local memory to its bytes. Neither changes a coherent byte of another place. -/
def Obligations.LeaveAndPushMoveAStore : Prop :=
  (∀ (s : State) (n : StrandId) (c : BitVec 4) (e : CqEntry) (l : Loc) (bs : List Byte) (rel : Option Scope),
    (s.strand n).head? c = some e → e.kind = .store l bs rel → s.acquireBefore n e.seq = false →
    (s.strand n).passedBefore e.seq = true → (∀ sc, rel = some sc → s.performed n e.seq (BitVec.allOnes 16) sc = true) →
    ∃ t, exec (.leave n c) s = .next t ∧
      (t.strand n).ib = (s.strand n).ib ++ [⟨n, e.seq, e.pc, c, l, bs, e.log, rel.isSome⟩] ∧
      (t.strand n).cq = (s.strand n).cq.filter (fun x => x.seq != e.seq) ∧
      (t.strand n).l1 = l1Take (s.strand n).l1 l bs ∧
      (∀ p k x, s.slot p k = some x → ∃ y, t.slot p k = some y ∧
        y.supp = x.supp + (match e.supp with
          | some (q, j) => if q = (p, k) then j else 0
          | none => 0)) ∧
      SameScalars (s.strand n) (t.strand n) ∧ (∀ n', n' ≠ n → t.strand n' = s.strand n') ∧ SameBytes s t) ∧
  (∀ (s : State) (n : StrandId) (c : BitVec 4) (w : Write),
    (s.strand n).ib.find? (fun x => x.cls == c) = some w →
    (∀ pa, w.loc = .glob pa →
      ∃ t, exec (.push n c) s = .next t ∧ (t.pod (podOf n)).pb = (s.pod (podOf n)).pb ++ [w] ∧
        (t.strand n).ib = without (s.strand n).ib n w.seq ∧ ∀ a, t.coh a = s.coh a) ∧
    (∀ f h, w.loc = .fab f h →
      ∃ t, exec (.push n c) s = .next t ∧ t.ft = s.ft ++ [w] ∧
        (t.strand n).ib = without (s.strand n).ib n w.seq ∧ ∀ a, t.coh a = s.coh a) ∧
    (((∃ p off, w.loc = .scratch p off) ∨ ∃ x off, w.loc = .loc x off) → Takeable s n w.loc w.data.length →
      ∃ t, exec (.push n c) s = .next t ∧ Lands s t n w.loc w.data ∧
        (t.strand n).ib = without (s.strand n).ib n w.seq ∧ ∀ p, (t.pod p).pb = (s.pod p).pb))

/-- R244, R245: COMMIT makes the oldest write of a class in a strand's part of the Pod buffer and the fabric transit the last one of its
bytes, wherever they lie, and every other byte keeps its value; no strand changes, but that the writer may lose an L1 copy. -/
def Obligations.CommitMakesTheBytesCoherent : Prop :=
  ∀ (s : State) (n : StrandId) (c : BitVec 4) (w : Write),
    s.commitNext n c = some w → (w.rel = true → s.syncBusy w.loc = false) → s.blocked w.loc = false →
    Takeable s n w.loc w.data.length →
    ∃ t, exec (.commit n c) s = .next t ∧ Lands s t n w.loc w.data ∧
      (t.pod (podOf n)).pb = without (s.pod (podOf n)).pb n w.seq ∧ t.ft = without s.ft n w.seq ∧
      OnlyCopiesGo (s.strand n) (t.strand n) ∧ ∀ n', n' ≠ n → t.strand n' = s.strand n'

/-- R227, R228, R237, R244, R248, R249, R251: ATOM at the head of its class queue, every older write of its class committed and no older
acquire left, reads and writes its bytes at their home in one step and returns the old value, a release once every older access has
performed at its scope; an ordered entry that may be applied does the same from its buffer. Every other byte keeps its value. -/
def Obligations.AtomicsReadAndWriteInOneStep : Prop :=
  (∀ (s : State) (n : StrandId) (c : BitVec 4) (e : CqEntry) (op : Fin 8) (l : Loc) (w : Bool) (x y : Word) (d : SReg)
    (acq rel : Option Scope) (old k : Nat),
    (s.strand n).head? c = some e → e.kind = .atom op l w x y d acq rel false →
    (∀ sc, rel = some sc → s.performed n e.seq (BitVec.allOnes 16) sc = true) → s.syncBusy l = false →
    (s.strand n).passedBefore e.seq = true → s.acquireBefore n e.seq = false → s.atomClear n e.seq c = true →
    s.blocked l = false → k = (if w then 8 else 4) → Takeable s n l k → (op = 1 → w = false) → old = coNumber s n l k →
    ∃ t, exec (.atom n c) s = .next t ∧
      (match atomicLeaves op (8 * k) old x.toNat y.toNat with
        | some v => Lands s t n l ((List.range k).map (fun i => BitVec.ofNat 8 (v / 2 ^ (8 * i))))
        | none => ∀ n' l', t.coByte n' l' = s.coByte n' l') ∧
      Writes (some (d, atomicReturns op w old)) (s.strand n) (t.strand n) ∧
      (t.strand n).cq = (s.strand n).cq.filter (fun x => x.seq != e.seq) ∧ ∀ n', n' ≠ n → t.strand n' = s.strand n') ∧
  (∀ (s : State) (line : Nat) (e : OEntry) (k : Nat),
    s.applicable line = some e → (∀ sc, e.rel = some sc → s.performed e.strand e.seq (BitVec.allOnes 16) sc = true) →
    s.syncBusy (.glob e.pa) = false → s.blocked (.glob e.pa) = false → Held s e.pa → k = (if e.wide then 8 else 4) → e.pa % k = 0 →
    (e.op = 1 → e.wide = false) →
    ∃ t, exec (.orderedEntryApply line) s = .next t ∧ t.orbuf = s.orbuf.erase e ∧
      match atomicLeaves e.op (8 * k) (cohNumber s e.pa k) e.x.toNat 0 with
      | some v => WritesRun s t e.pa ((List.range k).map (fun i => BitVec.ofNat 8 (v / 2 ^ (8 * i))))
      | none => ∀ a, t.coh a = s.coh a)

/-- R244, R245, R254: FILL makes an L1 copy of a line with the bytes of its view, where no write of the strand's own is missing there,
and changes no other strand; DROP ends a copy, and EVICT takes a line out of the shared cache. All three keep every coherent byte: FILL
and EVICT where memory is in canonical form, no block of indirection entries is poisoned, and the lines of the shared cache are whole and
each there once. -/
def Obligations.FillDropAndEvictKeepMemory : Prop :=
  (∀ (s : State) (n : StrandId) (line : LineRef), LineRef.exists? s n line = true → s.ownWriteAway n line = false →
    s.blocked (LineRef.loc line) = false →
    ∃ t c, exec (.fill n line) s = .next t ∧ c ∈ (t.strand n).l1 ∧ c.line = line ∧ c.data = t.lineView n line ∧
      (∀ n', n' ≠ n → t.strand n' = s.strand n') ∧ SameScalars (s.strand n) (t.strand n) ∧
      (Memory.wf s.mem = true → s.mgmt.poisonedBlocks = [] → (∀ x ∈ s.sc, s.scLine? x.pa = some x ∧ x.data.length = 128) →
        ∀ a, t.coh a = s.coh a)) ∧
  (∀ (s : State) (n : StrandId) (line : LineRef),
    ∃ t, exec (.drop n line) s = .next t ∧ (∀ c, c ∈ (t.strand n).l1 ↔ c ∈ (s.strand n).l1 ∧ c.line ≠ line) ∧
      (∀ n', n' ≠ n → t.strand n' = s.strand n') ∧ SameBytes s t) ∧
  (∀ (s : State) (pa : Nat) (x : ScLine), s.scLine? pa = some x → x.held = false → x.bad = false → s.tagBad x.pa = false → x.data.length = 128 →
    Memory.wf s.mem = true → s.mgmt.poisonedBlocks = [] →
    ∃ t, exec (.evict pa) s = .next t ∧ t.scLine? pa = none ∧ (∀ a, t.coh a = s.coh a) ∧ ∀ n, t.strand n = s.strand n)

/-- R231, R235, R247, R250: a FENCE completes once it heads its queues, the accesses of its classes before it have performed and, with
ENG, the engine and vector instructions of those classes have completed, a vector load once all its accesses are made, and drops the strand's L1 copies at pod scope or wider; a barrier completes once every participant has arrived with the same MEMB, and each goes on after its BAR with no L1
copy. -/
def Obligations.FencesAndBarriersComplete : Prop :=
  (∀ (s : State) (n : StrandId) (seq : Nat) (e : CqEntry) (sc : Scope) (eng : Bool),
    (s.strand n).cq.find? (fun x => x.seq == seq) = some e → e.kind = .fence sc eng →
    (∀ x ∈ (s.strand n).cq, x.seq < seq → x.classes &&& e.classes = 0) →
    (eng = true → ∀ q ∈ (s.strand n).entries, q.seq < seq → QEntry.accessed q = true ∨
      ∀ c, s.entryClass n q = some c → e.classes.getLsbD c.toNat = false) →
    s.performed n seq e.classes sc = true →
    ∃ t, exec (.fenceComplete n seq) s = .next t ∧ (t.strand n).cq = (s.strand n).cq.filter (fun x => x.seq != seq) ∧
      (sc ≠ .strand → (t.strand n).l1 = []) ∧ SameScalars (s.strand n) (t.strand n) ∧
      (∀ n', n' ≠ n → t.strand n' = s.strand n') ∧ SameBytes s t) ∧
  (∀ (s : State) (pod : PodId) (memb : BitVec 4), memb ≠ 0 →
    (∀ c : Fin 4, memb.getLsbD c.val = true → (s.arrivedAt (strandOf pod c) memb).isSome = true) →
    ∃ t, exec (.barComplete pod memb) s = .next t ∧ SameBytes s t ∧
      (∀ c : Fin 4, memb.getLsbD c.val = true → ∀ m next, s.arrivedAt (strandOf pod c) memb = some (m, next) →
        (t.strand (strandOf pod c)).pc = next ∧ (t.strand (strandOf pod c)).arrived = none ∧
        (t.strand (strandOf pod c)).barLog = none ∧
        (t.strand (strandOf pod c)).l1 = [] ∧
        SameScalars (s.strand (strandOf pod c)) (t.strand (strandOf pod c))) ∧
      ∀ n, (podOf n ≠ pod ∨ memb.getLsbD (n.val % 4) = false) → t.strand n = s.strand n)

/-! ### The stack, and instructions of the queues -/

namespace Sys2Proof.Claims

/-- R78: the stack-manipulation instructions that reorder the image: fields, how many depths they name, how many references they
add, and the image they leave, the top first. -/
def stackForm : Instr → Option (Mods × Nat × Int × (List Nat → List Nat))
  | .tdup m => some (m, 1, 1, fun l => l.getD 0 0 :: l)
  | .tdrop m => some (m, 1, -1, fun l => l.drop 1)
  | .tswap m => some (m, 2, 0, fun l => l.getD 1 0 :: l.getD 0 0 :: l.drop 2)
  | .tover m => some (m, 2, 1, fun l => l.getD 1 0 :: l)
  | .tpick m n => some (m, n.toNat + 1, 1, fun l => l.getD n.toNat 0 :: l)
  | .trot m n => some (m, n.toNat + 1, 0, fun l => l.getD n.toNat 0 :: (l.take n.toNat ++ l.drop (n.toNat + 1)))
  | .tbury m n => some (m, n.toNat + 1, 0, fun l => (l.drop 1).take n.toNat ++ l.getD 0 0 :: l.drop (n.toNat + 1))
  | _ => none

/-- TINFO of a stack fault (R90). -/
def stackReport (limit depth need : Nat) : Word :=
  BitVec.ofNat 64 (limit % 1024 * 2 ^ 20 + depth % 1024 * 2 ^ 10 + need % 1024)

/-- What dispatch does with an engine or vector instruction (R13, R77): its fields, its queue, its scalar operands, how many
depths it names from the top down, how many references it pops, and whether it pushes a tile. -/
structure QueueForm where
  m : Mods
  q : QName
  uses : List SReg
  names : Nat
  pops : Nat
  pushes : Bool

/-- The vector instructions (R150 to R184): none names a tile. -/
def vectorForm : Instr → Option QueueForm
  | .vadd m _ _ _ _ _ _ | .vsub m _ _ _ _ _ _ | .vmul m _ _ _ _ _ _ | .vdiv m _ _ _ _ _ _ | .vmin m _ _ _ _ _ _
  | .vmax m _ _ _ _ _ _ | .vand m _ _ _ _ _ _ | .vor m _ _ _ _ _ _ | .vxor m _ _ _ _ _ _ | .vshl m _ _ _ _ _ _
  | .vshr m _ _ _ _ _ _ | .vsar m _ _ _ _ _ _ => some ⟨m, .V, [], 0, 0, false⟩
  | .vfma m _ _ _ _ _ _ _ | .vfms m _ _ _ _ _ _ _ | .vfshl m _ _ _ _ _ _ _ | .vfshr m _ _ _ _ _ _ _
  | .vsel m _ _ _ _ _ _ _ => some ⟨m, .V, [], 0, 0, false⟩
  | .vabs m _ _ _ _ _ | .vneg m _ _ _ _ _ | .vnot m _ _ _ _ _ | .vrsum m _ _ _ _ _ | .vrmax m _ _ _ _ _
  | .vrmin m _ _ _ _ _ | .vscan m _ _ _ _ _ | .vscanm m _ _ _ _ _ | .vsin m _ _ _ _ _ | .vcos m _ _ _ _ _
  | .vexp m _ _ _ _ _ | .vlog m _ _ _ _ _ | .vrcp m _ _ _ _ _ | .vrsq m _ _ _ _ _ => some ⟨m, .V, [], 0, 0, false⟩
  | .vcmpeq m _ _ _ _ _ _ | .vcmpne m _ _ _ _ _ _ | .vcmplt m _ _ _ _ _ _ | .vcmple m _ _ _ _ _ _ => some ⟨m, .V, [], 0, 0, false⟩
  | .kand m _ _ _ | .kor m _ _ _ | .kxor m _ _ _ => some ⟨m, .V, [], 0, 0, false⟩
  | .knot m _ _ => some ⟨m, .V, [], 0, 0, false⟩
  | .vcvt m _ _ _ _ _ _ | .vwid m _ _ _ _ _ _ | .vnar m _ _ _ _ _ _ | .vgsum m _ _ _ _ _ _ | .vgmax m _ _ _ _ _ _
  | .vgmin m _ _ _ _ _ _ | .vqnt m _ _ _ _ _ _ => some ⟨m, .V, [], 0, 0, false⟩
  | .vperm m _ _ _ _ _ | .vshuf m _ _ _ _ _ _ => some ⟨m, .V, [], 0, 0, false⟩
  | .vbcst m _ a _ _ => some ⟨m, .V, [a], 0, 0, false⟩
  | .vext m d _ b _ => some ⟨m, .V, [b, d], 0, 0, false⟩
  | .vlrot m _ _ b _ _ => some ⟨m, .V, [b], 0, 0, false⟩
  | .vld m _ _ a _ _ _ | .vst m _ _ a _ _ _ | .vldu m _ _ a _ _ _ | .vstm m _ _ a _ _ _ => some ⟨m, .V, [a], 0, 0, false⟩
  | .vgath m _ _ a _ _ _ _ | .vscat m _ _ a _ _ _ _ => some ⟨m, .V, [a], 0, 0, false⟩
  | _ => none

/-- The matrix and lease instructions, with their stack effects (R198 to R208). -/
def matrixForm : Instr → Option QueueForm
  | .mma m => some ⟨m, .M, [], 2, 2, true⟩
  | .mmac m => some ⟨m, .M, [], 3, 3, true⟩
  | .madd m _ | .msub m _ | .mmul m _ => some ⟨m, .M, [], 2, 2, true⟩
  | .mscal m _ a => some ⟨m, .M, [a], 1, 1, true⟩
  | .mcvt m _ _ _ => some ⟨m, .M, [], 1, 1, true⟩
  | .mtrn m | .mrsum m => some ⟨m, .M, [], 1, 1, true⟩
  | .mspar m _ => some ⟨m, .M, [], 1, 1, true⟩
  | .mzero m _ a _ => some ⟨m, .M, [a], 0, 0, true⟩
  | .mhdr m a => some ⟨m, .M, [a], 1, 1, true⟩
  | .mchk m => some ⟨m, .M, [], 1, 0, false⟩
  | .lacq m | .lrel m => some ⟨m, .M, [], 0, 0, false⟩
  | _ => none

/-- The tile loads and stores, the copy commands and the tag instructions (R189 to R194, R209 to R218), with the engine each
needs. -/
def transferForm : Instr → Option (QueueForm × EngineKind)
  | .tld m _ a => some (⟨m, .L, [a], 0, 0, true⟩, .load)
  | .tldh m _ h o x => some (⟨m, .L, [h, o, x], 0, 0, true⟩, .load)
  | .tldr m _ _ a x p => some (⟨m, .L, [a, x, p], 0, 0, true⟩, .load)
  | .tst m _ a => some (⟨m, .S, [a], 1, 1, false⟩, .store)
  | .tstk m _ a => some (⟨m, .S, [a], 1, 0, false⟩, .store)
  | .cpy m _ _ d s n => some (⟨m, .L, [d, s, n], 0, 0, false⟩, .copy)
  | .cpyg m _ _ d b l _ => some (⟨m, .L, [d, b, l], 0, 0, false⟩, .copy)
  | .cpyd m _ _ s n => some (⟨m, .L, [s, n], 0, 0, false⟩, .copy)
  | .cpye m _ _ d s n _ => some (⟨m, .L, [d, s, n], 0, 0, false⟩, .copy)
  | .coll m _ _ a => some (⟨m, .L, [a], 0, 0, false⟩, .copy)
  | .wtall m a | .wtany m a | .tagcl m a => some (⟨m, .L, [a], 0, 0, false⟩, .copy)
  | .tagff m d a => some (⟨m, .L, [a, d], 0, 0, false⟩, .copy)
  | _ => none

/-- The tile-builder instructions and VDEC (R184, R195 to R197), with what each needs of the builder and of the declared
vectors. -/
def builderForm (t : Strand) : Instr → Option (QueueForm × Prop)
  | .tbeg m _ a => some (⟨m, .V, [a], 0, 0, true⟩, t.openId = none)
  | .trow m _ _ _ => some (⟨m, .V, [], 0, 0, false⟩, t.openId ≠ none)
  | .tend m => some (⟨m, .V, [], 0, 0, false⟩, t.openId ≠ none)
  | .trv m _ _ r c _ => some (⟨m, .V, [r, c], 1, 0, false⟩, t.image = [] ∨ t.openId ≠ t.image.getLast?)
  | .tcv m _ _ c _ => some (⟨m, .V, [c], 1, 0, false⟩, t.image = [] ∨ t.openId ≠ t.image.getLast?)
  | .vdec m _ => some (⟨m, .V, [], 0, 0, false⟩, t.vdecs < t.declared)
  | _ => none

/-- The references at depths 0 to k − 1, the top first (R73). -/
def topReferences (t : Strand) (k : Nat) : List Nat := t.image.reverse.take k

/-- The instruction may dispatch to its queue (R17, R75, R77, R370): its guards hold and its registers are loaded, the depths it
names exist, the image has room, the pool has an entry, an identity is free, and its stamp finds room; no load is kept. -/
structure MayQueue (s : State) (f : QueueForm) : Prop where
  dispatches : Dispatches f.m f.uses s
  depth : (mine s).tfloor + f.names ≤ (mine s).image.length
  limit : f.pops < f.pushes.toNat → (mine s).image.length - f.pops + f.pushes.toNat ≤ (mine s).stklim
  pool : s.poolRoom (me s) f.q = true
  identity : f.pushes = true → (mine s).freeId?.isSome = true
  stamp : f.pushes = true → HasRoom (s.part (s.tagOf (me s))).stamp
  notKept : (mine s).kept = none

/-- The instruction stands in its queue with what dispatch captured (R21, R77, R188); its result is an empty tile of the lowest
free identity on top of the image; no scalar, predicate, vector or other strand has changed, and no byte of memory. -/
structure Queued (s t : State) (i : Instr) (f : QueueForm) : Prop where
  entry : ∃ e ∈ (after s t).queue f.q, e.seq = (mine s).nseq ∧ e.instr = i ∧ e.holds = true ∧ e.stage = .waiting ∧
    e.pc = (mine s).pc ∧ e.scalars = f.uses.map (mine s).getS ∧ e.tiles = topReferences (mine s) f.names ∧
    e.results = (if f.pushes then (mine s).freeId?.toList else [])
  image : (after s t).image = (mine s).image.take ((mine s).image.length - f.pops) ++
    (if f.pushes then (mine s).freeId?.toList else [])
  fresh : ∀ id, f.pushes = true → (mine s).freeId? = some id →
    ∃ r, (after s t).tile? id = some r ∧ r.full = false ∧ r.sunk = false ∧ r.tile = none
  floor : (after s t).tfloor = (mine s).tfloor
  younger : (after s t).nseq = (mine s).nseq + 1
  next : (after s t).pc = s.cur.next
  scalars : SameScalars (mine s) (after s t)
  vectors : (after s t).v = (mine s).v ∧ (after s t).k = (mine s).k
  control : SameControl (mine s) (after s t)
  elsewhere : Elsewhere s t

/-- A queued instruction of the strand that may start now (R14, R15, R80, R92, R231, R390): the head of its queue, no token, push or
tile missing, no older fault, no FENCE before it, no error to be found in its operands. -/
structure HeadStarts (s : State) (n : StrandId) (q : QName) (e : QEntry) : Prop where
  head : (s.strand n).qhead? q = some e
  free : (s.strand n).startBlock q e = .free
  holds : e.holds = true
  unfenced : s.fenced n e = false
  sound : s.tileErrorDue n e = false
  own : ∀ x ∈ (s.strand n).entries, x.seq = e.seq → x = e

/-- R163 to R165: the result of an integer lane operation of INT8 or INT32 without SAT, on two lanes' patterns of `w` bits: the sum,
difference and product modulo 2^w, the minimum and maximum, the bitwise operations and the shifts. -/
def integerLane (w : Nat) : Instr → Option (VReg × VReg × VReg × Ty × KReg × Bool × (Nat → Nat → Nat))
  | .vadd _ a d x y ty k => if a.sat then none else some (d, x, y, ty, k, a.bit30, fun p q => (p + q) % 2 ^ w)
  | .vsub _ a d x y ty k => if a.sat then none else some (d, x, y, ty, k, a.bit30, fun p q => (p + (2 ^ w - q)) % 2 ^ w)
  | .vmul _ a d x y ty k => if a.sat then none else some (d, x, y, ty, k, a.bit30, fun p q => p * q % 2 ^ w)
  | .vmin _ a d x y ty k => some (d, x, y, ty, k, a.bit30, fun p q =>
      if (if a.bit31 then p ≤ q else (BitVec.ofNat w p).toInt ≤ (BitVec.ofNat w q).toInt) then p else q)
  | .vmax _ a d x y ty k => some (d, x, y, ty, k, a.bit30, fun p q =>
      if (if a.bit31 then p ≤ q else (BitVec.ofNat w p).toInt ≤ (BitVec.ofNat w q).toInt) then q else p)
  | .vand _ a d x y ty k => some (d, x, y, ty, k, a.bit30, fun p q => p &&& q)
  | .vor _ a d x y ty k => some (d, x, y, ty, k, a.bit30, fun p q => p ||| q)
  | .vxor _ a d x y ty k => some (d, x, y, ty, k, a.bit30, fun p q => p ^^^ q)
  | .vshl _ a d x y ty k => if a.sat then none else some (d, x, y, ty, k, a.bit30, fun p q =>
      if w ≤ q then 0 else p * 2 ^ q % 2 ^ w)
  | .vshr _ a d x y ty k => some (d, x, y, ty, k, a.bit30, fun p q => if w ≤ q then 0 else p / 2 ^ q)
  | .vsar _ a d x y ty k => some (d, x, y, ty, k, a.bit30, fun p q =>
      (BitVec.ofInt w ((BitVec.ofNat w p).toInt / 2 ^ min q w)).toNat)
  | _ => none

/-- R163: the result of a float lane operation on two lanes' patterns: the exact sum, difference, product or quotient of their values
rounded once under RM and SAT (R54, R55), and the minimum and maximum (R57). -/
def floatLane (f : FFmt) : Instr → Option (VReg × VReg × VReg × Ty × KReg × Bool × (Nat → Nat → Nat))
  | .vadd _ a d x y ty k => some (d, x, y, ty, k, a.bit30, fun p q =>
      f.write (((Machine.Num.add a.rm (f.read p) (f.read q)).1).round f a.rm a.sat).1)
  | .vsub _ a d x y ty k => some (d, x, y, ty, k, a.bit30, fun p q =>
      f.write (((Machine.Num.add a.rm (f.read p) (f.read q).neg).1).round f a.rm a.sat).1)
  | .vmul _ a d x y ty k => some (d, x, y, ty, k, a.bit30, fun p q =>
      f.write (((f.read p).mul (f.read q)).1.round f a.rm a.sat).1)
  | .vdiv _ a d x y ty k => some (d, x, y, ty, k, a.bit30, fun p q =>
      f.write (Machine.Num.divRound f a.rm a.sat (f.read p) (f.read q)).1)
  | .vmin _ a d x y ty k => some (d, x, y, ty, k, a.bit30, fun p q => f.write ((f.read p).minNum (f.read q)))
  | .vmax _ a d x y ty k => some (d, x, y, ty, k, a.bit30, fun p q => f.write ((f.read p).maxNum (f.read q)))
  | _ => none

/-- Lane `i` of a register, `w` bits wide. -/
def laneOf (w : Nat) (x : BitVec 4096) (i : Nat) : Nat := x.toNat / 2 ^ (w * i) % 2 ^ w

/-- A register result, lane by lane: an active lane gets its value, another keeps its old pattern or, under ZM, is zero (R151). -/
def LaneByLane (t : Strand) (w : Nat) (d : VReg) (k : KReg) (zm : Bool) (f : Nat → Nat) (x : BitVec 4096) : Prop :=
  ∀ j < 4096 / w, laneOf w x j =
    if (t.getK k).getLsbD j = true then f j % 2 ^ w else if zm then 0 else laneOf w (t.getV d) j

/-- R163 to R165, R169 and R175: what a vector instruction computes: the two-operand integer and float lanes, a conversion between
types of one width, and the sum of the active lanes of INT8 or INT32 without SAT, which goes to lane 0. -/
def LanesComputed : Prop :=
  (∀ (t : Strand) (sc : Nat → Word) (i : Instr) (w : Nat) (d a b : VReg) (ty : Ty) (k : KReg) (zm : Bool) (f : Nat → Nat → Nat),
    (integerLane w i = some (d, a, b, ty, k, zm, f) ∧ (ty = .int8 ∧ w = 8 ∨ ty = .int32 ∧ w = 32)) ∨
      (∃ g, floatLane g i = some (d, a, b, ty, k, zm, f) ∧ ty.nfmt = .flt g ∧ w = ty.width) →
    ∃ lat x fl, vectorOp t sc i = some (lat, ([.v d x], fl)) ∧
      LaneByLane t w d k zm (fun j => f (laneOf w (t.getV a) j) (laneOf w (t.getV b) j)) x) ∧
  (∀ (t : Strand) (sc : Nat → Word) (m : Mods) (a : Arith) (d v : VReg) (tt ty : Ty) (k : KReg), tt.width = ty.width →
    ∃ lat x fl, vectorOp t sc (.vcvt m a d v tt ty k) = some (lat, ([.v d x], fl)) ∧
      LaneByLane t ty.width d k a.bit30
        (fun j => (convert tt.nfmt a.rm a.sat (ty.nfmt.read (laneOf ty.width (t.getV v) j)).1).1) x) ∧
  ∀ (t : Strand) (sc : Nat → Word) (m : Mods) (a : Arith) (d v : VReg) (ty : Ty) (k : KReg), a.sat = false →
    ty = .int8 ∨ ty = .int32 →
    ∃ lat x fl, vectorOp t sc (.vrsum m a d v ty k) = some (lat, ([.v d x], fl)) ∧
      laneOf ty.width x 0 = (((List.range (4096 / ty.width)).filter (fun j => (t.getK k).getLsbD j)).map
        (fun j => laneOf ty.width (t.getV v) j)).sum % 2 ^ ty.width ∧
      ∀ j < 4096 / ty.width, 0 < j → laneOf ty.width x j = 0

/-- A started instruction of a queue: no fault, and its guards held. -/
structure Running (s : State) (n : StrandId) (q : QName) (seq : Nat) (e : QEntry) : Prop where
  found : ((s.strand n).queue q).find? (fun x => x.seq == seq) = some e
  started : e.stage = .started
  holds : e.holds = true
  sound : e.fault = none

/-- A step of a started instruction makes the last of its accesses: the state and the entry then. -/
structure AllMade (s : State) (n : StrandId) (q : QName) (seq portion : Nat) (e : QEntry) (s1 : State) (e1 : QEntry) : Prop where
  runs : Running s n q seq e
  made : s.accesses n (q == .V) e portion = (s1, e1)
  reads : e1.work.reads = []
  writes : e1.work.writes = []

/-- An entry of a queue with a program-order number, after a step. -/
def Entry (t : State) (n : StrandId) (q : QName) (seq : Nat) (P : QEntry → Prop) : Prop := ∃ x ∈ (t.strand n).queue q, x.seq = seq ∧ P x

/-- The accesses of the vector memory instructions of whole-byte types, one per active lane in ascending order (R180): whether they
write, the register, the type, the accesses, their alignment rule and the region they may not leave. -/
def vectorAccesses (s : State) (n : StrandId) (e : QEntry) :
    Option (Bool × VReg × Ty × List Nat × List LaneAcc × (Word → Bool) × Option Region) :=
  let t := s.strand n
  let lanes (k : KReg) (ty : Ty) : List Nat := (List.range (4096 / ty.width)).filter (fun i => (t.getK k).getLsbD i)
  let line (a : Word) (ty : Ty) (ls : List Nat) : List LaneAcc := ls.map (fun i => ⟨i, a + BitVec.ofNat 64 (ty.width / 8 * i), ty.width / 8⟩)
  let at64 (imm : BitVec 6) : Word := e.scalar 0 + BitVec.ofInt 64 (64 * imm.toInt)
  let offset (vc : VReg) (i : Nat) : Int := (BitVec.ofNat 32 (laneOf 32 (t.getV (regOf vc (i / 128))) (i % 128))).toInt
  let spread (imm : BitVec 6) (vc : VReg) (ty : Ty) (ls : List Nat) : List LaneAcc :=
    ls.map (fun i => ⟨i, e.scalar 0 + BitVec.ofInt 64 ((offset vc i + imm.toInt) * (ty.width / 8 : Nat)), ty.width / 8⟩)
  match e.instr with
  | .vld _ _ v _ imm ty k => some (false, v, ty, lanes k ty, line (at64 imm) ty (lanes k ty), lineAligned (at64 imm), startRegion s n (at64 imm))
  | .vst _ _ v _ imm ty k => some (true, v, ty, lanes k ty, line (at64 imm) ty (lanes k ty), lineAligned (at64 imm), startRegion s n (at64 imm))
  | .vgath _ _ v _ vc imm ty k => some (false, v, ty, lanes k ty, spread imm vc ty (lanes k ty), elementAligned ty, none)
  | .vscat _ _ v _ vc imm ty k => some (true, v, ty, lanes k ty, spread imm vc ty (lanes k ty), elementAligned ty, none)
  | _ => none

/-- R180, R181: VLD, VST, VGATH and VSCAT of whole-byte types, whose accesses pass their checks, start with those accesses: a store
writes each active lane's pattern to its place. A load whose last access is made leaves each active lane its bytes. -/
def VectorMemoryMoves : Prop :=
  (∀ (s : State) (n : StrandId) (e : QEntry) (st : Bool) (v : VReg) (ty : Ty) (ls : List Nat) (accs : List LaneAcc) (al : Word → Bool)
      (rg : Option Region) (rs : List (LaneAcc × Loc × Option TlbEntry)),
    HeadStarts s n .V e → Instr.spacing e.instr ≤ (s.strand n).vgap → (s.strand n).countBlocked 1 = false →
    (s.strand n).logFull = false → (∀ p ∈ (s.strand n).pend, p.seq ≠ e.seq) → e.permit = none → vectorAccesses s n e = some (st, v, ty, ls, accs, al, rg) → 8 ≤ ty.width →
    s.laneChecks n (if st then .write else .read) none al rg accs = .ok rs → rs ≠ [] →
    ∃ t, exec (.engineInstructionStart n .V) s = .next t ∧ Entry t n .V e.seq (fun y =>
      if st then y.work.writes = rs.map (fun r =>
        ⟨r.2.1, natBytes (ty.width / 8) (laneOf ty.width ((s.strand n).getV v) r.1.lane), 0xFF⟩)
      else y.work.reads = rs.map (fun r => (r.2.1, ty.width / 8)) ∧ y.work.nums = ls)) ∧
  ∀ (s : State) (n : StrandId) (seq portion : Nat) (e : QEntry) (s1 : State) (e1 : QEntry) (v : VReg) (ty : Ty) (x : BitVec 4096) (p : Pending),
    AllMade s n .V seq portion e s1 e1 →
    (∃ m mm a imm k, e.instr = .vld m mm v a imm ty k) ∨ (∃ m mm a vc imm k, e.instr = .vgath m mm v a vc imm ty k) →
    8 ≤ ty.width → e.work.nums.Nodup → (∀ i ∈ e.work.nums, i < 4096 / ty.width) →
    e1.work.got.length = e.work.nums.length * (ty.width / 8) →
    p ∈ (s.strand n).pend → p.seq = seq → p.dests = [.v v x] →
    ∃ t, exec (.engineInstructionComplete n .V seq portion) s = .next t ∧ ∃ y, { p with ready := true, dests := [.v v y] } ∈ (t.strand n).pend ∧
      (∀ j < e.work.nums.length, laneOf ty.width y (e.work.nums.getD j 0) =
        bytesNat ((e1.work.got.drop (j * (ty.width / 8))).take (ty.width / 8))) ∧
      ∀ i < 4096 / ty.width, i ∉ e.work.nums → laneOf ty.width y i = laneOf ty.width x i

end Sys2Proof.Claims

/-- R73, R77, R78, R90: a stack-manipulation instruction whose depths exist and whose image has room reorders the image at
dispatch; one that names a missing depth raises STACK_UNDERFLOW, one that would pass STKLIM STACK_OVERFLOW, each with LIMIT,
DEPTH and NEED in TINFO. -/
def Obligations.StackInstructionsReorderTheImage : Prop :=
  ∀ (s : State) (i : Instr) (m : Mods) (names : Nat) (grows : Int) (f : List Nat → List Nat),
    stackForm i = some (m, names, grows, f) → Dispatches m [] s →
    ((mine s).image.length < (mine s).tfloor + names →
      Raises i s m ⟨0x08, 0, stackReport (mine s).tfloor (mine s).image.length names⟩) ∧
    ((mine s).tfloor + names ≤ (mine s).image.length →
      (0 < grows → (mine s).stklim < (mine s).image.length + 1 →
        Raises i s m ⟨0x09, 0, stackReport (mine s).stklim (mine s).image.length ((mine s).image.length + 1)⟩) ∧
      ((0 < grows → (mine s).image.length + 1 ≤ (mine s).stklim) →
        ∃ t, exec i s = .next t ∧ (after s t).image = (f (mine s).image.reverse).reverse ∧
          (after s t).pc = s.cur.next ∧ (after s t).tfloor = (mine s).tfloor ∧ SameScalars (mine s) (after s t) ∧
          SameVectors (mine s) (after s t) ∧ SameControl (mine s) (after s t) ∧ Elsewhere s t))

/-- R79, R107, R109: TMARK opens a frame over the top n references and saves the floor, or restores a saved floor, and raises
STACK_UNDERFLOW past the depth; DBND makes slot 0 of its bundle the next to dispatch. Nothing else changes. That the number asked for
stands in NEED modulo 1,024 is the model's choice (log entry 64, DESIGN CHOICE, unsafe). -/
def Obligations.FramesAndBundlesOpen : Prop :=
  (∀ (s : State) (m : Mods) (d : SReg) (n : BitVec 12), Dispatches m [d] s →
    ((mine s).image.length < (mine s).tfloor + n.toNat →
      Raises (.tmarkOpen m d n) s m ⟨0x08, 0, stackReport (mine s).tfloor (mine s).image.length n.toNat⟩) ∧
    ((mine s).tfloor + n.toNat ≤ (mine s).image.length →
      ∃ t, exec (.tmarkOpen m d n) s = .next t ∧ OnlyMe s t ∧
        Counted { mine s with tfloor := (mine s).image.length - n.toNat } (after s t) ∧
        Writes (some (d, BitVec.ofNat 64 (mine s).tfloor)) (mine s) (after s t) ∧ (after s t).p = (mine s).p ∧
        (after s t).pc = s.cur.next)) ∧
  (∀ (s : State) (m : Mods) (a : SReg), Dispatches m [a] s →
    ((mine s).image.length < ((mine s).getS a).toNat →
      Raises (.tmarkClose m a) s m ⟨0x08, 0, stackReport (mine s).tfloor (mine s).image.length ((mine s).getS a).toNat⟩) ∧
    (((mine s).getS a).toNat ≤ (mine s).image.length →
      ∃ t, exec (.tmarkClose m a) s = .next t ∧ OnlyMe s t ∧
        Counted { mine s with tfloor := ((mine s).getS a).toNat } (after s t) ∧ SameScalars (mine s) (after s t) ∧
        (after s t).pc = s.cur.next)) ∧
  ∀ (s : State) (c2 c1 c0 : BitVec 16),
    ∃ t, exec (.dbnd c2 c1 c0) s = .next t ∧ OnlyMe s t ∧ after s t = { mine s with slot0 := true }

/-- R13, R21, R152, R184: a vector instruction that may dispatch stands in the V queue with its scalars captured. -/
def Obligations.VectorInstructionsQueue : Prop :=
  ∀ (s : State) (i : Instr) (f : QueueForm), vectorForm i = some f → MayQueue s f →
    ∃ t, exec i s = .next t ∧ Queued s t i f

/-- R13, R77, R112, R188, R345: a matrix or lease instruction whose partition owns the Pod's matrix array stands in the M queue,
its operands named, its result an empty tile; without the array it raises ENGINE_NOT_OWNED before its guards. -/
def Obligations.MatrixInstructionsQueue : Prop :=
  ∀ (s : State) (i : Instr) (f : QueueForm), matrixForm i = some f →
    (s.owns (me s) .matrix = false → exec i s = .next (s.raise (me s) ⟨0x04, 0, 0⟩ (mine s).pc)) ∧
    (s.owns (me s) .matrix = true → MayQueue s f → ∃ t, exec i s = .next t ∧ Queued s t i f)

/-- R13, R77, R112, R184, R188, R345: a tile load or store, a copy command or a tag instruction whose partition owns an engine of
its kind in the Pod stands in the L or S queue; CPYD declares its vectors. Without an engine it raises ENGINE_NOT_OWNED. -/
def Obligations.TransferInstructionsQueue : Prop :=
  ∀ (s : State) (i : Instr) (f : QueueForm) (k : EngineKind), transferForm i = some (f, k) →
    (s.owns (me s) k = false → exec i s = .next (s.raise (me s) ⟨0x04, 0, 0⟩ (mine s).pc)) ∧
    (s.owns (me s) k = true → MayQueue s f → ∃ t, exec i s = .next t ∧ Queued s t i f ∧
      (after s t).declared = (match i with
        | .cpyd _ _ _ _ n => (mine s).declared + ((mine s).getS n).toNat
        | _ => (mine s).declared))

/-- R184, R195 to R197: a tile-builder instruction or VDEC stands in the V queue when the builder is open or closed as it asks, and
raises ILLEGAL otherwise (VDEC beyond the declared vectors BOUNDS); TBEG opens the builder with its new tile, TEND closes it. -/
def Obligations.BuilderInstructionsQueue : Prop :=
  ∀ (s : State) (i : Instr) (f : QueueForm) (ok : Prop), builderForm (mine s) i = some (f, ok) →
    (¬ ok → Dispatches f.m f.uses s →
      Raises i s f.m ⟨match i with
        | .vdec _ _ => 0x22
        | _ => 0x01, 0, 0⟩) ∧
    (ok → MayQueue s f → ∃ t, exec i s = .next t ∧ Queued s t i f ∧
      (after s t).openId = (match i with
        | .tbeg _ _ _ => (mine s).freeId?
        | .tend _ => none
        | _ => (mine s).openId) ∧
      (after s t).vdecs = (match i with
        | .vdec _ _ => (mine s).vdecs + 1
        | _ => (mine s).vdecs))

/-- R15, R77, R98: a vector or engine instruction whose guards do not both hold goes to its queue for its token actions alone: no
stack effect, no tile, no scalar. -/
def Obligations.GuardFalseQueuedInstructionsKeepTheirTokens : Prop :=
  ∀ (s : State) (i : Instr) (f : QueueForm),
    (vectorForm i = some f ∨ (matrixForm i = some f ∧ s.owns (me s) .matrix = true) ∨
      ∃ k, transferForm i = some (f, k) ∧ s.owns (me s) k = true) →
    (mine s).holds f.m = false → s.poolRoom (me s) f.q = true → (mine s).kept = none →
    ∃ t, exec i s = .next t ∧ (after s t).pc = s.cur.next ∧ SameScalars (mine s) (after s t) ∧ Elsewhere s t ∧
      (after s t).image = (mine s).image ∧ (after s t).tfloor = (mine s).tfloor ∧
      ∃ e ∈ (after s t).queue f.q, e.seq = (mine s).nseq ∧ e.instr = i ∧ e.holds = false ∧ e.tiles = [] ∧ e.results = []

/-- R155, R156, R159, R163 to R165, R169, R175, R180, R181: a vector instruction at the head of its queue whose spacing has passed
starts, and its result waits to land, no older instruction of another queue holding it back (R14). Its lanes are what the rules of the
integer and float lanes, the conversions and the sum give, an inactive lane keeping its old value or, under ZM, zero; a vector store
writes its active lanes to their places, and a vector load's lanes are the bytes of theirs. -/
def Obligations.VectorResultsLaneByLane : Prop :=
  (∀ (s : State) (n : StrandId) (e : QEntry) (lat : Nat) (r : VResult),
    HeadStarts s n .V e → Instr.spacing e.instr ≤ (s.strand n).vgap →
    (s.strand n).countBlocked 1 = false → vectorOp (s.strand n) e.scalar e.instr = some (lat, r) → 1 < lat →
    ∃ t, exec (.engineInstructionStart n .V) s = .next t ∧ (∀ p ∈ pendings e.instr (lat - 1) e.seq r, p ∈ (t.strand n).pend) ∧
      (t.strand n).pc = (s.strand n).pc ∧ ∀ n', n' ≠ n → t.strand n' = s.strand n') ∧
  LanesComputed ∧ VectorMemoryMoves

/-! ### Events of the queues, the engines and the tile store -/

namespace Sys2Proof.Claims

/-- The last phase of an instruction that writes: with its writes made it has only to complete. -/
def writesLast (e : QEntry) : Prop :=
  match e.instr with
  | .vst _ _ _ _ _ _ _ | .vstm _ _ _ _ _ _ _ | .vscat _ _ _ _ _ _ _ _ | .tst _ _ _ | .tstk _ _ _ => True
  | .cpy _ _ _ _ _ _ | .cpye _ _ _ _ _ _ _ => e.work.phase ≠ 0
  | .cpyg _ _ _ _ _ _ _ => e.work.phase = 3
  | .coll _ _ _ _ => e.work.phase = 5
  | _ => False

/-- R188, R245, R252: one access of a started instruction. A read takes the place's bytes: a vector load's as a bind of the strand gives
them, an engine's as its Pod's view holds them. A write of whole bytes puts its bytes in place and changes no other byte. -/
def AccessesMove : Prop :=
  (∀ (s : State) (n : StrandId) (q : QName) (seq : Nat) (e : QEntry) (l : Loc) (k : Nat) (rs : List (Loc × Nat)),
    Running s n q seq e → s.mayAccess n e = true → e.work.reads = (l, k) :: rs → rs ≠ [] → s.blocked l = false →
    ∃ t, exec (.engineInstructionComplete n q seq 1) s = .next t ∧ Entry t n q seq (fun x => x.work.reads = rs ∧ x.work.got =
      e.work.got ++ (if q = .V then (s.bindBytes n seq true l k).map (·.1) else s.viewBytes n l k))) ∧
  ∀ (s : State) (n : StrandId) (q : QName) (seq : Nat) (e : QEntry) (w : EWrite) (ws : List EWrite),
    Running s n q seq e → s.mayAccess n e = true → (s.strand n).passedBefore seq = true → (s.strand n).run = .running →
    e.work.reads = [] → e.work.writes = w :: ws → ws ≠ [] ∨ writesLast e → s.blocked w.loc = false → w.mask = 0xFF →
    Takeable s n w.loc w.data.length →
    ∃ t, exec (.engineInstructionComplete n q seq 1) s = .next t ∧ Lands s t n w.loc w.data

/-- The writes of an entry, place by place, with the data they carry one after another. -/
def WritesOut (x : QEntry) (ls : List Loc) (bs : List Byte) : Prop :=
  x.work.writes.map (·.loc) = ls ∧ (x.work.writes.map (·.data)).flatten = bs ∧ ∀ w ∈ x.work.writes, w.mask = 0xFF

/-- R211, R212, R216, R218: outside a walker, the bytes that a copy command moves once it has read. CPY and CPYG write what they have
read; CPYG reads the records that its list numbers; CPYE writes the stream of its source, the header's units last; COLL writes what
its operation gives of every member's SRC. -/
def CopiesWrite : Prop :=
  (∀ (s : State) (n : StrandId) (seq portion : Nat) (e : QEntry) (s1 : State) (e1 : QEntry),
    AllMade s n .L seq portion e s1 e1 → e.permit = none → (e.work.dst.map (·.len)).sum = e1.work.got.length →
    ((∃ m mm tag d a k, e.instr = .cpy m mm tag d a k) ∧ e.work.phase = 0) ∨
      ((∃ m mm tag d b l g, e.instr = .cpyg m mm tag d b l g) ∧ e.work.phase = 2) →
    ∃ t, exec (.engineInstructionComplete n .L seq portion) s = .next t ∧
      Entry t n .L seq (fun x => WritesOut x (e.work.dst.map (·.loc)) e1.work.got)) ∧
  (∀ (s : State) (n : StrandId) (seq portion : Nat) (e : QEntry) (s1 : State) (e1 : QEntry) (m : Mods) (mm : MemMod) (tag g : BitVec 6)
      (d b l : SReg) (us vs : List Unit8),
    AllMade s n .L seq portion e s1 e1 → e.instr = .cpyg m mm tag d b l g → e.work.phase = 1 →
    (s1.putEntry n e1).unitsOf n e.permit .read ((chunks 4 (e.work.nums.headD 0) e1.work.got).map (fun i =>
      (e.scalar 1 + BitVec.ofNat 64 (bytesNat i * 2 ^ g.toNat), 2 ^ g.toNat))) = .ok us →
    (s1.putEntry n e1).units n e.permit .write (e.scalar 0) (e.work.nums.headD 0 * 2 ^ g.toNat) = .ok vs →
    ∃ t, exec (.engineInstructionComplete n .L seq portion) s = .next t ∧
      Entry t n .L seq (fun x => x.work.phase = 2 ∧ x.work.reads = us.map (fun u => (u.loc, u.len)) ∧ x.work.dst = vs)) ∧
  (∀ (s : State) (n : StrandId) (seq portion : Nat) (e : QEntry) (s1 : State) (e1 : QEntry) (m : Mods) (mm : MemMod) (tag wc : BitVec 6)
      (d a k : SReg),
    AllMade s n .L seq portion e s1 e1 → e.instr = .cpye m mm tag d a k wc → e.work.phase = 0 → e.permit = none →
    (∀ u ∈ e.work.dst, 0 < u.len) → (encodeStream wc.toNat e1.work.got).length ≤ (e.work.dst.map (·.len)).sum →
    ∃ t, exec (.engineInstructionComplete n .L seq portion) s = .next t ∧ Entry t n .L seq (fun x => ∃ body hd,
      x.work.writes = body ++ hd ∧ ((hd ++ body).map (·.data)).flatten = encodeStream wc.toNat e1.work.got ∧
      (∃ j, (hd ++ body).map (·.loc) = (e.work.dst.map (·.loc)).take j) ∧ 16 ≤ ((hd.map (·.data)).flatten).length)) ∧
  ∀ (s : State) (n : StrandId) (seq portion : Nat) (e : QEntry) (s1 : State) (e1 : QEntry) (m : Mods) (mm : MemMod) (tag : BitVec 6)
      (a : SReg) (g : CollGroup) (ty : Ty) (recs : List (Option RdvRec)) (bs : List Byte),
    AllMade s n .L seq portion e s1 e1 → e.instr = .coll m mm tag a → e.work.phase = 3 → e.permit = none →
    (s1.putEntry n e1).collGroup? n (e.work.nums.getD 0 0) = some g → collTy (e.work.nums.getD 2 0) = some ty →
    (s1.putEntry n e1).rendezvous n g (e.work.nums.getD 5 0) = some recs →
    bs = collResult (e.work.nums.getD 1 0) ty (e.work.nums.getD 3 0) (e.work.nums.getD 4 0) g.rank
      (recs.mapIdx (fun i r => if i = g.rank then e1.work.got else (r.map (·.src)).getD [])) →
    (e.work.dst.map (·.len)).sum = bs.length →
    ∃ t, exec (.engineInstructionComplete n .L seq portion) s = .next t ∧
      Entry t n .L seq (fun x => WritesOut x (e.work.dst.map (·.loc)) bs)

/-- R189 and R191: where row `r` of a TLD's or a TLDR's payload lies. -/
def rowAddress (e : QEntry) (r : Nat) : Instr → Option Word
  | .tld _ _ _ => some (e.scalar 0 + BitVec.ofNat 64 (32 + r * (e.work.offs.getD ⟨0, 0, 0, 0⟩).pitch))
  | .tldr _ _ _ _ _ _ => some (e.scalar 0 + BitVec.ofNat 64 (r * (e.scalar 2).toNat))
  | _ => none

/-- R189, R191 and R192: the bytes a TLD or a TLDR moves. A row that has been read becomes a row of cells, and the next row is read from
its address; with every row and area there, the tile is full of those cells, scales and groups. -/
def LoadsFill : Prop :=
  (∀ (s : State) (n : StrandId) (seq portion : Nat) (e : QEntry) (s1 : State) (e1 : QEntry) (h : Header) (a : Word) (us : List Unit8),
    AllMade s n .L seq portion e s1 e1 → e.work.phase = 1 → e.work.hdr = some h → e.work.rows.length + 1 < h.rows →
    rowAddress e (e.work.rows.length + 1) e.instr = some a →
    (s1.putEntry n e1).unitsOf n e.permit .read [(a, h.rowBytes)] = .ok us →
    ∃ t, exec (.engineInstructionComplete n .L seq portion) s = .next t ∧ Entry t n .L seq (fun x =>
      x.work.rows = e.work.rows ++ [rowCells h e1.work.got] ∧ x.work.reads = us.map (fun u => (u.loc, u.len)) ∧ x.work.got = [])) ∧
  ∀ (s : State) (n : StrandId) (seq portion : Nat) (e : QEntry) (s1 : State) (e1 : QEntry) (h : Header) (id : Nat) (r : TileRec),
    AllMade s n .L seq portion e s1 e1 → e.work.phase = 2 → e.work.hdr = some h → h.fmt ≠ .acc56 →
    (∃ m mm a, e.instr = .tld m mm a) ∨ (∃ m mm f a x p, e.instr = .tldr m mm f a x p) →
    e.results = [id] → (s.strand n).tile? id = some r → id ∈ (s.strand n).image → (s.strand n).run = .running →
    ∃ t r' y, exec (.engineInstructionComplete n .L seq portion) s = .next t ∧ (t.strand n).tile? id = some r' ∧ r'.full = true ∧
      r'.tile = some y ∧ y.hdr = h ∧ y.cells = e.work.rows ∧ y.scales = readScales h e1.work.got ∧
      y.groups = readGroups h (e1.work.got.drop (4 * h.scaleCount))

/-- R80, R188, R194, R198: a TST or TSTK starts with the canonical image of its tile to write, outside a walker, and a matrix command
starts with the tile that its operands give. -/
def ImagesAndCommandsStart : Prop :=
  (∀ (s : State) (n : StrandId) (e : QEntry) (x : Tile) (us : List Unit8),
    HeadStarts s n .S e → (∃ m mm a, e.instr = .tst m mm a ∨ e.instr = .tstk m mm a) → (s.strand n).spaced 3 (Instr.mods e.instr) = true →
    e.granted = true → e.passed = false → e.permit = none → (s.strand n).logFull = false → (e.scalar 0).toNat % 32 = 0 →
    (s.strand n).operands e = .ok [x] → x.hdr.fmt ≠ .acc56 → s.units n none .write (e.scalar 0) x.image.length = .ok us →
    (us.map (·.len)).sum = x.image.length →
    ∃ t, exec (.engineInstructionStart n .S) s = .next t ∧
      Entry t n .S e.seq (fun y => y.stage = .started ∧ WritesOut y (us.map (·.loc)) x.image)) ∧
  ∀ (s : State) (n : StrandId) (e : QEntry) (f : QueueForm) (ops : List Tile) (o : MOut) (x : Tile),
    HeadStarts s n .M e → matrixForm e.instr = some f → f.pushes = true → (s.strand n).spaced 2 (Instr.mods e.instr) = true →
    (s.pod (podOf n)).lease.holder = some n → (s.pod (podOf n)).lease.owed = none → s.runOpen n = true →
    (s.strand n).matrixBusy = false → (s.strand n).operands e = .ok ops → matrixOp e ops = .ok o → o.result = some x → o.fixed = [] →
    o.repairs = 0 → s.hasSpace n x.hdr.space = true →
    ∃ t, exec (.engineInstructionStart n .M) s = .next t ∧ Entry t n .M e.seq (fun y => y.stage = .started ∧ y.work.tile = some x)

/-- The pattern of a cell. -/
def cellOf (x : Tile) (r c : Nat) : Nat := (x.cells.getD r []).getD c 0

/-- A dense, unscaled tile of a format, with as many rows and columns of cells as its header says. -/
structure Plain (x : Tile) (f : Fmt) : Prop where
  fmt : x.hdr.fmt = f
  dense : x.hdr.spn = .dense
  unscaled : x.hdr.scl = .none
  rows : x.cells.length = x.hdr.rows
  cols : ∀ r ∈ x.cells, r.length = x.hdr.cols

/-- R62, R200: the exact operation of MADD, MSUB and MMUL on two values, the deeper operand's first. -/
def cellwise : Instr → Option (Arith × (Machine.Num → Machine.Num → Machine.Num))
  | .madd _ a => some (a, fun x y => (Machine.Num.add a.rm x y).1)
  | .msub _ a => some (a, fun x y => (Machine.Num.add a.rm x y.neg).1)
  | .mmul _ a => some (a, fun x y => (x.mul y).1)
  | _ => none

/-- R61, R62, R199 to R202: the cells of a command's result, for dense, unscaled operands. MMA of two INT8 tiles of at most 128 columns
gives the exact dot products; MADD, MSUB and MMUL of two tiles of FP32, BF16 or FP16 the operation rounded once; MCVT each cell
converted; MTRN the transpose. -/
def CommandsCompute : Prop :=
  (∀ (e : QEntry) (m : Mods) (a b : Tile), e.instr = .mma m → Plain a .int8 → Plain b .int8 → a.hdr.cols = b.hdr.cols →
    a.hdr.cols ≤ 128 →
    ∃ o y, matrixOp e [b, a] = .ok o ∧ o.result = some y ∧ y.hdr.fmt = .acc56 ∧ y.hdr.rows = a.hdr.rows ∧ y.hdr.cols = b.hdr.rows ∧
      ∀ r < a.hdr.rows, ∀ c < b.hdr.rows, cellOf y r c = (BitVec.ofInt 56 ((List.range a.hdr.cols).map (fun k =>
        (BitVec.ofNat 8 (cellOf a r k)).toInt * (BitVec.ofNat 8 (cellOf b c k)).toInt)).sum).toNat) ∧
  (∀ (e : QEntry) (a : Arith) (op : Machine.Num → Machine.Num → Machine.Num) (x y : Tile) (fm : Fmt) (f : FFmt),
    cellwise e.instr = some (a, op) → (fm = .fp32 ∧ f = .fp32) ∨ (fm = .bf16 ∧ f = .bf16) ∨ (fm = .fp16 ∧ f = .fp16) →
    Plain x fm → Plain y fm → x.hdr.rows = y.hdr.rows → x.hdr.cols = y.hdr.cols →
    ∃ o z, matrixOp e [y, x] = .ok o ∧ o.result = some z ∧ z.hdr.fmt = fm ∧ z.hdr.rows = x.hdr.rows ∧ z.hdr.cols = x.hdr.cols ∧
      ∀ r < x.hdr.rows, ∀ c < x.hdr.cols,
        cellOf z r c = f.write ((op (f.read (cellOf x r c)) (f.read (cellOf y r c))).round f a.rm a.sat).1) ∧
  (∀ (e : QEntry) (m : Mods) (a : Arith) (fm target : Fmt) (x : Tile), e.instr = .mcvt m a target .none → Plain x fm → fm ≠ .acc56 →
    target ≠ .acc56 →
    ∃ o z, matrixOp e [x] = .ok o ∧ o.result = some z ∧ z.hdr.fmt = target ∧ z.hdr.rows = x.hdr.rows ∧ z.hdr.cols = x.hdr.cols ∧
      ∀ r < x.hdr.rows, ∀ c < x.hdr.cols,
        cellOf z r c = (convert (target.nfmt false) a.rm a.sat ((fm.nfmt false).read (cellOf x r c)).1).1) ∧
  ∀ (e : QEntry) (m : Mods) (fm : Fmt) (x : Tile), e.instr = .mtrn m → Plain x fm → fm ≠ .acc56 → x.hdr.cols ≤ 128 →
    ∃ o y, matrixOp e [x] = .ok o ∧ o.result = some y ∧ y.hdr.fmt = fm ∧ y.hdr.rows = x.hdr.cols ∧ y.hdr.cols = x.hdr.rows ∧
      ∀ r < x.hdr.rows, ∀ c < x.hdr.cols, cellOf y c r = cellOf x r c

end Sys2Proof.Claims

/-- R17, R61, R62, R75, R80, R86 to R89, R155, R156, R188 to R194, R198 to R202, R211 to R218, R252: the steps of a strand's engines.
A dispatch whose stall is over comes next; a matrix command starts with the tile that its operands give, and with no access left fills
its result and counts for its lease; a tile load's bytes become its tile and a tile store's image its bytes; a copy command's bytes are
its source's, its stream's or its collective's; each access reads or writes its place and no other; a drain cycle lowers every count by
one and lands what reaches zero; a full tile is written to its slot when space is needed, a page that refuses it trapping at the service
strand, and a sunk one is read back; a block that decodes enters the FIFO. -/
def Obligations.EnginesAndTilesGoOn : Prop :=
  AccessesMove ∧ CopiesWrite ∧ LoadsFill ∧ ImagesAndCommandsStart ∧ CommandsCompute ∧
  (∀ (s : State) (n : StrandId) (q : QName) (makes : Bool),
    s.stalledOn n = some (q, makes) → s.poolRoom n q = true → (makes = true → (s.strand n).freeId?.isSome = true) →
    ∃ t, exec (.dispatchResume n) s = .next t ∧ t.nextTurn = .strand n ∧ t = { s with agenda := .strand n :: s.agenda }) ∧
  (∀ (s : State) (n : StrandId) (seq portion : Nat) (e : QEntry) (f : QueueForm) (id : Nat) (x : Tile) (r : TileRec),
    ((s.strand n).queue .M).find? (fun e => e.seq == seq) = some e → matrixForm e.instr = some f → f.pushes = true →
    e.stage = .started → e.holds = true → e.fault = none → e.work.reads = [] → e.work.writes = [] →
    e.work.tile = some x → e.results = [id] → (s.strand n).tile? id = some r → id ∈ (s.strand n).image →
    (s.strand n).run = .running →
    ∃ t r', exec (.engineInstructionComplete n .M seq portion) s = .next t ∧
      (t.strand n).tile? id = some r' ∧ r'.full = true ∧ r'.tile = some x ∧ r'.hdr = some x.hdr ∧
      (∀ y ∈ (t.strand n).queue .M, y.seq = seq → y.stage = .done) ∧
      ((s.pod (podOf n)).lease.holder = some n → (t.pod (podOf n)).lease.done = (s.pod (podOf n)).lease.done + 1) ∧
      SameScalars (s.strand n) (t.strand n) ∧ (∀ n', n' ≠ n → t.strand n' = s.strand n') ∧ SameBytes s t) ∧
  (∀ (s : State) (n : StrandId),
    (s.strand n).run = .running → (s.strand n).qhead? .V = none → s.coreWaits n = true →
    (s.strand n).countBlocked 1 = false →
    ∃ t, exec (.pendingWriteLand n) s = .next t ∧
      (t.strand n).pend = ((s.strand n).pend.map (fun p => { p with n := p.n - 1 })).filter (fun p => p.n != 0) ∧
      (∀ p r x, (s.strand n).pend.filter (fun p => decide (p.n ≤ 1)) = [p] → p.dests = [.v r x] →
        (t.strand n).getV r = x ∧ ∀ r', r' ≠ r → (t.strand n).getV r' = (s.strand n).getV r') ∧
      (∀ n', n' ≠ n → t.strand n' = s.strand n') ∧ SameBytes s t) ∧
  (∀ (s : State) (n : StrandId) (id : Nat) (r : TileRec), (s.strand n).tile? id = some r →
    (s.needsSpace n = true → TileRec.sinkable (s.strand n) r = true →
      (∀ x ∈ s.mgmt.errTiles, x.1 = n → x.2.1 ≠ id) →
      (∀ x ∈ (s.strand n).tiles, TileRec.sinkable (s.strand n) x = true →
        keyLess ((s.strand n).sinkKey x.id) ((s.strand n).sinkKey id) = false) →
      ∀ c x r', s.ctxOf n = some c → r.tile = some x →
        r' = s.slotWrite n c ((s.strand n).stkbase + BitVec.ofNat 64 (id * 2 ^ 18))
          (chunks 128 (ceilDiv x.image.length 128) x.image) →
        (∀ s', r' = .ok s' →
          ∃ t, exec (.tileSink n id) s = .next t ∧ (t.strand n).tile? id = some { r with sunk := true, tile := none } ∧
            (t.strand n).counters[7] = (s.strand n).counters[7] + 1 ∧ SameScalars (s.strand n) (t.strand n) ∧
            (∀ n', n' ≠ n → t.strand n' = s.strand n') ∧ ∀ a, t.coh a = s'.coh a) ∧
        (∀ tr s', r' = .error (tr, s') → tr.cause = 0x20 ∨ tr.cause = 0x21 →
          ∃ t, exec (.tileSink n id) s = .next t ∧ (t.strand n).tile? id = some r ∧
            ∃ y ∈ (t.strand c.service).async, y.cause = tr.cause ∧ y.addr = tr.addr)) ∧
    ((s.strand n).toRise r = true → s.hasSpace n r.space = true → (s.strand n).run = .running →
      (∀ x ∈ (s.strand n).tiles, (s.strand n).toRise x = true →
        keyLess ((s.strand n).raiseKey x.id) ((s.strand n).raiseKey id) = false) →
      ∀ c h bs, s.ctxOf n = some c → r.failed = none → r.hdr = some h →
        s.slotRead n c ((s.strand n).stkbase + BitVec.ofNat 64 (id * 2 ^ 18)) (ceilDiv h.imageSize 128) = .ok bs →
        ∃ t, exec (.tileRaise n id) s = .next t ∧ (t.strand n).tile? id = some (r.fromImage (bs.take h.imageSize)) ∧
          SameScalars (s.strand n) (t.strand n) ∧ (∀ n', n' ≠ n → t.strand n' = s.strand n') ∧ SameBytes s t)) ∧
  ∀ (s s1 s2 : State) (n : StrandId) (x : CpydStream) (e : QEntry) (hb pay : List Byte) (h w : Nat),
    (s.strand n).decodable = some (x, e) → (s.strand n).fifo.length < 16 → x.blocksLeft ≠ 0 →
    (s.strand n).passedBefore e.seq = true → 8 ≤ (x.endAddr - x.next).toNat → s.readRange n e x.next 8 = some (hb, s1) → h = bytesNat hb → w = 8 * 2 ^ x.wc →
    blockBad w x.rmax (h % 256) (h / 2 ^ 8 % 256) (h / 2 ^ 16 % 2 ^ 16) (h / 2 ^ 32 % 2 ^ 32) (x.endAddr - x.next).toNat = none →
    s1.readRange n e (x.next + 8) (h / 2 ^ 16 % 2 ^ 16 - 8) = some (pay, s2) → 2 ≤ x.vecsLeft →
    ∃ t, exec (.cpydBlockDecode n) s = .next t ∧
      (t.strand n).fifo = (s.strand n).fifo ++ [.vec (decodeBlock w (h % 256) (h / 2 ^ 8 % 256) (h / 2 ^ 32 % 2 ^ 32) pay)] ∧
      SameScalars (s.strand n) (t.strand n)

/-! ### Events of the sequencer -/

namespace Sys2Proof.Claims

/-- R18: the strand as the first iteration of a launch finds it. -/
structure FirstIteration (l : Launch) (c : Ctx) (p : PartId) (k : Fin 4) (o : Nat) (b : Strand) : Prop where
  running : b.run = .running ∧ b.ctx = some c.num ∧ b.launch = some (p, k)
  entry : b.pc = l.entry
  arguments : ∀ i < 8, ∀ r : SReg, r.val = i + 1 → b.getS r = l.arg i
  stack : b.getS 63 = c.aploc + 0x10000
  zero : ∀ r : SReg, r.val ≠ 63 → (r.val = 0 ∨ 9 ≤ r.val) → b.getS r = 0
  predicates : ∀ r : PReg, r ≠ 0 → b.getP r = false
  vectors : (∀ r, b.getV r = 0) ∧ (∀ r : KReg, r ≠ 0 → b.getK r = 0) ∧ b.vstat = 0 ∧ b.pend = []
  tiles : b.image = [] ∧ b.tfloor = 0 ∧ b.tags = 0 ∧ ∀ i, b.token i = 0
  level : b.level = 0 ∧ b.tlock = false
  role : b.role = l.roleOf
  ordinal : b.ordinal = o
  idx : ∀ j : Fin 6, b.idx[j.val] = word (l.index o j.val)
  ext : ∀ j : Fin 6, b.ext[j.val] = word (l.extent j.val)

/-- The sequencer of a partition decides now: it replays nothing and is not stalled (R267, R326, R347, R366). -/
structure Decides (s : State) (p : PartId) : Prop where
  norpl : (s.part p).sched.rpl = false
  free : s.walkerFree p = true

end Sys2Proof.Claims

/-- R18, R20 to R22, R264, R266, R270 to R272, R309, R310: the head launch starts in a free walk slot with STATE 2, one without
iterations goes to DONE; a unit goes to its strand, which begins R18's first iteration or finds its answer; the cursor's visit
covers its footprint and keeps the cells that were not covered; a skip ends its iteration; a finished launch leaves its slot. -/
def Obligations.SequencerStartsHandsOutAndEnds : Prop :=
  (∀ (s s1 s3 : State) (p : PartId) (l l1 : Launch) (k : Fin 4),
    Decides s p → s.headLaunch p = some l → s.freeSlot p = some k → l.state = 1 → s.vaHeld l.ctx l.addr = false →
    (l.count ≠ 0 → s.logDecision p 0x06 0 l.addr = some s1 → l1 = { l with state := 2, started := s.ticks, runSince := s.gts } →
      ((s1.unqueue p l).setSlot p k (some l1)).writeStatus l1 2 0 = .ok s3 →
      ∃ t, exec (.launchStart p) s = .next t ∧ t.slot p k = some l1 ∧ (∀ m ∈ (t.part p).queue, m.same l = false) ∧
        (∀ n, t.strand n = s.strand n) ∧ t = s3) ∧
    (l.count = 0 → s.logState p l 3 = .ok s1 → ((s1.unqueue p l).askEval p).writeStatus l 3 0 = .ok s3 →
      ∃ t, exec (.launchStart p) s = .next t ∧ (∀ m ∈ (t.part p).queue, m.same l = false) ∧ t = s3)) ∧
  (∀ (s : State) (p : PartId) (k : Fin 4) (die : DieId) (l : Launch) (c : Ctx) (w o : Nat) (n : StrandId) (rest : List StrandId),
    Decides s p → HasRoom (s.part p).sched → s.handsOut p k = some l → s.unitReady p l die.val = some (w, o) →
    s.takers p k l die.val = n :: rest → s.ctx? l.ctx = some c →
    ∃ t l', exec (.unitHandOut p k die) s = .next t ∧ t.slot p k = some l' ∧
      l'.nextUnit = l.nextUnit.set die.val (w + 1) ∧ (∀ n', n' ≠ n → t.strand n' = s.strand n') ∧
      SameBytes s t ∧
      ((s.strand n).run = .free → FirstIteration l c p k o (t.strand n) ∧
        ∃ a, l'.assign? n = some a ∧ a.unit = w ∧ a.ordinal = o ∧ a.halted = false) ∧
      ((s.strand n).run ≠ .free → t.strand n = s.strand n ∧
        ∀ a, l.assign? n = some a → l'.assign? n = some { a with granted := some w, asks := false })) ∧
  (∀ (s : State) (p : PartId) (k : Fin 4) (l : Launch) (c : Ctx),
    s.slot p k = some l → l.overwriting = true → l.cursor < l.count → s.ctx? l.ctx = some c →
    (∀ x ∈ l.footprint l.cursor, s.vaHeld l.ctx (l.coverAddr x) = false) →
    (∀ x ∈ l.footprint l.cursor, x ∉ l.covered → ∃ b, s.coverBit c l x = .ok b) →
    ∃ t l' mask, exec (.coverCursorVisit p k) s = .next t ∧ t.slot p k = some l' ∧ l'.cursor = l.cursor + 1 ∧
      l'.permits = l.permits ++ [(l.cursor, mask)] ∧
      (∀ x, x ∈ mask ↔ x ∈ l.footprint l.cursor ∧ x ∉ l.covered ∧ s.coverBit c l x = .ok false) ∧
      (∀ x, x ∈ l'.covered ↔ x ∈ l.covered ∨ x ∈ l.footprint l.cursor) ∧
      (∀ n, t.strand n = s.strand n) ∧ SameBytes s t) ∧
  (∀ (s : State) (p : PartId) (k : Fin 4) (l : Launch) (o : Nat),
    Decides s p → HasRoom (s.part p).sched → s.slot p k = some l → l.overwriting = true → l.nextSkip = some o →
    ∃ t l', exec (.iterationSkip p k o) s = .next t ∧ t.slot p k = some l' ∧ l'.skips = l.skips + 1 ∧ o ∈ l'.skipped ∧
      (∀ x, x ∈ l'.endedSet ↔ x ∈ l.endedSet ∨ x = o) ∧ (∀ n, t.strand n = s.strand n) ∧ SameBytes s t) ∧
  ∀ (s s0 s1 s2 : State) (p : PartId) (k : Fin 4) (l : Launch),
    Decides s p → s.slot p k = some l → s.doneReady p k l = true → s.writeCover l = .ok s0 → s0.logState p l 3 = .ok s1 →
    s1.writeStatus l 3 0 = .ok s2 →
    ∃ t, exec (.launchDone p k) s = .next t ∧ t.slot p k = none ∧ t = (s2.dropSlot p k).askEval p ∧
      (∀ k', k' ≠ k → t.slot p k' = s1.slot p k') ∧ ∀ n, t.strand n = s1.strand n

namespace Sys2Proof.Claims

/-- R312: the row and the action for a victim with `rem` microseconds left and a requester `delta` above it: 0 none, 1 drain, 2
checkpoint, 3 kill. -/
def preemptRow (v : Launch) (rem delta : Nat) : Nat × Nat :=
  match decide (1 ≤ rem ∧ rem ≤ 50), decide (1 ≤ rem ∧ rem ≤ 2000), v.pold, v.polc, v.polk with
  | true, _, _, _, _ => (1, 0)
  | false, true, true, _, _ => (2, 1)
  | false, _, _, true, _ => (3, 2)
  | false, _, true, _, _ => (4, 1)
  | false, _, _, _, k => if k = true ∧ 256 ≤ delta then (5, 3) else (6, 0)

/-- No strand but one has changed, except that a trap of the sequencer may wait at a service strand (R267, R326). -/
def OthersBut (s t : State) (n : StrandId) : Prop :=
  ∀ n', n' ≠ n → t.strand n' = { s.strand n' with async := (t.strand n').async } ∧
    ((s.pod (podOf n)).lease.holder ≠ some n → t.strand n' = s.strand n')

/-- A strand that has stopped for the sequencer (R313, R321): PREEMPT in its level-3 set, its level and pending writes kept. -/
structure Stopped (a b : Strand) : Prop where
  run : b.run = .stopped ∧ b.stop = .switch
  level : b.level = a.level ∧ b.tlock = a.tlock
  traps : b.traps.toList[2]? = some ⟨a.pc, BitVec.ofNat 64 (256 * a.level.val + 0x40), 0, 0⟩ ∧ ∀ i < 2, b.traps.toList[i]? = a.traps.toList[i]?
  pc : b.pc = a.pc
  pend : b.pend = a.pend
  tiles : b.image = a.image ∧ b.tfloor = a.tfloor ∧ b.tiles = a.tiles ∧ b.tags = a.tags

/-- R280: a register that a safe point's live map does not mark is zero, the others are kept: s by word 1, v by bits 31:0, k by
bits 39:32 and p by bits 47:40 of word 2. -/
structure Trimmed (e : List Byte) (a b : Strand) : Prop where
  s : ∀ r : SReg, b.getS r = if (liveWord e 1).testBit r.val then a.getS r else 0
  v : ∀ r : VReg, b.getV r = if (liveWord e 2).testBit r.val then a.getV r else 0
  k : ∀ r : KReg, r ≠ 0 → b.getK r = if (liveWord e 2).testBit (32 + r.val) then a.getK r else 0
  p : ∀ r : PReg, r ≠ 0 → b.getP r = ((liveWord e 2).testBit (40 + r.val) && a.getP r)

/-- The registers are kept as they are. -/
def Kept (a b : Strand) : Prop := SameScalars a b ∧ b.v = a.v ∧ b.k = a.k ∧ b.vstat = a.vstat

/-- A strand stands at a safe point where it may stop: a synchronous fault of that instruction has gone first (R279, R281, R326). -/
def StandsAt (s : State) (n : StrandId) (i : Instr) : Prop :=
  s.atSafePoint n i = true ∧ (Instr.isNext i = false ∨ s.unitGranted n = false) ∧ (s.strand n).safeChecked = true

/-- The live map of the safe point at which a strand stops. -/
def liveHere (s : State) (n : StrandId) (i : Instr) : Option (List Byte) :=
  (s.launchOf n).bind (fun l => (l.safeOrdinal (Instr.stopBit i) (s.strand n).pc).bind (fun o => (l.safe[o]?).map (·.2)))

end Sys2Proof.Claims

/-- R278 to R283, R311 to R314: a pre-emption is chosen by R312's table, when a launch has come or gone or at 10 microseconds of GTS,
and its victim's strands are asked to stop; a strand that stops keeps its level, its pending writes and, at a checkpoint, its live
registers alone, and one that waits in LACQ stops at the LACQ; a killed launch leaves its slot and its
strands; a stop that lasts 1,000 microseconds becomes a drain or a kill; a suspended launch resumes with a strand per record. -/
def Obligations.PreemptionChoosesStopsAndResumes : Prop :=
  (∀ (s u s1 : State) (p : PartId) (k : Fin 4) (r v : Launch) (row act : Nat),
    u = s.trySuspendAll p → (u.part p).preempt = none → (u.part p).switching = false → Decides u p →
    ((u.part p).evalDue = true ∨ (u.part p).evalAt < u.gts / 10000) →
    u.requester p = some r → u.victim p r = some (k, v) →
    (row, act) = preemptRow v (v.remaining u.gts) (r.prio - v.prio) →
    (act = 0 → (u.part p).lastChoice ≠ some (r.addr, v.addr, row)) →
    u.logDecision p 0x08 (r.addr ||| BitVec.ofNat 64 (8 * row + act)) v.addr = some s1 →
    ∃ t, exec (.preemptEvaluate p) s = .next t ∧ SameBytes u t ∧
      (t.part p).lastChoice = some (r.addr, v.addr, row) ∧
      (t.part p).preempt = (if act = 0 then none else some ⟨r.addr, k, row, act, u.gts⟩) ∧
      (t.part p).evalDue = false ∧ (t.part p).evalAt = u.gts / 10000 ∧
      (∀ a ∈ v.assigns, a.halted = false → (u.strand a.strand).stop ≠ .switch → (u.strand a.strand).draining = none →
        ((u.strand a.strand).stop ≠ .debug → (act = 1 → (t.strand a.strand).stop = .drain) ∧
          (act = 2 → (t.strand a.strand).stop = .checkpoint)) ∧
        ((u.strand a.strand).stop = .debug → act = 2 →
          (t.strand a.strand).run = .running ∧ (t.strand a.strand).stop = .checkpoint)) ∧
      ((act = 0 ∨ act = 3) → ∀ n, t.strand n = u.strand n)) ∧
  (∀ (s : State) (n : StrandId) (i : Instr),
    s.lacqAt n = none → (s.strand n).drained = true → s.peek n = some i →
    ((s.strand n).stop = .switch → (StandsAt s n i ∨ s.waitsAt n i = true) →
      ∃ t, exec (.checkpointStop n) s = .next t ∧ Stopped (s.strand n) (t.strand n) ∧ Kept (s.strand n) (t.strand n) ∧
        OthersBut s t n ∧ SameBytes s t) ∧
    ((s.strand n).stop = .checkpoint → (s.strand n).level = 0 →
      (StandsAt s n i ∨ s.waitsAt n i = true) →
      ∃ t, exec (.checkpointStop n) s = .next t ∧ Stopped (s.strand n) (t.strand n) ∧
        (∀ e, liveHere s n i = some e → Trimmed e (s.strand n) (t.strand n)) ∧
        (liveHere s n i = none → Kept (s.strand n) (t.strand n)) ∧
        OthersBut s t n ∧ SameBytes s t) ∧
    (s.drains n = true → (s.strand n).run = .running → (s.strand n).draining = none →
      (Instr.isNext i = true ∧ (s.strand n).holds (Instr.mods i) = true ∧ s.unitGranted n = false ∨ s.waitsAt n i = true) →
      ∃ t, exec (.drain n) s = .next t ∧ Stopped (s.strand n) (t.strand n) ∧ Kept (s.strand n) (t.strand n) ∧
        OthersBut s t n ∧ SameBytes s t)) ∧
  (∀ (s : State) (n : StrandId) (e : QEntry) (ev : Instr), s.lacqAt n = some e →
    (ev = .checkpointStop n ∧ (s.strand n).stop = .switch ∨
      ev = .drain n ∧ s.drains n = true ∧ (s.strand n).draining = none) →
    ∃ t, exec ev s = .next t ∧ (t.strand n).run = .stopped ∧ (t.strand n).stop = .switch ∧ (t.strand n).pc = e.pc ∧
      (t.strand n).traps.toList[2]? = some ⟨e.pc, BitVec.ofNat 64 (256 * (s.strand n).level.val + 0x40), 0, 0⟩ ∧
      (t.strand n).s = e.ckpt.s ∧ (t.strand n).p = e.ckpt.p ∧ (t.strand n).image = e.ckpt.image ∧
      (∀ q, ∀ x ∈ (t.strand n).queue q, x.seq < e.seq) ∧ OthersBut s t n ∧ ∀ a, t.coh a = s.coh a) ∧
  (∀ (s s0 s1 s2 : State) (p : PartId) (k : Fin 4) (q : Preempt) (l : Launch),
    (s.part p).preempt = some q → s.slot p k = some l → q.victim = k →
    (q.action = 3 → (s.part p).dying = [] → s.vaHeld l.ctx l.addr = false → s.writeCover l = .ok s0 → s0.logState p l 5 = .ok s1 →
      s1.writeStatus l 5 0 = .ok s2 →
      ∃ t, exec (.kill p k) s = .next t ∧ t.slot p k = none ∧ (t.part p).preempt = none ∧
        ∀ a ∈ l.assigns, a.halted = false → (t.strand a.strand).launch = none ∧ (t.strand a.strand).image = []) ∧
    (q.action ≠ 3 → q.since + 1000000 ≤ s.gts → (∃ a ∈ l.assigns, a.halted = false ∧ (s.strand a.strand).run = .running) →
      (l.pold = true → ∃ t, exec (.preemptStopTimeout p) s = .next t ∧ SameBytes s t ∧
        ∀ a ∈ l.assigns, a.halted = false → (s.strand a.strand).stop ≠ .switch → (s.strand a.strand).stop ≠ .debug →
          (t.strand a.strand).stop = .drain) ∧
      (l.pold = false → l.polk = true → ∃ t, exec (.preemptStopTimeout p) s = .next t ∧
        (t.part p).preempt = some { q with action := 3 } ∧ ∀ n, t.strand n = s.strand n))) ∧
  ∀ (s s1 s3 s4 : State) (p : PartId) (k : Fin 4) (l l1 l3 : Launch) (ns : List StrandId),
    s.walkerFree p = true → s.headLaunch p = some l → s.freeSlot p = some k → l.state = 6 → s.vaHeld l.ctx l.addr = false →
    s.walkRecordDue l = none → l1 = s.readWalk l → ns = (s.freeStrands p l).take l1.saved.length →
    ns.length = l1.saved.length → s.logDecision p 0x06 0 l.addr = some s1 →
    l3 = { s.resumeAssigns l1 ns with
      saved := [], savedEntries := [], state := 2, started := s.ticks, runSince := s.gts } →
    s3 = (let s2 := (s1.unqueue p l).setSlot p k (some l3)
      { s2 with orbuf := s2.orbuf ++ l1.savedEntries.map (fun e => { e with slot := k }) }) →
    s3.writeStatus l3 2 0 = .ok s4 →
    ∃ t, exec (.launchResume p) s = .next t ∧ t.slot p k = some l3 ∧ (∀ m ∈ (t.part p).queue, m.same l = false) ∧
      (∀ n ∈ ns, (t.strand n).run = .stopped ∧ (t.strand n).launch = some (p, k) ∧ (t.strand n).ctx = some l.ctx) ∧
      (∀ n, n ∉ ns → t.strand n = s.strand n) ∧
      ∀ (i : Nat) (n : StrandId), ns.idxOf? n = some i → ∃ a ∈ l3.assigns, a.strand = n ∧ a.halted = false ∧ a.record = (l1.saved[i]?).map Prod.fst

/-! ### The lease and the shared engines -/

/-- R267, R315 to R317: a free lease and a free engine go to the request that no other outranks; the lease is surrendered after RUN
commands (and owed while the log has no room), for an aged request, on an empty queue that others wait for, and after IDLE cycles of a blocked head; a request that
has waited AGE − 1,536 cycles is aged. -/
def Obligations.LeaseAndEnginesArbitrate : Prop :=
  (∀ (s : State) (pod : PodId) (p : PartId),
    (s.pod pod).lease.holder = none → (s.pod pod).lease.owed = none → s.arrayBusy pod = false →
    s.leasePart pod = some p → (s.part p).sched.rpl = false → HasRoom (s.part p).sched →
    s.leaseRequests pod ≠ [] →
    ∃ t n e, exec (.leaseGrant pod) s = .next t ∧ (n, e) ∈ s.leaseRequests pod ∧
      (∀ r ∈ s.leaseRequests pod, keyLess (rankKey r.1 r.2) (rankKey n e) = false) ∧
      (t.pod pod).lease = ⟨some n, 0, 0, 0, none⟩ ∧ (∀ x, t.strand x = s.strand x) ∧ SameBytes s t) ∧
  (∀ (s : State) (pod : PodId) (h : StrandId) (p : PartId),
    (s.pod pod).lease.holder = some h → (s.pod pod).lease.owed = none → (s.strand h).matrixBusy = false →
    s.leaseReplays pod = false → p = (s.leasePart pod).getD (s.tagOf h) →
    (¬ HasRoom (s.part p).sched → (s.pod pod).lease.done ≠ 0 → (s.pod pod).lease.run ≤ (s.pod pod).lease.done →
      ∃ t, exec (.leaseRunEnd pod) s = .next t ∧ (t.pod pod).lease = { (s.pod pod).lease with owed := some 1 } ∧
        (t.part p).stalled = true ∧ SameBytes s t) ∧
    (HasRoom (s.part p).sched →
    ((s.pod pod).lease.done ≠ 0 → ((s.pod pod).lease.run ≤ (s.pod pod).lease.done ∨ s.agedRequest pod h = true) →
      ∃ t, exec (.leaseRunEnd pod) s = .next t ∧ (t.pod pod).lease.holder = none ∧ (∀ x, t.strand x = s.strand x) ∧
        SameBytes s t) ∧
    (((s.strand h).qhead? .M = none ∧ (∃ n e, (n, e) ∈ s.leaseRequests pod ∧ n ≠ h) ∨
      ∃ e, (s.strand h).qhead? .M = some e ∧ (s.strand h).matrixBlocked = true ∧
        (s.agedRequest pod h = true ∨ (s.pod pod).lease.idleSince ≠ 0 ∧
          (s.pod pod).lease.idleSince + e.leasectl.toNat / 2 ^ 16 % 2 ^ 16 ≤ s.ticks + 1)) →
      ∃ t, exec (.leaseIdleSurrender pod) s = .next t ∧ (t.pod pod).lease.holder = none ∧ (∀ x, t.strand x = s.strand x) ∧
        SameBytes s t))) ∧
  (∀ (s : State) (n : StrandId) (q : QName) (e : QEntry),
    (s.strand n).qhead? q = some e → e.asked ≠ 0 →
    e.asked + (e.leasectl.toNat / 2 ^ 32 % 2 ^ 16 - 1536) ≤ s.ticks + 1 →
    ∃ t, exec (.requestAged n q) s = .next t ∧ (t.strand n).qhead? q = some { e with aged := true } ∧
      SameScalars (s.strand n) (t.strand n) ∧ (∀ n', n' ≠ n → t.strand n' = s.strand n') ∧ SameBytes s t) ∧
  ∀ (s : State) (pod : PodId) (k : EngineKind) (num : Fin 2) (i : Fin 5) (q : QName),
    engineSlot k num = some i → s.engineBusy pod i = false → q = (if k = .store then .S else .L) →
    (∃ n ∈ podStrands pod, (s.engineRequest pod k num n q).isSome = true) →
    ∃ t n e, exec (.engineArbitrate pod k num) s = .next t ∧ n ∈ podStrands pod ∧ s.engineRequest pod k num n q = some e ∧
      (∀ n' ∈ podStrands pod, ∀ e', s.engineRequest pod k num n' q = some e' →
        keyLess (rankKey n' e') (rankKey n e) = false) ∧
      (t.pod pod).engines[i.val] = some (n, e.seq) ∧ (t.strand n).qhead? q = some { e with granted := true } ∧ SameBytes s t

/-! ### Traps of the engines, switches and page walks -/

namespace Sys2Proof.Claims

/-- The registers to which R91 and R92 take a strand back for an instruction: its checkpoint, and the vector engine as the oldest
discarded instruction found it. -/
def unwound (t : Strand) (e : QEntry) : Strand :=
  { t.rewind (t.entries.filter (fun x => decide (e.seq ≤ x.seq))) with
    s := e.ckpt.s, p := e.ckpt.p, image := e.ckpt.image, tfloor := e.ckpt.tfloor }

end Sys2Proof.Claims

/-- R91, R92, R281, R319 to R322, R326, R327: an engine's fault unwinds to its instruction and enters its handler once older work is done, a
dispatch's fault that has waited enters it then; an asynchronous trap is taken at a safe point or a waiting instruction, LACQ among
them; a second read that is correct, or
finds no error, ends a strand's wait, and an incorrect one ends the context. -/
def Obligations.EngineFaultsAndAsyncTrapsEnter : Prop :=
  (∀ (s : State) (n : StrandId) (c : Ctx),
    (s.strand n).run = .running → s.ctxOf n = some c → (s.strand n).tlock = false → (s.strand n).level.val ≤ 1 →
    (∀ e tr a, (s.strand n).oldestFault = some (e, tr) → tr.cause ≠ 0x40 → tr.cause ≠ 0x3A →
      (s.strand n).settledBefore e.seq = true → (∀ x ∈ (s.strand n).queue .M, e.seq ≤ x.seq) →
      a = unwound (s.strand n) e →
      ∃ t, exec (.trapEntry n) s = .next t ∧
        (Delegated c (s.strand n) tr.cause → InHandler c (codeOf s n) 1 tr e.pc a (t.strand n)) ∧
        (¬ Delegated c (s.strand n) tr.cause → InHandler c (codeOf s n) 2 tr e.pc a (t.strand n)) ∧
        ∀ q, ∀ x ∈ (t.strand n).queue q, x.seq < e.seq) ∧
    (∀ tr, (s.strand n).oldestFault = none → (s.strand n).fault = some tr → tr.cause ≠ 0x40 → tr.cause ≠ 0x3A →
      (s.strand n).settledBefore (s.strand n).nseq = true → (s.strand n).queue .M = [] →
      ∃ t, exec (.trapEntry n) s = .next t ∧
        (Delegated c (s.strand n) tr.cause →
          InHandler c (codeOf s n) 1 tr (s.strand n).faultPc (s.strand n) (t.strand n)) ∧
        (¬ Delegated c (s.strand n) tr.cause →
          InHandler c (codeOf s n) 2 tr (s.strand n).faultPc (s.strand n) (t.strand n))) ∧
    (∀ tr rest e a, (s.strand n).async = tr :: rest → tr.cause ≠ 0x40 → tr.cause ≠ 0x3A → s.lacqAt n = some e →
      (s.strand n).level = 0 → a = unwound (s.strand n) e →
      ∃ t, exec (.asyncTrapDeliver n) s = .next t ∧
        (Delegated c (s.strand n) tr.cause → InHandler c (codeOf s n) 1 tr e.pc a (t.strand n)) ∧
        (¬ Delegated c (s.strand n) tr.cause → InHandler c (codeOf s n) 2 tr e.pc a (t.strand n))) ∧
    (∀ tr rest i, (s.strand n).async = tr :: rest → tr.cause ≠ 0x40 → tr.cause ≠ 0x3A → s.lacqAt n = none → s.peek n = some i →
      (s.strand n).level = 0 → (s.strand n).drained = true →
      (s.atSafePoint n i = true ∧ (s.strand n).safeChecked = true ∨ s.waitsAt n i = true) →
      ∃ t more, exec (.asyncTrapDeliver n) s = .next t ∧ (t.strand n).async = rest ++ more ∧
        ((s.pod (podOf n)).lease.holder ≠ some n → more = []) ∧
        (Delegated c (s.strand n) tr.cause →
          InHandler c (codeOf s n) 1 tr (s.strand n).pc (s.strand n) (t.strand n)) ∧
        (¬ Delegated c (s.strand n) tr.cause →
          InHandler c (codeOf s n) 2 tr (s.strand n).pc (s.strand n) (t.strand n)))) ∧
  ∀ (s : State) (n : StrandId) (k : Nat) (correct : Bool) (pa : Nat), (s.strand n).late[k]? = some pa →
    (s.memError pa ≠ some true ∨ correct = true →
      ∃ t, exec (.lateErrorReread n k correct) s = .next t ∧ t.strand n = { s.strand n with late := (s.strand n).late.eraseIdx k } ∧
        (∀ n', n' ≠ n → t.strand n' = s.strand n') ∧ SameBytes s t) ∧
    (s.memError pa = some true → correct = false → ∀ c, (s.strand n).ctx = some c →
      ∃ t, exec (.lateErrorReread n k correct) s = .next t ∧ ∀ x, t.ctx? c = some x → x.live = false)

namespace Sys2Proof.Claims

/-- An event that safe points admit (R279) leaves the strand's registers and tiles as they are. -/
structure Undisturbed (a b : Strand) : Prop where
  pc : b.pc = a.pc
  kept : Kept a b
  control : SameControl a b
  iteration : SameIteration a b
  image : b.image = a.image ∧ b.tfloor = a.tfloor
  pend : b.pend = a.pend

/-- A strand's event of R279 is asked for while it runs, and takes effect where it stands safe. -/
def SafeEvent (ev : StrandId → Instr) (asked : Strand → Bool) (stops : Bool) : Prop :=
  ∀ (s : State) (n : StrandId),
    (asked (s.strand n) = false → (s.strand n).run = .running →
      ∃ t, exec (ev n) s = .next t ∧ asked (t.strand n) = true ∧ Undisturbed (s.strand n) (t.strand n) ∧
        (∀ n', n' ≠ n → t.strand n' = s.strand n') ∧ SameBytes s t) ∧
    (asked (s.strand n) = true → s.standsSafe n = true →
      ∃ t, exec (ev n) s = .next t ∧ asked (t.strand n) = false ∧ Undisturbed (s.strand n) (t.strand n) ∧
        (stops = true → (t.strand n).run = .stopped ∧ (t.strand n).stop = .debug) ∧
        (∀ n', n' ≠ n → t.strand n' = s.strand n') ∧ SameBytes s t)

end Sys2Proof.Claims

/-- R94, R278, R279, R328, R332, R341, R347, R353: a stopped strand with nothing in flight, its tiles in their slots, is saved and freed, and one set aside loads its
record; a slice that has passed asks the partition's strands to stop, and an empty partition takes its next virtual function; a
strand that has not stopped after 1,000 microseconds drains; a page walk caches its translation, which leaves every buffer when a strand of its context is saved; debug stops, samples and trace
records take effect at safe points alone. -/
def Obligations.SwitchesWalksAndSafePointEvents : Prop :=
  (∀ (s : State) (n : StrandId) (p : PartId) (k : Fin 4) (l : Launch) (c : Ctx),
    (s.strand n).launch = some (p, k) → s.slot p k = some l → s.ctxOf n = some c → (s.strand n).run = .stopped →
    (∀ s1, (s.strand n).stop = .switch → l.awaits n = false → s.machineEmpty n = true →
      (∀ e ∈ (s.strand n).entries, (s.strand n).heldCpyd e = true) →
      (s.sinkAll n).saveOpen n c = (s1, true) → s1.allSunk n = true → s1.slot p k = some l →
      s1.blockedIn (s1.saveArea p c) saveAreaBytes = none →
      (∃ x ∈ l.assigns, x.strand ≠ n ∧ x.halted = false) →
      ∃ t l', exec (.switchOut n) s = .next t ∧ (t.strand n).run = .free ∧ (t.strand n).launch = none ∧
        t.slot p k = some l' ∧ l'.saved = l.saved ++ [(s1.saveArea p c, (s1.strand n).ordinal)] ∧
        (∀ x, x ∈ l'.assigns ↔ x ∈ l.assigns ∧ x.strand ≠ n) ∧ (∀ n', ∀ x ∈ (t.strand n').tlb, x.ctx ≠ c.num) ∧
        (∀ d, ∀ x ∈ (t.pod d).tlb, x.ctx ≠ c.num) ∧
        ∀ n', n' ≠ n → { t.strand n' with tlb := [], async := [] } = { s1.strand n' with tlb := [], async := [] }) ∧
    (∀ record, (l.assign? n).bind (·.record) = some record → cohNumber s record 8 / 2 ^ 48 = 1 → s.dueIn record saveAreaBytes = none →
      s.relockDue c (lockAddrs (s.cohN record 65536)) = none →
      ∃ t, exec (.restore n c.num record) s = .next t ∧ (t.strand n).run = .running ∧
        (t.strand n).pc = BitVec.ofNat 64 (cohNumber s (record + 8) 8) ∧
        (∀ r : SReg, r ≠ 0 → (t.strand n).getS r = BitVec.ofNat 64 (cohNumber s (record + 0x10 + 8 * r.val) 8)) ∧
        (t.strand n).tags = BitVec.ofNat 64 (cohNumber s (record + 0x218) 8) ∧
        (t.strand n).launch = some (p, k) ∧ (∀ n', n' ≠ n → t.strand n' = s.strand n') ∧ ∀ a, t.coh a = s.coh a)) ∧
  (∀ (s : State) (p : PartId) (v : VfId), (s.part p).resident = some v →
    ((s.part p).switching = false → s.quiescedPart p = false → (s.nextVf p v).isSome = true →
      (∀ b, s.mgmt.vfs.find? (fun b => b.vf == v) = some b → (s.part p).sliceStart + b.sliceUs * 1000 ≤ s.gts) →
      (s.mgmt.vfs.find? (fun b => b.vf == v) = none → (s.part p).sliceStart ≤ s.gts) →
      ∃ t, exec (.worldSwitch p) s = .next t ∧ (t.part p).switching = true ∧ SameBytes s t ∧
        ∀ n, s.partOf n = some p → ((s.strand n).run = .running ∨ (s.strand n).run = .stopped) →
          (s.strand n).launch.isSome = true → (s.strand n).draining = none → (t.strand n).stop = .switch) ∧
    (∀ u, (s.part p).switching = true → u = s.trySuspendAll p → u.partEmpty p = true →
      ∃ t, exec (.worldSwitch p) s = .next t ∧ (t.part p).switching = false ∧
        ∀ b, u.nextVf p v = some b → (t.part p).resident = some b.vf)) ∧
  (∀ (s : State) (p : PartId), ∃ t, exec (.switchOutStopTimeout p) s = .next t ∧ SameBytes s t ∧
    ∀ n, t.strand n =
      if s.partOf n = some p ∧ ((s.strand n).run = .running ∨ ∃ l, s.launchOf n = some l ∧ l.awaits n = true) ∧
        (s.strand n).stop = .switch ∧ (s.strand n).stopAt + 1000000 ≤ s.gts
      then { s.strand n with stop := .drain } else s.strand n) ∧
  (∀ (s : State) (n : StrandId) (c : Ctx) (va : Word) (e : TlbEntry), s.ctxOf n = some c → s.walk c va = some e →
    s.walkDue c va = none → s.holdsContext n = true →
    ((∀ x ∈ (s.strand n).tlb, x.covers c.num va.toNat = false) →
      ∃ t, exec (.pageWalk n false va) s = .next t ∧ t.strand n = { s.strand n with tlb := (t.strand n).tlb } ∧
        e ∈ (t.strand n).tlb ∧ ((s.strand n).tlb.length < 64 → (t.strand n).tlb = (s.strand n).tlb ++ [e]) ∧
        (64 ≤ (s.strand n).tlb.length → (t.strand n).tlb.length = (s.strand n).tlb.length) ∧
        (∀ n', n' ≠ n → t.strand n' = s.strand n') ∧ SameBytes s t) ∧
    ((∀ x ∈ (s.pod (podOf n)).tlb, x.covers c.num va.toNat = false) →
      ∃ t, exec (.pageWalk n true va) s = .next t ∧ e ∈ (t.pod (podOf n)).tlb ∧
        ((s.pod (podOf n)).tlb.length < 2048 → (t.pod (podOf n)).tlb = (s.pod (podOf n)).tlb ++ [e]) ∧
        (2048 ≤ (s.pod (podOf n)).tlb.length → (t.pod (podOf n)).tlb.length = (s.pod (podOf n)).tlb.length) ∧
        (∀ n', t.strand n' = s.strand n') ∧ SameBytes s t)) ∧
  SafeEvent .debugStop (·.debugReq) true ∧ SafeEvent .sample (·.sampleReq) false ∧ SafeEvent .traceRecord (·.traceReq) false ∧
  ∀ (s : State) (n : StrandId) (i : Instr) (l : Launch) (o : Nat), (s.strand n).traceReq = true → s.standsSafe n = true →
    s.peek n = some i → s.launchOf n = some l → l.safeOrdinal (Instr.stopBit i) (s.strand n).pc = some o →
    ∃ t, exec (.traceRecord n) s = .next t ∧ t.trace = s.trace ++ [⟨n, s.gts, o⟩]

/-! ### Firmware commands -/

namespace Sys2Proof.Claims

/-- The reply a command sends last; other messages may go before it. -/
def Replied (s t : State) (c : Cmd) (status : Nat) (results : List Word) : Prop :=
  ∃ ms, t.mgmt.outbox = s.mgmt.outbox ++ ms ++ [⟨c.node, .reply, BitVec.ofNat 64 (c.seq.toNat * 2 ^ 48 + status) :: results, []⟩]

/-- A command answers at once with a status, which ends it, and nothing else happens. -/
def Answers (i : Instr) (s : State) (c : Cmd) (status : Nat) : Prop :=
  exec i s = .next { s with mgmt := { s.mgmt with executing := none, outbox :=
    s.mgmt.outbox ++ [⟨c.node, .reply, [BitVec.ofNat 64 (c.seq.toNat * 2 ^ 48 + status)], []⟩] } }

/-- R353: the commands of the operator. -/
def operatorCommand : Instr → Option Cmd
  | .partitionPrepare c _ | .partitionCommit c | .vfBind c _ _ _ _ | .pageGrant c _ _ _ | .dedupJoin c _ _ | .errinj c _ _ _
  | .counterPolicy c _ | .fwUpdate c _ => some c
  | _ => none

/-- R353: the commands that name a context. -/
def contextCommand : Instr → Option (Cmd × Word)
  | .contextDestroy c x | .loadCode c x _ _ | .start c x _ | .stop c x | .resume c x | .tlbInval c x _ _
  | .logConfig c x _ _ _ _ _ _ => some (c, x)
  | _ => none

/-- Firmware takes the command from its issuer now: no other executes, no start has failed, and no layout commit executes (R353,
R354, R391). -/
structure Accepts (s : State) (c : Cmd) (vf : Bool) : Prop where
  idle : s.otherCommand c = false
  started : s.mgmt.failedStart = false
  settled : s.mgmt.committing = false
  issuer : s.mayIssue c vf = true

/-- Firmware takes a command on a live context that its issuer may name (R353). -/
structure AcceptsFor (s : State) (c : Cmd) (x : Word) (k : Ctx) : Prop where
  accepts : Accepts s c true
  live : s.liveCtx x = some k
  named : Cmd.operator c = true ∨ k.vf = c.vf

/-- A valid CONTEXT_CREATE (R353): its words, its service strand, room for a context, and granted frames enough to map the backing
regions of its partition's strands (log entry 69). -/
structure CreateGood (s : State) (b : VfBinding) (area ptroot htbase htlen service expt : Word) (n : StrandId) : Prop where
  frames : 1 + 4097 * (allStrands.filter (fun n => s.partOf n == some b.part)).length ≤
    (s.spareFrames b.part area.toNat ptroot.toNat).length
  area : area.toNat % 65536 = 0 ∧ (homeDie area.toNat).isSome = true
  tables : ptroot.toNat % 4096 = 0 ∧ (homeDie ptroot.toNat).isSome = true ∧ htbase.toNat % 256 = 0
  entries : 1 ≤ htlen.toNat ∧ htlen.toNat ≤ 2 ^ 20
  service : service.toNat = n.val ∧ s.partOf n = some b.part
  exports : expt = 0 ∨ expt = 1 ∧ (s.part b.part).exportCtx = none
  room : (s.vfContexts b.vf).length < 8

end Sys2Proof.Claims

/-- R346 to R348, R353, R354, R374, R390, R391: the operator's commands. One waits while another executes; one that its issuer may not
give is DENIED, and after a failed start every one but FW_UPDATE is BUSY, with no other effect; PREPARE journals a layout, COMMIT quiesces, swaps and cleans
up; VF_BIND binds, PAGE_GRANT gives or takes frames, DEDUP_JOIN joins domains, ERRINJ injects, COUNTER_POLICY and FW_UPDATE
write. -/
def Obligations.OperatorCommandsAct : Prop :=
  (∀ (s : State) (i : Instr) (c : Cmd), operatorCommand i = some c →
    (s.otherCommand c = true → s.mgmt.committing = false → exec i s = .next s) ∧
    (s.otherCommand c = false → s.mgmt.failedStart = true → (∀ im, i ≠ .fwUpdate c im) → s.mgmt.committing = false → Answers i s c 0x01) ∧
    (s.otherCommand c = false → s.mgmt.failedStart = false → s.mayIssue c false = false → Answers i s c 0x03)) ∧
  (∀ (s : State) (c : Cmd) (image : List Byte), Accepts s c false →
    (s.mgmt.journal = .prepared → Answers (.partitionPrepare c image) s c 0x01) ∧
    (s.mgmt.journal ≠ .prepared → layoutGood image = true →
      ∃ t, exec (.partitionPrepare c image) s = .next t ∧ Replied s t c 0 [] ∧ t.mgmt.shadow = some (layoutOf image) ∧
        t.mgmt.journal = .prepared ∧ t.mgmt.layout = s.mgmt.layout ∧ ∀ n, t.strand n = s.strand n)) ∧
  (∀ (s : State) (c : Cmd),
    (Accepts s c false → s.mgmt.journal = .prepared →
      ∃ t, exec (.partitionCommit c) s = .next t ∧ t.mgmt.committing = true ∧ t.mgmt.commitSeq = c.seq ∧
        t.mgmt.layout = s.mgmt.layout ∧
        ∀ k ∈ s.ctxs, k.live = true → s.affected k.part = true → ∃ k' ∈ t.ctxs, k'.num = k.num ∧ k'.quiesced = true) ∧
    (s.mgmt.committing = true → s.mayIssue c false = true → s.mgmt.commitSeq = c.seq →
      ∀ u, u = allParts.foldl State.trySuspendAll s →
        (∀ l, u.mgmt.journal = .prepared → u.mgmt.shadow = some l → u.quiesceDone = true →
          ∃ t, exec (.partitionCommit c) s = .next t ∧ t.mgmt.layout = l ∧ t.mgmt.journal = .swapped) ∧
        (∀ old, u.mgmt.journal = .swapped → u.mgmt.shadow = some old →
          ∃ t, exec (.partitionCommit c) s = .next t ∧ Replied u t c 0 [] ∧ t.mgmt.committing = false ∧
            t.mgmt.journal = .done ∧ t.mgmt.layout = u.mgmt.layout))) ∧
  (∀ (s : State) (c : Cmd) (v : VfId) (node slice : Nat), Accepts s c false → (s.vfContexts v).isEmpty = true →
    (∀ p : PartId, 4096 ≤ node → node < 8192 → 100 ≤ slice → slice ≤ 100000 →
      ∃ t, exec (.vfBind c v.val p.val node slice) s = .next t ∧ Replied s t c 0 [] ∧
        (∃ b ∈ t.mgmt.vfs, b.vf = v ∧ b.part = p ∧ b.node = node ∧ b.sliceUs = slice) ∧
        ((s.part p).resident.isSome = true ∨ (∀ b ∈ s.mgmt.vfs, b.vf ≠ v) → (t.part p).resident.isSome = true)) ∧
    ∃ t, exec (.vfBind c v.val 0xFF node slice) s = .next t ∧ Replied s t c 0 [] ∧ ∀ b ∈ t.mgmt.vfs, b.vf ≠ v) ∧
  (∀ (s : State) (c : Cmd) (frame count : Nat), Accepts s c false →
    (∀ p : PartId, (∀ f, frame ≤ f → f < frame + count → s.grantable p f = true) →
      ∃ t, exec (.pageGrant c frame count p.val) s = .next t ∧ Replied s t c 0 [] ∧
        ∀ f, frame ≤ f → f < frame + count → ∃ e, t.ownerOf? f = some e ∧ e.part = p) ∧
    ∃ t, exec (.pageGrant c frame count 0xFF) s = .next t ∧ Replied s t c 0 [] ∧
      ∀ f, frame ≤ f → f < frame + count → t.ownerOf? f = none) ∧
  (∀ (s : State) (c : Cmd) (p q : PartId), Accepts s c false →
    ∃ t, exec (.dedupJoin c p.val q.val) s = .next t ∧ Replied s t c 0 [] ∧ (t.part p).dedup = (t.part q).dedup ∧
      (∀ r, (s.part r).dedup ≠ (s.part q).dedup → (t.part r).dedup = (s.part r).dedup) ∧ ∀ a, t.coh a = s.coh a) ∧
  (∀ (s : State) (c : Cmd) (target flags : Word), Accepts s c false →
    (1 < flags.toNat → ∀ kind, Answers (.errinj c kind target flags) s c 0x02) ∧
    (flags.toNat ≤ 1 → (homeDie target.toNat).isSome = true →
      ∃ t, exec (.errinj c 4 target flags) s = .next t ∧ Replied s t c 0 [] ∧
        t.mgmt.errHbm = s.mgmt.errHbm ++ [(target.toNat, decide (flags = 1))] ∧ ∀ a, t.coh a = s.coh a) ∧
    (flags.toNat ≤ 1 →
      ∃ t, exec (.errinj c 6 target flags) s = .next t ∧ Replied s t c 0 [] ∧ t.mgmt.watchdogStopped = true)) ∧
  ∀ (s : State) (c : Cmd) (v : Word) (image : List Byte),
    (Accepts s c false → ∃ t, exec (.counterPolicy c v) s = .next t ∧ Replied s t c 0 [] ∧
      t.mgmt.cntpol.toNat = field v 22 2 * 2 ^ 22 + clamp 0 20 (field v 8 5) * 2 ^ 8 + clamp 0 24 (field v 0 5)) ∧
    (s.otherCommand c = false → s.mgmt.committing = false → s.mayIssue c false = true →
      ∃ t, exec (.fwUpdate c image) s = .next t ∧ Replied s t c 0 [] ∧ t.mgmt.staged = some image ∧
        t.mgmt.image = s.mgmt.image)

/-- R303, R308, R328, R341, R351, R353, R355, R358: the commands on contexts. One waits while another executes; one that names no live
context is BAD_ARG, one that names another virtual function's is DENIED; CREATE makes a context, DESTROY ends one, gives its frames
back and gives back those of one that has ended, LOAD_CODE loads, START queues a launch or answers why not, STOP and RESUME stop and
let go, TLB_INVAL drops translations, COLL_GROUP writes its entry, LOG_CONFIG sets the logs, ATTEST signs; another code is BAD_ARG.
(The BAD_ARG for no live context, the frames of an ended context, the BUSY of LOAD_CODE, RESUME's end of a debug stop and ATTEST's
course are log entry 41's reading, DEDUCED, unsafe.) -/
def Obligations.ContextCommandsAct : Prop :=
  (∀ (s : State) (i : Instr) (c : Cmd) (x : Word), contextCommand i = some (c, x) → s.otherCommand c = true →
    exec i s = .next s) ∧
  (∀ (s : State) (i : Instr) (c : Cmd) (x : Word), contextCommand i = some (c, x) → Accepts s c true →
    (s.liveCtx x = none → (i = .contextDestroy c x → s.destroyable c x = none) → Answers i s c 0x02) ∧
    (∀ k, s.liveCtx x = some k → Cmd.operator c = false → k.vf ≠ c.vf → Answers i s c 0x03)) ∧
  (∀ (s : State) (c : Cmd) (area ptroot htbase htlen sup service expt : Word) (b : VfBinding) (n : StrandId),
    Accepts s c true → s.mgmt.vfs.find? (fun b => b.vf == c.vf) = some b →
    CreateGood s b area ptroot htbase htlen service expt n →
    ∃ t k l p f, exec (.contextCreate c area ptroot htbase htlen sup service expt) s = .next t ∧
      Replied s t c 0 [word s.mgmt.nextCtx, l, p, f] ∧ t.ctxs = s.ctxs ++ [k] ∧ k.num = s.mgmt.nextCtx ∧ k.live = true ∧
      k.vf = b.vf ∧ k.part = b.part ∧ k.area = area.toNat ∧ k.ptroot = ptroot.toNat ∧ k.htbase = htbase ∧ k.htlen = htlen.toNat ∧
      k.sup = sup ∧ k.service = n ∧ k.aploc = l ∧ k.appod = p ∧ k.apfab = f ∧ k.ordmode = false ∧ k.tdeleg = 0 ∧
      (expt = 1 → (t.part b.part).exportCtx = some k.num)) ∧
  (∀ (s u : State) (c : Cmd) (x : Word) (k : Ctx), Accepts s c true → s.destroyable c x = some k →
    (Cmd.operator c = true ∨ k.vf = c.vf) → u = ((s.terminate k.num 0 false).retryDying k.part).endDying k →
    (∀ d ∈ (u.part k.part).dying, d.1.ctx ≠ k.num) →
    ∃ t, exec (.contextDestroy c x) s = .next t ∧ Replied u t c 0 [] ∧ (∀ y, t.ctx? k.num = some y → y.live = false) ∧
      ∀ e ∈ t.mgmt.owners, e.ctx ≠ some k.num) ∧
  (∀ (s : State) (c : Cmd) (x : Word) (k : Ctx), AcceptsFor s c x k →
    (∀ addr place, (s.ctxBusy k = true → Answers (.loadCode c x addr place) s c 0x01) ∧
      ∀ u m, s.ctxBusy k = false → s.loadObject k addr place = .ok u m →
        ∃ t, exec (.loadCode c x addr place) s = .next t ∧ Replied u t c 0 [word m] ∧ t.ctxs = u.ctxs ∧ ∀ a, t.coh a = u.coh a) ∧
    (∀ addr, k.quiesced = false →
      (addr.toNat % 64 ≠ 0 → Answers (.start c x addr) s c 0x02) ∧
      ∀ bs, addr.toNat % 64 = 0 → s.loadBytesVa k addr 256 = .ok bs →
        (16 ≤ (s.part k.part).queue.length → Answers (.start c x addr) s c 0x21) ∧
        ((s.part k.part).queue.length < 16 →
          (∀ u, s.acceptLaunch k.part k addr = .queued u →
            ∃ t, exec (.start c x addr) s = .next t ∧ Replied u t c 0 [] ∧
              ∃ l ∈ (t.part k.part).queue, l.addr = addr ∧ l.ctx = k.num ∧ l.record = bs ∧ l.state = 1) ∧
          (∀ u, s.acceptLaunch k.part k addr = .refused u →
            ∃ t, exec (.start c x addr) s = .next t ∧ Replied u t c 0x20 [] ∧
              (t.part k.part).queue = (s.part k.part).queue))) ∧
    (k.stopped = false → ∃ t, exec (.stop c x) s = .next t ∧ ∀ y, t.ctx? k.num = some y → y.stopped = true) ∧
    (k.stopped = true → (s.trySuspendAll k.part).ctxEmpty k = true →
      ∃ t, exec (.stop c x) s = .next t ∧ Replied (s.trySuspendAll k.part) t c 0 []) ∧
    ((k.stopped = false ∧ k.quiesced = false ∨ s.ctxBusy k = false) →
      ∃ t, exec (.resume c x) s = .next t ∧ Replied s t c 0 [] ∧
        (∀ y, t.ctx? k.num = some y → y.stopped = false ∧ y.quiesced = false) ∧
        ∀ n, t.strand n = if (s.strand n).ctx = some k.num ∧ (s.strand n).run = .stopped ∧ (s.strand n).stop = .debug then
          { s.strand n with run := .running, stop := .none } else s.strand n) ∧
    (∀ va len, s.ctxQuiet k.num = true → (s.poisonedOf k = [] ∨ s.tableDue 5 0 k.ptroot = none) →
      ∃ t, exec (.tlbInval c x va len) s = .next t ∧ Replied s t c 0 [] ∧
        (∀ n, ∀ e, e ∈ (t.strand n).tlb ↔ e ∈ (s.strand n).tlb ∧
          ¬ (e.ctx = k.num ∧ (len = 0 ∨ rangesMeet e.va e.size va.toNat len.toNat = true))) ∧
        ∀ p, ∀ e, e ∈ (t.pod p).tlb ↔ e ∈ (s.pod p).tlb ∧
          ¬ (e.ctx = k.num ∧ (len = 0 ∨ rangesMeet e.va e.size va.toNat len.toNat = true))) ∧
    (∀ w2 w3 w4 w5 w6 w7, (∀ i, s.slot k.part i = none) → (∀ l ∈ (s.part k.part).queue, l.state ≠ 6) →
      s.logConfigGood k w2 w3 w4 w5 w6 w7 = true → (s.part k.part).ready = [] →
      s.logDue k w2 w3 w4 w5 w6 w7 = none →
      ((s.part k.part).resident = none ∨ (s.part k.part).resident = some k.vf) →
      ∃ t, exec (.logConfig c x w2 w3 w4 w5 w6 w7) s = .next t ∧ Replied s t c 0 [] ∧
        (w2.getLsbD 0 = true → (t.part k.part).sched = ⟨true, w2.getLsbD 3, BitVec.ofNat 64 (field w3 12 45 * 2 ^ 12),
          clamp 0 20 (field w3 0 5), BitVec.ofNat 64 (field w3 12 45 * 2 ^ 12), false,
          field w3 12 45 * 2 ^ 12 + 2 ^ clamp 0 20 (field w3 0 5) * 4096⟩) ∧
        (w2.getLsbD 1 = true → (t.part k.part).mo = ⟨true, w2.getLsbD 3, BitVec.ofNat 64 (field w4 12 45 * 2 ^ 12),
          clamp 0 20 (field w4 0 5), BitVec.ofNat 64 (field w4 12 45 * 2 ^ 12), false,
          field w4 12 45 * 2 ^ 12 + 2 ^ clamp 0 20 (field w4 0 5) * 4096⟩) ∧
        (t.part k.part).rwin = field w2 32 32 ∧ (t.part k.part).logCtx = k.num)) ∧
  (∀ (s : State) (c : Cmd) (entry addr : Word) (b : VfBinding) (p rank trdv : Nat),
    Accepts s c true → s.mgmt.vfs.find? (fun b => b.vf == c.vf) = some b → entry.toNat < 256 → addr.toNat % 8 = 0 →
    (∀ x ∈ [addr.toNat, addr.toNat + 15, addr.toNat + 15 + 2 * p], (homeDie x).isSome = true ∧
      x / 65536 ∉ s.mgmt.poisoned ∧ ∃ e, s.ownerOf? (x / 65536) = some e ∧ e.part = b.part) →
    s.dueIn addr.toNat 16 = none → s.dueIn addr.toNat (16 + 2 * p) = none →
    cohNumber s addr.toNat 8 = rank * 2 ^ 32 + p → cohNumber s (addr.toNat + 8) 8 = trdv → 2 ≤ p → p ≤ 4096 → rank < p →
    trdv ≤ 65535 →
    ∃ t, exec (.collGroup c entry addr) s = .next t ∧ Replied s t c 0 [] ∧
      ∃ g ∈ (t.part b.part).groups, g.entry = entry.toNat ∧ g.rank = rank ∧ g.trdv = trdv ∧ g.members.length = p ∧
        g.aborted = false ∧ ∀ i < p, g.members[i]? = some (cohNumber s (addr.toNat + 16 + 2 * i) 2)) ∧
  (∀ (s u : State) (c : Cmd) (nonce quote x : Word) (k : Ctx) (bs q : List Byte),
    s.liveCtx x = some k → s.otherCommand c = false → s.mgmt.committing = false → s.mgmt.leaf < 2 ^ 40 → s.loadBytesVa k nonce 32 = .ok bs →
    q = quoteBody s k bs ++ Config.hssSign s.mgmt.leaf (quoteBody s k bs) →
    State.storeBytesVa { s with mgmt := { s.mgmt with leaf := s.mgmt.leaf + 1 } } k quote q = .ok u →
    ∃ t, exec (.attest c nonce quote x) s = .next t ∧ Replied u t c 0 [word q.length] ∧ t.mgmt.leaf = s.mgmt.leaf + 1 ∧
      ∀ a, t.coh a = u.coh a) ∧
  ∀ (s : State) (c : Cmd) (code : BitVec 16), Accepts s c true →
    code.toNat ∉ [0x01, 0x02, 0x03, 0x04, 0x05, 0x06, 0x07, 0x08, 0x10, 0x11, 0x12, 0x13, 0x14, 0x15, 0x16, 0x17, 0x18, 0x20] →
    Answers (.commandOtherCode c code) s c 0x02

/-! ### Messages, replays, counters and log records -/

namespace Sys2Proof.Claims

/-- The package's last message answers a node. -/
def Sent (s t : State) (node : Nat) (kind : OutKind) (data : List Byte) : Prop :=
  ∃ ms, t.mgmt.outbox = s.mgmt.outbox ++ ms ++ [⟨node, kind, [], data⟩]

/-- A message is refused with an error response, and nothing else happens. -/
def Refuses (i : Instr) (s : State) (node : Nat) : Prop :=
  exec i s = .next { s with mgmt := { s.mgmt with outbox := s.mgmt.outbox ++ [⟨node, .errorResponse, [], []⟩] } }

/-- A message's access reaches a byte that may be read and written now (R337, R344, R385). -/
structure Reaches (s : State) (p : PartId) (k : Ctx) (off : Nat) (op : MsgOp) (pa : Nat) (e : TlbEntry) : Prop where
  exporter : s.exporter? p = some k
  unheld : s.exportDue k off = none
  place : s.exportByte k op off = some (pa, e)
  good : s.entryBad (.glob pa) (some e) = false
  readable : s.lateAt (.glob pa) = none
  free : s.lineBlocked pa = false
  sound : s.singleBit pa = false
  held : Held s pa
  within : pa % 128 + MsgOp.bytes op ≤ 128

/-- R349: an access is to 8 bytes or to one line, aligned (log entry 42). -/
def OneItem (off n : Nat) : Prop := n = 8 ∧ off % 8 = 0 ∨ n = 128 ∧ off % 128 = 0

/-- R254, R350: a bulk access as the write or the read that it is routed and translated as. -/
def bulkOp : Nat ⊕ List Byte → MsgOp
  | .inr d => .write d
  | .inl n => .read n

/-- R350: how many bytes a read or a write names. -/
def opBytes : MsgOp → Nat
  | .read n => n
  | .write d => d.length
  | _ => 0

end Sys2Proof.Claims

/-- R254, R337, R344, R349 to R352: a host's read or write, and another package's read, write or atomic, of 8 bytes or of one line into
an export is performed and answered, or refused, as one of another length or from a node of 4,096 or above is (log entry 42, DESIGN
CHOICE, unsafe); a host's bulk access is routed, translated and refused alike, answers or changes memory below the shared cache alone
and waits for a held line; RDV, ABORT and the two time limits of a rendezvous act. -/
def Obligations.MessagesAct : Prop :=
  (∀ (s : State) (node tenant off : Nat) (op : MsgOp),
    (s.tenantPart tenant = none → Refuses (.hostAccessMessage node tenant off op) s node ∧
      Refuses (.fabricAccessMessage node tenant off op) s node) ∧
    ∀ p, s.tenantPart tenant = some p →
      (s.hostAllowed node p = false → Refuses (.hostAccessMessage node tenant off op) s node) ∧
      (s.exporter? p = none → Refuses (.hostAccessMessage node tenant off op) s node ∧
        Refuses (.fabricAccessMessage node tenant off op) s node)) ∧
  (∀ (s : State) (node tenant off : Nat) (p : PartId), s.tenantPart tenant = some p →
    (∀ op, 4096 ≤ node → Refuses (.fabricAccessMessage node tenant off op) s node) ∧
    (∀ op, (∀ o l n, op ≠ .cmo o l n) → ¬ OneItem off (MsgOp.bytes op) → Refuses (.fabricAccessMessage node tenant off op) s node ∧
      Refuses (.hostAccessMessage node tenant off op) s node) ∧
    (∀ k n pa e, node < 4096 → OneItem off n → Reaches s p k off (.read n) pa e →
      ∃ t, exec (.fabricAccessMessage node tenant off (.read n)) s = .next t ∧ (∀ a, t.coh a = s.coh a) ∧
        Sent s t node .response ((List.range n).map (fun j => s.coh (pa + j)))) ∧
    (∀ k op wide x y pa e, node < 4096 → OneItem off (widBytes wide) → Reaches s p k off (.atomic op wide x y) pa e →
      s.syncBusy (.glob pa) = false →
      ∃ t, exec (.fabricAccessMessage node tenant off (.atomic op wide x y)) s = .next t ∧
        Sent s t node .response (natBytes (widBytes wide) (cohNumber s pa (widBytes wide))) ∧
        (∀ v, atomNew op wide (cohNumber s pa (widBytes wide)) x.toNat y.toNat = some v →
          WritesRun s t pa (natBytes (widBytes wide) v)) ∧
        (atomNew op wide (cohNumber s pa (widBytes wide)) x.toNat y.toNat = none → ∀ a, t.coh a = s.coh a)) ∧
    (∀ k d pa e, node < 4096 → OneItem off d.length → Reaches s p k off (.write d) pa e →
      ∃ t, exec (.fabricAccessMessage node tenant off (.write d)) s = .next t ∧ WritesRun s t pa d ∧
        Sent s t node .response []) ∧
    (s.hostAllowed node p = true →
      (∀ k n pa e, OneItem off n → Reaches s p k off (.read n) pa e →
        ∃ t, exec (.hostAccessMessage node tenant off (.read n)) s = .next t ∧ (∀ a, t.coh a = s.coh a) ∧
          Sent s t node .response ((List.range n).map (fun j => s.coh (pa + j)))) ∧
      (∀ k d pa e, OneItem off d.length → Reaches s p k off (.write d) pa e →
        ∃ t, exec (.hostAccessMessage node tenant off (.write d)) s = .next t ∧ WritesRun s t pa d ∧
          Sent s t node .response []))) ∧
  (∀ (s : State) (node tenant off : Nat) (data : Nat ⊕ List Byte),
    (s.tenantPart tenant = none → Refuses (.bulkAccess node tenant off data) s node) ∧
    ∀ p, s.tenantPart tenant = some p →
      (s.hostAllowed node p = false → Refuses (.bulkAccess node tenant off data) s node) ∧
      (s.hostAllowed node p = true → s.exporter? p = none → Refuses (.bulkAccess node tenant off data) s node) ∧
      ∀ k op, s.hostAllowed node p = true → s.exporter? p = some k → op = bulkOp data →
        (∀ x ∈ linePieces off (opBytes op), s.exportDue k x.1 = none) →
        ((∃ x ∈ linePieces off (opBytes op), s.exportByte k op x.1 = none) → Refuses (.bulkAccess node tenant off data) s node) ∧
        ∀ ps, s.bulkPlaces k op (linePieces off (opBytes op)) = some ps →
          ((∃ x ∈ ps, s.lineBlocked x.1 = true) → exec (.bulkAccess node tenant off data) s = .next s) ∧
          ((∀ x ∈ ps, s.lineBlocked x.1 = false) →
            (∀ d, data = .inr d → Memory.wf s.mem = true →
              ∃ t, exec (.bulkAccess node tenant off data) s = .next t ∧ Sent s t node .response [] ∧ t.sc = s.sc ∧
                (∀ m, t.strand m = s.strand m) ∧
                (∀ a, (∀ x ∈ ps, a < x.1 ∨ x.1 + x.2 ≤ a) → Memory.read t.mem a = Memory.read s.mem a) ∧
                ∀ x, ps = [x] → ∀ i < d.length, Memory.read t.mem (x.1 + i) = d.getD i 0) ∧
            (∀ n, data = .inl n → (∃ x ∈ ps, s.memUnreadable (x.1 / 128 * 128) = true) →
              Refuses (.bulkAccess node tenant off data) s node) ∧
            (∀ n, data = .inl n → (∀ x ∈ ps, s.memUnreadable (x.1 / 128 * 128) = false) →
              ∃ t, exec (.bulkAccess node tenant off data) s = .next t ∧ t.mem = s.mem ∧ t.sc = s.sc ∧
                (∀ m, t.strand m = s.strand m) ∧
                Sent s t node .response
                  (ps.map (fun x => (List.range x.2).map (fun j => Memory.read s.mem (x.1 + j)))).flatten))) ∧
  (∀ (s : State) (node group tenant q : Nat) (src : List Byte) (p : PartId), s.tenantPart tenant = some p →
    (∃ t, exec (.rdv node group tenant q src) s = .next t ∧
      (t.part p).rdvs = (s.part p).rdvs ++ [⟨node, group, tenant, q, src⟩] ∧ ∀ n, t.strand n = s.strand n) ∧
    (∃ t, exec (.abort node group tenant none) s = .next t ∧ (t.part p).groups = (s.part p).groups.map (fun g =>
      if g.entry = group ∧ node ∈ g.members then { g with aborted := true } else g)) ∧
    ∃ t, exec (.abort node group tenant (some q)) s = .next t ∧
      ∀ g ∈ (s.part p).groups, g.entry = group → node ∈ g.members →
        ∃ g' ∈ (t.part p).groups, g'.entry = group ∧ q ∈ g'.lost ∧ g'.aborted = g.aborted) ∧
  (∀ (s : State) (n : StrandId) (seq : Nat) (e : QEntry) (g : CollGroup) (gnum q at_ : Nat),
    (s.strand n).entry? seq = some e → e.atRendezvous = true → e.work.nums[0]? = some gnum → e.work.nums[5]? = some q →
    e.work.nums[6]? = some at_ → s.collGroup? n gnum = some g → g.trdv ≠ 0 → g.aborted = false → q ∉ g.lost →
    at_ + g.trdv * 1000000 ≤ s.gts → s.rendezvous n g q = none →
    ∃ t, exec (.rendezvousLimitExpiry n seq) s = .next t ∧
      (∃ g' ∈ (t.part (s.tagOf n)).groups, g'.entry = g.entry ∧ q ∈ g'.lost) ∧
      (∀ i m, g.members[i]? = some m → i ≠ g.rank →
        ⟨m, .abort, [word g.entry, word (s.tenantOf n), word q], []⟩ ∈ t.mgmt.outbox) ∧ ∀ n', t.strand n' = s.strand n') ∧
  ∀ (s : State) (n : StrandId) (c : Nat), (s.strand n).ctx = some c → (s.strand n).stop ≠ .none → (s.strand n).stop ≠ .debug →
    (s.strand n).stopAt + 10000000 ≤ s.gts → (s.strand n).inRendezvous = true →
    ∃ t, exec (.rendezvousSwitchTimeout n) s = .next t ∧ ∀ x, t.ctx? c = some x → x.live = false

namespace Sys2Proof.Claims

/-- R376, R383: the words of a counter's COUNTER_WRAP: its number, and its strand, 0x1FF where it is a partition's. -/
def wrapWords (n : Option StrandId) (c : Nat) : List Word :=
  [0x0002, BitVec.ofNat 64 c, BitVec.ofNat 64 ((n.map (·.val)).getD 0x1FF)]

end Sys2Proof.Claims

/-- R361, R366 to R368, R375, R376, R389: a replaying sequencer repeats its next recorded decision, or reports the strand that is
not its own; a window that passes raises REPLAY_DIVERGE with WHY 2 at an access that its record still holds, or reports WHY 2 or WHY 4 for the
sequencer; a wrap sends its EVENT once, to the virtual function that ran as well; a refresh
sends the EVENTs held back of the wraps that came before it; a record leaves for memory; an indirection entry is fetched. -/
def Obligations.ReplaysCountersAndRecordsAct : Prop :=
  (∀ (s : State) (p : PartId) (i : Nat) (r : Record),
    (s.part p).sched.rpl = true → s.walkerFree p = true → s.nextDecision p = some (i, r) →
    (∀ u, s.redo p r = .made u → (u.part p).stalled = false →
      ∃ t, exec (.replayDecision p) s = .next t ∧ (t.part p).repPos = i + 1 ∧ (∀ n, t.strand n = u.strand n) ∧ SameBytes u t) ∧
    (∀ k l o, r.type = 0x02 → s.slotAt p (r.words.getD 3 0) = some (k, l) → o = (r.words.getD 2 0).toNat / 2 ^ 16 →
      l.nextSkip = some o → HasRoom (s.part p).sched → (s.part p).stalled = false → s.slot p k = some l →
      ∃ t l', exec (.replayDecision p) s = .next t ∧ t.slot p k = some l' ∧ o ∈ l'.skipped ∧ (t.part p).repPos = i + 1) ∧
    (∀ c n, r.type = 0x01 → r.strand = some n → s.partOf n ≠ some p → s.ctx? (s.divergeCtx p (some r)) = some c →
      ∃ t tr, exec (.replayDecision p) s = .next t ∧ (t.strand c.service).async = (s.strand c.service).async ++ [tr] ∧
        tr.cause = 0x32 ∧ tr.addr = r.addr ∧ tr.info.toNat / 2 ^ 32 % 2 ^ 8 = 5 ∧ tr.info.toNat % 2 ^ 9 = 256 + p.val ∧
        (t.part p).repPos = i + 1)) ∧
  (∀ (s : State) (p : PartId) (n : StrandId) (c : Ctx) (since i : Nat) (r : Record) (tr : TrapInfo),
    (s.part p).holdSince.find? (fun h => h.1 == n) = some (n, since) → (s.part p).mo.rpl = true → s.tagOf n = p →
    s.recordedNext n = some (i, r) →
    (firstOfLine (s.part p) i r = true → exec (.replayWindowExpiry p (some n)) s = .next s) ∧
    (firstOfLine (s.part p) i r = false → (s.strand n).run = .running → since + (s.part p).rwin * 1000 ≤ s.gts → s.ctxOf n = some c → (s.strand n).idle = true →
    (s.strand n).tlock = false → (s.strand n).level.val ≤ 1 →
    tr = ⟨0x32, r.addr, BitVec.ofNat 64 ((s.strand n).count true % 2 ^ 24 * 2 ^ 40 + 2 * 2 ^ 32 + 2 ^ 9 + n.val)⟩ →
    ∃ t, exec (.replayWindowExpiry p (some n)) s = .next t ∧
      InHandler c (codeOf s n) 2 tr (s.strand n).pc (s.strand n) (t.strand n) ∧ ∀ h ∈ (t.part p).holdSince, h.1 ≠ n)) ∧
  (∀ (s : State) (p : PartId) (c : Ctx),
    (s.part p).sched.rpl = true → s.walkerFree p = true → (s.part p).repSince + (s.part p).rwin * 1000 ≤ s.gts →
    (s.nextDecision p = none → s.decisionWanted p = true → s.ctx? (s.part p).logCtx = some c →
      ∃ t tr, exec (.replayWindowExpiry p none) s = .next t ∧ (t.strand c.service).async = (s.strand c.service).async ++ [tr] ∧
        tr.cause = 0x32 ∧ tr.info.toNat / 2 ^ 32 % 2 ^ 8 = 4 ∧ (t.part p).repSince = s.gts) ∧
    ∀ i r, s.nextDecision p = some (i, r) → s.ctx? (s.divergeCtx p (some r)) = some c →
      (s.decisionLate p r = true → ∃ t tr, exec (.replayWindowExpiry p none) s = .next t ∧
        (t.strand c.service).async = (s.strand c.service).async ++ [tr] ∧
        tr.cause = 0x32 ∧ tr.addr = r.addr ∧ tr.info.toNat / 2 ^ 32 % 2 ^ 8 = 2 ∧ (t.part p).repSince = s.gts) ∧
      (s.decisionLate p r = false → exec (.replayWindowExpiry p none) s = .next s)) ∧
  (∀ (s : State) (p : PartId) (n : Option StrandId) (c : Nat) (v : Option VfId) (g : Nat),
    s.mgmt.wraps.find? (fun w => w.1 == p && w.2.1 == n && w.2.2.1 == c) = some (p, n, c, v, g) →
    (n = none ∨ isStall c = false ∨ s.mgmt.cntpol.getLsbD 22 = true) →
    (c ≠ 0x18 ∧ c ≠ 0x19 ∨ s.mgmt.cntpol.getLsbD 23 = true) →
    ∃ t, exec (.counterWrap p n c) s = .next t ∧ t.mgmt.wraps = s.mgmt.wraps.erase (p, n, c, v, g) ∧
      ⟨Config.operatorNode, .event, wrapWords n c, []⟩ ∈ t.mgmt.outbox ∧
      (∀ x b, v = some x → c ≠ 0x19 → s.mgmt.vfs.find? (fun b => b.vf == x) = some b →
        ⟨b.node, .event, wrapWords n c, []⟩ ∈ t.mgmt.outbox) ∧
      (∀ m, t.strand m = s.strand m) ∧ SameBytes s t) ∧
  (∀ (s : State) (p : PartId) (d : Nat), d = 2 ^ (s.mgmt.cntpol.toNat / 2 ^ 8 % 2 ^ 5) * 1000 →
    (s.part p).lastRefresh / d < s.gts / d → (s.part p).snapshots = none →
    ∃ t, exec (.counterRefresh p) s = .next t ∧ (t.part p).lastRefresh = s.gts ∧ SameBytes s t ∧
      (∀ n c v g, (p, some n, c, v, g) ∈ s.mgmt.wraps → isStall c = true → g ≤ s.gts / d * d →
        ⟨Config.operatorNode, .event, wrapWords (some n) c, []⟩ ∈ t.mgmt.outbox) ∧
      (∀ n c v g, (p, some n, c, v, g) ∈ s.mgmt.wraps → s.gts / d * d < g → (p, some n, c, v, g) ∈ t.mgmt.wraps) ∧
      ∀ n, t.strand n = s.strand n) ∧
  (∀ (s u : State) (p : PartId) (k : Nat) (r : Record) (c : Ctx),
    (s.part p).ready[k]? = some r → s.ctx? (s.part p).logCtx = some c →
    (s.modPart p (fun x => { x with ready := x.ready.eraseIdx k })).storeBytesVa c r.addr
      ((r.words.map (fun w => natBytes 8 w.toNat)).flatten) = .ok u →
    ∃ t, exec (.logRecordWrite p k) s = .next t ∧ (t.part p).ready = (s.part p).ready.eraseIdx k ∧
      (∀ a, t.coh a = u.coh a) ∧ ∀ n, t.strand n = s.strand n) ∧
  ∀ (s : State) (n : StrandId) (c : BitVec 4) (w : Nat × BitVec 4), (s.strand n).want.find? (fun w => w.2 == c) = some w →
    (s.dedupError w.1 ≠ some true →
      ∃ t, exec (.partialWriteIndirectionFetch n c false) s = .next t ∧ (t.strand n).want = (s.strand n).want.erase w ∧
        (Held s w.1 → ∀ a, t.coh a = s.coh a)) ∧
    ∃ t, exec (.partialWriteIndirectionFetch n c true) s = .next t ∧ (t.strand n).want = (s.strand n).want.erase w ∧
      blockOf w.1 ∈ t.mgmt.poisonedBlocks ∧ w.1 / 65536 ∈ t.mgmt.poisoned

/-! ### Errors, clocks, links and starts -/

namespace Sys2Proof.Claims

/-- R397: SCEINFO's fields for a report: V, DIRTY, the owner's tag, the way, the die and the set. -/
def infoOf (r : ScReport) : Nat :=
  2 ^ 63 + (if r.dirty then 2 ^ 62 else 0) + r.tag.val * 2 ^ 54 + r.way * 2 ^ 50 + r.die * 2 ^ 48 + r.set

end Sys2Proof.Claims

/-- R348, R382, R384 to R388, R394 to R398: a scrub corrects a single-bit error; a line's uncorrectable error is reported, the line
held where it is dirty and refetched where it is clean; a bad tag quarantines its way and ends the contexts of its set's
partitions; PGPOIS, SCQUAR and CTXTERM do what a write of them asks; the release of a dirty line's report leaves a line that still
stands, and lets memory be lost where the line is gone; a page ownership entry reads as its bits, and the ROM's routine writes PGPOIS,
SCQUAR, CTXTERM and the release, in this order, of a dirty line (both the release and this order are log entry 45's reading, DEDUCED,
unsafe); a tile's error is corrected or fails the tile; an island's clock falls alone, and a link's retry is counted. -/
def Obligations.ErrorsAreReportedAndHandled : Prop :=
  (∀ (s : State) (die : DieId) (pa : Nat) (l : ScLine), s.scLine? pa = some l → homeDie l.pa = some die → l.held = false →
    s.mgmt.errTags.any (fun e => e.1 == l.pa) = false → l.bad = false → l.pa % 128 = 0 →
    ∃ t, exec (.patrolScrub die pa) s = .next t ∧ t.sc = s.sc ∧ t.mem = s.mem ∧ l.pa ∉ t.mgmt.errLines ∧
      t.mgmt.corrected.toList[1]? = some ((s.mgmt.corrected.toList[1]?).getD 0 + if l.pa ∈ s.mgmt.errLines then 1 else 0)) ∧
  (∀ (s : State) (pa : Nat) (l : ScLine), s.scLine? pa = some l → l.held = false → l.bad = true →
    s.mgmt.sceinfo.getLsbD 63 = false →
    ∃ t, exec (.scDataError pa) s = .next t ∧ t.mgmt.scepa = BitVec.ofNat 64 l.pa ∧
      t.mgmt.sceinfo = BitVec.ofNat 64
        (infoOf ⟨l.pa, l.dirty, l.tag, l.way, ((homeDie l.pa).map (·.val)).getD 0, setOf l.pa⟩) ∧ t.mem = s.mem ∧
      (l.dirty = true → t.scLine? pa = some { l with held := true }) ∧
      (l.dirty = false → s.memError l.pa ≠ some true →
        t.scLine? pa = some { l with bad := false, data := Memory.readN s.mem l.pa 128 })) ∧
  (∀ (s : State) (die : DieId) (set way : Nat) (l : ScLine), (s.setLines die.val set).find? (fun l => l.way == way) = some l →
    s.mgmt.errTags.find? (fun e => e.1 == l.pa) = none →
    ∃ t, exec (.scTagError die set way) s = .next t ∧
      (s.quarantinedWays die.val set < 8 → (die.val, set, way) ∈ t.mgmt.quarantine) ∧
      ∀ k, s.ctx? k.num = some k → k.part ∈ s.presence die.val set → ∀ x, t.ctx? k.num = some x → x.live = false) ∧
  (∀ (s : State) (v : Word) (frame : Nat), frame = v.toNat / 2 ^ 16 % 2 ^ 36 →
    ∃ t, exec (.pgpois v) s = .next t ∧ frame ∈ t.mgmt.poisoned ∧
      (∃ w3 w4, ⟨Config.operatorNode, .event, [0x0011, BitVec.ofNat 64 (frame * 65536), w3, w4], []⟩ ∈ t.mgmt.outbox) ∧ t.mgmt.pgpois = BitVec.ofNat 64 (frame * 65536) ∧
      (∀ f ∈ s.mgmt.poisoned, f ∈ t.mgmt.poisoned) ∧ (∀ n, t.strand n = s.strand n) ∧ SameBytes s t) ∧
  (∀ (s : State) (v : Word) (way die set : Nat), way = v.toNat / 2 ^ 50 % 16 → die = v.toNat / 2 ^ 48 % 4 →
    set = v.toNat % 2 ^ 15 →
    (v.getLsbD 63 = true → s.quarantinedWays die set < 8 →
      ∃ t, exec (.scquar v) s = .next t ∧ (die, set, way) ∈ t.mgmt.quarantine ∧
        (∀ l, (s.setLines die set).find? (fun l => l.way == way) = some l → ∀ x ∈ t.sc, x ∈ s.sc ∧ x.pa ≠ lineOf l.pa)) ∧
    (v.getLsbD 63 = false → ∃ t, exec (.scquar v) s = .next t ∧ t.mgmt.quarantine = s.mgmt.quarantine ∧ t.sc = s.sc)) ∧
  (∀ (s : State) (v : Word), ∃ t, exec (.ctxterm v) s = .next t ∧
    t.mgmt.ctxterm = BitVec.ofNat 64 (v.toNat % 2 ^ 24) ∧ ∀ x, t.ctx? (v.toNat % 2 ^ 16) = some x → x.live = false) ∧
  (∀ (s : State) (v : Word),
    (v.getLsbD 63 = false ∨ s.mgmt.sceinfo.getLsbD 63 = false → exec (.sceinfoRelease v) s = .next s) ∧
    (v.getLsbD 63 = true → s.mgmt.sceinfo.getLsbD 63 = true → s.mgmt.sceinfo.getLsbD 62 = false →
      (s.mgmt.reports = [] → ∃ t, exec (.sceinfoRelease v) s = .next t ∧
        t.mgmt.sceinfo.toNat = s.mgmt.sceinfo.toNat % 2 ^ 63 ∧ t.sc = s.sc) ∧
      ∀ r rs, s.mgmt.reports = r :: rs → ∃ t, exec (.sceinfoRelease v) s = .next t ∧
        t.mgmt.scepa = BitVec.ofNat 64 r.pa ∧ t.mgmt.sceinfo = BitVec.ofNat 64 (infoOf r) ∧ t.mgmt.reports = rs) ∧
    (v.getLsbD 63 = true → s.mgmt.sceinfo.getLsbD 63 = true → s.mgmt.sceinfo.getLsbD 62 = true →
      (∀ l, s.scLine? s.mgmt.scepa.toNat = some l → l.held = true →
        ∃ t, exec (.sceinfoRelease v) s = .next t ∧ t.sc = s.sc ∧ t.mgmt.errHbm = s.mgmt.errHbm ∧ t.ctxs = s.ctxs ∧ SameBytes s t) ∧
      (s.scLine? s.mgmt.scepa.toNat = none →
        ∃ t, exec (.sceinfoRelease v) s = .next t ∧ t.memError s.mgmt.scepa.toNat = some true ∧
          (∀ a, a / 128 ≠ s.mgmt.scepa.toNat / 128 → t.memError a = s.memError a) ∧ t.sc = s.sc ∧ t.ctxs = s.ctxs ∧ SameBytes s t))) ∧
  (∀ (s : State) (f b : Nat), b = (if f ∈ s.mgmt.poisoned then 2 ^ 63 else 0) →
    (s.ownerOf? f = none → (s.ownWord f).toNat = b + 0xFF) ∧
    ∀ e, s.ownerOf? f = some e → (e.ctx = none → (s.ownWord f).toNat = b + e.part.val) ∧
      ∀ c, e.ctx = some c → c < 2 ^ 16 → (s.ownWord f).toNat = b + 2 ^ 62 + c * 2 ^ 40 + e.part.val ∧
        (f = s.mgmt.scepa.toNat / 65536 % 2 ^ 36 → s.mgmt.sceinfo.getLsbD 62 = true → e.part.val = field s.mgmt.sceinfo 54 6 →
          s.scerrWrites = [.pgpois (BitVec.ofNat 64 (f * 65536)), .scquar s.mgmt.sceinfo,
            .ctxterm (BitVec.ofNat 64 (0x28 * 65536 + c)), .release s.mgmt.sceinfo])) ∧
  (∀ (s : State) (n : StrandId) (id : Nat) (r : TileRec) (h : Header), (s.strand n).tile? id = some r → r.full = true →
    r.hdr = some h → h.fmt ≠ .acc56 →
    (s.mgmt.errTiles.find? (fun e => e.1 == n && e.2.1 == id) = some (n, id, false) →
      ∃ t, exec (.tileStoreError n id) s = .next t ∧ (∀ m, t.strand m = s.strand m) ∧
        t.mgmt.corrected.toList[0]? = some ((s.mgmt.corrected.toList[0]?).getD 0 + 1)) ∧
    (s.mgmt.errTiles.find? (fun e => e.1 == n && e.2.1 == id) = some (n, id, true) → r.failed = none →
      ∃ t, exec (.tileStoreError n id) s = .next t ∧
        (t.strand n).tile? id = some { r with failed := some (if r.sunk then .slot else .store) } ∧
        SameScalars (s.strand n) (t.strand n) ∧ (∀ m, m ≠ n → t.strand m = s.strand m) ∧ SameBytes s t)) ∧
  ∀ (s : State),
    (∀ i : Fin 16, ∃ t, exec (.podClockLower i) s = .next t ∧ t.mgmt.clocks[i.val] ≤ s.mgmt.clocks[i.val] ∧
      (∀ j : Fin 32, j.val ≠ i.val → t.mgmt.clocks[j.val] = s.mgmt.clocks[j.val]) ∧
      t = { s with mgmt := { s.mgmt with clocks := t.mgmt.clocks } }) ∧
    ∀ port : Fin 24, (s.mgmt.ports.getLsbD port.val = false → exec (.linkLevelRetry port) s = .next s) ∧
      (s.mgmt.ports.getLsbD port.val = true → ∃ t, exec (.linkLevelRetry port) s = .next t ∧ t.mgmt.fabricRetries = s.mgmt.fabricRetries + 1 ∧
      t.mgmt.corrected.toList[4]? = some ((s.mgmt.corrected.toList[4]?).getD 0 + 1) ∧ (∀ n, t.strand n = s.strand n) ∧
      SameBytes s t)

/-- R254, R358, R385, R391 to R393: a cold start leaves every strand at its reset values, no context, no owner and memory zero but
for retired frames; a warm start keeps the ended contexts, the layout, memory and the log areas, and applies an update staged before
it; a warm start that does not come
to its end in two seconds fails with result 2; a watchdog reset resolves the layout journal and leaves the strands alone. (The reset
values of the registers to which R6 gives none are log entry 10's, DESIGN CHOICE, unsafe.) -/
def Obligations.StartsLeaveWhatTheSpecKeeps : Prop :=
  (∀ s : State, ∃ t, exec .coldRstN s = .next t ∧ (∀ n, t.strand n = Strand.reset) ∧ (∀ p, t.pod p = Pod.reset) ∧
    t.ctxs = [] ∧ t.sc = [] ∧ t.orbuf = [] ∧ t.mgmt.owners = [] ∧ t.mgmt.vfs = [] ∧ t.mgmt.layout = Layout.reset ∧
    t.mgmt.retired = s.mgmt.retired ∧ t.mgmt.leaf = s.mgmt.leaf ∧ t.mgmt.image = s.mgmt.image ∧
    ((∀ k, 1 ≤ k → k ≤ 7 → coldStepOk s.mgmt.image k = true) →
      t.mgmt.failedStart = false ∧
      ⟨Config.operatorNode, .event, [0x0020, 0, 0, 0], []⟩ ∈ t.mgmt.outbox ∧
      (Memory.wf s.mem = true →
        ∀ a, Memory.read t.mem a = if a / 65536 ∈ s.mgmt.retired then Memory.read s.mem a else 0)) ∧
    (∀ k, 1 ≤ k → k ≤ 7 → coldStepOk s.mgmt.image k = false →
      (∀ j, 1 ≤ j → j < k → coldStepOk s.mgmt.image j = true) →
      t.mgmt.failedStart = true ∧ ⟨Config.operatorNode, .event, [0x0020, 0, 1, word k], []⟩ ∈ t.mgmt.outbox)) ∧
  (∀ s : State, (∀ k ∈ s.ctxs, k.live = false) → s.sc = [] → s.mgmt.journal ≠ .prepared → s.mgmt.journal ≠ .swapped →
    Config.startStepOk 1 1 = true → Config.lmsValid s.mgmt.image = true → Config.startStepOk 4 1 = true →
    Config.startStepOk 5 1 = true →
    ∃ t, exec .warmRstN s = .next t ∧ (∀ n, t.strand n = Strand.reset) ∧ (∀ p, t.pod p = Pod.reset) ∧
      t.ctxs = (match s.mgmt.staged with
        | some im => if Config.lmsValid im then
            s.ctxs.map (fun k => { k with build := Config.imageBuild im, migr := k.migr + 1 }) else s.ctxs
        | none => s.ctxs) ∧
      t.mem = s.mem ∧ t.sc = [] ∧ t.mgmt.layout = s.mgmt.layout ∧ t.mgmt.retired = s.mgmt.retired ∧
      (∀ p, (t.part p).sched = ⟨false, false, (s.part p).sched.base, (s.part p).sched.size, (s.part p).sched.ptr, false,
        (s.part p).sched.lim⟩) ∧
      t.mgmt.warmFails = 0 ∧ ⟨Config.operatorNode, .event, [0x0020, 1, 0, 0], []⟩ ∈ t.mgmt.outbox) ∧
  (∀ (s : State) (g : Nat), s.mgmt.startedAt = some g → g + 2000000000 ≤ s.gts → s.mgmt.warmFails < 2 →
    ∃ t, exec .warmStartTimeout s = .next t ∧ t.mgmt.failedStart = true ∧ t.mgmt.warmFails = s.mgmt.warmFails + 1 ∧
      t.mgmt.startedAt = none ∧ ⟨Config.operatorNode, .event, [0x0020, 1, 2, 5], []⟩ ∈ t.mgmt.outbox) ∧
  ∀ s : State, s.mgmt.watchdogStopped = true →
    ∃ t, exec .watchdogReset s = .next t ∧ t.mgmt.watchdogStopped = false ∧ t.mgmt.committing = false ∧
      t.mgmt.layout = s.mgmt.layout ∧ (∀ n, (t.strand n).s = (s.strand n).s ∧ (t.strand n).pc = (s.strand n).pc) ∧
      (s.mgmt.journal = .prepared → t.mgmt.shadow = none ∧ t.mgmt.journal = .empty) ∧
      (∀ old, s.mgmt.journal = .swapped → s.mgmt.shadow = some old → t.mgmt.shadow = none ∧ t.mgmt.journal = .done)

/-- R329, R330, R332: the record of a strand gives back its registers: the program counter, the level, the scalars, the predicates,
the tokens, the level's trap registers, the stack's image and limits, the special registers, the indices and the vectors, for a
strand with no pending write whose registers hold what a write of them stores. -/
def Obligations.StrandRecordsGiveTheStrandBack : Prop :=
  ∀ (n : StrandId) (c : Ctx) (t base u : Strand) (b : Backing),
    t.pend = [] → t.image.length ≤ 768 → (∀ x ∈ t.image, x < 2 ^ 16) → t.locks.length ≤ 128 → t.fifo.length ≤ 16 →
    (∀ i : Fin 8, t.token i < 16) → t.tfloor < 2 ^ 10 → t.stkbase.toNat % 2 ^ 18 = 0 →
    t.role < 3 → stklimStored (BitVec.ofNat 64 t.stklim) = t.stklim → tsquotaStored (BitVec.ofNat 64 t.tsquota) = t.tsquota →
    leasectlStored t.leasectl = t.leasectl → poolStored false t.qmin = t.qmin → poolStored true t.qcap = t.qcap →
    (∀ r ∈ t.traps.toList, r.pc.toNat % 2 = 0 ∧ r.cause.toNat < 2 ^ 10) → t.ordinal < 2 ^ 64 → t.declared < 2 ^ 64 → t.vdecs < 2 ^ 64 →
    u = base.load (strandRecord n c t) b →
    u.pc = t.pc ∧ u.level = t.level ∧ u.s = t.s ∧ (∀ r, u.getP r = t.getP r) ∧ (∀ i, u.token i = t.token i) ∧ u.tags = t.tags ∧
    u.vstat = t.vstat ∧ u.role = t.role ∧ u.leasectl = t.leasectl ∧ u.qmin = t.qmin ∧ u.qcap = t.qcap ∧ u.tlock = t.tlock ∧
    u.stklim = t.stklim ∧ u.stkbase = t.stkbase ∧ u.tsquota = t.tsquota ∧ u.tfloor = t.tfloor ∧ u.image = t.image ∧
    u.ordinal = t.ordinal ∧ u.idx = t.idx ∧ u.ext = t.ext ∧ u.traps = t.traps ∧ u.declared = t.declared ∧ u.vdecs = t.vdecs ∧
    u.k = t.k ∧ u.v = t.v ∧ u.pend = []

/-! ### Encodings, steps, reset and the canonical memory -/

namespace Sys2Proof.Claims

/-- The bytes of an instruction's words as the hardware stores them (R4, R95, R106). -/
def codeOfWords (ws : List Word) : List Byte := (ws.map (fun w => leBytes 8 w.toNat)).flatten

end Sys2Proof.Claims

/-- R4, R95, R96, R106, R109, R112: for every well-formed instruction that has an encoding, the decoder gives back from its bytes
the instruction, with every operand, and the bytes behind it. -/
def Obligations.DecodeOfEncodeGivesTheInstructionBack : Prop :=
  ∀ (i : Instr) (rest : List Byte), WellFormed i → encode i ≠ [] → decode (codeOfWords (encode i) ++ rest) = .ok (i, rest)

/-- R95 to R98, R106, R109, R113 to R115: words written out from the encodings of the spec decode to the instructions they stand for:
a guarded ADDI, ADD, BR, MOVL with its literal, LDD, ACAS, SRD, VADD, DBND, TROT, TLD and MCVT. -/
def Obligations.SpecWordsDecodeToTheirInstructions : Prop :=
  let m : Mods := ⟨⟨false, 0⟩, ⟨false, 0⟩, false, 0, 0⟩
  let g : Mods := { m with ga := ⟨false, 1⟩ }
  let a : Arith := ⟨.rne, false, 0⟩
  decodeTableWord 64 0x0211_0000_0924_03E8 = some (.addi g 9 9 1000) ∧
  decodeTableWord 64 0x0010_0000_0924_B000 = some (.add m 9 9 11) ∧
  decodeTableWord 64 0x0601_0000_0000_0024 = some (.br g 0x24) ∧
  decodeTableWord 128 0x0123_4567_89AB_CDEF_03C0_0000_0700_0000 = some (.movl m 7 0x0123_4567_89AB_CDEF) ∧
  decodeTableWord 64 0x1030_0000_0B28_0000 = some (.ldd m ⟨0, 0⟩ 11 10 0 0) ∧
  decodeTableWord 64 0x1170_0000_4B1C_8033 = some (.acas m ⟨0, .acquire⟩ 11 7 8 0 true .package) ∧
  decodeTableWord 64 0x0740_0000_0900_0080 = some (.srd m 9 0x080) ∧
  decodeTableWord 64 0x4010_0010_0404_2038 = some (.vadd { m with sc := 1 } a 4 1 2 .int32 0) ∧
  decodeTableWord 64 0xC000_FFFF_1C05_FC05 = some (.dbnd 0xFFFF 0x1C05 0xFC05) ∧
  decodeTableWord 64 0x8060_0000_0300_0000 = some (.trot m 3) ∧
  decodeTableWord 64 0x8100_0080_0004_0000 = some (.tld { m with tok := 1 } ⟨0, 0⟩ 1) ∧
  decodeTableWord 64 0x8460_0000_0400_0002 = some (.mcvt m a .e4m3 .row)

/-- R112: a strand's turn executes the instruction that the bytes at its program counter decode to, with the program counter that
R107 gives after it; a trap of fetch or decode is raised at its place, an empty slot passes, a fetch waits for a line whose error is to
be found, and a device's turn is its event, one that the ROM makes of its error registers where its routine comes to it. -/
def Obligations.StepRunsTheDecodedInstruction : Prop :=
  (∀ (s : State) (n : StrandId), s.nextTurn = .strand n →
    (∀ i next, s.beginStep.nextOf n = .run i next → step s = exec i (s.beginStep.withLatch n next)) ∧
    (∀ tr pc, s.beginStep.nextOf n = .trap tr pc → step s = .next (s.beginStep.raise n tr pc)) ∧
    (∀ next, s.beginStep.nextOf n = .empty next → step s = .next (s.beginStep.modStrand n (fun t => t.setPc next))) ∧
    (∀ pa, s.beginStep.nextOf n = .due pa →
      step s = .next (s.beginStep.visitLine ((s.beginStep.strand n).ctx.getD 0) pa))) ∧
  (∀ (s : State) (i : Instr), s.nextTurn = .event i → encode i = [] →
    (∀ u, s.beginStep.romWrite i = some u → step s = exec i u) ∧
    (s.beginStep.romWrite i = none → step s = .next s.beginStep) ∧
    ((∀ v, i ≠ .pgpois v ∧ i ≠ .scquar v ∧ i ≠ .ctxterm v ∧ i ≠ .sceinfoRelease v) → step s = exec i s.beginStep)) ∧
  ∀ (s : State) (n : StrandId) (c : Ctx) (pa : Nat) (e : TlbEntry) (i : Instr) (bs : List Byte),
    (s.strand n).run = .running → (s.strand n).faulted = false → (s.strand n).resultWait = false →
    (s.strand n).drainArrived = false → (s.strand n).slot0 = false → (s.strand n).pc.toNat % 8 = 0 → s.ctxOf n = some c →
    inBacking (s.strand n).pc = false → s.translate (s.strand n).tlb c .exec (s.strand n).pc = .ok (pa, e) → s.lineDue pa = false →
    bs = s.codeBytes n (s.strand n).pc pa → bs.length = 8 → s.holdsBefore n i = false →
    (decode bs = .ok (i, []) → s.nextOf n = .run i ((s.strand n).pc + 8)) ∧
    ∀ pa' e', inBacking ((s.strand n).pc + 8) = false → s.translate (s.strand n).tlb c .exec ((s.strand n).pc + 8) = .ok (pa', e') → s.lineDue pa' = false →
      (s.codeBytes n ((s.strand n).pc + 8) pa').length = 8 → isLong (BitVec.ofNat 64 (leWord bs)) = true →
      decode (bs ++ s.codeBytes n ((s.strand n).pc + 8) pa') = .ok (i, []) → s.nextOf n = .run i ((s.strand n).pc + 16)

/-- Every step keeps each memory in its canonical form, whatever the state (the form is the model's own; log entry 38). -/
def Obligations.EveryStepKeepsMemoryCanonical : Prop :=
  ∀ s t : State, Canonical s → step s = .next t → Canonical t

/-- R71, R83, R84, R315, R318, R319, R374, R391: what a cold start leaves, where the spec gives it: every strand free at level 0 with
p0 set, STKLIM 768, TSQUOTA 32, ROLE 1, LEASECTL, QMIN and QCAP at their reset values, TAGS, VSTAT and TLOCK clear; no owner, no
context, no launch, logs disabled, CNTPOL with DLY 10 and QNT 10, every byte of memory zero, and that memory canonical. -/
def Obligations.ResetIsTheColdStart : Prop :=
  (∀ n, (State.reset.strand n).run = .free ∧ (State.reset.strand n).level = 0 ∧ (State.reset.strand n).getP 0 = true ∧
    (State.reset.strand n).getS 0 = 0 ∧ (State.reset.strand n).stklim = 768 ∧ (State.reset.strand n).tsquota = 32 ∧
    (State.reset.strand n).role = 1 ∧ field (State.reset.strand n).leasectl 32 16 = 4096 ∧
    field (State.reset.strand n).leasectl 16 16 = 256 ∧ field (State.reset.strand n).leasectl 0 9 = 64 ∧
    (∀ q < 4, poolOf (State.reset.strand n).qmin q = 16 ∧ poolOf (State.reset.strand n).qcap q = 256) ∧
    (State.reset.strand n).tags = 0 ∧ (State.reset.strand n).vstat = 0 ∧ (State.reset.strand n).tlock = false ∧
    State.reset.partOf n = none) ∧
  State.reset.ctxs = [] ∧ (∀ p k, State.reset.slot p k = none) ∧
  (∀ p, (State.reset.part p).sched.en = false ∧ (State.reset.part p).mo.en = false ∧ (State.reset.part p).stamp.en = false ∧
    (State.reset.part p).queue = []) ∧
  (∀ p, (State.reset.pod p).lease.holder = none) ∧
  field State.reset.mgmt.cntpol 8 5 = 10 ∧ field State.reset.mgmt.cntpol 0 5 = 10 ∧
  (∀ a, State.reset.coh a = 0) ∧ Canonical State.reset
end

