-- ==== Sys2Proof/Laws/State.lean ====
section
/-! SUPPORT. One lemma per field and update of `State` and of a strand's registers, so that no proof unfolds a record update. -/

namespace Sys2Proof.Machine

/-! ### The units of the package -/

@[simp] theorem State.strand_setStrand (s : State) (n : StrandId) (x : Strand) : (s.setStrand n x).strand n = x := by
  simp [State.strand, State.setStrand]

theorem State.strand_setStrand_ne (s : State) {n k : StrandId} (x : Strand) (h : k ≠ n) :
    (s.setStrand n x).strand k = s.strand k := by
  have : n.val ≠ k.val := fun e => h (Fin.ext e.symm)
  simp [State.strand, State.setStrand, this]

@[simp] theorem State.setStrand_setStrand (s : State) (n : StrandId) (x y : Strand) :
    (s.setStrand n x).setStrand n y = s.setStrand n y := by
  simp [State.setStrand]

@[simp] theorem State.strand_modStrand (s : State) (n : StrandId) (f : Strand → Strand) :
    (s.modStrand n f).strand n = f (s.strand n) := by
  simp [State.modStrand]

theorem State.strand_modStrand_ne (s : State) {n k : StrandId} (f : Strand → Strand) (h : k ≠ n) :
    (s.modStrand n f).strand k = s.strand k := s.strand_setStrand_ne _ h

@[simp] theorem State.modStrand_modStrand (s : State) (n : StrandId) (f g : Strand → Strand) :
    (s.modStrand n f).modStrand n g = s.modStrand n (g ∘ f) := by
  simp [State.modStrand]

@[simp] theorem State.part_setPart (s : State) (p : PartId) (x : Part) : (s.setPart p x).part p = x := by
  simp [State.part, State.setPart]

theorem State.part_setPart_ne (s : State) {p q : PartId} (x : Part) (h : q ≠ p) : (s.setPart p x).part q = s.part q := by
  have : p.val ≠ q.val := fun e => h (Fin.ext e.symm)
  simp [State.part, State.setPart, this]

@[simp] theorem State.part_modPart (s : State) (p : PartId) (f : Part → Part) : (s.modPart p f).part p = f (s.part p) := by
  simp [State.modPart]

theorem State.part_modPart_ne (s : State) {p q : PartId} (f : Part → Part) (h : q ≠ p) :
    (s.modPart p f).part q = s.part q := s.part_setPart_ne _ h

@[simp] theorem State.pod_setPod (s : State) (p : PodId) (x : Pod) : (s.setPod p x).pod p = x := by
  simp [State.pod, State.setPod]

theorem State.pod_setPod_ne (s : State) {p q : PodId} (x : Pod) (h : q ≠ p) : (s.setPod p x).pod q = s.pod q := by
  have : p.val ≠ q.val := fun e => h (Fin.ext e.symm)
  simp [State.pod, State.setPod, this]

@[simp] theorem State.pod_modPod (s : State) (p : PodId) (f : Pod → Pod) : (s.modPod p f).pod p = f (s.pod p) := by
  simp [State.modPod]

theorem State.pod_modPod_ne (s : State) {p q : PodId} (f : Pod → Pod) (h : q ≠ p) : (s.modPod p f).pod q = s.pod q :=
  s.pod_setPod_ne _ h


/-! ### `State.setStrand` -/

@[simp] theorem State.setStrand_gts (s : State) (n : StrandId) (x : Strand) : (s.setStrand n x).gts = s.gts := rfl
@[simp] theorem State.setStrand_ticks (s : State) (n : StrandId) (x : Strand) : (s.setStrand n x).ticks = s.ticks := rfl
@[simp] theorem State.setStrand_agenda (s : State) (n : StrandId) (x : Strand) : (s.setStrand n x).agenda = s.agenda := rfl
@[simp] theorem State.setStrand_cur (s : State) (n : StrandId) (x : Strand) : (s.setStrand n x).cur = s.cur := rfl
@[simp] theorem State.setStrand_pods (s : State) (n : StrandId) (x : Strand) : (s.setStrand n x).pods = s.pods := rfl
@[simp] theorem State.setStrand_parts (s : State) (n : StrandId) (x : Strand) : (s.setStrand n x).parts = s.parts := rfl
@[simp] theorem State.setStrand_ctxs (s : State) (n : StrandId) (x : Strand) : (s.setStrand n x).ctxs = s.ctxs := rfl
@[simp] theorem State.setStrand_mem (s : State) (n : StrandId) (x : Strand) : (s.setStrand n x).mem = s.mem := rfl
@[simp] theorem State.setStrand_sc (s : State) (n : StrandId) (x : Strand) : (s.setStrand n x).sc = s.sc := rfl
@[simp] theorem State.setStrand_ft (s : State) (n : StrandId) (x : Strand) : (s.setStrand n x).ft = s.ft := rfl
@[simp] theorem State.setStrand_remote (s : State) (n : StrandId) (x : Strand) : (s.setStrand n x).remote = s.remote := rfl
@[simp] theorem State.setStrand_orbuf (s : State) (n : StrandId) (x : Strand) : (s.setStrand n x).orbuf = s.orbuf := rfl
@[simp] theorem State.setStrand_dedup (s : State) (n : StrandId) (x : Strand) : (s.setStrand n x).dedup = s.dedup := rfl
@[simp] theorem State.setStrand_dind (s : State) (n : StrandId) (x : Strand) : (s.setStrand n x).dind = s.dind := rfl
@[simp] theorem State.setStrand_ddpPages (s : State) (n : StrandId) (x : Strand) : (s.setStrand n x).ddpPages = s.ddpPages := rfl
@[simp] theorem State.setStrand_mgmt (s : State) (n : StrandId) (x : Strand) : (s.setStrand n x).mgmt = s.mgmt := rfl
@[simp] theorem State.setStrand_syncAt (s : State) (n : StrandId) (x : Strand) : (s.setStrand n x).syncAt = s.syncAt := rfl
@[simp] theorem State.setStrand_syncs (s : State) (n : StrandId) (x : Strand) : (s.setStrand n x).syncs = s.syncs := rfl
@[simp] theorem State.setStrand_trace (s : State) (n : StrandId) (x : Strand) : (s.setStrand n x).trace = s.trace := rfl
@[simp] theorem State.pod_setStrand (s : State) (n : StrandId) (x : Strand) (q : PodId) : (s.setStrand n x).pod q = s.pod q := rfl
@[simp] theorem State.part_setStrand (s : State) (n : StrandId) (x : Strand) (q : PartId) : (s.setStrand n x).part q = s.part q := rfl

/-! ### `State.modStrand` -/

@[simp] theorem State.modStrand_gts (s : State) (n : StrandId) (f : Strand → Strand) : (s.modStrand n f).gts = s.gts := rfl
@[simp] theorem State.modStrand_ticks (s : State) (n : StrandId) (f : Strand → Strand) : (s.modStrand n f).ticks = s.ticks := rfl
@[simp] theorem State.modStrand_agenda (s : State) (n : StrandId) (f : Strand → Strand) : (s.modStrand n f).agenda = s.agenda := rfl
@[simp] theorem State.modStrand_cur (s : State) (n : StrandId) (f : Strand → Strand) : (s.modStrand n f).cur = s.cur := rfl
@[simp] theorem State.modStrand_pods (s : State) (n : StrandId) (f : Strand → Strand) : (s.modStrand n f).pods = s.pods := rfl
@[simp] theorem State.modStrand_parts (s : State) (n : StrandId) (f : Strand → Strand) : (s.modStrand n f).parts = s.parts := rfl
@[simp] theorem State.modStrand_ctxs (s : State) (n : StrandId) (f : Strand → Strand) : (s.modStrand n f).ctxs = s.ctxs := rfl
@[simp] theorem State.modStrand_mem (s : State) (n : StrandId) (f : Strand → Strand) : (s.modStrand n f).mem = s.mem := rfl
@[simp] theorem State.modStrand_sc (s : State) (n : StrandId) (f : Strand → Strand) : (s.modStrand n f).sc = s.sc := rfl
@[simp] theorem State.modStrand_ft (s : State) (n : StrandId) (f : Strand → Strand) : (s.modStrand n f).ft = s.ft := rfl
@[simp] theorem State.modStrand_remote (s : State) (n : StrandId) (f : Strand → Strand) : (s.modStrand n f).remote = s.remote := rfl
@[simp] theorem State.modStrand_orbuf (s : State) (n : StrandId) (f : Strand → Strand) : (s.modStrand n f).orbuf = s.orbuf := rfl
@[simp] theorem State.modStrand_dedup (s : State) (n : StrandId) (f : Strand → Strand) : (s.modStrand n f).dedup = s.dedup := rfl
@[simp] theorem State.modStrand_dind (s : State) (n : StrandId) (f : Strand → Strand) : (s.modStrand n f).dind = s.dind := rfl
@[simp] theorem State.modStrand_ddpPages (s : State) (n : StrandId) (f : Strand → Strand) : (s.modStrand n f).ddpPages = s.ddpPages := rfl
@[simp] theorem State.modStrand_mgmt (s : State) (n : StrandId) (f : Strand → Strand) : (s.modStrand n f).mgmt = s.mgmt := rfl
@[simp] theorem State.modStrand_syncAt (s : State) (n : StrandId) (f : Strand → Strand) : (s.modStrand n f).syncAt = s.syncAt := rfl
@[simp] theorem State.modStrand_syncs (s : State) (n : StrandId) (f : Strand → Strand) : (s.modStrand n f).syncs = s.syncs := rfl
@[simp] theorem State.modStrand_trace (s : State) (n : StrandId) (f : Strand → Strand) : (s.modStrand n f).trace = s.trace := rfl
@[simp] theorem State.pod_modStrand (s : State) (n : StrandId) (f : Strand → Strand) (q : PodId) : (s.modStrand n f).pod q = s.pod q := rfl
@[simp] theorem State.part_modStrand (s : State) (n : StrandId) (f : Strand → Strand) (q : PartId) : (s.modStrand n f).part q = s.part q := rfl

/-! ### `State.setPod` -/

@[simp] theorem State.setPod_gts (s : State) (p : PodId) (x : Pod) : (s.setPod p x).gts = s.gts := rfl
@[simp] theorem State.setPod_ticks (s : State) (p : PodId) (x : Pod) : (s.setPod p x).ticks = s.ticks := rfl
@[simp] theorem State.setPod_agenda (s : State) (p : PodId) (x : Pod) : (s.setPod p x).agenda = s.agenda := rfl
@[simp] theorem State.setPod_cur (s : State) (p : PodId) (x : Pod) : (s.setPod p x).cur = s.cur := rfl
@[simp] theorem State.setPod_strands (s : State) (p : PodId) (x : Pod) : (s.setPod p x).strands = s.strands := rfl
@[simp] theorem State.setPod_parts (s : State) (p : PodId) (x : Pod) : (s.setPod p x).parts = s.parts := rfl
@[simp] theorem State.setPod_ctxs (s : State) (p : PodId) (x : Pod) : (s.setPod p x).ctxs = s.ctxs := rfl
@[simp] theorem State.setPod_mem (s : State) (p : PodId) (x : Pod) : (s.setPod p x).mem = s.mem := rfl
@[simp] theorem State.setPod_sc (s : State) (p : PodId) (x : Pod) : (s.setPod p x).sc = s.sc := rfl
@[simp] theorem State.setPod_ft (s : State) (p : PodId) (x : Pod) : (s.setPod p x).ft = s.ft := rfl
@[simp] theorem State.setPod_remote (s : State) (p : PodId) (x : Pod) : (s.setPod p x).remote = s.remote := rfl
@[simp] theorem State.setPod_orbuf (s : State) (p : PodId) (x : Pod) : (s.setPod p x).orbuf = s.orbuf := rfl
@[simp] theorem State.setPod_dedup (s : State) (p : PodId) (x : Pod) : (s.setPod p x).dedup = s.dedup := rfl
@[simp] theorem State.setPod_dind (s : State) (p : PodId) (x : Pod) : (s.setPod p x).dind = s.dind := rfl
@[simp] theorem State.setPod_ddpPages (s : State) (p : PodId) (x : Pod) : (s.setPod p x).ddpPages = s.ddpPages := rfl
@[simp] theorem State.setPod_mgmt (s : State) (p : PodId) (x : Pod) : (s.setPod p x).mgmt = s.mgmt := rfl
@[simp] theorem State.setPod_syncAt (s : State) (p : PodId) (x : Pod) : (s.setPod p x).syncAt = s.syncAt := rfl
@[simp] theorem State.setPod_syncs (s : State) (p : PodId) (x : Pod) : (s.setPod p x).syncs = s.syncs := rfl
@[simp] theorem State.setPod_trace (s : State) (p : PodId) (x : Pod) : (s.setPod p x).trace = s.trace := rfl
@[simp] theorem State.strand_setPod (s : State) (p : PodId) (x : Pod) (q : StrandId) : (s.setPod p x).strand q = s.strand q := rfl
@[simp] theorem State.part_setPod (s : State) (p : PodId) (x : Pod) (q : PartId) : (s.setPod p x).part q = s.part q := rfl

/-! ### `State.modPod` -/

@[simp] theorem State.modPod_gts (s : State) (p : PodId) (f : Pod → Pod) : (s.modPod p f).gts = s.gts := rfl
@[simp] theorem State.modPod_ticks (s : State) (p : PodId) (f : Pod → Pod) : (s.modPod p f).ticks = s.ticks := rfl
@[simp] theorem State.modPod_agenda (s : State) (p : PodId) (f : Pod → Pod) : (s.modPod p f).agenda = s.agenda := rfl
@[simp] theorem State.modPod_cur (s : State) (p : PodId) (f : Pod → Pod) : (s.modPod p f).cur = s.cur := rfl
@[simp] theorem State.modPod_strands (s : State) (p : PodId) (f : Pod → Pod) : (s.modPod p f).strands = s.strands := rfl
@[simp] theorem State.modPod_parts (s : State) (p : PodId) (f : Pod → Pod) : (s.modPod p f).parts = s.parts := rfl
@[simp] theorem State.modPod_ctxs (s : State) (p : PodId) (f : Pod → Pod) : (s.modPod p f).ctxs = s.ctxs := rfl
@[simp] theorem State.modPod_mem (s : State) (p : PodId) (f : Pod → Pod) : (s.modPod p f).mem = s.mem := rfl
@[simp] theorem State.modPod_sc (s : State) (p : PodId) (f : Pod → Pod) : (s.modPod p f).sc = s.sc := rfl
@[simp] theorem State.modPod_ft (s : State) (p : PodId) (f : Pod → Pod) : (s.modPod p f).ft = s.ft := rfl
@[simp] theorem State.modPod_remote (s : State) (p : PodId) (f : Pod → Pod) : (s.modPod p f).remote = s.remote := rfl
@[simp] theorem State.modPod_orbuf (s : State) (p : PodId) (f : Pod → Pod) : (s.modPod p f).orbuf = s.orbuf := rfl
@[simp] theorem State.modPod_dedup (s : State) (p : PodId) (f : Pod → Pod) : (s.modPod p f).dedup = s.dedup := rfl
@[simp] theorem State.modPod_dind (s : State) (p : PodId) (f : Pod → Pod) : (s.modPod p f).dind = s.dind := rfl
@[simp] theorem State.modPod_ddpPages (s : State) (p : PodId) (f : Pod → Pod) : (s.modPod p f).ddpPages = s.ddpPages := rfl
@[simp] theorem State.modPod_mgmt (s : State) (p : PodId) (f : Pod → Pod) : (s.modPod p f).mgmt = s.mgmt := rfl
@[simp] theorem State.modPod_syncAt (s : State) (p : PodId) (f : Pod → Pod) : (s.modPod p f).syncAt = s.syncAt := rfl
@[simp] theorem State.modPod_syncs (s : State) (p : PodId) (f : Pod → Pod) : (s.modPod p f).syncs = s.syncs := rfl
@[simp] theorem State.modPod_trace (s : State) (p : PodId) (f : Pod → Pod) : (s.modPod p f).trace = s.trace := rfl
@[simp] theorem State.strand_modPod (s : State) (p : PodId) (f : Pod → Pod) (q : StrandId) : (s.modPod p f).strand q = s.strand q := rfl
@[simp] theorem State.part_modPod (s : State) (p : PodId) (f : Pod → Pod) (q : PartId) : (s.modPod p f).part q = s.part q := rfl

/-! ### `State.setPart` -/

@[simp] theorem State.setPart_gts (s : State) (p : PartId) (x : Part) : (s.setPart p x).gts = s.gts := rfl
@[simp] theorem State.setPart_ticks (s : State) (p : PartId) (x : Part) : (s.setPart p x).ticks = s.ticks := rfl
@[simp] theorem State.setPart_agenda (s : State) (p : PartId) (x : Part) : (s.setPart p x).agenda = s.agenda := rfl
@[simp] theorem State.setPart_cur (s : State) (p : PartId) (x : Part) : (s.setPart p x).cur = s.cur := rfl
@[simp] theorem State.setPart_strands (s : State) (p : PartId) (x : Part) : (s.setPart p x).strands = s.strands := rfl
@[simp] theorem State.setPart_pods (s : State) (p : PartId) (x : Part) : (s.setPart p x).pods = s.pods := rfl
@[simp] theorem State.setPart_ctxs (s : State) (p : PartId) (x : Part) : (s.setPart p x).ctxs = s.ctxs := rfl
@[simp] theorem State.setPart_mem (s : State) (p : PartId) (x : Part) : (s.setPart p x).mem = s.mem := rfl
@[simp] theorem State.setPart_sc (s : State) (p : PartId) (x : Part) : (s.setPart p x).sc = s.sc := rfl
@[simp] theorem State.setPart_ft (s : State) (p : PartId) (x : Part) : (s.setPart p x).ft = s.ft := rfl
@[simp] theorem State.setPart_remote (s : State) (p : PartId) (x : Part) : (s.setPart p x).remote = s.remote := rfl
@[simp] theorem State.setPart_orbuf (s : State) (p : PartId) (x : Part) : (s.setPart p x).orbuf = s.orbuf := rfl
@[simp] theorem State.setPart_dedup (s : State) (p : PartId) (x : Part) : (s.setPart p x).dedup = s.dedup := rfl
@[simp] theorem State.setPart_dind (s : State) (p : PartId) (x : Part) : (s.setPart p x).dind = s.dind := rfl
@[simp] theorem State.setPart_ddpPages (s : State) (p : PartId) (x : Part) : (s.setPart p x).ddpPages = s.ddpPages := rfl
@[simp] theorem State.setPart_mgmt (s : State) (p : PartId) (x : Part) : (s.setPart p x).mgmt = s.mgmt := rfl
@[simp] theorem State.setPart_syncAt (s : State) (p : PartId) (x : Part) : (s.setPart p x).syncAt = s.syncAt := rfl
@[simp] theorem State.setPart_syncs (s : State) (p : PartId) (x : Part) : (s.setPart p x).syncs = s.syncs := rfl
@[simp] theorem State.setPart_trace (s : State) (p : PartId) (x : Part) : (s.setPart p x).trace = s.trace := rfl
@[simp] theorem State.strand_setPart (s : State) (p : PartId) (x : Part) (q : StrandId) : (s.setPart p x).strand q = s.strand q := rfl
@[simp] theorem State.pod_setPart (s : State) (p : PartId) (x : Part) (q : PodId) : (s.setPart p x).pod q = s.pod q := rfl

/-! ### `State.modPart` -/

@[simp] theorem State.modPart_gts (s : State) (p : PartId) (f : Part → Part) : (s.modPart p f).gts = s.gts := rfl
@[simp] theorem State.modPart_ticks (s : State) (p : PartId) (f : Part → Part) : (s.modPart p f).ticks = s.ticks := rfl
@[simp] theorem State.modPart_agenda (s : State) (p : PartId) (f : Part → Part) : (s.modPart p f).agenda = s.agenda := rfl
@[simp] theorem State.modPart_cur (s : State) (p : PartId) (f : Part → Part) : (s.modPart p f).cur = s.cur := rfl
@[simp] theorem State.modPart_strands (s : State) (p : PartId) (f : Part → Part) : (s.modPart p f).strands = s.strands := rfl
@[simp] theorem State.modPart_pods (s : State) (p : PartId) (f : Part → Part) : (s.modPart p f).pods = s.pods := rfl
@[simp] theorem State.modPart_ctxs (s : State) (p : PartId) (f : Part → Part) : (s.modPart p f).ctxs = s.ctxs := rfl
@[simp] theorem State.modPart_mem (s : State) (p : PartId) (f : Part → Part) : (s.modPart p f).mem = s.mem := rfl
@[simp] theorem State.modPart_sc (s : State) (p : PartId) (f : Part → Part) : (s.modPart p f).sc = s.sc := rfl
@[simp] theorem State.modPart_ft (s : State) (p : PartId) (f : Part → Part) : (s.modPart p f).ft = s.ft := rfl
@[simp] theorem State.modPart_remote (s : State) (p : PartId) (f : Part → Part) : (s.modPart p f).remote = s.remote := rfl
@[simp] theorem State.modPart_orbuf (s : State) (p : PartId) (f : Part → Part) : (s.modPart p f).orbuf = s.orbuf := rfl
@[simp] theorem State.modPart_dedup (s : State) (p : PartId) (f : Part → Part) : (s.modPart p f).dedup = s.dedup := rfl
@[simp] theorem State.modPart_dind (s : State) (p : PartId) (f : Part → Part) : (s.modPart p f).dind = s.dind := rfl
@[simp] theorem State.modPart_ddpPages (s : State) (p : PartId) (f : Part → Part) : (s.modPart p f).ddpPages = s.ddpPages := rfl
@[simp] theorem State.modPart_mgmt (s : State) (p : PartId) (f : Part → Part) : (s.modPart p f).mgmt = s.mgmt := rfl
@[simp] theorem State.modPart_syncAt (s : State) (p : PartId) (f : Part → Part) : (s.modPart p f).syncAt = s.syncAt := rfl
@[simp] theorem State.modPart_syncs (s : State) (p : PartId) (f : Part → Part) : (s.modPart p f).syncs = s.syncs := rfl
@[simp] theorem State.modPart_trace (s : State) (p : PartId) (f : Part → Part) : (s.modPart p f).trace = s.trace := rfl
@[simp] theorem State.strand_modPart (s : State) (p : PartId) (f : Part → Part) (q : StrandId) : (s.modPart p f).strand q = s.strand q := rfl
@[simp] theorem State.pod_modPart (s : State) (p : PartId) (f : Part → Part) (q : PodId) : (s.modPart p f).pod q = s.pod q := rfl

/-! ### `State.modCtx` -/

@[simp] theorem State.modCtx_gts (s : State) (c : Nat) (f : Ctx → Ctx) : (s.modCtx c f).gts = s.gts := rfl
@[simp] theorem State.modCtx_ticks (s : State) (c : Nat) (f : Ctx → Ctx) : (s.modCtx c f).ticks = s.ticks := rfl
@[simp] theorem State.modCtx_agenda (s : State) (c : Nat) (f : Ctx → Ctx) : (s.modCtx c f).agenda = s.agenda := rfl
@[simp] theorem State.modCtx_cur (s : State) (c : Nat) (f : Ctx → Ctx) : (s.modCtx c f).cur = s.cur := rfl
@[simp] theorem State.modCtx_strands (s : State) (c : Nat) (f : Ctx → Ctx) : (s.modCtx c f).strands = s.strands := rfl
@[simp] theorem State.modCtx_pods (s : State) (c : Nat) (f : Ctx → Ctx) : (s.modCtx c f).pods = s.pods := rfl
@[simp] theorem State.modCtx_parts (s : State) (c : Nat) (f : Ctx → Ctx) : (s.modCtx c f).parts = s.parts := rfl
@[simp] theorem State.modCtx_mem (s : State) (c : Nat) (f : Ctx → Ctx) : (s.modCtx c f).mem = s.mem := rfl
@[simp] theorem State.modCtx_sc (s : State) (c : Nat) (f : Ctx → Ctx) : (s.modCtx c f).sc = s.sc := rfl
@[simp] theorem State.modCtx_ft (s : State) (c : Nat) (f : Ctx → Ctx) : (s.modCtx c f).ft = s.ft := rfl
@[simp] theorem State.modCtx_remote (s : State) (c : Nat) (f : Ctx → Ctx) : (s.modCtx c f).remote = s.remote := rfl
@[simp] theorem State.modCtx_orbuf (s : State) (c : Nat) (f : Ctx → Ctx) : (s.modCtx c f).orbuf = s.orbuf := rfl
@[simp] theorem State.modCtx_dedup (s : State) (c : Nat) (f : Ctx → Ctx) : (s.modCtx c f).dedup = s.dedup := rfl
@[simp] theorem State.modCtx_dind (s : State) (c : Nat) (f : Ctx → Ctx) : (s.modCtx c f).dind = s.dind := rfl
@[simp] theorem State.modCtx_ddpPages (s : State) (c : Nat) (f : Ctx → Ctx) : (s.modCtx c f).ddpPages = s.ddpPages := rfl
@[simp] theorem State.modCtx_mgmt (s : State) (c : Nat) (f : Ctx → Ctx) : (s.modCtx c f).mgmt = s.mgmt := rfl
@[simp] theorem State.modCtx_syncAt (s : State) (c : Nat) (f : Ctx → Ctx) : (s.modCtx c f).syncAt = s.syncAt := rfl
@[simp] theorem State.modCtx_syncs (s : State) (c : Nat) (f : Ctx → Ctx) : (s.modCtx c f).syncs = s.syncs := rfl
@[simp] theorem State.modCtx_trace (s : State) (c : Nat) (f : Ctx → Ctx) : (s.modCtx c f).trace = s.trace := rfl
@[simp] theorem State.strand_modCtx (s : State) (c : Nat) (f : Ctx → Ctx) (q : StrandId) : (s.modCtx c f).strand q = s.strand q := rfl
@[simp] theorem State.pod_modCtx (s : State) (c : Nat) (f : Ctx → Ctx) (q : PodId) : (s.modCtx c f).pod q = s.pod q := rfl
@[simp] theorem State.part_modCtx (s : State) (c : Nat) (f : Ctx → Ctx) (q : PartId) : (s.modCtx c f).part q = s.part q := rfl

/-! ### `State.send` -/

@[simp] theorem State.send_gts (s : State) (m : Message) : (s.send m).gts = s.gts := rfl
@[simp] theorem State.send_ticks (s : State) (m : Message) : (s.send m).ticks = s.ticks := rfl
@[simp] theorem State.send_agenda (s : State) (m : Message) : (s.send m).agenda = s.agenda := rfl
@[simp] theorem State.send_cur (s : State) (m : Message) : (s.send m).cur = s.cur := rfl
@[simp] theorem State.send_strands (s : State) (m : Message) : (s.send m).strands = s.strands := rfl
@[simp] theorem State.send_pods (s : State) (m : Message) : (s.send m).pods = s.pods := rfl
@[simp] theorem State.send_parts (s : State) (m : Message) : (s.send m).parts = s.parts := rfl
@[simp] theorem State.send_ctxs (s : State) (m : Message) : (s.send m).ctxs = s.ctxs := rfl
@[simp] theorem State.send_mem (s : State) (m : Message) : (s.send m).mem = s.mem := rfl
@[simp] theorem State.send_sc (s : State) (m : Message) : (s.send m).sc = s.sc := rfl
@[simp] theorem State.send_ft (s : State) (m : Message) : (s.send m).ft = s.ft := rfl
@[simp] theorem State.send_remote (s : State) (m : Message) : (s.send m).remote = s.remote := rfl
@[simp] theorem State.send_orbuf (s : State) (m : Message) : (s.send m).orbuf = s.orbuf := rfl
@[simp] theorem State.send_dedup (s : State) (m : Message) : (s.send m).dedup = s.dedup := rfl
@[simp] theorem State.send_dind (s : State) (m : Message) : (s.send m).dind = s.dind := rfl
@[simp] theorem State.send_ddpPages (s : State) (m : Message) : (s.send m).ddpPages = s.ddpPages := rfl
@[simp] theorem State.send_syncAt (s : State) (m : Message) : (s.send m).syncAt = s.syncAt := rfl
@[simp] theorem State.send_syncs (s : State) (m : Message) : (s.send m).syncs = s.syncs := rfl
@[simp] theorem State.send_trace (s : State) (m : Message) : (s.send m).trace = s.trace := rfl
@[simp] theorem State.strand_send (s : State) (m : Message) (q : StrandId) : (s.send m).strand q = s.strand q := rfl
@[simp] theorem State.pod_send (s : State) (m : Message) (q : PodId) : (s.send m).pod q = s.pod q := rfl
@[simp] theorem State.part_send (s : State) (m : Message) (q : PartId) : (s.send m).part q = s.part q := rfl

/-! ### A strand's registers -/

@[simp] theorem Strand.getS_zero (t : Strand) : t.getS 0 = 0 := rfl

@[simp] theorem Strand.setS_zero (t : Strand) (x : Word) : t.setS 0 x = t := rfl

theorem Strand.getS_setS (t : Strand) (r : SReg) (x : Word) (q : SReg) :
    (t.setS r x).getS q = if q = r ∧ r ≠ 0 then x else t.getS q := by
  unfold Strand.getS Strand.setS
  by_cases hr : r.val = 0
  · have : r = 0 := Fin.ext hr
    simp [this]
  · have hne : r ≠ 0 := fun e => hr (by simp [e])
    by_cases hq : q = r
    · subst hq; simp [hr, hne]
    · have : r.val ≠ q.val := fun e => hq (Fin.ext e.symm)
      simp [hr, hq, this]

/-- A scalar's value is a matter of the registers alone. -/
theorem Strand.getS_congr {a b : Strand} (h : a.s = b.s) (r : SReg) : a.getS r = b.getS r := by simp [Strand.getS, h]

theorem Strand.getP_congr {a b : Strand} (h : a.p = b.p) (r : PReg) : a.getP r = b.getP r := by simp [Strand.getP, h]

@[simp] theorem Strand.getP_zero (t : Strand) : t.getP 0 = true := by simp [Strand.getP]

@[simp] theorem Strand.setP_zero (t : Strand) (b : Bool) : t.setP 0 b = t := rfl

theorem Strand.getP_setP (t : Strand) (r : PReg) (b : Bool) (q : PReg) :
    (t.setP r b).getP q = if q = r ∧ r ≠ 0 then b else t.getP q := by
  unfold Strand.getP Strand.setP
  revert r q
  intro r q
  fin_cases r <;> fin_cases q <;> cases b <;> simp

@[simp] theorem Strand.getK_zero (t : Strand) : t.getK 0 = BitVec.allOnes 1024 := rfl

theorem Strand.getK_setK (t : Strand) (r : KReg) (x : BitVec 1024) (q : KReg) :
    (t.setK r x).getK q = if q = r ∧ r ≠ 0 then x else t.getK q := by
  unfold Strand.getK Strand.setK
  by_cases hr : r.val = 0
  · have : r = 0 := Fin.ext hr
    simp [this]
  · have hne : r ≠ 0 := fun e => hr (by simp [e])
    by_cases hq : q = r
    · subst hq; simp [hr, hne]
    · have : r.val ≠ q.val := fun e => hq (Fin.ext e.symm)
      simp [hr, hq, this]

theorem Strand.getV_setV (t : Strand) (r : VReg) (x : BitVec 4096) (q : VReg) :
    (t.setV r x).getV q = if q = r then x else t.getV q := by
  unfold Strand.getV Strand.setV
  by_cases hq : q = r
  · subst hq; simp
  · have : r.val ≠ q.val := fun e => hq (Fin.ext e.symm)
    simp [hq, this]

@[simp] theorem Strand.setS_run (t : Strand) (r : SReg) (x : Word) : (t.setS r x).run = t.run := by unfold Strand.setS; split <;> rfl
@[simp] theorem Strand.setS_ctx (t : Strand) (r : SReg) (x : Word) : (t.setS r x).ctx = t.ctx := by unfold Strand.setS; split <;> rfl
@[simp] theorem Strand.setS_launch (t : Strand) (r : SReg) (x : Word) : (t.setS r x).launch = t.launch := by unfold Strand.setS; split <;> rfl
@[simp] theorem Strand.setS_pc (t : Strand) (r : SReg) (x : Word) : (t.setS r x).pc = t.pc := by unfold Strand.setS; split <;> rfl
@[simp] theorem Strand.setS_slot0 (t : Strand) (r : SReg) (x : Word) : (t.setS r x).slot0 = t.slot0 := by unfold Strand.setS; split <;> rfl
@[simp] theorem Strand.setS_p (t : Strand) (r : SReg) (x : Word) : (t.setS r x).p = t.p := by unfold Strand.setS; split <;> rfl
@[simp] theorem Strand.setS_k (t : Strand) (r : SReg) (x : Word) : (t.setS r x).k = t.k := by unfold Strand.setS; split <;> rfl
@[simp] theorem Strand.setS_v (t : Strand) (r : SReg) (x : Word) : (t.setS r x).v = t.v := by unfold Strand.setS; split <;> rfl
@[simp] theorem Strand.setS_idx (t : Strand) (r : SReg) (x : Word) : (t.setS r x).idx = t.idx := by unfold Strand.setS; split <;> rfl
@[simp] theorem Strand.setS_ext (t : Strand) (r : SReg) (x : Word) : (t.setS r x).ext = t.ext := by unfold Strand.setS; split <;> rfl
@[simp] theorem Strand.setS_ordinal (t : Strand) (r : SReg) (x : Word) : (t.setS r x).ordinal = t.ordinal := by unfold Strand.setS; split <;> rfl
@[simp] theorem Strand.setS_fell (t : Strand) (r : SReg) (x : Word) : (t.setS r x).fell = t.fell := by unfold Strand.setS; split <;> rfl
@[simp] theorem Strand.setS_permit (t : Strand) (r : SReg) (x : Word) : (t.setS r x).permit = t.permit := by unfold Strand.setS; split <;> rfl
@[simp] theorem Strand.setS_atomJ (t : Strand) (r : SReg) (x : Word) : (t.setS r x).atomJ = t.atomJ := by unfold Strand.setS; split <;> rfl
@[simp] theorem Strand.setS_spo (t : Strand) (r : SReg) (x : Word) : (t.setS r x).spo = t.spo := by unfold Strand.setS; split <;> rfl
@[simp] theorem Strand.setS_image (t : Strand) (r : SReg) (x : Word) : (t.setS r x).image = t.image := by unfold Strand.setS; split <;> rfl
@[simp] theorem Strand.setS_tfloor (t : Strand) (r : SReg) (x : Word) : (t.setS r x).tfloor = t.tfloor := by unfold Strand.setS; split <;> rfl
@[simp] theorem Strand.setS_tiles (t : Strand) (r : SReg) (x : Word) : (t.setS r x).tiles = t.tiles := by unfold Strand.setS; split <;> rfl
@[simp] theorem Strand.setS_stklim (t : Strand) (r : SReg) (x : Word) : (t.setS r x).stklim = t.stklim := by unfold Strand.setS; split <;> rfl
@[simp] theorem Strand.setS_stkbase (t : Strand) (r : SReg) (x : Word) : (t.setS r x).stkbase = t.stkbase := by unfold Strand.setS; split <;> rfl
@[simp] theorem Strand.setS_tsquota (t : Strand) (r : SReg) (x : Word) : (t.setS r x).tsquota = t.tsquota := by unfold Strand.setS; split <;> rfl
@[simp] theorem Strand.setS_tokens (t : Strand) (r : SReg) (x : Word) : (t.setS r x).tokens = t.tokens := by unfold Strand.setS; split <;> rfl
@[simp] theorem Strand.setS_tags (t : Strand) (r : SReg) (x : Word) : (t.setS r x).tags = t.tags := by unfold Strand.setS; split <;> rfl
@[simp] theorem Strand.setS_vstat (t : Strand) (r : SReg) (x : Word) : (t.setS r x).vstat = t.vstat := by unfold Strand.setS; split <;> rfl
@[simp] theorem Strand.setS_role (t : Strand) (r : SReg) (x : Word) : (t.setS r x).role = t.role := by unfold Strand.setS; split <;> rfl
@[simp] theorem Strand.setS_leasectl (t : Strand) (r : SReg) (x : Word) : (t.setS r x).leasectl = t.leasectl := by unfold Strand.setS; split <;> rfl
@[simp] theorem Strand.setS_qmin (t : Strand) (r : SReg) (x : Word) : (t.setS r x).qmin = t.qmin := by unfold Strand.setS; split <;> rfl
@[simp] theorem Strand.setS_qcap (t : Strand) (r : SReg) (x : Word) : (t.setS r x).qcap = t.qcap := by unfold Strand.setS; split <;> rfl
@[simp] theorem Strand.setS_traps (t : Strand) (r : SReg) (x : Word) : (t.setS r x).traps = t.traps := by unfold Strand.setS; split <;> rfl
@[simp] theorem Strand.setS_tlock (t : Strand) (r : SReg) (x : Word) : (t.setS r x).tlock = t.tlock := by unfold Strand.setS; split <;> rfl
@[simp] theorem Strand.setS_level (t : Strand) (r : SReg) (x : Word) : (t.setS r x).level = t.level := by unfold Strand.setS; split <;> rfl
@[simp] theorem Strand.setS_held (t : Strand) (r : SReg) (x : Word) : (t.setS r x).held = t.held := by unfold Strand.setS; split <;> rfl
@[simp] theorem Strand.setS_locks (t : Strand) (r : SReg) (x : Word) : (t.setS r x).locks = t.locks := by unfold Strand.setS; split <;> rfl
@[simp] theorem Strand.setS_openId (t : Strand) (r : SReg) (x : Word) : (t.setS r x).openId = t.openId := by unfold Strand.setS; split <;> rfl
@[simp] theorem Strand.setS_openTile (t : Strand) (r : SReg) (x : Word) : (t.setS r x).openTile = t.openTile := by unfold Strand.setS; split <;> rfl
@[simp] theorem Strand.setS_kept (t : Strand) (r : SReg) (x : Word) : (t.setS r x).kept = t.kept := by unfold Strand.setS; split <;> rfl
@[simp] theorem Strand.setS_declared (t : Strand) (r : SReg) (x : Word) : (t.setS r x).declared = t.declared := by unfold Strand.setS; split <;> rfl
@[simp] theorem Strand.setS_vdecs (t : Strand) (r : SReg) (x : Word) : (t.setS r x).vdecs = t.vdecs := by unfold Strand.setS; split <;> rfl
@[simp] theorem Strand.setS_fifo (t : Strand) (r : SReg) (x : Word) : (t.setS r x).fifo = t.fifo := by unfold Strand.setS; split <;> rfl
@[simp] theorem Strand.setS_streams (t : Strand) (r : SReg) (x : Word) : (t.setS r x).streams = t.streams := by unfold Strand.setS; split <;> rfl
@[simp] theorem Strand.setS_queues (t : Strand) (r : SReg) (x : Word) : (t.setS r x).queues = t.queues := by unfold Strand.setS; split <;> rfl
@[simp] theorem Strand.setS_pend (t : Strand) (r : SReg) (x : Word) : (t.setS r x).pend = t.pend := by unfold Strand.setS; split <;> rfl
@[simp] theorem Strand.setS_vgap (t : Strand) (r : SReg) (x : Word) : (t.setS r x).vgap = t.vgap := by unfold Strand.setS; split <;> rfl
@[simp] theorem Strand.setS_nseq (t : Strand) (r : SReg) (x : Word) : (t.setS r x).nseq = t.nseq := by unfold Strand.setS; split <;> rfl
@[simp] theorem Strand.setS_cq (t : Strand) (r : SReg) (x : Word) : (t.setS r x).cq = t.cq := by unfold Strand.setS; split <;> rfl
@[simp] theorem Strand.setS_ib (t : Strand) (r : SReg) (x : Word) : (t.setS r x).ib = t.ib := by unfold Strand.setS; split <;> rfl
@[simp] theorem Strand.setS_l1 (t : Strand) (r : SReg) (x : Word) : (t.setS r x).l1 = t.l1 := by unfold Strand.setS; split <;> rfl
@[simp] theorem Strand.setS_tlb (t : Strand) (r : SReg) (x : Word) : (t.setS r x).tlb = t.tlb := by unfold Strand.setS; split <;> rfl
@[simp] theorem Strand.setS_fault (t : Strand) (r : SReg) (x : Word) : (t.setS r x).fault = t.fault := by unfold Strand.setS; split <;> rfl
@[simp] theorem Strand.setS_faultPc (t : Strand) (r : SReg) (x : Word) : (t.setS r x).faultPc = t.faultPc := by unfold Strand.setS; split <;> rfl
@[simp] theorem Strand.setS_async (t : Strand) (r : SReg) (x : Word) : (t.setS r x).async = t.async := by unfold Strand.setS; split <;> rfl
@[simp] theorem Strand.setS_stop (t : Strand) (r : SReg) (x : Word) : (t.setS r x).stop = t.stop := by unfold Strand.setS; split <;> rfl
@[simp] theorem Strand.setS_stopAt (t : Strand) (r : SReg) (x : Word) : (t.setS r x).stopAt = t.stopAt := by unfold Strand.setS; split <;> rfl
@[simp] theorem Strand.setS_draining (t : Strand) (r : SReg) (x : Word) : (t.setS r x).draining = t.draining := by unfold Strand.setS; split <;> rfl
@[simp] theorem Strand.setS_arrived (t : Strand) (r : SReg) (x : Word) : (t.setS r x).arrived = t.arrived := by unfold Strand.setS; split <;> rfl
@[simp] theorem Strand.setS_waiting (t : Strand) (r : SReg) (x : Word) : (t.setS r x).waiting = t.waiting := by unfold Strand.setS; split <;> rfl
@[simp] theorem Strand.setS_moCount (t : Strand) (r : SReg) (x : Word) : (t.setS r x).moCount = t.moCount := by unfold Strand.setS; split <;> rfl
@[simp] theorem Strand.setS_schedCount (t : Strand) (r : SReg) (x : Word) : (t.setS r x).schedCount = t.schedCount := by unfold Strand.setS; split <;> rfl
@[simp] theorem Strand.setS_late (t : Strand) (r : SReg) (x : Word) : (t.setS r x).late = t.late := by unfold Strand.setS; split <;> rfl
@[simp] theorem Strand.setS_want (t : Strand) (r : SReg) (x : Word) : (t.setS r x).want = t.want := by unfold Strand.setS; split <;> rfl
@[simp] theorem Strand.setS_safeChecked (t : Strand) (r : SReg) (x : Word) : (t.setS r x).safeChecked = t.safeChecked := by unfold Strand.setS; split <;> rfl
@[simp] theorem Strand.setS_debugReq (t : Strand) (r : SReg) (x : Word) : (t.setS r x).debugReq = t.debugReq := by unfold Strand.setS; split <;> rfl
@[simp] theorem Strand.setS_sampleReq (t : Strand) (r : SReg) (x : Word) : (t.setS r x).sampleReq = t.sampleReq := by unfold Strand.setS; split <;> rfl
@[simp] theorem Strand.setS_traceReq (t : Strand) (r : SReg) (x : Word) : (t.setS r x).traceReq = t.traceReq := by unfold Strand.setS; split <;> rfl
@[simp] theorem Strand.setS_counters (t : Strand) (r : SReg) (x : Word) : (t.setS r x).counters = t.counters := by unfold Strand.setS; split <;> rfl
@[simp] theorem Strand.setS_views (t : Strand) (r : SReg) (x : Word) : (t.setS r x).views = t.views := by unfold Strand.setS; split <;> rfl
@[simp] theorem Strand.setS_firstCause (t : Strand) (r : SReg) (x : Word) : (t.setS r x).firstCause = t.firstCause := by unfold Strand.setS; split <;> rfl
@[simp] theorem Strand.setS_gaps (t : Strand) (r : SReg) (x : Word) : (t.setS r x).gaps = t.gaps := by unfold Strand.setS; split <;> rfl
@[simp] theorem Strand.setS_barLog (t : Strand) (r : SReg) (x : Word) : (t.setS r x).barLog = t.barLog := by unfold Strand.setS; split <;> rfl
@[simp] theorem Strand.setS_moFree (t : Strand) (r : SReg) (x : Word) : (t.setS r x).moFree = t.moFree := by unfold Strand.setS; split <;> rfl
@[simp] theorem Strand.setP_run (t : Strand) (r : PReg) (b : Bool) : (t.setP r b).run = t.run := by unfold Strand.setP; split <;> rfl
@[simp] theorem Strand.setP_ctx (t : Strand) (r : PReg) (b : Bool) : (t.setP r b).ctx = t.ctx := by unfold Strand.setP; split <;> rfl
@[simp] theorem Strand.setP_launch (t : Strand) (r : PReg) (b : Bool) : (t.setP r b).launch = t.launch := by unfold Strand.setP; split <;> rfl
@[simp] theorem Strand.setP_pc (t : Strand) (r : PReg) (b : Bool) : (t.setP r b).pc = t.pc := by unfold Strand.setP; split <;> rfl
@[simp] theorem Strand.setP_slot0 (t : Strand) (r : PReg) (b : Bool) : (t.setP r b).slot0 = t.slot0 := by unfold Strand.setP; split <;> rfl
@[simp] theorem Strand.setP_s (t : Strand) (r : PReg) (b : Bool) : (t.setP r b).s = t.s := by unfold Strand.setP; split <;> rfl
@[simp] theorem Strand.setP_k (t : Strand) (r : PReg) (b : Bool) : (t.setP r b).k = t.k := by unfold Strand.setP; split <;> rfl
@[simp] theorem Strand.setP_v (t : Strand) (r : PReg) (b : Bool) : (t.setP r b).v = t.v := by unfold Strand.setP; split <;> rfl
@[simp] theorem Strand.setP_idx (t : Strand) (r : PReg) (b : Bool) : (t.setP r b).idx = t.idx := by unfold Strand.setP; split <;> rfl
@[simp] theorem Strand.setP_ext (t : Strand) (r : PReg) (b : Bool) : (t.setP r b).ext = t.ext := by unfold Strand.setP; split <;> rfl
@[simp] theorem Strand.setP_ordinal (t : Strand) (r : PReg) (b : Bool) : (t.setP r b).ordinal = t.ordinal := by unfold Strand.setP; split <;> rfl
@[simp] theorem Strand.setP_fell (t : Strand) (r : PReg) (b : Bool) : (t.setP r b).fell = t.fell := by unfold Strand.setP; split <;> rfl
@[simp] theorem Strand.setP_permit (t : Strand) (r : PReg) (b : Bool) : (t.setP r b).permit = t.permit := by unfold Strand.setP; split <;> rfl
@[simp] theorem Strand.setP_atomJ (t : Strand) (r : PReg) (b : Bool) : (t.setP r b).atomJ = t.atomJ := by unfold Strand.setP; split <;> rfl
@[simp] theorem Strand.setP_spo (t : Strand) (r : PReg) (b : Bool) : (t.setP r b).spo = t.spo := by unfold Strand.setP; split <;> rfl
@[simp] theorem Strand.setP_image (t : Strand) (r : PReg) (b : Bool) : (t.setP r b).image = t.image := by unfold Strand.setP; split <;> rfl
@[simp] theorem Strand.setP_tfloor (t : Strand) (r : PReg) (b : Bool) : (t.setP r b).tfloor = t.tfloor := by unfold Strand.setP; split <;> rfl
@[simp] theorem Strand.setP_tiles (t : Strand) (r : PReg) (b : Bool) : (t.setP r b).tiles = t.tiles := by unfold Strand.setP; split <;> rfl
@[simp] theorem Strand.setP_stklim (t : Strand) (r : PReg) (b : Bool) : (t.setP r b).stklim = t.stklim := by unfold Strand.setP; split <;> rfl
@[simp] theorem Strand.setP_stkbase (t : Strand) (r : PReg) (b : Bool) : (t.setP r b).stkbase = t.stkbase := by unfold Strand.setP; split <;> rfl
@[simp] theorem Strand.setP_tsquota (t : Strand) (r : PReg) (b : Bool) : (t.setP r b).tsquota = t.tsquota := by unfold Strand.setP; split <;> rfl
@[simp] theorem Strand.setP_tokens (t : Strand) (r : PReg) (b : Bool) : (t.setP r b).tokens = t.tokens := by unfold Strand.setP; split <;> rfl
@[simp] theorem Strand.setP_tags (t : Strand) (r : PReg) (b : Bool) : (t.setP r b).tags = t.tags := by unfold Strand.setP; split <;> rfl
@[simp] theorem Strand.setP_vstat (t : Strand) (r : PReg) (b : Bool) : (t.setP r b).vstat = t.vstat := by unfold Strand.setP; split <;> rfl
@[simp] theorem Strand.setP_role (t : Strand) (r : PReg) (b : Bool) : (t.setP r b).role = t.role := by unfold Strand.setP; split <;> rfl
@[simp] theorem Strand.setP_leasectl (t : Strand) (r : PReg) (b : Bool) : (t.setP r b).leasectl = t.leasectl := by unfold Strand.setP; split <;> rfl
@[simp] theorem Strand.setP_qmin (t : Strand) (r : PReg) (b : Bool) : (t.setP r b).qmin = t.qmin := by unfold Strand.setP; split <;> rfl
@[simp] theorem Strand.setP_qcap (t : Strand) (r : PReg) (b : Bool) : (t.setP r b).qcap = t.qcap := by unfold Strand.setP; split <;> rfl
@[simp] theorem Strand.setP_traps (t : Strand) (r : PReg) (b : Bool) : (t.setP r b).traps = t.traps := by unfold Strand.setP; split <;> rfl
@[simp] theorem Strand.setP_tlock (t : Strand) (r : PReg) (b : Bool) : (t.setP r b).tlock = t.tlock := by unfold Strand.setP; split <;> rfl
@[simp] theorem Strand.setP_level (t : Strand) (r : PReg) (b : Bool) : (t.setP r b).level = t.level := by unfold Strand.setP; split <;> rfl
@[simp] theorem Strand.setP_held (t : Strand) (r : PReg) (b : Bool) : (t.setP r b).held = t.held := by unfold Strand.setP; split <;> rfl
@[simp] theorem Strand.setP_locks (t : Strand) (r : PReg) (b : Bool) : (t.setP r b).locks = t.locks := by unfold Strand.setP; split <;> rfl
@[simp] theorem Strand.setP_openId (t : Strand) (r : PReg) (b : Bool) : (t.setP r b).openId = t.openId := by unfold Strand.setP; split <;> rfl
@[simp] theorem Strand.setP_openTile (t : Strand) (r : PReg) (b : Bool) : (t.setP r b).openTile = t.openTile := by unfold Strand.setP; split <;> rfl
@[simp] theorem Strand.setP_kept (t : Strand) (r : PReg) (b : Bool) : (t.setP r b).kept = t.kept := by unfold Strand.setP; split <;> rfl
@[simp] theorem Strand.setP_declared (t : Strand) (r : PReg) (b : Bool) : (t.setP r b).declared = t.declared := by unfold Strand.setP; split <;> rfl
@[simp] theorem Strand.setP_vdecs (t : Strand) (r : PReg) (b : Bool) : (t.setP r b).vdecs = t.vdecs := by unfold Strand.setP; split <;> rfl
@[simp] theorem Strand.setP_fifo (t : Strand) (r : PReg) (b : Bool) : (t.setP r b).fifo = t.fifo := by unfold Strand.setP; split <;> rfl
@[simp] theorem Strand.setP_streams (t : Strand) (r : PReg) (b : Bool) : (t.setP r b).streams = t.streams := by unfold Strand.setP; split <;> rfl
@[simp] theorem Strand.setP_queues (t : Strand) (r : PReg) (b : Bool) : (t.setP r b).queues = t.queues := by unfold Strand.setP; split <;> rfl
@[simp] theorem Strand.setP_pend (t : Strand) (r : PReg) (b : Bool) : (t.setP r b).pend = t.pend := by unfold Strand.setP; split <;> rfl
@[simp] theorem Strand.setP_vgap (t : Strand) (r : PReg) (b : Bool) : (t.setP r b).vgap = t.vgap := by unfold Strand.setP; split <;> rfl
@[simp] theorem Strand.setP_nseq (t : Strand) (r : PReg) (b : Bool) : (t.setP r b).nseq = t.nseq := by unfold Strand.setP; split <;> rfl
@[simp] theorem Strand.setP_cq (t : Strand) (r : PReg) (b : Bool) : (t.setP r b).cq = t.cq := by unfold Strand.setP; split <;> rfl
@[simp] theorem Strand.setP_ib (t : Strand) (r : PReg) (b : Bool) : (t.setP r b).ib = t.ib := by unfold Strand.setP; split <;> rfl
@[simp] theorem Strand.setP_l1 (t : Strand) (r : PReg) (b : Bool) : (t.setP r b).l1 = t.l1 := by unfold Strand.setP; split <;> rfl
@[simp] theorem Strand.setP_tlb (t : Strand) (r : PReg) (b : Bool) : (t.setP r b).tlb = t.tlb := by unfold Strand.setP; split <;> rfl
@[simp] theorem Strand.setP_fault (t : Strand) (r : PReg) (b : Bool) : (t.setP r b).fault = t.fault := by unfold Strand.setP; split <;> rfl
@[simp] theorem Strand.setP_faultPc (t : Strand) (r : PReg) (b : Bool) : (t.setP r b).faultPc = t.faultPc := by unfold Strand.setP; split <;> rfl
@[simp] theorem Strand.setP_async (t : Strand) (r : PReg) (b : Bool) : (t.setP r b).async = t.async := by unfold Strand.setP; split <;> rfl
@[simp] theorem Strand.setP_stop (t : Strand) (r : PReg) (b : Bool) : (t.setP r b).stop = t.stop := by unfold Strand.setP; split <;> rfl
@[simp] theorem Strand.setP_stopAt (t : Strand) (r : PReg) (b : Bool) : (t.setP r b).stopAt = t.stopAt := by unfold Strand.setP; split <;> rfl
@[simp] theorem Strand.setP_draining (t : Strand) (r : PReg) (b : Bool) : (t.setP r b).draining = t.draining := by unfold Strand.setP; split <;> rfl
@[simp] theorem Strand.setP_arrived (t : Strand) (r : PReg) (b : Bool) : (t.setP r b).arrived = t.arrived := by unfold Strand.setP; split <;> rfl
@[simp] theorem Strand.setP_waiting (t : Strand) (r : PReg) (b : Bool) : (t.setP r b).waiting = t.waiting := by unfold Strand.setP; split <;> rfl
@[simp] theorem Strand.setP_moCount (t : Strand) (r : PReg) (b : Bool) : (t.setP r b).moCount = t.moCount := by unfold Strand.setP; split <;> rfl
@[simp] theorem Strand.setP_schedCount (t : Strand) (r : PReg) (b : Bool) : (t.setP r b).schedCount = t.schedCount := by unfold Strand.setP; split <;> rfl
@[simp] theorem Strand.setP_late (t : Strand) (r : PReg) (b : Bool) : (t.setP r b).late = t.late := by unfold Strand.setP; split <;> rfl
@[simp] theorem Strand.setP_want (t : Strand) (r : PReg) (b : Bool) : (t.setP r b).want = t.want := by unfold Strand.setP; split <;> rfl
@[simp] theorem Strand.setP_safeChecked (t : Strand) (r : PReg) (b : Bool) : (t.setP r b).safeChecked = t.safeChecked := by unfold Strand.setP; split <;> rfl
@[simp] theorem Strand.setP_debugReq (t : Strand) (r : PReg) (b : Bool) : (t.setP r b).debugReq = t.debugReq := by unfold Strand.setP; split <;> rfl
@[simp] theorem Strand.setP_sampleReq (t : Strand) (r : PReg) (b : Bool) : (t.setP r b).sampleReq = t.sampleReq := by unfold Strand.setP; split <;> rfl
@[simp] theorem Strand.setP_traceReq (t : Strand) (r : PReg) (b : Bool) : (t.setP r b).traceReq = t.traceReq := by unfold Strand.setP; split <;> rfl
@[simp] theorem Strand.setP_counters (t : Strand) (r : PReg) (b : Bool) : (t.setP r b).counters = t.counters := by unfold Strand.setP; split <;> rfl
@[simp] theorem Strand.setP_views (t : Strand) (r : PReg) (b : Bool) : (t.setP r b).views = t.views := by unfold Strand.setP; split <;> rfl
@[simp] theorem Strand.setP_firstCause (t : Strand) (r : PReg) (b : Bool) : (t.setP r b).firstCause = t.firstCause := by unfold Strand.setP; split <;> rfl
@[simp] theorem Strand.setP_gaps (t : Strand) (r : PReg) (b : Bool) : (t.setP r b).gaps = t.gaps := by unfold Strand.setP; split <;> rfl
@[simp] theorem Strand.setP_barLog (t : Strand) (r : PReg) (b : Bool) : (t.setP r b).barLog = t.barLog := by unfold Strand.setP; split <;> rfl
@[simp] theorem Strand.setP_moFree (t : Strand) (r : PReg) (b : Bool) : (t.setP r b).moFree = t.moFree := by unfold Strand.setP; split <;> rfl
@[simp] theorem Strand.setK_run (t : Strand) (r : KReg) (x : BitVec 1024) : (t.setK r x).run = t.run := by unfold Strand.setK; split <;> rfl
@[simp] theorem Strand.setK_ctx (t : Strand) (r : KReg) (x : BitVec 1024) : (t.setK r x).ctx = t.ctx := by unfold Strand.setK; split <;> rfl
@[simp] theorem Strand.setK_launch (t : Strand) (r : KReg) (x : BitVec 1024) : (t.setK r x).launch = t.launch := by unfold Strand.setK; split <;> rfl
@[simp] theorem Strand.setK_pc (t : Strand) (r : KReg) (x : BitVec 1024) : (t.setK r x).pc = t.pc := by unfold Strand.setK; split <;> rfl
@[simp] theorem Strand.setK_slot0 (t : Strand) (r : KReg) (x : BitVec 1024) : (t.setK r x).slot0 = t.slot0 := by unfold Strand.setK; split <;> rfl
@[simp] theorem Strand.setK_s (t : Strand) (r : KReg) (x : BitVec 1024) : (t.setK r x).s = t.s := by unfold Strand.setK; split <;> rfl
@[simp] theorem Strand.setK_p (t : Strand) (r : KReg) (x : BitVec 1024) : (t.setK r x).p = t.p := by unfold Strand.setK; split <;> rfl
@[simp] theorem Strand.setK_v (t : Strand) (r : KReg) (x : BitVec 1024) : (t.setK r x).v = t.v := by unfold Strand.setK; split <;> rfl
@[simp] theorem Strand.setK_idx (t : Strand) (r : KReg) (x : BitVec 1024) : (t.setK r x).idx = t.idx := by unfold Strand.setK; split <;> rfl
@[simp] theorem Strand.setK_ext (t : Strand) (r : KReg) (x : BitVec 1024) : (t.setK r x).ext = t.ext := by unfold Strand.setK; split <;> rfl
@[simp] theorem Strand.setK_ordinal (t : Strand) (r : KReg) (x : BitVec 1024) : (t.setK r x).ordinal = t.ordinal := by unfold Strand.setK; split <;> rfl
@[simp] theorem Strand.setK_fell (t : Strand) (r : KReg) (x : BitVec 1024) : (t.setK r x).fell = t.fell := by unfold Strand.setK; split <;> rfl
@[simp] theorem Strand.setK_permit (t : Strand) (r : KReg) (x : BitVec 1024) : (t.setK r x).permit = t.permit := by unfold Strand.setK; split <;> rfl
@[simp] theorem Strand.setK_atomJ (t : Strand) (r : KReg) (x : BitVec 1024) : (t.setK r x).atomJ = t.atomJ := by unfold Strand.setK; split <;> rfl
@[simp] theorem Strand.setK_spo (t : Strand) (r : KReg) (x : BitVec 1024) : (t.setK r x).spo = t.spo := by unfold Strand.setK; split <;> rfl
@[simp] theorem Strand.setK_image (t : Strand) (r : KReg) (x : BitVec 1024) : (t.setK r x).image = t.image := by unfold Strand.setK; split <;> rfl
@[simp] theorem Strand.setK_tfloor (t : Strand) (r : KReg) (x : BitVec 1024) : (t.setK r x).tfloor = t.tfloor := by unfold Strand.setK; split <;> rfl
@[simp] theorem Strand.setK_tiles (t : Strand) (r : KReg) (x : BitVec 1024) : (t.setK r x).tiles = t.tiles := by unfold Strand.setK; split <;> rfl
@[simp] theorem Strand.setK_stklim (t : Strand) (r : KReg) (x : BitVec 1024) : (t.setK r x).stklim = t.stklim := by unfold Strand.setK; split <;> rfl
@[simp] theorem Strand.setK_stkbase (t : Strand) (r : KReg) (x : BitVec 1024) : (t.setK r x).stkbase = t.stkbase := by unfold Strand.setK; split <;> rfl
@[simp] theorem Strand.setK_tsquota (t : Strand) (r : KReg) (x : BitVec 1024) : (t.setK r x).tsquota = t.tsquota := by unfold Strand.setK; split <;> rfl
@[simp] theorem Strand.setK_tokens (t : Strand) (r : KReg) (x : BitVec 1024) : (t.setK r x).tokens = t.tokens := by unfold Strand.setK; split <;> rfl
@[simp] theorem Strand.setK_tags (t : Strand) (r : KReg) (x : BitVec 1024) : (t.setK r x).tags = t.tags := by unfold Strand.setK; split <;> rfl
@[simp] theorem Strand.setK_vstat (t : Strand) (r : KReg) (x : BitVec 1024) : (t.setK r x).vstat = t.vstat := by unfold Strand.setK; split <;> rfl
@[simp] theorem Strand.setK_role (t : Strand) (r : KReg) (x : BitVec 1024) : (t.setK r x).role = t.role := by unfold Strand.setK; split <;> rfl
@[simp] theorem Strand.setK_leasectl (t : Strand) (r : KReg) (x : BitVec 1024) : (t.setK r x).leasectl = t.leasectl := by unfold Strand.setK; split <;> rfl
@[simp] theorem Strand.setK_qmin (t : Strand) (r : KReg) (x : BitVec 1024) : (t.setK r x).qmin = t.qmin := by unfold Strand.setK; split <;> rfl
@[simp] theorem Strand.setK_qcap (t : Strand) (r : KReg) (x : BitVec 1024) : (t.setK r x).qcap = t.qcap := by unfold Strand.setK; split <;> rfl
@[simp] theorem Strand.setK_traps (t : Strand) (r : KReg) (x : BitVec 1024) : (t.setK r x).traps = t.traps := by unfold Strand.setK; split <;> rfl
@[simp] theorem Strand.setK_tlock (t : Strand) (r : KReg) (x : BitVec 1024) : (t.setK r x).tlock = t.tlock := by unfold Strand.setK; split <;> rfl
@[simp] theorem Strand.setK_level (t : Strand) (r : KReg) (x : BitVec 1024) : (t.setK r x).level = t.level := by unfold Strand.setK; split <;> rfl
@[simp] theorem Strand.setK_held (t : Strand) (r : KReg) (x : BitVec 1024) : (t.setK r x).held = t.held := by unfold Strand.setK; split <;> rfl
@[simp] theorem Strand.setK_locks (t : Strand) (r : KReg) (x : BitVec 1024) : (t.setK r x).locks = t.locks := by unfold Strand.setK; split <;> rfl
@[simp] theorem Strand.setK_openId (t : Strand) (r : KReg) (x : BitVec 1024) : (t.setK r x).openId = t.openId := by unfold Strand.setK; split <;> rfl
@[simp] theorem Strand.setK_openTile (t : Strand) (r : KReg) (x : BitVec 1024) : (t.setK r x).openTile = t.openTile := by unfold Strand.setK; split <;> rfl
@[simp] theorem Strand.setK_kept (t : Strand) (r : KReg) (x : BitVec 1024) : (t.setK r x).kept = t.kept := by unfold Strand.setK; split <;> rfl
@[simp] theorem Strand.setK_declared (t : Strand) (r : KReg) (x : BitVec 1024) : (t.setK r x).declared = t.declared := by unfold Strand.setK; split <;> rfl
@[simp] theorem Strand.setK_vdecs (t : Strand) (r : KReg) (x : BitVec 1024) : (t.setK r x).vdecs = t.vdecs := by unfold Strand.setK; split <;> rfl
@[simp] theorem Strand.setK_fifo (t : Strand) (r : KReg) (x : BitVec 1024) : (t.setK r x).fifo = t.fifo := by unfold Strand.setK; split <;> rfl
@[simp] theorem Strand.setK_streams (t : Strand) (r : KReg) (x : BitVec 1024) : (t.setK r x).streams = t.streams := by unfold Strand.setK; split <;> rfl
@[simp] theorem Strand.setK_queues (t : Strand) (r : KReg) (x : BitVec 1024) : (t.setK r x).queues = t.queues := by unfold Strand.setK; split <;> rfl
@[simp] theorem Strand.setK_pend (t : Strand) (r : KReg) (x : BitVec 1024) : (t.setK r x).pend = t.pend := by unfold Strand.setK; split <;> rfl
@[simp] theorem Strand.setK_vgap (t : Strand) (r : KReg) (x : BitVec 1024) : (t.setK r x).vgap = t.vgap := by unfold Strand.setK; split <;> rfl
@[simp] theorem Strand.setK_nseq (t : Strand) (r : KReg) (x : BitVec 1024) : (t.setK r x).nseq = t.nseq := by unfold Strand.setK; split <;> rfl
@[simp] theorem Strand.setK_cq (t : Strand) (r : KReg) (x : BitVec 1024) : (t.setK r x).cq = t.cq := by unfold Strand.setK; split <;> rfl
@[simp] theorem Strand.setK_ib (t : Strand) (r : KReg) (x : BitVec 1024) : (t.setK r x).ib = t.ib := by unfold Strand.setK; split <;> rfl
@[simp] theorem Strand.setK_l1 (t : Strand) (r : KReg) (x : BitVec 1024) : (t.setK r x).l1 = t.l1 := by unfold Strand.setK; split <;> rfl
@[simp] theorem Strand.setK_tlb (t : Strand) (r : KReg) (x : BitVec 1024) : (t.setK r x).tlb = t.tlb := by unfold Strand.setK; split <;> rfl
@[simp] theorem Strand.setK_fault (t : Strand) (r : KReg) (x : BitVec 1024) : (t.setK r x).fault = t.fault := by unfold Strand.setK; split <;> rfl
@[simp] theorem Strand.setK_faultPc (t : Strand) (r : KReg) (x : BitVec 1024) : (t.setK r x).faultPc = t.faultPc := by unfold Strand.setK; split <;> rfl
@[simp] theorem Strand.setK_async (t : Strand) (r : KReg) (x : BitVec 1024) : (t.setK r x).async = t.async := by unfold Strand.setK; split <;> rfl
@[simp] theorem Strand.setK_stop (t : Strand) (r : KReg) (x : BitVec 1024) : (t.setK r x).stop = t.stop := by unfold Strand.setK; split <;> rfl
@[simp] theorem Strand.setK_stopAt (t : Strand) (r : KReg) (x : BitVec 1024) : (t.setK r x).stopAt = t.stopAt := by unfold Strand.setK; split <;> rfl
@[simp] theorem Strand.setK_draining (t : Strand) (r : KReg) (x : BitVec 1024) : (t.setK r x).draining = t.draining := by unfold Strand.setK; split <;> rfl
@[simp] theorem Strand.setK_arrived (t : Strand) (r : KReg) (x : BitVec 1024) : (t.setK r x).arrived = t.arrived := by unfold Strand.setK; split <;> rfl
@[simp] theorem Strand.setK_waiting (t : Strand) (r : KReg) (x : BitVec 1024) : (t.setK r x).waiting = t.waiting := by unfold Strand.setK; split <;> rfl
@[simp] theorem Strand.setK_moCount (t : Strand) (r : KReg) (x : BitVec 1024) : (t.setK r x).moCount = t.moCount := by unfold Strand.setK; split <;> rfl
@[simp] theorem Strand.setK_schedCount (t : Strand) (r : KReg) (x : BitVec 1024) : (t.setK r x).schedCount = t.schedCount := by unfold Strand.setK; split <;> rfl
@[simp] theorem Strand.setK_late (t : Strand) (r : KReg) (x : BitVec 1024) : (t.setK r x).late = t.late := by unfold Strand.setK; split <;> rfl
@[simp] theorem Strand.setK_want (t : Strand) (r : KReg) (x : BitVec 1024) : (t.setK r x).want = t.want := by unfold Strand.setK; split <;> rfl
@[simp] theorem Strand.setK_safeChecked (t : Strand) (r : KReg) (x : BitVec 1024) : (t.setK r x).safeChecked = t.safeChecked := by unfold Strand.setK; split <;> rfl
@[simp] theorem Strand.setK_debugReq (t : Strand) (r : KReg) (x : BitVec 1024) : (t.setK r x).debugReq = t.debugReq := by unfold Strand.setK; split <;> rfl
@[simp] theorem Strand.setK_sampleReq (t : Strand) (r : KReg) (x : BitVec 1024) : (t.setK r x).sampleReq = t.sampleReq := by unfold Strand.setK; split <;> rfl
@[simp] theorem Strand.setK_traceReq (t : Strand) (r : KReg) (x : BitVec 1024) : (t.setK r x).traceReq = t.traceReq := by unfold Strand.setK; split <;> rfl
@[simp] theorem Strand.setK_counters (t : Strand) (r : KReg) (x : BitVec 1024) : (t.setK r x).counters = t.counters := by unfold Strand.setK; split <;> rfl
@[simp] theorem Strand.setK_views (t : Strand) (r : KReg) (x : BitVec 1024) : (t.setK r x).views = t.views := by unfold Strand.setK; split <;> rfl
@[simp] theorem Strand.setK_firstCause (t : Strand) (r : KReg) (x : BitVec 1024) : (t.setK r x).firstCause = t.firstCause := by unfold Strand.setK; split <;> rfl
@[simp] theorem Strand.setK_gaps (t : Strand) (r : KReg) (x : BitVec 1024) : (t.setK r x).gaps = t.gaps := by unfold Strand.setK; split <;> rfl
@[simp] theorem Strand.setK_barLog (t : Strand) (r : KReg) (x : BitVec 1024) : (t.setK r x).barLog = t.barLog := by unfold Strand.setK; split <;> rfl
@[simp] theorem Strand.setK_moFree (t : Strand) (r : KReg) (x : BitVec 1024) : (t.setK r x).moFree = t.moFree := by unfold Strand.setK; split <;> rfl
@[simp] theorem Strand.setPc_run (t : Strand) (x : Word) : (t.setPc x).run = t.run := rfl
@[simp] theorem Strand.setPc_ctx (t : Strand) (x : Word) : (t.setPc x).ctx = t.ctx := rfl
@[simp] theorem Strand.setPc_launch (t : Strand) (x : Word) : (t.setPc x).launch = t.launch := rfl
@[simp] theorem Strand.setPc_s (t : Strand) (x : Word) : (t.setPc x).s = t.s := rfl
@[simp] theorem Strand.setPc_p (t : Strand) (x : Word) : (t.setPc x).p = t.p := rfl
@[simp] theorem Strand.setPc_k (t : Strand) (x : Word) : (t.setPc x).k = t.k := rfl
@[simp] theorem Strand.setPc_v (t : Strand) (x : Word) : (t.setPc x).v = t.v := rfl
@[simp] theorem Strand.setPc_idx (t : Strand) (x : Word) : (t.setPc x).idx = t.idx := rfl
@[simp] theorem Strand.setPc_ext (t : Strand) (x : Word) : (t.setPc x).ext = t.ext := rfl
@[simp] theorem Strand.setPc_ordinal (t : Strand) (x : Word) : (t.setPc x).ordinal = t.ordinal := rfl
@[simp] theorem Strand.setPc_fell (t : Strand) (x : Word) : (t.setPc x).fell = t.fell := rfl
@[simp] theorem Strand.setPc_permit (t : Strand) (x : Word) : (t.setPc x).permit = t.permit := rfl
@[simp] theorem Strand.setPc_atomJ (t : Strand) (x : Word) : (t.setPc x).atomJ = t.atomJ := rfl
@[simp] theorem Strand.setPc_spo (t : Strand) (x : Word) : (t.setPc x).spo = t.spo := rfl
@[simp] theorem Strand.setPc_image (t : Strand) (x : Word) : (t.setPc x).image = t.image := rfl
@[simp] theorem Strand.setPc_tfloor (t : Strand) (x : Word) : (t.setPc x).tfloor = t.tfloor := rfl
@[simp] theorem Strand.setPc_tiles (t : Strand) (x : Word) : (t.setPc x).tiles = t.tiles := rfl
@[simp] theorem Strand.setPc_stklim (t : Strand) (x : Word) : (t.setPc x).stklim = t.stklim := rfl
@[simp] theorem Strand.setPc_stkbase (t : Strand) (x : Word) : (t.setPc x).stkbase = t.stkbase := rfl
@[simp] theorem Strand.setPc_tsquota (t : Strand) (x : Word) : (t.setPc x).tsquota = t.tsquota := rfl
@[simp] theorem Strand.setPc_tokens (t : Strand) (x : Word) : (t.setPc x).tokens = t.tokens := rfl
@[simp] theorem Strand.setPc_tags (t : Strand) (x : Word) : (t.setPc x).tags = t.tags := rfl
@[simp] theorem Strand.setPc_vstat (t : Strand) (x : Word) : (t.setPc x).vstat = t.vstat := rfl
@[simp] theorem Strand.setPc_role (t : Strand) (x : Word) : (t.setPc x).role = t.role := rfl
@[simp] theorem Strand.setPc_leasectl (t : Strand) (x : Word) : (t.setPc x).leasectl = t.leasectl := rfl
@[simp] theorem Strand.setPc_qmin (t : Strand) (x : Word) : (t.setPc x).qmin = t.qmin := rfl
@[simp] theorem Strand.setPc_qcap (t : Strand) (x : Word) : (t.setPc x).qcap = t.qcap := rfl
@[simp] theorem Strand.setPc_traps (t : Strand) (x : Word) : (t.setPc x).traps = t.traps := rfl
@[simp] theorem Strand.setPc_tlock (t : Strand) (x : Word) : (t.setPc x).tlock = t.tlock := rfl
@[simp] theorem Strand.setPc_level (t : Strand) (x : Word) : (t.setPc x).level = t.level := rfl
@[simp] theorem Strand.setPc_held (t : Strand) (x : Word) : (t.setPc x).held = t.held := rfl
@[simp] theorem Strand.setPc_locks (t : Strand) (x : Word) : (t.setPc x).locks = t.locks := rfl
@[simp] theorem Strand.setPc_openId (t : Strand) (x : Word) : (t.setPc x).openId = t.openId := rfl
@[simp] theorem Strand.setPc_openTile (t : Strand) (x : Word) : (t.setPc x).openTile = t.openTile := rfl
@[simp] theorem Strand.setPc_kept (t : Strand) (x : Word) : (t.setPc x).kept = t.kept := rfl
@[simp] theorem Strand.setPc_declared (t : Strand) (x : Word) : (t.setPc x).declared = t.declared := rfl
@[simp] theorem Strand.setPc_vdecs (t : Strand) (x : Word) : (t.setPc x).vdecs = t.vdecs := rfl
@[simp] theorem Strand.setPc_fifo (t : Strand) (x : Word) : (t.setPc x).fifo = t.fifo := rfl
@[simp] theorem Strand.setPc_streams (t : Strand) (x : Word) : (t.setPc x).streams = t.streams := rfl
@[simp] theorem Strand.setPc_queues (t : Strand) (x : Word) : (t.setPc x).queues = t.queues := rfl
@[simp] theorem Strand.setPc_pend (t : Strand) (x : Word) : (t.setPc x).pend = t.pend := rfl
@[simp] theorem Strand.setPc_vgap (t : Strand) (x : Word) : (t.setPc x).vgap = t.vgap := rfl
@[simp] theorem Strand.setPc_nseq (t : Strand) (x : Word) : (t.setPc x).nseq = t.nseq := rfl
@[simp] theorem Strand.setPc_cq (t : Strand) (x : Word) : (t.setPc x).cq = t.cq := rfl
@[simp] theorem Strand.setPc_ib (t : Strand) (x : Word) : (t.setPc x).ib = t.ib := rfl
@[simp] theorem Strand.setPc_l1 (t : Strand) (x : Word) : (t.setPc x).l1 = t.l1 := rfl
@[simp] theorem Strand.setPc_tlb (t : Strand) (x : Word) : (t.setPc x).tlb = t.tlb := rfl
@[simp] theorem Strand.setPc_fault (t : Strand) (x : Word) : (t.setPc x).fault = t.fault := rfl
@[simp] theorem Strand.setPc_faultPc (t : Strand) (x : Word) : (t.setPc x).faultPc = t.faultPc := rfl
@[simp] theorem Strand.setPc_async (t : Strand) (x : Word) : (t.setPc x).async = t.async := rfl
@[simp] theorem Strand.setPc_stop (t : Strand) (x : Word) : (t.setPc x).stop = t.stop := rfl
@[simp] theorem Strand.setPc_stopAt (t : Strand) (x : Word) : (t.setPc x).stopAt = t.stopAt := rfl
@[simp] theorem Strand.setPc_draining (t : Strand) (x : Word) : (t.setPc x).draining = t.draining := rfl
@[simp] theorem Strand.setPc_arrived (t : Strand) (x : Word) : (t.setPc x).arrived = t.arrived := rfl
@[simp] theorem Strand.setPc_waiting (t : Strand) (x : Word) : (t.setPc x).waiting = t.waiting := rfl
@[simp] theorem Strand.setPc_moCount (t : Strand) (x : Word) : (t.setPc x).moCount = t.moCount := rfl
@[simp] theorem Strand.setPc_schedCount (t : Strand) (x : Word) : (t.setPc x).schedCount = t.schedCount := rfl
@[simp] theorem Strand.setPc_late (t : Strand) (x : Word) : (t.setPc x).late = t.late := rfl
@[simp] theorem Strand.setPc_want (t : Strand) (x : Word) : (t.setPc x).want = t.want := rfl
@[simp] theorem Strand.setPc_debugReq (t : Strand) (x : Word) : (t.setPc x).debugReq = t.debugReq := rfl
@[simp] theorem Strand.setPc_sampleReq (t : Strand) (x : Word) : (t.setPc x).sampleReq = t.sampleReq := rfl
@[simp] theorem Strand.setPc_traceReq (t : Strand) (x : Word) : (t.setPc x).traceReq = t.traceReq := rfl
@[simp] theorem Strand.setPc_counters (t : Strand) (x : Word) : (t.setPc x).counters = t.counters := rfl
@[simp] theorem Strand.setPc_views (t : Strand) (x : Word) : (t.setPc x).views = t.views := rfl
@[simp] theorem Strand.setPc_firstCause (t : Strand) (x : Word) : (t.setPc x).firstCause = t.firstCause := rfl
@[simp] theorem Strand.setPc_gaps (t : Strand) (x : Word) : (t.setPc x).gaps = t.gaps := rfl
@[simp] theorem Strand.setPc_barLog (t : Strand) (x : Word) : (t.setPc x).barLog = t.barLog := rfl
@[simp] theorem Strand.setPc_pc (t : Strand) (x : Word) : (t.setPc x).pc = x := rfl
@[simp] theorem Strand.setPc_slot0 (t : Strand) (x : Word) : (t.setPc x).slot0 = false := rfl
@[simp] theorem Strand.setPc_safeChecked (t : Strand) (x : Word) : (t.setPc x).safeChecked = false := rfl
@[simp] theorem Strand.setPc_moFree (t : Strand) (x : Word) : (t.setPc x).moFree = t.moFree := rfl

end Sys2Proof.Machine
end

