-- ==== Sys2Proof/Laws/Control.lean ====
section
/-! SUPPORT. What a control instruction's dispatch does (R118): the lemmas that the statements about control instructions cite
instead of unfolding its course. -/

namespace Sys2Proof.Machine

open Sys2Proof.Safety

/-! ### Views -/

theorem State.viewByte_congr {s t : State} (hp : ∀ p, (t.pod p).scratch = (s.pod p).scratch ∧ (t.pod p).pb = (s.pod p).pb)
    (hc : t.ctxs = s.ctxs) (hm : t.mem = s.mem) (hs : t.sc = s.sc) (hr : t.remote = s.remote) (n : StrandId) (l : Loc) : t.viewByte n l = s.viewByte n l := by
  have h1 : ∀ p, (t.pod p).scratch = (s.pod p).scratch := fun p => (hp p).1
  have h2 : ∀ p, (t.pod p).pb = (s.pod p).pb := fun p => (hp p).2
  have hl : ∀ a, t.coh a = s.coh a := fun a => by simp [State.coh, State.scLine?, hs, hm]
  have hf : t.ctx? = s.ctx? := funext fun c => by simp [State.ctx?, hc]
  have hloc : t.localMem n = s.localMem n := funext fun c => by simp [State.localMem, hf]
  have hco : t.coByte n l = s.coByte n l := by
    unfold State.coByte
    split <;> simp_all
  cases l <;> simp [State.viewByte, hco, h2]

/-! ### Counting -/

/-- A counted event changes the strand's counter, what its guest view is taken from, and the list of counters that have wrapped. -/
theorem State.countStrand_eq (s : State) (n : StrandId) (c : Fin 9) (k : Nat) :
    ∃ w vs, s.countStrand n c k = { s.setStrand n { s.strand n with
        counters := (s.strand n).counters.set c.val ((s.strand n).counters[c.val] + BitVec.ofNat 48 k), views := vs } with
      mgmt := { s.mgmt with wraps := w } } := by
  unfold State.countStrand
  by_cases h : (s.strand n).counters[c.val] + BitVec.ofNat 48 k < (s.strand n).counters[c.val]
  · exact ⟨_, _, by simp only [h, if_true]; rfl⟩
  · exact ⟨s.mgmt.wraps, _, by simp only [h, if_false]; rfl⟩

/-- What dispatching does before an instruction's own rule: INSTR counts, the core's spacing begins, and a safe point is noted. -/
theorem State.dispatched_eq (s : State) (n : StrandId) (m : Mods) :
    ∃ spo w vs, s.dispatched n m = { s.setStrand n { s.strand n with
        counters := (s.strand n).counters.set 0 ((s.strand n).counters[0] + 1), views := vs,
        gaps := (s.strand n).gaps.set 0 0, spo := spo } with
      mgmt := { s.mgmt with wraps := w } } := by
  obtain ⟨w, vs, hw⟩ := s.countStrand_eq n 0 1
  simp only [State.dispatched, hw]
  cases (State.launchOf _ n).bind _ with
  | none => exact ⟨(s.strand n).spo, w, vs, by simp [State.modStrand, State.strand, State.setStrand, Strand.spaceFrom]⟩
  | some o => exact ⟨some o, w, vs, by simp [State.modStrand, State.strand, State.setStrand, Strand.spaceFrom]⟩

theorem State.dispatched_strand (s : State) (n : StrandId) (m : Mods) :
    ∃ spo vs, (s.dispatched n m).strand n = { s.strand n with
      counters := (s.strand n).counters.set 0 ((s.strand n).counters[0] + 1), views := vs,
      gaps := (s.strand n).gaps.set 0 0, spo := spo } := by
  obtain ⟨spo, w, vs, h⟩ := s.dispatched_eq n m
  exact ⟨spo, vs, by rw [h]; simp [State.strand, State.setStrand]⟩

@[simp] theorem State.dispatched_cur (s : State) (n : StrandId) (m : Mods) : (s.dispatched n m).cur = s.cur := by
  obtain ⟨spo, w, vs, h⟩ := s.dispatched_eq n m
  rw [h]; rfl

/-! ### The course -/

/-- A control instruction that may dispatch and whose rule takes effect. -/
theorem controlWith_go {m : Mods} {uses : List SReg} {settled waits : Bool} {body : State → StrandId → Effect} {s s' : State}
    (hd : Dispatches m uses s) (hs : settled = true → Settled s)
    (hb : body (s.dispatched (me s) m) (me s) = .go s') :
    controlWith m none uses settled waits body s = .next (s'.modStrand (me s) (fun t => { t with waiting := false })) := by
  have h1 : uses.any (mine s).busy = false := by
    simpa [List.any_eq_false] using hd.loaded
  have h2 : (settled && !(mine s).passedBefore (mine s).nseq) = false := by
    cases settled
    · rfl
    · have h := hs rfl
      simp only [Settled] at h
      simp [h]
  simp only [controlWith, hd.spaced, hd.guards, h1, h2, hb]
  simp

theorem control_go {m : Mods} {uses : List SReg} {body : State → StrandId → Effect} {s s' : State} (hd : Dispatches m uses s)
    (hb : body (s.dispatched (me s) m) (me s) = .go s') :
    control m uses body s = .next (s'.modStrand (me s) (fun t => { t with waiting := false })) := by
  unfold control
  exact controlWith_go hd (fun h => by cases h) hb

/-- A control instruction that may dispatch and whose rule raises a trap. A trap's cause is one of R11's. -/
theorem controlWith_trap {m : Mods} {uses : List SReg} {settled waits : Bool} {body : State → StrandId → Effect} {s s' : State}
    {tr : TrapInfo} (hd : Dispatches m uses s) (hs : settled = true → Settled s) (hc : tr.cause ≠ cHeld)
    (hb : body (s.dispatched (me s) m) (me s) = .trap tr s') :
    controlWith m none uses settled waits body s = .next (s'.raise (me s) tr (mine s).pc) := by
  have h1 : uses.any (mine s).busy = false := by
    simpa [List.any_eq_false] using hd.loaded
  have h2 : (settled && !(mine s).passedBefore (mine s).nseq) = false := by
    cases settled
    · rfl
    · have h := hs rfl
      simp only [Settled] at h
      simp [h]
  simp only [controlWith, hd.spaced, hd.guards, h1, h2, hb]
  simp [hc]

/-- A guard that fails: the instruction only counts and passes (R98). -/
theorem controlWith_guarded {m : Mods} {uses : List SReg} {settled waits : Bool} {body : State → StrandId → Effect} {s : State}
    (hp : (mine s).spaced 0 m = true) (hg : (mine s).holds m = false) :
    controlWith m none uses settled waits body s =
      .next (((s.dispatched (me s) m).advance (me s)).modStrand (me s) (fun t => { t with waiting := false })) := by
  simp [controlWith, hp, hg]

/-- The state after an instruction that took one cycle: what `f` makes of the strand, the count, and the next address. -/
def State.took (s : State) (m : Mods) (f : Strand → Strand) : State :=
  (((s.dispatched s.cur.strand m).modStrand s.cur.strand f).advance s.cur.strand).modStrand s.cur.strand
    (fun t => { t with waiting := false })

theorem writeS_next {m : Mods} {uses : List SReg} {d : SReg} {f : Strand → Word} {s : State}
    (hd : Dispatches m (d :: uses) s) : writeS m uses d f s = .next (s.took m (fun t => t.setS d (f t))) := by
  unfold writeS
  exact control_go hd rfl

theorem writeP_next {m : Mods} {uses : List SReg} {d : PReg} {f : Strand → Bool} {s : State}
    (hd : Dispatches m uses s) : writeP m uses d f s = .next (s.took m (fun t => t.setP d (f t))) := by
  unfold writeP
  exact control_go hd rfl

/-- What took one cycle changed the acting strand alone. -/
theorem State.took_eq (s : State) (m : Mods) (f : Strand → Strand) :
    ∃ spo w vs, s.took m f = { s.setStrand (me s) { (f { mine s with
        counters := (mine s).counters.set 0 ((mine s).counters[0] + 1), views := vs,
        gaps := (mine s).gaps.set 0 0, spo := spo }).setPc s.cur.next with waiting := false } with
      mgmt := { s.mgmt with wraps := w } } := by
  obtain ⟨spo, w, vs, h⟩ := s.dispatched_eq (me s) m
  refine ⟨spo, w, vs, ?_⟩
  unfold State.took State.advance
  rw [h]
  simp [State.modStrand, State.setStrand, State.strand]

theorem OnlyMe.intro {s t : State} {x : Strand} {w : List Wrap}
    (ht : t = { s.setStrand (me s) x with mgmt := { s.mgmt with wraps := w } }) : OnlyMe s t := by
  have hs : ∀ n, t.strand n = (s.setStrand (me s) x).strand n := fun n => by rw [ht]; rfl
  refine ⟨fun n hn => by rw [hs, s.strand_setStrand_ne _ hn], ?_, fun n l => ?_⟩
  · rw [ht]; rfl
  · exact State.viewByte_congr (fun p => by rw [ht]; exact ⟨rfl, rfl⟩) (by rw [ht]; rfl) (by rw [ht]; rfl) (by rw [ht]; rfl)
      (by rw [ht]; rfl) n l

theorem after_of {s t : State} {x : Strand} {w : List Wrap}
    (ht : t = { s.setStrand (me s) x with mgmt := { s.mgmt with wraps := w } }) : after s t = x := by
  show t.strand _ = x
  rw [ht]
  exact s.strand_setStrand _ _

/-- A scalar written in one cycle. -/
theorem took_setS (s : State) (m : Mods) (d : SReg) (f : Strand → Word)
    (hf : ∀ c v g spo, f { mine s with counters := c, views := v, gaps := g, spo := spo } = f (mine s)) :
    Takes s (s.took m (fun t => t.setS d (f t))) s.cur.next ∧
    (after s (s.took m (fun t => t.setS d (f t)))).getS d = (if d = 0 then 0 else f (mine s)) ∧
    ScalarsBut d (mine s) (after s (s.took m (fun t => t.setS d (f t)))) ∧
    (after s (s.took m (fun t => t.setS d (f t)))).p = (mine s).p := by
  obtain ⟨spo, w, vs, h⟩ := s.took_eq m (fun t => t.setS d (f t))
  have ha := after_of h
  simp only [hf] at h ha
  refine ⟨⟨OnlyMe.intro h, ?_, ?_⟩, ?_, ?_, ?_⟩
  · rw [ha]
    refine ⟨by simp, fun c hc => ?_, ?_⟩
    · have : (0 : Nat) ≠ c.val := fun e => hc (Fin.ext e.symm)
      simp [this]
    · unfold Strand.setS; split <;> rfl
  · rw [ha]; simp
  · rw [ha]
    refine (Strand.getS_congr (b := (mine s).setS d (f (mine s))) ?_ d).trans ?_
    · unfold Strand.setS; split <;> rfl
    rw [Strand.getS_setS]
    by_cases hd : d = 0 <;> simp [hd]
  · intro x hx
    rw [ha]
    refine (Strand.getS_congr (b := (mine s).setS d (f (mine s))) ?_ x).trans ?_
    · unfold Strand.setS; split <;> rfl
    rw [Strand.getS_setS]; simp [hx]
  · rw [ha]; simp

/-- A predicate written in one cycle. -/
theorem took_setP (s : State) (m : Mods) (d : PReg) (f : Strand → Bool)
    (hf : ∀ c v g spo, f { mine s with counters := c, views := v, gaps := g, spo := spo } = f (mine s)) :
    Takes s (s.took m (fun t => t.setP d (f t))) s.cur.next ∧
    (after s (s.took m (fun t => t.setP d (f t)))).getP d = (if d = 0 then true else f (mine s)) ∧
    PredicatesBut d (mine s) (after s (s.took m (fun t => t.setP d (f t)))) ∧
    (after s (s.took m (fun t => t.setP d (f t)))).s = (mine s).s := by
  obtain ⟨spo, w, vs, h⟩ := s.took_eq m (fun t => t.setP d (f t))
  have ha := after_of h
  simp only [hf] at h ha
  refine ⟨⟨OnlyMe.intro h, ?_, ?_⟩, ?_, ?_, ?_⟩
  · rw [ha]
    refine ⟨by simp, fun c hc => ?_, ?_⟩
    · have : (0 : Nat) ≠ c.val := fun e => hc (Fin.ext e.symm)
      simp [this]
    · unfold Strand.setP; split <;> rfl
  · rw [ha]; simp
  · rw [ha]
    refine (Strand.getP_congr (b := (mine s).setP d (f (mine s))) ?_ d).trans ?_
    · unfold Strand.setP; split <;> rfl
    rw [Strand.getP_setP]
    by_cases hd : d = 0 <;> simp [hd]
  · intro x hx
    rw [ha]
    refine (Strand.getP_congr (b := (mine s).setP d (f (mine s))) ?_ x).trans ?_
    · unfold Strand.setP; split <;> rfl
    rw [Strand.getP_setP]; simp [hx]
  · rw [ha]; simp

/-- An instruction whose meaning writes one scalar: what it answers, and its frame. -/
theorem writeS_takes {i : Instr} {m : Mods} {uses : List SReg} {d : SReg} {f : Strand → Word} {s : State}
    (he : exec i s = writeS m uses d f s) (hd : Dispatches m (d :: uses) s)
    (hf : ∀ c v g spo, f { mine s with counters := c, views := v, gaps := g, spo := spo } = f (mine s)) :
    ∃ t, exec i s = .next t ∧ Takes s t s.cur.next ∧ (after s t).getS d = (if d = 0 then 0 else f (mine s)) ∧
      ScalarsBut d (mine s) (after s t) ∧ (after s t).p = (mine s).p :=
  ⟨_, he.trans (writeS_next hd), took_setS s m d f hf⟩

/-- An instruction whose meaning writes one predicate: what it answers, and its frame. -/
theorem writeP_takes {i : Instr} {m : Mods} {uses : List SReg} {d : PReg} {f : Strand → Bool} {s : State}
    (he : exec i s = writeP m uses d f s) (hd : Dispatches m uses s)
    (hf : ∀ c v g spo, f { mine s with counters := c, views := v, gaps := g, spo := spo } = f (mine s)) :
    ∃ t, exec i s = .next t ∧ Takes s t s.cur.next ∧ (after s t).getP d = (if d = 0 then true else f (mine s)) ∧
      PredicatesBut d (mine s) (after s t) ∧ (after s t).s = (mine s).s :=
  ⟨_, he.trans (writeP_next hd), took_setP s m d f hf⟩

end Sys2Proof.Machine
end

