-- ==== Sys2Proof/Laws/Memory.lean ====
section
/-! SUPPORT. Memory as a canonical list of cells: what a read gives after a write, that every operation on cells keeps the form, and
that two canonical memories that read alike are equal. -/

namespace Sys2Proof.Machine

/-! ### The canonical form -/

/-- The cells of a canonical memory from a bound up. -/
theorem Memory.wfFrom_cons {lo : Option Nat} {a : Nat} {b : Byte} {r : List Host.Cell} :
    Memory.wfFrom lo ((a, b) :: r) = true ↔ (∀ l, lo = some l → l < a) ∧ b ≠ unlisted ∧ Memory.wfFrom (some a) r = true := by
  cases lo <;> simp [Memory.wfFrom, and_assoc]

/-- A higher bound is a stronger demand. -/
theorem Memory.wfFrom_weaken {lo hi : Option Nat} {m : List Host.Cell} (h : Memory.wfFrom hi m = true)
    (hb : ∀ l, lo = some l → ∃ k, hi = some k ∧ l ≤ k) : Memory.wfFrom lo m = true := by
  cases m with
  | nil => rfl
  | cons x r =>
    obtain ⟨a, b⟩ := x
    rw [Memory.wfFrom_cons] at h ⊢
    refine ⟨fun l hl => ?_, h.2⟩
    obtain ⟨k, hk, hle⟩ := hb l hl
    exact Nat.lt_of_le_of_lt hle (h.1 k hk)

theorem Memory.wfFrom_none {lo : Option Nat} {m : List Host.Cell} (h : Memory.wfFrom lo m = true) : Memory.wf m = true :=
  Memory.wfFrom_weaken h (by simp)

/-- A write above the bound keeps the form. -/
theorem Memory.write_wfFrom (m : List Host.Cell) (a : Nat) (b : Byte) : ∀ lo, Memory.wfFrom lo m = true →
    (∀ l, lo = some l → l < a) → Memory.wfFrom lo (Memory.write m a b) = true := by
  induction m with
  | nil =>
    intro lo _ hl
    by_cases hb : b = unlisted
    · simp [Memory.write, hb, Memory.wfFrom]
    · simp only [Memory.write, hb, if_false, Memory.wfFrom_cons]
      exact ⟨hl, hb, rfl⟩
  | cons x r ih =>
    obtain ⟨y, c⟩ := x
    intro lo h hl
    obtain ⟨hy, hc, hr⟩ := Memory.wfFrom_cons.1 h
    unfold Memory.write
    by_cases hlt : a < y
    · simp only [hlt, if_true]
      by_cases hb : b = unlisted
      · simpa [hb] using h
      · simp only [hb, if_false, Memory.wfFrom_cons]
        exact ⟨hl, hb, by simpa using hlt, hc, hr⟩
    · by_cases heq : a = y
      · subst heq
        simp only [Nat.lt_irrefl, if_false, if_true]
        by_cases hb : b = unlisted
        · simp only [hb, if_true]
          exact Memory.wfFrom_weaken hr (fun l hl' => ⟨a, rfl, Nat.le_of_lt (hl l hl')⟩)
        · simp only [hb, if_false, Memory.wfFrom_cons]
          exact ⟨hl, hb, hr⟩
      · simp only [hlt, heq, if_false, Memory.wfFrom_cons]
        exact ⟨hy, hc, ih (some y) hr (by simp; omega)⟩

theorem Memory.write_wf {m : List Host.Cell} (h : Memory.wf m = true) (a : Nat) (b : Byte) :
    Memory.wf (Memory.write m a b) = true := Memory.write_wfFrom m a b none h (by simp)

theorem Memory.writeN_wf (bs : List Byte) : ∀ {m : List Host.Cell}, Memory.wf m = true → ∀ a,
    Memory.wf (Memory.writeN m a bs) = true := by
  induction bs with
  | nil => exact fun h _ => h
  | cons b bs ih => exact fun h a => ih (Memory.write_wf h a b) (a + 1)

@[simp] theorem Memory.wf_nil : Memory.wf [] = true := rfl

/-- A canonical memory loses cells and stays canonical. -/
theorem Memory.filter_wfFrom (p : Host.Cell → Bool) (m : List Host.Cell) : ∀ lo, Memory.wfFrom lo m = true →
    Memory.wfFrom lo (m.filter p) = true := by
  induction m with
  | nil => exact fun _ _ => rfl
  | cons x r ih =>
    obtain ⟨a, b⟩ := x
    intro lo h
    obtain ⟨hl, hb, hr⟩ := Memory.wfFrom_cons.1 h
    by_cases hp : p (a, b) = true
    · simp only [List.filter_cons, hp, if_true, Memory.wfFrom_cons]
      exact ⟨hl, hb, ih _ hr⟩
    · simp only [List.filter_cons, hp]
      exact Memory.wfFrom_weaken (ih _ hr) (fun l hl' => ⟨a, rfl, Nat.le_of_lt (hl l hl')⟩)

theorem Memory.filter_wf {m : List Host.Cell} (h : Memory.wf m = true) (p : Host.Cell → Bool) :
    Memory.wf (m.filter p) = true := Memory.filter_wfFrom p m none h

/-! ### Reads -/

/-- Nothing is listed below the bound. -/
theorem Memory.read_below {m : List Host.Cell} {l a : Nat} (h : Memory.wfFrom (some l) m = true) (ha : a ≤ l) :
    Memory.read m a = unlisted := by
  cases m with
  | nil => rfl
  | cons x r =>
    obtain ⟨y, b⟩ := x
    have hy := (Memory.wfFrom_cons.1 h).1 l rfl
    have h1 : a ≠ y := by omega
    have h2 : a < y := by omega
    simp [Memory.read, h1, h2]

/-- A read after a write: the byte written, and every other byte as before. -/
theorem Memory.read_write (m : List Host.Cell) (a : Nat) (b : Byte) : ∀ lo, Memory.wfFrom lo m = true → ∀ x,
    Memory.read (Memory.write m a b) x = if x = a then b else Memory.read m x := by
  induction m with
  | nil =>
    intro lo _ x
    by_cases hb : b = 0#8
    · by_cases hx : x = a <;> simp [Memory.write, hb, Memory.read, hx]
    · by_cases hx : x = a <;> simp [Memory.write, hb, Memory.read, hx]
  | cons y r ih =>
    obtain ⟨y, c⟩ := y
    intro lo h x
    obtain ⟨_, _, hr⟩ := Memory.wfFrom_cons.1 h
    unfold Memory.write
    by_cases hlt : a < y
    · simp only [hlt, if_true]
      by_cases hb : b = 0#8
      · by_cases hx : x = a
        · have h1 : a ≠ y := by omega
          simp [hb, hx, Memory.read, h1, hlt]
        · simp [hb, hx]
      · by_cases hx : x = a
        · simp [hb, hx, Memory.read]
        · by_cases hxa : x < a
          · have h1 : x ≠ y := by omega
            have h2 : x < y := by omega
            simp [hb, hx, Memory.read, hxa, h1, h2]
          · simp [hb, hx, Memory.read, hxa]
    · by_cases heq : a = y
      · subst heq
        simp only [Nat.lt_irrefl, if_false, if_true]
        by_cases hx : x = a
        · subst hx
          by_cases hb : b = 0#8
          · simp [hb, Memory.read_below hr (Nat.le_refl x)]
          · simp [hb, Memory.read]
        · by_cases hb : b = 0#8
          · simp only [unlisted, hb, hx, if_false, Memory.read]
            by_cases hxa : x < a
            · simp [hxa, Memory.read_below hr (Nat.le_of_lt hxa)]
            · simp [hxa]
          · simp [hb, hx, Memory.read]
      · simp only [hlt, heq, if_false, Memory.read, ih _ hr x]
        by_cases hx : x = a
        · have h1 : a ≠ y := heq
          have h2 : ¬ a < y := hlt
          simp [hx, h1, h2]
        · simp [hx]

/-- A run of bytes written is what its addresses read. -/
theorem Memory.read_writeN (bs : List Byte) : ∀ {m : List Host.Cell}, Memory.wf m = true → ∀ a x,
    Memory.read (Memory.writeN m a bs) x = if a ≤ x ∧ x < a + bs.length then bs.getD (x - a) 0 else Memory.read m x := by
  induction bs with
  | nil =>
    intro m _ a x
    have : ¬ (a ≤ x ∧ x < a) := by omega
    simp [Memory.writeN, this]
  | cons b bs ih =>
    intro m h a x
    rw [Memory.writeN, ih (Memory.write_wf h a b), Memory.read_write m a b none h]
    by_cases hx : x = a
    · subst hx
      have h1 : ¬ (x + 1 ≤ x ∧ x < x + 1 + bs.length) := by omega
      have h2 : x ≤ x ∧ x < x + (b :: bs).length := by simp
      simp only [h1, h2, if_false, if_true, and_self, Nat.sub_self, List.getD_cons_zero]
    · by_cases hin : a + 1 ≤ x ∧ x < a + 1 + bs.length
      · have h2 : a ≤ x ∧ x < a + (b :: bs).length := by simp; omega
        have h3 : x - a = (x - (a + 1)) + 1 := by omega
        simp only [hin, h2, and_self, if_true, h3, List.getD_cons_succ]
      · have h2 : ¬ (a ≤ x ∧ x < a + (b :: bs).length) := by simp; omega
        simp only [hin, h2, hx, if_false]

theorem Memory.readN_eq (m : List Host.Cell) (n : Nat) : ∀ a,
    Memory.readN m a n = (List.range n).map (fun i => Memory.read m (a + i)) := by
  induction n with
  | zero => exact fun _ => rfl
  | succ n ih =>
    intro a
    rw [Memory.readN, ih, List.range_succ_eq_map]
    simp [Function.comp_def, Nat.add_assoc, Nat.add_comm 1]

@[simp] theorem Memory.readN_length (m : List Host.Cell) (a n : Nat) : (Memory.readN m a n).length = n := by
  simp [Memory.readN_eq]

/-- Two canonical memories that read alike are the same list. -/
theorem Memory.ext : ∀ {m m' : List Host.Cell} {lo : Option Nat}, Memory.wfFrom lo m = true → Memory.wfFrom lo m' = true →
    (∀ a, Memory.read m a = Memory.read m' a) → m = m' := by
  intro m
  induction m with
  | nil =>
    intro m' lo _ h' he
    cases m' with
    | nil => rfl
    | cons y r =>
      obtain ⟨y, c⟩ := y
      have := he y
      simp only [Memory.read, if_true] at this
      exact absurd this.symm (Memory.wfFrom_cons.1 h').2.1
  | cons x r ih =>
    obtain ⟨x, b⟩ := x
    intro m' lo h h' he
    obtain ⟨_, hb, hr⟩ := Memory.wfFrom_cons.1 h
    cases m' with
    | nil =>
      have := he x
      simp only [Memory.read, if_true] at this
      exact absurd this hb
    | cons y r' =>
      obtain ⟨y, c⟩ := y
      obtain ⟨_, hc, hr'⟩ := Memory.wfFrom_cons.1 h'
      have hxy : x = y := by
        rcases Nat.lt_trichotomy x y with hlt | heq | hgt
        · have := he x
          have h1 : x ≠ y := by omega
          simp only [Memory.read, if_true, h1, if_false, hlt] at this
          exact absurd this hb
        · exact heq
        · have := he y
          have h1 : y ≠ x := by omega
          simp only [Memory.read, if_true, h1, if_false, hgt] at this
          exact absurd this.symm hc
      subst hxy
      have hbc : b = c := by simpa [Memory.read] using he x
      subst hbc
      have : r = r' := ih hr hr' (fun a => by
        by_cases hax : a ≤ x
        · rw [Memory.read_below hr hax, Memory.read_below hr' hax]
        · have h1 : a ≠ x := by omega
          have h2 : ¬ a < x := by omega
          have := he a
          simpa [Memory.read, h1, h2] using this)
      rw [this]

end Sys2Proof.Machine
end

