-- ==== Sys2Proof/Laws/Queue.lean ====
section
/-! SUPPORT. The upkeep of a strand's queues after each of their steps, and what the dispatch of a queued instruction does (R77):
the lemmas that the statements about queued instructions cite. -/

namespace Sys2Proof.Machine

open Sys2Proof.Safety

/-! ### Tiles retire -/

theorem foldl_parts {α : Type} (f : State → α → State) (hf : ∀ s x, ∃ ps, f s x = { s with parts := ps }) :
    ∀ (l : List α) (s : State), ∃ ps, l.foldl f s = { s with parts := ps }
  | [], s => ⟨s.parts, rfl⟩
  | x :: l, s => by
    obtain ⟨ps, h⟩ := hf s x
    obtain ⟨qs, k⟩ := foldl_parts f hf l (f s x)
    exact ⟨qs, by rw [List.foldl_cons, k, h]⟩

/-- A sweep takes tiles out of the strand and leaves their stamp records; nothing else changes (R76, R370). -/
theorem State.sweep_eq (s : State) (n : StrandId) :
    ∃ ps, s.sweep n = { s.setStrand n { s.strand n with tiles := (s.strand n).tiles.filter (fun r =>
      !(((s.strand n).tiles.filter (fun r => r.full && (s.strand n).refCount r.id == 0 && !(s.strand n).reachable r.id)).any
        (fun d => d.id == r.id))) } with parts := ps } := by
  unfold State.sweep
  dsimp only
  generalize hu : List.foldl _ s _ = u
  have : ∃ ps, u = { s with parts := ps } := by
    rw [← hu]
    refine foldl_parts _ (fun s r => ?_) _ s
    cases r.stamp with
    | none => exact ⟨s.parts, rfl⟩
    | some st => exact ⟨_, rfl⟩
  obtain ⟨ps, rfl⟩ := this
  exact ⟨ps, rfl⟩

/-! ### Pushes, requests, and entries that leave -/

/-- A waiting entry keeps everything but its pushes, the tick of its request, and the flags that an unwind to it restores. -/
def SameEntry (a b : QEntry) : Prop := ∃ p q k w, b = { a with pushes := p, pushed := q, asked := k, snap := w }

theorem flushPushes_mem (es : List QEntry) : ∀ (tk : Vector Nat 8) (e : QEntry), e ∈ es →
    ∃ p q, { e with pushes := p, pushed := q } ∈ (flushPushes tk es).2 := by
  induction es with
  | nil => intro tk e h; cases h
  | cons x es ih =>
    intro tk e h
    unfold flushPushes
    split
    · rcases List.mem_cons.1 h with rfl | h
      · exact ⟨_, _, List.mem_cons_self ..⟩
      · obtain ⟨p, q, hm⟩ := ih tk e h
        exact ⟨p, q, List.mem_cons_of_mem _ hm⟩
    · split
      · exact ⟨_, _, h⟩
      · dsimp only
        split
        · rcases List.mem_cons.1 h with rfl | h
          · exact ⟨_, _, List.mem_cons_self ..⟩
          · obtain ⟨p, q, hm⟩ := ih _ e h
            exact ⟨p, q, List.mem_cons_of_mem _ hm⟩
        · rcases List.mem_cons.1 h with rfl | h
          · exact ⟨_, _, List.mem_cons_self ..⟩
          · exact ⟨_, _, List.mem_cons_of_mem _ h⟩

theorem askEntry_mem (t : Strand) (q : QName) (k : Nat) (es : List QEntry) (e : QEntry) (h : e ∈ es) :
    ∃ x, { e with asked := x } ∈ askEntry t q k es := by
  induction es with
  | nil => cases h
  | cons y es ih =>
    unfold askEntry
    split
    · split
      · rcases List.mem_cons.1 h with rfl | h
        · exact ⟨_, List.mem_cons_self ..⟩
        · exact ⟨_, List.mem_cons_of_mem _ h⟩
      · exact ⟨_, h⟩
    · rcases List.mem_cons.1 h with rfl | h
      · exact ⟨_, List.mem_cons_self ..⟩
      · obtain ⟨x, hx⟩ := ih h
        exact ⟨x, List.mem_cons_of_mem _ hx⟩

@[simp] theorem Strand.queue_setQueue (t : Strand) (q : QName) (l : List QEntry) : (t.setQueue q l).queue q = l := by
  simp [Strand.queue, Strand.setQueue]

theorem Strand.queue_setQueue_ne (t : Strand) {q r : QName} (l : List QEntry) (h : r ≠ q) :
    (t.setQueue q l).queue r = t.queue r := by
  have : (QName.index q).val ≠ (QName.index r).val := by
    cases q <;> cases r <;> simp_all [QName.index]
  simp [Strand.queue, Strand.setQueue, this]

/-- What the upkeep of a strand changes beside the tiles: tokens, queues, and the flags of matrix instructions that leave. -/
def Strand.Upkept (a b : Strand) : Prop :=
  (∃ tk qs fl, b = { a with tokens := tk, queues := qs, vstat := fl }) ∧
  ∀ q, ∀ e ∈ a.queue q, e.stage = .waiting → ∃ e' ∈ b.queue q, SameEntry e e'

theorem Strand.Upkept.refl (a : Strand) : a.Upkept a := ⟨⟨_, _, _, rfl⟩, fun _ e h _ => ⟨e, h, _, _, _, _, rfl⟩⟩

theorem Strand.Upkept.trans {a b c : Strand} (h : a.Upkept b) (k : b.Upkept c) : a.Upkept c := by
  obtain ⟨⟨tk, qs, fl, rfl⟩, h2⟩ := h
  obtain ⟨⟨tk', qs', fl', rfl⟩, k2⟩ := k
  refine ⟨⟨tk', qs', fl', rfl⟩, fun q e he hw => ?_⟩
  obtain ⟨e1, h1, p, r, x, w, rfl⟩ := h2 q e he hw
  obtain ⟨e2, h3, p', r', x', w', rfl⟩ := k2 q _ h1 hw
  exact ⟨_, h3, p', r', x', w', rfl⟩

theorem Strand.flushQueue_upkept (t : Strand) (q : QName) : t.Upkept (t.flushQueue q) := by
  unfold Strand.flushQueue
  refine ⟨⟨_, _, t.vstat, rfl⟩, fun r e he hw => ?_⟩
  by_cases h : r = q
  · subst h
    obtain ⟨p, x, hm⟩ := flushPushes_mem (t.queue r) t.tokens e he
    exact ⟨_, by simpa [Strand.queue] using hm, p, x, e.asked, e.snap, rfl⟩
  · have : (QName.index q).val ≠ (QName.index r).val := by
      cases q <;> cases r <;> simp_all [QName.index]
    exact ⟨e, by simpa [Strand.queue, this] using he, _, _, _, _, rfl⟩

theorem Strand.takeFlags_upkept (t : Strand) : t.Upkept t.takeFlags := by
  unfold Strand.takeFlags
  generalize List.foldl _ _ _ = fl
  refine ⟨⟨t.tokens, _, _, rfl⟩, fun q e he hw => ?_⟩
  have hc : ∀ v, t.certain { e with snap := v } = false := fun v => by simp [Strand.certain, hw]
  have hm : ({ e with snap := e.snap.map (fun v => { v with vstat := v.vstat ||| fl }) } : QEntry) ∈ (t.queue q).map (fun e =>
      { e with snap := e.snap.map (fun v => { v with vstat := v.vstat ||| fl }) }) := List.mem_map_of_mem he
  refine ⟨{ e with snap := e.snap.map (fun v => { v with vstat := v.vstat ||| fl }) }, ?_, e.pushes, e.pushed, e.asked,
    e.snap.map (fun v => { v with vstat := v.vstat ||| fl }), rfl⟩
  dsimp only
  by_cases h : q = .M
  · subst h
    rw [Strand.queue_setQueue]
    refine List.mem_map.2 ⟨{ e with snap := e.snap.map (fun v => { v with vstat := v.vstat ||| fl }) }, ?_, by simp only [hc]; rfl⟩
    simp only [Strand.queue, Vector.getElem_map]
    exact hm
  · rw [Strand.queue_setQueue_ne _ _ h]
    simp only [Strand.queue, Vector.getElem_map]
    exact hm

theorem Strand.reap_upkept (t : Strand) : t.Upkept t.reap := by
  refine t.takeFlags_upkept.trans ⟨⟨t.takeFlags.tokens, _, t.takeFlags.vstat, rfl⟩, fun q e he hw => ⟨e, ?_, _, _, _, _, rfl⟩⟩
  simp only [Strand.reap, Strand.queue] at he ⊢
  simp [he, hw, Strand.certain]

theorem Strand.ask_upkept (t : Strand) (k : Nat) (q : QName) : t.Upkept (t.setQueue q (askEntry t q k (t.queue q))) := by
  refine ⟨⟨t.tokens, _, t.vstat, rfl⟩, fun r e he _ => ?_⟩
  by_cases h : r = q
  · subst h
    obtain ⟨x, hx⟩ := askEntry_mem t r k _ e he
    exact ⟨_, by simpa using hx, e.pushes, e.pushed, x, e.snap, rfl⟩
  · exact ⟨e, by rw [Strand.queue_setQueue_ne _ _ h]; exact he, _, _, _, _, rfl⟩

/-- The lease's idle count is all that noting it changes (R317). -/
theorem State.noteIdle_eq (s : State) (n : StrandId) :
    ∃ l, s.noteIdle n = s.modPod (podOf n) (fun x => { x with lease := l }) := by
  unfold State.noteIdle
  dsimp only
  split
  · refine ⟨(s.pod (podOf n)).lease, ?_⟩
    have h : s.pods.set (podOf n).val (s.pod (podOf n)) (podOf n).isLt = s.pods := by simp [State.pod]
    show s = { s with pods := s.pods.set (podOf n).val (s.pod (podOf n)) (podOf n).isLt }
    rw [h]
  · exact ⟨_, rfl⟩

theorem Strand.not_idle {t : Strand} {q : QName} {e : QEntry} (h : e ∈ t.queue q) : t.idle = false := by
  have : t.entries ≠ [] := by
    intro h0
    simp only [Strand.entries, List.append_eq_nil_iff] at h0
    obtain ⟨⟨⟨a, b⟩, c⟩, d⟩ := h0
    cases q
    · rw [a] at h; cases h
    · rw [b] at h; cases h
    · rw [c] at h; cases h
    · rw [d] at h; cases h
  simp [Strand.idle, this]

/-- The upkeep of a strand one of whose queues holds a waiting instruction: its tokens, its queues, its flags and its tiles alone
change, with the idle count of its Pod's lease and the stamp records of its partition; a tile the image refers to stays. -/
theorem State.tidyQueues_eq (s : State) (n : StrandId) {q : QName} {e : QEntry} (he : e ∈ (s.strand n).queue q)
    (hw : e.stage = .waiting) :
    ∃ t tl l ps, (s.strand n).Upkept t ∧ (∀ r ∈ (s.strand n).tiles, r.id ∈ (s.strand n).image → r ∈ tl) ∧
      tl.Sublist (s.strand n).tiles ∧
      s.tidyQueues n = { (s.setStrand n { t with tiles := tl }).modPod (podOf n) (fun x => { x with lease := l }) with
        parts := ps } := by
  unfold State.tidyQueues
  dsimp only
  generalize hu : (List.foldl _ _ queueNames : Strand) = t
  have up : (s.strand n).Upkept t := by
    rw [← hu]
    have h0 := (s.strand n).flushQueue_upkept .L
    have h1 := h0.trans (Strand.flushQueue_upkept _ .M)
    have h2 := h1.trans (Strand.flushQueue_upkept _ .V)
    have h3 := (h2.trans (Strand.flushQueue_upkept _ .S)).trans (Strand.reap_upkept _)
    simp only [queueNames, List.foldl_cons, List.foldl_nil]
    exact (((h3.trans (Strand.ask_upkept _ _ _)).trans (Strand.ask_upkept _ _ _)).trans (Strand.ask_upkept _ _ _)).trans
      (Strand.ask_upkept _ _ _)
  obtain ⟨l, hl⟩ := (s.setStrand n t).noteIdle_eq n
  rw [hl]
  obtain ⟨ps, hs⟩ := ((s.setStrand n t).modPod (podOf n) (fun x => { x with lease := l })).sweep_eq n
  rw [hs]
  simp only [State.strand_modPod, State.strand_setStrand]
  obtain ⟨e', he', p, r, x, w, rfl⟩ := up.2 q e he hw
  obtain ⟨tk, qs, fl, ht⟩ := up.1
  refine ⟨t, t.tiles.filter (fun r => !((t.tiles.filter (fun r => r.full && t.refCount r.id == 0 && !t.reachable r.id)).any
    (fun d => d.id == r.id))), l, ps, up, ?_, ?_, ?_⟩
  · intro r hr hi
    have hi' : r.id ∈ t.image := by rw [ht]; exact hi
    have hr' : r ∈ t.tiles := by rw [ht]; exact hr
    simp only [List.mem_filter, hr', true_and, Bool.not_eq_true', List.any_eq_false, Bool.and_eq_true, beq_iff_eq, and_imp]
    intro d _ _ hc _ hd
    have : t.refCount d.id ≠ 0 := by
      have : 0 < t.image.count d.id := List.count_pos_iff.2 (hd ▸ hi')
      unfold Strand.refCount
      omega
    exact this hc
  · have : t.tiles = (s.strand n).tiles := by rw [ht]
    rw [← this]
    exact List.filter_sublist
  · simp [State.modPod, State.setPod, State.setStrand, State.pod]

/-! ### Dispatch of a queued instruction (R77) -/

/-- What a queued instruction's own rule may change of the strand at dispatch: the builder and the declared vectors. -/
def AfterKeeps (f : Strand → List Word → List Nat → Strand) : Prop :=
  ∀ t a b, ∃ o d v, f t a b = { t with openId := o, declared := d, vdecs := v }

/-- A state in which an instruction stands in its queue: the entry with what dispatch captured, the image with its result on top,
and what stays as it was. -/
structure Sent (s t : State) (pl : Plan) (i : Instr) (f : Strand → List Word → List Nat → Strand) : Prop where
  entry : ∃ e ∈ (after s t).queue pl.q, e.seq = (mine s).nseq ∧ e.instr = i ∧ e.holds = true ∧ e.stage = .waiting ∧
    e.pc = (mine s).pc ∧ e.scalars = pl.uses.map (mine s).getS ∧ e.tiles = (List.range pl.ops).map (mine s).atDepth ∧
    e.results = (if pl.pushes then (mine s).freeId?.toList else [])
  image : (after s t).image = (mine s).image.take ((mine s).image.length - pl.pops) ++
    (if pl.pushes then (mine s).freeId?.toList else [])
  fresh : ∀ id, pl.pushes = true → (mine s).freeId? = some id →
    ∃ r, (after s t).tile? id = some r ∧ r.full = false ∧ r.sunk = false ∧ r.tile = none
  floor : (after s t).tfloor = (mine s).tfloor
  younger : (after s t).nseq = (mine s).nseq + 1
  next : (after s t).pc = s.cur.next
  scalars : SameScalars (mine s) (after s t)
  vectors : (after s t).v = (mine s).v ∧ (after s t).k = (mine s).k
  control : SameControl (mine s) (after s t)
  elsewhere : Elsewhere s t
  own : ∃ x : Strand, x.openId = (mine s).openId ∧ x.declared = (mine s).declared ∧ x.vdecs = (mine s).vdecs ∧
    (after s t).openId = (f x (pl.uses.map (mine s).getS) (if pl.pushes then (mine s).freeId?.toList else [])).openId ∧
    (after s t).declared = (f x (pl.uses.map (mine s).getS) (if pl.pushes then (mine s).freeId?.toList else [])).declared ∧
    (after s t).vdecs = (f x (pl.uses.map (mine s).getS) (if pl.pushes then (mine s).freeId?.toList else [])).vdecs

/-- The free identity names no tile of the strand (R75). -/
theorem Strand.freeId?_spec {t : Strand} {id : Nat} (h : t.freeId? = some id) : ∀ r ∈ t.tiles, r.id ≠ id := by
  have := List.find?_some h
  simp only [Option.isNone_iff_eq_none, Strand.tile?, List.find?_eq_none, beq_iff_eq] at this
  exact this

/-- The upkeep and the next address that end a dispatch, from the strand with its new entry. -/
theorem sent_of {s s1 : State} {pl : Plan} {i : Instr} {f : Strand → List Word → List Nat → Strand} {e : QEntry}
    {b : Strand} {fresh : List TileRec} {res : List Nat} (hf : AfterKeeps f)
    (hs1 : ∃ w et ps, s1 = { s.setStrand (me s) (f { b.append pl.q e with
        image := b.image.take (b.image.length - pl.pops) ++ res, tiles := b.tiles ++ fresh, kept := none }
        (pl.uses.map (mine s).getS) res) with mgmt := { s.mgmt with wraps := w, errTiles := et }, parts := ps })
    (hb : ∃ c v g spo, b = { mine s with counters := c, views := v, gaps := g, spo := spo })
    (he : e.seq = (mine s).nseq ∧ e.instr = i ∧ e.holds = true ∧ e.stage = .waiting ∧ e.pc = (mine s).pc ∧
      e.scalars = pl.uses.map (mine s).getS ∧ e.tiles = (List.range pl.ops).map (mine s).atDepth ∧ e.results = res)
    (hr : res = if pl.pushes then (mine s).freeId?.toList else [])
    (hfr : ∀ id, pl.pushes = true → (mine s).freeId? = some id →
      ∃ r, fresh = [r] ∧ r.id = id ∧ r.full = false ∧ r.sunk = false ∧ r.tile = none) :
    Sent s ((s1.advance (me s)).tidyQueues (me s)) pl i f := by
  obtain ⟨w, et, ps, hs1⟩ := hs1
  obtain ⟨c, vs, g, spo, rfl⟩ := hb
  subst hr
  generalize hx : ({ ({ mine s with counters := c, views := vs, gaps := g, spo := spo } : Strand).append pl.q e with
    image := (mine s).image.take ((mine s).image.length - pl.pops) ++ (if pl.pushes then (mine s).freeId?.toList else []),
    tiles := (mine s).tiles ++ fresh, kept := none } : Strand) = x
  have hs1' : s1 = { s.setStrand (me s) (f x (pl.uses.map (mine s).getS) (if pl.pushes then (mine s).freeId?.toList else [])) with
      mgmt := { s.mgmt with wraps := w, errTiles := et }, parts := ps } := by rw [hs1, ← hx]
  obtain ⟨o, d, v, hfx⟩ := hf x (pl.uses.map (mine s).getS) (if pl.pushes then (mine s).freeId?.toList else [])
  have hcur : s1.cur = s.cur := by rw [hs1']; rfl
  have hstr : (s1.advance (me s)).strand (me s) = ({ x with openId := o, declared := d, vdecs := v } : Strand).setPc s.cur.next := by
    unfold State.advance
    rw [State.strand_modStrand, hcur, hs1', ← hfx]
    congr 1
    exact State.strand_setStrand _ _ _
  have hmem : e ∈ ((s1.advance (me s)).strand (me s)).queue pl.q := by
    rw [hstr, ← hx]
    simp [Strand.setPc, Strand.append, Strand.queue, Strand.setQueue]
  obtain ⟨t, tl, l, ps', up, hkeep, hsub, ht⟩ := (s1.advance (me s)).tidyQueues_eq (me s) hmem he.2.2.2.1
  obtain ⟨⟨tk, qs, fl, htt⟩, hent⟩ := up
  have haft : after s ((s1.advance (me s)).tidyQueues (me s)) = { t with tiles := tl } := by
    show State.strand _ _ = _
    rw [ht]
    exact State.strand_setStrand _ _ _
  rw [hstr] at htt hkeep hsub hent
  obtain ⟨e', he', p, q, k, sn, rfl⟩ := hent pl.q e (hstr ▸ hmem) he.2.2.2.1
  have hq : { e with pushes := p, pushed := q, asked := k, snap := sn } ∈ (after s ((s1.advance (me s)).tidyQueues (me s))).queue pl.q := by rw [haft]; exact he'
  refine ⟨⟨_, hq, he⟩, ?_, ?_, ?_, ?_, ?_, ?_, ?_, ?_, ?_, ?_⟩
  · rw [haft, htt, ← hx]; rfl
  · intro id hp hid
    obtain ⟨r, rfl, hrid, h1, h2, h3⟩ := hfr id hp hid
    have hin : r ∈ tl := hkeep r (by rw [← hx]; simp [Strand.setPc]) (by rw [← hx]; simp [Strand.setPc, hp, hid, hrid])
    have huniq : ∀ y ∈ tl, y.id = id → y = r := by
      intro y hy hyid
      have := hsub.subset hy
      rw [← hx] at this
      rcases List.mem_append.1 (show y ∈ (mine s).tiles ++ [r] from this) with h | h
      · exact absurd hyid (Strand.freeId?_spec hid y h)
      · simpa using h
    refine ⟨r, ?_, h1, h2, h3⟩
    rw [haft]
    show tl.find? (fun r => r.id == id) = some r
    cases hfd : tl.find? (fun r => r.id == id) with
    | none =>
      rw [List.find?_eq_none] at hfd
      exact absurd hrid (by simpa using hfd r hin)
    | some y =>
      have hy := List.mem_of_find?_eq_some hfd
      have hyid := List.find?_some hfd
      rw [huniq y hy (by simpa using hyid)]
  · rw [haft, htt, ← hx]; rfl
  · rw [haft, htt, ← hx]; rfl
  · rw [haft, htt]; rfl
  · rw [haft, htt, ← hx]; exact ⟨rfl, rfl⟩
  · rw [haft, htt, ← hx]; exact ⟨rfl, rfl⟩
  · rw [haft, htt, ← hx]; exact ⟨rfl, rfl, rfl, ⟨rfl, rfl, rfl⟩, ⟨rfl, rfl⟩, ⟨rfl, rfl⟩⟩
  · refine ⟨fun n hn => ?_, fun n a => ?_⟩
    · rw [ht]
      show ((s1.advance (me s)).setStrand (me s) _).strand n = _
      rw [State.strand_setStrand_ne _ _ hn]
      unfold State.advance
      rw [State.strand_modStrand_ne _ _ hn, hs1']
      exact State.strand_setStrand_ne _ _ hn
    · refine State.viewByte_congr (fun p => ?_) ?_ ?_ ?_ ?_ n a
      · have hpods : (s1.advance (me s)).pods = s.pods := by rw [hs1']; rfl
        generalize hue : (s1.advance (me s)).setStrand (me s) { t with tiles := tl } = u at ht
        have hu : u.pods = s.pods := by rw [← hue]; exact hpods
        have hq : ((s1.advance (me s)).tidyQueues (me s)).pod p = (u.modPod (podOf (me s)) (fun x => { x with lease := l })).pod p := by
          rw [ht]; rfl
        have hup : ∀ k, u.pod k = s.pod k := fun k => by simp [State.pod, hu]
        rw [hq]
        by_cases hp : p = podOf (me s)
        · subst hp; rw [State.pod_modPod, hup]; exact ⟨rfl, rfl⟩
        · rw [State.pod_modPod_ne _ _ hp, hup]; exact ⟨rfl, rfl⟩
      · rw [ht, hs1']; rfl
      · rw [ht, hs1']; rfl
      · rw [ht, hs1']; rfl
      · rw [ht, hs1']; rfl
  · refine ⟨x, ?_, ?_, ?_, ?_, ?_, ?_⟩
    · rw [← hx]; rfl
    · rw [← hx]; rfl
    · rw [← hx]; rfl
    · rw [haft, htt, hfx]; rfl
    · rw [haft, htt, hfx]; rfl
    · rw [haft, htt, hfx]; rfl

theorem LogRegs.reserve_of_room {r : LogRegs} (h : HasRoom r) :
    r.reserve = .off ∨ ∃ a r', r.reserve = .slot a r' := by
  unfold LogRegs.reserve
  by_cases he : r.en = true
  · obtain ⟨hf, hl⟩ := h he
    right
    simp [he, hf, Nat.not_lt.2 hl]
  · left; simp [he]

theorem AfterKeeps.id : AfterKeeps (fun t _ _ => t) := fun _ _ _ => ⟨_, _, _, rfl⟩

/-- The strand with the entry of an instruction that dispatches, its results on top of the image. -/
def Strand.sent (b : Strand) (pl : Plan) (i : Instr) (f : Strand → List Word → List Nat → Strand) (res : List Nat)
    (fresh : List TileRec) : Strand :=
  f { b.append pl.q { b.newEntry i true b.checkpoint with
        scalars := pl.uses.map b.getS, tiles := (List.range pl.ops).map b.atDepth, results := res } with
      image := b.image.take (b.image.length - pl.pops) ++ res, tiles := b.tiles ++ fresh, kept := none }
    (pl.uses.map b.getS) res

theorem State.releaseFor_none {u : State} {n : StrandId} {q : QName} {i : Instr} (h : (u.strand n).kept = none) :
    u.releaseFor n q i = u := by
  unfold State.releaseFor State.releaseKept
  rw [h, ite_self]

theorem State.sendQueued_plain {u : State} {n : StrandId} {pl : Plan} {i : Instr} {f : Strand → List Word → List Nat → Strand}
    (hk : (u.strand n).kept = none) (hp : pl.pushes = false) :
    u.sendQueued n pl i f = .ok (u.setStrand n ((u.strand n).sent pl i f [] [])) := by
  unfold State.sendQueued
  simp only [hp, State.releaseFor_none hk, Bool.false_eq_true, if_false, Option.isSome_none, Bool.not_false, if_true, ite_self,
    State.modStrand, hk]
  rfl

theorem State.sendQueued_tile {u : State} {n : StrandId} {pl : Plan} {i : Instr} {f : Strand → List Word → List Nat → Strand} {id : Nat}
    (hk : (u.strand n).kept = none) (hp : pl.pushes = true) (hid : (u.strand n).freeId? = some id)
    (hr : HasRoom (u.part (u.tagOf n)).stamp) :
    ∃ st et ps, u.sendQueued n pl i f =
      .ok { u.setStrand n ((u.strand n).sent pl i f [id] [⟨id, false, false, none, none, none, st⟩]) with
        mgmt := { u.mgmt with errTiles := et }, parts := ps } := by
  have hkh : (u.strand n).keptHere = none := by simp [Strand.keptHere, hk]
  unfold State.sendQueued
  simp only [hp, hkh, State.releaseFor_none hk, hid, if_true, Option.isSome_none, Bool.false_eq_true, if_false, Bool.not_true]
  unfold State.reserveStamp
  rcases LogRegs.reserve_of_room hr with h | ⟨a, r', h⟩
  · have hk' : ∀ k, ((u.forgetErrors n k).strand n).kept = none := fun _ => hk
    simp only [h, State.modStrand, hk', ite_self]
    exact ⟨none, _, u.parts, rfl⟩
  · have hk' : ∀ f k, (((u.modPart (u.tagOf n) f).forgetErrors n k).strand n).kept = none := fun _ _ => hk
    simp only [h, State.modStrand, hk', ite_self]
    exact ⟨_, _, _, rfl⟩

/-- A queued instruction whose checks pass, with room in its pool and in the stamps, stands in its queue (R77). -/
theorem queued_next {m : Mods} {pl : Plan} {i : Instr} {early : Strand → Option TrapInfo}
    {f : Strand → List Word → List Nat → Strand} {s : State} (hf : AfterKeeps f) (hd : Dispatches m pl.uses s)
    (he : early (mine s) = none) (hc : (mine s).stackCheck pl.ops pl.pops pl.pushes.toNat = none)
    (hp : s.poolRoom (me s) pl.q = true) (hi : pl.pushes = true → (mine s).freeId?.isSome = true)
    (hs : pl.pushes = true → HasRoom (s.part (s.tagOf (me s))).stamp) (hk : (mine s).kept = none) :
    ∃ t, queued m pl i none early f s = .next t ∧ Sent s t pl i f := by
  have hb : pl.uses.any (mine s).busy = false := by simpa [List.any_eq_false] using hd.loaded
  have hguard : (pl.pushes && (mine s).freeId?.isNone && (mine s).kept.isNone) = false := by
    cases hpu : pl.pushes with
    | false => rfl
    | true =>
      obtain ⟨x, hx⟩ := Option.isSome_iff_exists.1 (hi hpu)
      simp [hx]
  have hnone : ((early (mine s)).orElse (fun _ => (mine s).stackCheck pl.ops pl.pops pl.pushes.toNat)) = none := by
    rw [he]; exact hc
  have key : ∀ u, (s.dispatched (me s) m).sendQueued (me s) pl i f = .ok u →
      queued m pl i none early f s = .next ((u.advance (me s)).tidyQueues (me s)) := by
    intro u hu
    unfold queued
    simp only [hd.guards, hb, hnone, hp, hguard, hu]
    rfl
  obtain ⟨spo, w, vs, hdis⟩ := s.dispatched_eq (me s) m
  have hstr : (s.dispatched (me s) m).strand (me s) = { mine s with
      counters := (mine s).counters.set 0 ((mine s).counters[0] + 1), views := vs, gaps := (mine s).gaps.set 0 0, spo := spo } := by
    rw [hdis]; exact State.strand_setStrand _ _ _
  have hk' : ((s.dispatched (me s) m).strand (me s)).kept = none := by rw [hstr]; exact hk
  have hset : ∀ x, (s.dispatched (me s) m).setStrand (me s) x =
      { s.setStrand (me s) x with mgmt := { s.mgmt with wraps := w } } := fun x => by
    rw [hdis]; simp [State.setStrand]
  cases hpu : pl.pushes with
  | false =>
    refine ⟨_, key _ (State.sendQueued_plain hk' hpu), ?_⟩
    rw [hset, hstr]
    exact sent_of hf ⟨w, s.mgmt.errTiles, s.parts, rfl⟩ ⟨_, _, _, _, rfl⟩ ⟨rfl, rfl, rfl, rfl, rfl, rfl, rfl, rfl⟩ (by simp [hpu])
      (fun id h => by simp [hpu] at h)
  | true =>
    obtain ⟨id, hid⟩ := Option.isSome_iff_exists.1 (hi hpu)
    have hid' : ((s.dispatched (me s) m).strand (me s)).freeId? = some id := by rw [hstr]; exact hid
    have hroom : HasRoom ((s.dispatched (me s) m).part ((s.dispatched (me s) m).tagOf (me s))).stamp := by
      have := hs hpu
      rw [hdis]; exact this
    obtain ⟨st, et, ps, h⟩ := State.sendQueued_tile (i := i) (f := f) hk' hpu hid' hroom
    refine ⟨_, key _ h, ?_⟩
    have hm : (s.dispatched (me s) m).mgmt = { s.mgmt with wraps := w } := by rw [hdis]
    rw [hset, hstr, hm]
    exact sent_of hf ⟨w, et, ps, rfl⟩ ⟨_, _, _, _, rfl⟩ ⟨rfl, rfl, rfl, rfl, rfl, rfl, rfl, rfl⟩ (by simp [hpu, hid])
      (fun id' _ h' => ⟨_, rfl, by rw [hid] at h'; exact Option.some.inj h', rfl, rfl, rfl⟩)

end Sys2Proof.Machine
end

