-- ==== Sys2Proof/Tests/Slice0.lean ====
section
/-! SUPPORT. Tests of the model: words written out from the spec's encodings (chapters 5 to 12 and the opcode maps), worked values
of the chapters, single steps on small states, ill-formed terms that the check refuses, and for each statement a witness of its
hypotheses. -/

namespace Sys2Proof.Tests
set_option Elab.async false
open Sys2Proof.Machine Sys2Proof.Safety Sys2Proof.Claims

/-! ### Words -/

/-- Each word reads as its instruction. -/
def reads (l : List (Nat × Nat × Instr)) : Bool := l.all (fun x => decodeTableWord x.1 x.2.1 == some x.2.2)

/-- The decoder refuses each word. -/
def refuses (l : List Nat) : Bool := l.all (fun w => decodeTableWord 64 w == none)

/-- No guard, no token, no spacing. -/
abbrev m0 : Mods := ⟨⟨false, 0⟩, ⟨false, 0⟩, false, 0, 0⟩
/-- RNE with no SAT and no OPX. -/
abbrev a0 : Arith := ⟨.rne, false, 0⟩
/-- The guards `(!p3, p5)`, STOP and SC 5. -/
def g : Mods := ⟨⟨true, 3⟩, ⟨false, 5⟩, true, 0, 5⟩
/-- The guards `(p2, !p4)`, TOK 0b0110 and SC 3. -/
def v : Mods := ⟨⟨false, 2⟩, ⟨true, 4⟩, false, 6, 3⟩
/-- The guards `(p2, !p4)`, STOP and SC 3. -/
def d : Mods := ⟨⟨false, 2⟩, ⟨true, 4⟩, true, 0, 3⟩

/-- Chapter 5, "Worked encodings". -/
theorem test_decode_chapter_5 : reads [
    (64, 0x021A_0000_0508_0FFD, .addi { m0 with ga := ⟨true, 2⟩ } 5 2 0xFFD),
    (128, 0x0123_4567_89AB_CDEF_03C0_0000_0700_0000, .movl m0 7 0x0123_4567_89AB_CDEF),
    (64, 0xC000_FFFF_1C05_FC05, .dbnd 0xFFFF 0x1C05 0xFC05), (64, 0x8050_0000_0200_0000, .tpick m0 2),
    (64, 0x4010_0000_0108_3000, .vadd m0 a0 1 2 3 .fp32 0)] = true := by decide +kernel

/-- The words of chapter 6's counted loop. -/
theorem test_decode_chapter_6 : reads [
    (64, 0x0370_0000_0900_0000, .movi m0 9 0), (64, 0x0680_0000_01FC_0010, .loopp m0 1 63 0x010),
    (64, 0x0350_0000_0AF4_002F, .bfxu m0 10 61 0 47), (64, 0x0030_0000_0B28_A000, .mul m0 11 10 10),
    (64, 0x0010_0000_0924_B000, .add m0 9 9 11), (64, 0x0690_0000_0000_0000, .endl m0),
    (64, 0x04C0_0000_0124_0064, .cmpltui m0 1 9 100), (64, 0x0211_0000_0924_03E8, .addi { m0 with ga := ⟨false, 1⟩ } 9 9 1000),
    (64, 0x06A0_0000_0000_0000, .next m0), (64, 0x0730_0000_0000_0000, .halt m0)] = true := by decide +kernel

/-- Words of chapters 7 to 10. -/
theorem test_decode_chapters_7_to_10 : reads [
    (64, 0x4340_0000_0208_0038, .vbcst m0 2 2 .int32 0), (64, 0x4010_0010_0404_2038, .vadd { m0 with sc := 1 } a0 4 1 2 .int32 0),
    (64, 0x4350_0000_0510_3038, .vext m0 5 4 3 .int32), (64, 0x8100_0080_0004_0000, .tld { m0 with tok := 1 } ⟨0, 0⟩ 1),
    (64, 0x8300_0000_000C_0000, .tst m0 ⟨0, 0⟩ 3), (64, 0x8400_0000_0000_0000, .mma m0),
    (64, 0x8460_0000_0400_0002, .mcvt m0 a0 .e4m3 .row), (64, 0x8580_0000_0210_0000, .tbeg m0 .bf16 4),
    (64, 0x8590_0000_0100_0008, .trow m0 a0 1 .bf16), (64, 0x85B0_0000_0214_6000, .trv m0 a0 2 5 6 .fp32),
    (64, 0x8200_0000_0304_20C0, .cpy m0 ⟨0, 0⟩ 3 1 2 3), (64, 0x8080_0000_0500_0002, .tmarkOpen m0 5 2),
    (64, 0x1020_0000_0304_2018, .ldw m0 ⟨0, 0⟩ 3 1 2 0x018), (64, 0x1100_0000_0504_4033, .aadd m0 ⟨0, .relaxed⟩ 5 1 4 true .package),
    (64, 0x1170_0000_0A1C_8133, .acas m0 ⟨0, .relaxed⟩ 10 7 8 4 true .package),
    (64, 0x1110_0000_0C34_E023, .afadd m0 ⟨0, .relaxed⟩ 12 13 14 false .package),
    (64, 0x10F0_0000_001C_0003, .strld m0 0 0 7 .package), (64, 0x1190_0000_0004_F080, .cmo m0 0 0 1 15 2),
    (64, 0x1180_0000_0400_0001, .fence m0 .domain false 1), (64, 0x8120_0000_0204_5180, .tldr m0 ⟨0, 0⟩ .bf16 1 5 6)] = true := by
  decide +kernel

/-- The words of arithmetic by the rulers of R95 and R105 and the opcode maps. -/
theorem test_decode_arithmetic_1 : reads [
    (64, 0x001B58500928B000, .add g 9 10 11),
    (64, 0x002B58500928B000, .sub g 9 10 11),
    (64, 0x003B58500928B000, .mul g 9 10 11),
    (64, 0x004B58500928B000, .mulh g 9 10 11),
    (64, 0x005B58500928B000, .mulhu g 9 10 11),
    (64, 0x006B58500928B000, .div g 9 10 11),
    (64, 0x007B58500928B000, .divu g 9 10 11),
    (64, 0x008B58500928B000, .rem g 9 10 11),
    (64, 0x009B58500928B000, .remu g 9 10 11),
    (64, 0x00AB58500928B000, .and g 9 10 11),
    (64, 0x00BB58500928B000, .or g 9 10 11),
    (64, 0x00CB58500928B000, .xor g 9 10 11),
    (64, 0x00DB58500928B000, .andn g 9 10 11),
    (64, 0x00EB58500928B000, .shl g 9 10 11),
    (64, 0x00FB58500928B000, .shr g 9 10 11),
    (64, 0x010B58500928B000, .sar g 9 10 11)] = true := by decide +kernel

/-- More words of arithmetic. -/
theorem test_decode_arithmetic_2 : reads [
    (64, 0x011B58500928B000, .rol g 9 10 11),
    (64, 0x012B58500928B000, .ror g 9 10 11),
    (64, 0x013B58500928B000, .min g 9 10 11),
    (64, 0x014B58500928B000, .max g 9 10 11),
    (64, 0x015B58500928B000, .minu g 9 10 11),
    (64, 0x016B58500928B000, .maxu g 9 10 11)] = true := by decide +kernel

/-- The words of immediates by the rulers of R95 and R105 and the opcode maps. -/
theorem test_decode_immediates : reads [
    (64, 0x018B58503C840000, .clz g 60 33),
    (64, 0x019B58503C840000, .ctz g 60 33),
    (64, 0x01AB58503C840000, .popc g 60 33),
    (64, 0x021B585009280ABC, .addi g 9 10 0xABC),
    (64, 0x02AB585009280ABC, .andi g 9 10 0xABC),
    (64, 0x02BB585009280ABC, .ori g 9 10 0xABC),
    (64, 0x02CB585009280ABC, .xori g 9 10 0xABC),
    (64, 0x02EB58500928003F, .shli g 9 10 63),
    (64, 0x02FB58500928003F, .shri g 9 10 63),
    (64, 0x030B58500928003F, .sari g 9 10 63),
    (64, 0x034B5850092801F2, .bfx g 9 10 7 50),
    (64, 0x035B5850092801F2, .bfxu g 9 10 7 50),
    (64, 0x036B58500928B1F2, .bfi g 9 10 11 7 50),
    (64, 0x037B58500903ABCD, .movi g 9 0x3ABCD),
    (128, 0xFEDCBA987654321003CB585009000000, .movl g 9 0xFEDCBA9876543210),
    (128, 0xFEDCBA987654321003DB585009280000, .addl g 9 10 0xFEDCBA9876543210)] = true := by decide +kernel

/-- The words of predicates by the rulers of R95 and R105 and the opcode maps. -/
theorem test_decode_predicates_1 : reads [
    (64, 0x040B58500628B000, .cmpeq g 6 10 11),
    (64, 0x041B58500628B000, .cmpne g 6 10 11),
    (64, 0x042B58500628B000, .cmplt g 6 10 11),
    (64, 0x043B58500628B000, .cmple g 6 10 11),
    (64, 0x044B58500628B000, .cmpltu g 6 10 11),
    (64, 0x045B58500628B000, .cmpleu g 6 10 11),
    (64, 0x048B585006280ABC, .cmpeqi g 6 10 0xABC),
    (64, 0x049B585006280ABC, .cmpnei g 6 10 0xABC),
    (64, 0x04AB585006280ABC, .cmplti g 6 10 0xABC),
    (64, 0x04BB585006280ABC, .cmplei g 6 10 0xABC),
    (64, 0x04CB585006280ABC, .cmpltui g 6 10 0xABC),
    (64, 0x04DB585006280ABC, .cmpleui g 6 10 0xABC),
    (64, 0x050B585006144000, .pand g 6 5 4),
    (64, 0x051B585006144000, .por g 6 5 4),
    (64, 0x052B585006144000, .pxor g 6 5 4),
    (64, 0x053B585006144000, .pandn g 6 5 4)] = true := by decide +kernel

/-- More words of predicates. -/
theorem test_decode_predicates_2 : reads [
    (64, 0x054B585006280000, .pset g 6 10),
    (64, 0x055B585009140000, .pget g 9 5),
    (64, 0x058B58500928B0C0, .lea g 9 10 11 3),
    (64, 0x05AB585009280140, .apcv g 9 10 5),
    (64, 0x05BB585009280000, .apts g 9 10),
    (64, 0x05CB585009280380, .hget g 9 10 14),
    (64, 0x05DB585006280000, .hchk g 6 10)] = true := by decide +kernel

/-- The words of control by the rulers of R95 and R105 and the opcode maps. -/
theorem test_decode_control_1 : reads [
    (64, 0x060B58500003FFF4, .br g 0x3FFF4),
    (64, 0x061B58500003FFF4, .call g 0x3FFF4),
    (64, 0x062B585000280000, .jmp g 10),
    (64, 0x063B585000280000, .callr g 10),
    (64, 0x064B585000000000, .ret g),
    (128, 0x0000000100000008065B585000000000, .brl g 0x0000000100000008),
    (128, 0x0000000100000008066B585000000000, .calll g 0x0000000100000008),
    (64, 0x068B585009FC0010, .loopp g 9 63 0x010),
    (64, 0x069B585000000000, .endl g),
    (64, 0x06AB585000000000, .next g),
    (64, 0x06BB585000280000, .lnch g 10),
    (64, 0x06CB58500928B000, .wait g 9 10 11),
    (64, 0x070B585000000ABC, .trap g 0xABC),
    (64, 0x071B585000000000, .tack g),
    (64, 0x072B585000000000, .eret g),
    (64, 0x073B585000000000, .halt g)] = true := by decide +kernel

/-- More words of control. -/
theorem test_decode_control_2 : reads [
    (64, 0x07FB585000000000, .nop g),
    (64, 0x07AB585000000ABC, .brk g 0xABC)] = true := by decide +kernel

/-- The words of special by the rulers of R95 and R105 and the opcode maps. -/
theorem test_decode_special_1 : reads [
    (64, 0x074B58500900008D, .srd g 9 0x08D),
    (64, 0x076B58500928B000, .iclk g 9 10 11),
    (64, 0x077B58500928B000, .icul g 9 10 11),
    (64, 0x078B58500028B000, .logw g 10 11),
    (64, 0x074B585009000041, .srdVstat g 9),
    (64, 0x074B585009000040, .srdTags g 9),
    (64, 0x075B585000280022, .swr g 0x022 10),
    (64, 0x075B585000280041, .swrVstat g 10),
    (64, 0x075B585000280012, .swrStklim g 10),
    (64, 0x075B585000280014, .swrTsquota g 10),
    (64, 0x075B585000280002, .swrOrdmode g 10),
    (64, 0x075B585000280025, .swrTdeleg g 10),
    (64, 0x075B585000280050, .swrRole g 10),
    (64, 0x075B585000280051, .swrLeasectl g 10),
    (64, 0x075B585000280040, .swrTags g 10),
    (64, 0x075B585000280052, .swrQminQcap g false 10)] = true := by decide +kernel

/-- More words of special. -/
theorem test_decode_special_2 : reads [
    (64, 0x075B585000280053, .swrQminQcap g true 10),
    (64, 0x075B585000280030, .logMove g 0 10),
    (64, 0x075B585000280034, .logMove g 1 10),
    (64, 0x075B585000280033, .logMove g 2 10)] = true := by decide +kernel

/-- The words of memory by the rulers of R95 and R105 and the opcode maps. -/
theorem test_decode_memory_1 : reads [
    (64, 0x100B585D8928BABC, .ldb g ⟨13, 2⟩ 9 10 11 0xABC),
    (64, 0x101B585D8928BABC, .ldh g ⟨13, 2⟩ 9 10 11 0xABC),
    (64, 0x102B585D8928BABC, .ldw g ⟨13, 2⟩ 9 10 11 0xABC),
    (64, 0x103B585D8928BABC, .ldd g ⟨13, 2⟩ 9 10 11 0xABC),
    (64, 0x104B585D8928BABC, .ldbu g ⟨13, 2⟩ 9 10 11 0xABC),
    (64, 0x105B585D8928BABC, .ldhu g ⟨13, 2⟩ 9 10 11 0xABC),
    (64, 0x106B585D8928BABC, .ldwu g ⟨13, 2⟩ 9 10 11 0xABC),
    (64, 0x108B585D8928BABC, .stb g ⟨13, 2⟩ 9 10 11 0xABC),
    (64, 0x109B585D8928BABC, .sth g ⟨13, 2⟩ 9 10 11 0xABC),
    (64, 0x10AB585D8928BABC, .stw g ⟨13, 2⟩ 9 10 11 0xABC),
    (64, 0x10BB585D8928BABC, .std g ⟨13, 2⟩ 9 10 11 0xABC),
    (64, 0x10CB585D09280004, .ldaqw g 13 9 10 .domain),
    (64, 0x10DB585D09280004, .ldaqd g 13 9 10 .domain),
    (64, 0x10EB585D09280004, .strlw g 13 9 10 .domain),
    (64, 0x10FB585D09280004, .strld g 13 9 10 .domain),
    (64, 0x110B585D8928B032, .aadd g ⟨13, .release⟩ 9 10 11 true .die)] = true := by decide +kernel

/-- More words of memory. -/
theorem test_decode_memory_2 : reads [
    (64, 0x111B585D8928B022, .afadd g ⟨13, .release⟩ 9 10 11 false .die),
    (64, 0x112B585D8928B032, .amin g ⟨13, .release⟩ 9 10 11 true .die),
    (64, 0x113B585D8928B032, .amax g ⟨13, .release⟩ 9 10 11 true .die),
    (64, 0x114B585D8928B032, .aand g ⟨13, .release⟩ 9 10 11 true .die),
    (64, 0x115B585D8928B032, .aor g ⟨13, .release⟩ 9 10 11 true .die),
    (64, 0x116B585D8928B032, .axch g ⟨13, .release⟩ 9 10 11 true .die),
    (64, 0x117B585DC928B321, .acas g ⟨13, .acqrel⟩ 9 10 11 12 false .pod),
    (64, 0x118B585003018421, .fence g .package true 0x8421),
    (64, 0x119B585D0228B0C0, .cmo g 13 2 10 11 3),
    (64, 0x11AB58500000001B, .bar g 0x01B)] = true := by decide +kernel

/-- The words of vector arithmetic by the rulers of R95 and R105 and the opcode maps. -/
theorem test_decode_vector_arithmetic_1 : reads [
    (64, 0x4012C33341083015, .vadd v ⟨.rtz, true, 1⟩ 1 2 3 .fp16 5),
    (64, 0x4022C33301083015, .vsub v ⟨.rtz, true, 0⟩ 1 2 3 .fp16 5),
    (64, 0x4032C33301083015, .vmul v ⟨.rtz, true, 0⟩ 1 2 3 .fp16 5),
    (64, 0x4042C33301083115, .vfma v ⟨.rtz, true, 0⟩ 1 2 3 4 .fp16 5),
    (64, 0x4052C33301083115, .vfms v ⟨.rtz, true, 0⟩ 1 2 3 4 .fp16 5),
    (64, 0x4062C33301083015, .vdiv v ⟨.rtz, true, 0⟩ 1 2 3 .fp16 5),
    (64, 0x4072C33001083015, .vmin v ⟨.rne, false, 0⟩ 1 2 3 .fp16 5),
    (64, 0x4082C33001083015, .vmax v ⟨.rne, false, 0⟩ 1 2 3 .fp16 5),
    (64, 0x4092C33001080015, .vabs v ⟨.rne, false, 0⟩ 1 2 .fp16 5),
    (64, 0x40A2C33001080015, .vneg v ⟨.rne, false, 0⟩ 1 2 .fp16 5),
    (64, 0x4102C3300108303D, .vand v ⟨.rne, false, 0⟩ 1 2 3 .int32 5),
    (64, 0x4112C3300108303D, .vor v ⟨.rne, false, 0⟩ 1 2 3 .int32 5),
    (64, 0x4122C3300108303D, .vxor v ⟨.rne, false, 0⟩ 1 2 3 .int32 5),
    (64, 0x4132C3300108003D, .vnot v ⟨.rne, false, 0⟩ 1 2 .int32 5),
    (64, 0x4142C3300108303D, .vshl v ⟨.rne, false, 0⟩ 1 2 3 .int32 5),
    (64, 0x4152C3300108303D, .vshr v ⟨.rne, false, 0⟩ 1 2 3 .int32 5)] = true := by decide +kernel

/-- More words of vector arithmetic. -/
theorem test_decode_vector_arithmetic_2 : reads [
    (64, 0x4162C3300108303D, .vsar v ⟨.rne, false, 0⟩ 1 2 3 .int32 5),
    (64, 0x4172C3300108313D, .vfshl v ⟨.rne, false, 0⟩ 1 2 3 4 .int32 5),
    (64, 0x4182C3300108313D, .vfshr v ⟨.rne, false, 0⟩ 1 2 3 4 .int32 5),
    (64, 0x4202C33006083015, .vcmpeq v ⟨.rne, false, 0⟩ 6 2 3 .fp16 5),
    (64, 0x4212C33006083015, .vcmpne v ⟨.rne, false, 0⟩ 6 2 3 .fp16 5),
    (64, 0x4222C33006083015, .vcmplt v ⟨.rne, false, 0⟩ 6 2 3 .fp16 5),
    (64, 0x4232C33006083015, .vcmple v ⟨.rne, false, 0⟩ 6 2 3 .fp16 5),
    (64, 0x4242C33001083115, .vsel v ⟨.rne, false, 0⟩ 1 2 3 4 .fp16 5)] = true := by decide +kernel

/-- The words of vector moves by the rulers of R95 and R105 and the opcode maps. -/
theorem test_decode_vector_moves_1 : reads [
    (64, 0x4262C33006144000, .kand v 6 5 4),
    (64, 0x4272C33006144000, .kor v 6 5 4),
    (64, 0x4282C33006144000, .kxor v 6 5 4),
    (64, 0x4292C33006140000, .knot v 6 5),
    (64, 0x4302C33801080055, .vcvt v ⟨.rna, false, 0⟩ 1 2 .bf16 .fp16 5),
    (64, 0x4312C33004080015, .vwid v ⟨.rne, false, 0⟩ 4 2 .fp32 .fp16 5),
    (64, 0x4322C33301080085, .vnar v ⟨.rtz, true, 0⟩ 1 2 .fp16 .fp32 5),
    (64, 0x4342C33001C80015, .vbcst v 1 50 .fp16 5),
    (64, 0x4352C330320B3010, .vext v 50 2 51 .fp16),
    (64, 0x4382C33001083015, .vperm v 1 2 3 .fp16 5),
    (64, 0x4392C33001083055, .vshuf v 1 2 3 1 .fp16 5),
    (64, 0x43A2C330010B2015, .vlrot v 1 2 50 .fp16 5),
    (64, 0x4402C33201080015, .vrsum v ⟨.rtz, false, 0⟩ 1 2 .fp16 5),
    (64, 0x4412C33001080015, .vrmax v ⟨.rne, false, 0⟩ 1 2 .fp16 5),
    (64, 0x4422C33001080015, .vrmin v ⟨.rne, false, 0⟩ 1 2 .fp16 5),
    (64, 0x4442C33001080115, .vgsum v ⟨.rne, false, 0⟩ 1 2 4 .fp16 5)] = true := by decide +kernel

/-- More words of vector moves. -/
theorem test_decode_vector_moves_2 : reads [
    (64, 0x4452C33001080115, .vgmax v ⟨.rne, false, 0⟩ 1 2 4 .fp16 5),
    (64, 0x4462C33001080115, .vgmin v ⟨.rne, false, 0⟩ 1 2 4 .fp16 5),
    (64, 0x4482C33001080015, .vscan v ⟨.rne, false, 0⟩ 1 2 .fp16 5),
    (64, 0x4492C33001080015, .vscanm v ⟨.rne, false, 0⟩ 1 2 .fp16 5),
    (64, 0x4502C33001080005, .vsin v ⟨.rne, false, 0⟩ 1 2 .fp32 5),
    (64, 0x4512C33001080005, .vcos v ⟨.rne, false, 0⟩ 1 2 .fp32 5),
    (64, 0x4522C33001080005, .vexp v ⟨.rne, false, 0⟩ 1 2 .fp32 5),
    (64, 0x4532C33001080005, .vlog v ⟨.rne, false, 0⟩ 1 2 .fp32 5),
    (64, 0x4542C33001080005, .vrcp v ⟨.rne, false, 0⟩ 1 2 .fp32 5),
    (64, 0x4552C33001080005, .vrsq v ⟨.rne, false, 0⟩ 1 2 .fp32 5),
    (64, 0x4582C330010830D8, .vqnt v ⟨.rne, false, 0⟩ 1 2 3 3 .e4m3),
    (64, 0x4602C33D81C80F55, .vld v ⟨13, 2⟩ 1 50 0x3D .fp16 5),
    (64, 0x4612C33D81C80F55, .vst v ⟨13, 2⟩ 1 50 0x3D .fp16 5),
    (64, 0x4622C33D81C80F6D, .vldu v ⟨13, 2⟩ 1 50 0x3D .int8 5),
    (64, 0x4632C33D81C80F6D, .vstm v ⟨13, 2⟩ 1 50 0x3D .int8 5),
    (64, 0x4642C33D81C83F45, .vgath v ⟨13, 2⟩ 1 50 3 0x3D .fp32 5)] = true := by decide +kernel

/-- More words of vector moves. -/
theorem test_decode_vector_moves_3 : reads [
    (64, 0x4652C33D81C83F45, .vscat v ⟨13, 2⟩ 1 50 3 0x3D .fp32 5),
    (64, 0x4682C3301F000000, .vdec v 31)] = true := by decide +kernel

/-- The words of stack by the rulers of R95 and R105 and the opcode maps. -/
theorem test_decode_stack : reads [
    (64, 0x8012C83000000000, .tdup d),
    (64, 0x8022C83000000000, .tdrop d),
    (64, 0x8032C83000000000, .tswap d),
    (64, 0x8042C83000000000, .tover d),
    (64, 0x8052C8303E000000, .tpick d 62),
    (64, 0x8062C8303E000000, .trot d 62),
    (64, 0x8072C8303E000000, .tbury d 62),
    (64, 0x8082C83009000ABC, .tmarkOpen d 9 0xABC),
    (64, 0x8092C83000280000, .tmarkClose d 10)] = true := by decide +kernel

/-- The words of transfers by the rulers of R95 and R105 and the opcode maps. -/
theorem test_decode_transfers : reads [
    (64, 0x8102C33D80C80000, .tld v ⟨13, 2⟩ 50),
    (64, 0x8112C33D80CB3D00, .tldh v ⟨13, 2⟩ 50 51 52),
    (64, 0x8122C33D82CB3D00, .tldr v ⟨13, 2⟩ .bf16 50 51 52),
    (64, 0x8202C33DBFCB3D00, .cpy v ⟨13, 2⟩ 63 50 51 52),
    (64, 0x8212C33DBFCB3D0C, .cpyg v ⟨13, 2⟩ 63 50 51 52 12),
    (64, 0x8222C33DBFC80D00, .cpyd v ⟨13, 2⟩ 63 50 52),
    (64, 0x8232C33DBFCB3D02, .cpye v ⟨13, 2⟩ 63 50 51 52 2),
    (64, 0x8242C33DBFC80000, .coll v ⟨13, 2⟩ 63 50),
    (64, 0x8282C33000C80000, .wtall v 50),
    (64, 0x8292C33000C80000, .wtany v 50),
    (64, 0x82B2C33000C80000, .tagcl v 50),
    (64, 0x82A2C33009C80000, .tagff v 9 50),
    (64, 0x8302C33D80C80000, .tst v ⟨13, 2⟩ 50),
    (64, 0x8312C33D80C80000, .tstk v ⟨13, 2⟩ 50)] = true := by decide +kernel

/-- The words of matrix by the rulers of R95 and R105 and the opcode maps. -/
theorem test_decode_matrix_1 : reads [
    (64, 0x8402C33000000000, .mma v),
    (64, 0x8412C33000000000, .mmac v),
    (64, 0x8472C33000000000, .mtrn v),
    (64, 0x84B2C33000000000, .mrsum v),
    (64, 0x84C2C33000000000, .mchk v),
    (64, 0x8502C33000000000, .lacq v),
    (64, 0x8512C33000000000, .lrel v),
    (64, 0x8422C33500000000, .madd v ⟨.rdn, true, 0⟩),
    (64, 0x8432C33500000000, .msub v ⟨.rdn, true, 0⟩),
    (64, 0x8442C33500000000, .mmul v ⟨.rdn, true, 0⟩),
    (64, 0x8452C33500C80000, .mscal v ⟨.rdn, true, 0⟩ 50),
    (64, 0x8462C33504000003, .mcvt v ⟨.rdn, true, 0⟩ .e4m3 .block),
    (64, 0x8482C33009C80001, .mzero v .acc56 50 1),
    (64, 0x8492C33000C80000, .mhdr v 50),
    (64, 0x84A2C33005000000, .mspar v .n32),
    (64, 0x8582C33001C80000, .tbeg v .fp32 50)] = true := by decide +kernel

/-- More words of matrix. -/
theorem test_decode_matrix_2 : reads [
    (64, 0x8592C3351F000010, .trow v ⟨.rdn, true, 0⟩ 31 .fp16),
    (64, 0x85A2C33000000000, .tend v),
    (64, 0x85B2C3351FCB3000, .trv v ⟨.rdn, true, 0⟩ 31 50 51 .fp32),
    (64, 0x85C2C3351FCC0000, .tcv v ⟨.rdn, true, 0⟩ 31 51 .fp32)] = true := by decide +kernel

/-- Words that R112 refuses: an opcode no map assigns, a zero word, a nonzero zero field, a register's high bit, a token on a
control instruction, MOD where there is none, a reserved RM, SCOPE, WID, FMT and SCL, bits 61:48 of a bundle, a shift of 64, and
a predicate register 8. -/
theorem test_decode_refuses : refuses [
    0x0170_0000_0000_0000, 0x0000_0000_0000_0000, 0x0010_0000_0924_B001, 0x4010_0000_2108_3000, 0x0010_0080_0924_B000,
    0x0010_0001_0924_B000, 0x4010_000A_0108_3000, 0x10F0_0000_001C_0005, 0x1100_0000_0504_4013, 0x8460_0000_0A00_0002,
    0x8460_0000_0400_0004, 0xC001_FFFF_1C05_FC05, 0x02E0_0000_0924_0040, 0x0400_0000_0828_B000] = true := by decide +kernel

/-- An ill-formed term for each check: TOK of a control instruction, RM, SAT and OPX where they have no use, U, ABS, and each
limit of step 5 of R112. The check refuses them all. -/
theorem test_ill_formed : [
    Instr.add { m0 with tok := 1 } 1 2 3, .tdup { m0 with tok := 8 }, .vadd m0 ⟨.rtz, false, 0⟩ 1 2 3 .int32 0,
    .vmin m0 ⟨.rne, true, 0⟩ 1 2 3 .fp32 0, .vadd m0 ⟨.rne, false, 2⟩ 1 2 3 .fp32 0, .vsin m0 ⟨.rtz, false, 0⟩ 1 2 .fp32 0,
    .vabs m0 ⟨.rne, true, 0⟩ 1 2 .fp32 0, .madd m0 ⟨.rne, false, 1⟩, .vmin m0 ⟨.rne, false, 2⟩ 1 2 3 .fp32 0,
    .vrmax m0 ⟨.rne, false, 1⟩ 1 2 .int8 0, .shli m0 1 2 64, .bfx m0 1 2 1 63, .bfi m0 1 2 3 32 32, .apcv m0 1 2 6,
    .srd m0 1 0x003, .srd m0 1 0x040, .swr m0 0x080 1, .swr m0 0x012 1, .afadd m0 ⟨0, .relaxed⟩ 1 2 3 true .pod,
    .cmo m0 0 3 1 2 0, .cmo m0 0 0 1 2 4, .bar m0 32, .vdiv m0 a0 1 2 3 .int32 0, .vshl m0 a0 1 2 3 .fp32 0,
    .vfshl m0 a0 1 2 3 4 .int4 0, .vcvt m0 a0 1 2 .fp32 .bf16 0, .vwid m0 a0 1 2 .fp32 .bf16 0, .vwid m0 a0 0 2 .fp32 .int4 0,
    .vnar m0 a0 1 1 .bf16 .fp32 0, .vperm m0 1 2 3 .int8 0, .vshuf m0 1 2 3 4 .fp32 0, .vgsum m0 a0 1 2 0 .fp32 0,
    .vgsum m0 a0 1 2 8 .fp32 0, .vexp m0 a0 1 2 .e4m3 0, .vqnt m0 a0 1 2 1 0 .int8, .vqnt m0 a0 1 2 3 4 .int8,
    .vqnt m0 a0 1 2 3 0 .fp32, .vstm m0 ⟨0, 0⟩ 1 2 0 .fp32 0, .vgath m0 ⟨0, 0⟩ 1 2 1 0 .bf16 0, .vscat m0 ⟨0, 0⟩ 1 2 0 0 .int4 0,
    .cpyg m0 ⟨0, 0⟩ 0 1 2 3 13, .cpye m0 ⟨0, 0⟩ 0 1 2 3 3, .mzero m0 .acc56 1 2, .mspar m0 .dense].all (fun i => !i.wf) = true := by
  decide +kernel

/-- The rows that are steps of the device have no word. -/
theorem test_events_have_no_word : [
    Instr.dispatchResume 0, .engineInstructionStart 0 .L, .engineInstructionComplete 0 .L 0 0, .pendingWriteLand 0, .tileSink 0 0,
    .tileRaise 0 0, .cpydBlockDecode 0, .bind 0 0, .leave 0 0, .push 0 0, .commit 0 0, .atom 0 0, .fill 0 (.phys 0),
    .drop 0 (.phys 0), .evict 0, .fenceComplete 0 0, .barComplete 0 0, .orderedEntryApply 0, .logRecordWrite 0 0, .launchStart 0,
    .unitHandOut 0 0 0, .coverCursorVisit 0 0, .iterationSkip 0 0 0, .launchDone 0 0, .preemptEvaluate 0, .drain 0, .checkpointStop 0,
    .kill 0 0, .preemptStopTimeout 0, .launchResume 0, .leaseGrant 0, .leaseRunEnd 0, .leaseIdleSurrender 0, .requestAged 0 .M,
    .engineArbitrate 0 .copy 0, .trapEntry 0, .asyncTrapDeliver 0, .lateErrorReread 0 0 true, .switchOut 0, .restore 0 0 0,
    .worldSwitch 0, .pageWalk 0 true 0].all (fun i => (encode i).isEmpty) = true := by decide +kernel

/-- The device's other steps have no word either. -/
theorem test_commands_and_messages_have_no_word : [
    Instr.partitionPrepare default [], .partitionCommit default, .vfBind default 0 0 0 0, .pageGrant default 0 0 0,
    .dedupJoin default 0 0, .errinj default 0 0 0, .counterPolicy default 0, .fwUpdate default [],
    .contextCreate default 0 0 0 0 0 0 0, .contextDestroy default 0, .loadCode default 0 0 0, .start default 0 0, .stop default 0,
    .resume default 0, .tlbInval default 0 0 0, .collGroup default 0 0, .logConfig default 0 0 0 0 0 0 0, .attest default 0 0 0,
    .hostAccessMessage 0 0 0 (.read 8), .bulkAccess 0 0 0 (.inl 0), .rdv 0 0 0 0 [], .abort 0 0 0 none, .rendezvousLimitExpiry 0 0,
    .rendezvousSwitchTimeout 0, .partialWriteIndirectionFetch 0 0 true, .replayDecision 0, .replayWindowExpiry 0 none,
    .counterWrap 0 none 0, .counterRefresh 0, .patrolScrub 0 0, .scDataError 0, .scTagError 0 0 0, .pgpois 0, .scquar 0, .ctxterm 0,
    .sceinfoRelease 0, .tileStoreError 0 0, .podClockLower 0, .coldRstN, .warmRstN, .warmStartTimeout, .watchdogReset,
    .linkLevelRetry 0, .fabricAccessMessage 0 0 0 (.read 8), .switchOutStopTimeout 0, .debugStop 0, .sample 0, .traceRecord 0,
    .commandOtherCode default 0].all (fun i => (encode i).isEmpty) = true := by decide +kernel

/-! ### Worked values of the spec -/

/-- R334 and R348, chapter 17's worked translation: the die, the colour, the set and the slice of 0x40_1234_5680. -/
theorem test_place_of_an_address : homeDie 0x40_1234_5680 = some 1 ∧ colourOf 0x40_1234_5680 = 45 ∧ setOf 0x40_1234_5680 = 23213 ∧
    sliceOf 0x40_1234_5680 = 0 := by decide +kernel

/-- Chapter 2's worked header: words 0 (above HCRC) and 1, and the image size. -/
theorem test_worked_header : ∃ h : Header, h = { (default : Header) with fmt := .bf16, rows := 4, cols := 4, scl := .none, spn := .dense } ∧
    h.word0 / 65536 = 0x1100_0402_0000_0000 / 65536 ∧ h.word1 = 0x0000_0020_0000_0000 ∧ h.word2 = 0 ∧ h.imageSize = 160 :=
  ⟨_, rfl, by decide +kernel⟩

/-- Chapter 3's quantisation example: the scale and the elements of 1.0, 0.3, −3.5 and 0.001, with INX. -/
theorem test_quantise_block : ∃ q, q = quantBlock (.flt .e4m3) .rne ([0x3F800000, 0x3E99999A, 0xC0600000, 0x3A83126F].map fp32 ++
      List.replicate 124 (fp32 0)) ∧ q.1 = 0x3C000000 ∧ q.2.1.take 4 = [0x70, 0x62, 0xFE, 0x20] :=
  ⟨_, rfl, by decide +kernel⟩

/-- R213: a frame of reference of width 4 over 100, and a delta from 7. -/
theorem test_decode_block : (decodeBlock 8 1 4 100 [0x21, 0x43, 0, 0]).toNat % 2 ^ 32 = 0x68676665 ∧
    (decodeBlock 8 2 8 7 [1, 2, 3, 255]).toNat % 2 ^ 32 = 0x0C0D0A08 := by decide +kernel

/-- R312's table: a victim about to end, POLD with 2,000 µs left, POLC, POLD, and POLK at a difference of 256 and of 255. -/
theorem test_preempt_rows : ∃ l : Nat → Launch, (l = fun ctl => { (default : Launch) with
      record := ((List.range 32).map (fun i => natBytes 8 (if i = 6 then ctl else 0))).flatten }) ∧
    choice (l 0x7000) 50 1 = (1, 0) ∧ choice (l 0x7000) 2000 1 = (2, 1) ∧ choice (l 0x7000) 2001 1 = (3, 2) ∧
    choice (l 0x5000) 2001 1 = (4, 1) ∧ choice (l 0x1000) 0 256 = (5, 3) ∧ choice (l 0x1000) 0 255 = (6, 0) :=
  ⟨_, rfl, by decide +kernel⟩

/-- Chapter 1's walk order: three levels, the first over dies, the second over cores; ordinal 17 is (1, 1, 1). -/
theorem test_walk_order : ∃ l : Launch, (l = { (default : Launch) with record := ((List.range 32).map (fun i => natBytes 8
      (if i = 6 then 3 else if i = 8 then 2 <<< 32 ||| 2 else if i = 9 then 1 <<< 32 ||| 3 else if i = 10 then 4 else 0))).flatten }) ∧
    l.units = 6 ∧ l.temporal = 4 ∧ (List.range 3).map (l.index 17) = [1, 1, 1] ∧ l.unitOf 17 = 4 :=
  ⟨_, rfl, by decide +kernel⟩

/-- Chapter 21: SCEINFO of the error in slice 1 of die 0 at 0x2_0400, owner 2, way 6. -/
theorem test_sceinfo : Claims.infoOf ⟨0x20400, true, 2, 6, 0, 0x408⟩ = 0xC098_0000_0000_0408 ∧ setOf 0x20400 = 0x408 + 0 * 512 := by
  decide +kernel

/-! ### Steps of single instructions -/

/-- A strand after one instruction. -/
def ran (s : State) (i : Instr) : Option Strand :=
  match exec i s with
  | .next t => some (t.strand 0)
  | _ => none

/-- Strand 0 at virtual address 0 with three scalars set. -/
def start (a b c : Word) : State :=
  ({ State.reset.withFetchWord 64 0 with cur := ⟨0, 8⟩ } : State).modStrand 0 (fun t => ((t.setS 10 a).setS 11 b).setS 9 c)

/-- The value of s9 after an instruction. -/
def s9 (s : State) (i : Instr) : Option Word := (ran s i).map (fun t => t.getS 9)

/-- R120 and R121: the one signed overflow, division by zero, a rotation by 64, and the high half of −1 · −1. -/
theorem test_arithmetic :
    s9 (start 0x8000000000000000 0xFFFFFFFFFFFFFFFF 0) (.div m0 9 10 11) = some 0x8000000000000000 ∧
    s9 (start 5 0 0) (.div m0 9 10 11) = some 0xFFFFFFFFFFFFFFFF ∧ s9 (start 5 0 0) (.remu m0 9 10 11) = some 5 ∧
    s9 (start 0x8000000000000001 64 0) (.rol m0 9 10 11) = some 0x8000000000000001 ∧
    s9 (start 0xFFFFFFFFFFFFFFFF 0xFFFFFFFFFFFFFFFF 0) (.mulh m0 9 10 11) = some 0 ∧
    s9 (start 0xFFFFFFFFFFFFFFF9 2 0) (.rem m0 9 10 11) = some 0xFFFFFFFFFFFFFFFF := by decide +kernel

/-- R122 to R125: counts of zero, a sign-extended immediate, a field extracted with its sign, an insertion, MOVI. -/
theorem test_immediates :
    s9 (start 0 0 0) (.clz m0 9 10) = some 64 ∧ s9 (start 0 0 0) (.ctz m0 9 10) = some 64 ∧
    s9 (start 0 0 0) (.addi m0 9 10 0xFFD) = some 0xFFFFFFFFFFFFFFFD ∧ s9 (start 0xF0 0 0) (.bfx m0 9 10 4 3) = some 0xFFFFFFFFFFFFFFFF ∧
    s9 (start 0xFFFFFFFFFFFFFFFF 0 0) (.bfi m0 9 10 11 8 7) = some 0xFFFFFFFFFFFF00FF ∧
    s9 (start 0 0 0) (.movi m0 9 0x20000) = some 0xFFFFFFFFFFFE0000 := by decide +kernel

/-- R119: s0 reads zero after a write, R98: a guard that fails writes nothing. -/
theorem test_s0_and_guards : ((ran (start 5 7 0) (.add m0 0 10 11)).map (fun t => t.getS 0)) = some 0 ∧
    s9 (start 5 7 3) (.add { m0 with ga := ⟨true, 0⟩ } 9 10 11) = some 3 := by decide +kernel

/-- Chapter 6: LOOPP writes lc and la, and goes past ENDL for a count of zero. -/
theorem test_loopp : ((ran (start 5 0 0) (.loopp m0 10 63 0x010)).map (fun t => (t.getS 61, t.getS 60, t.pc))) =
      some (0xFC00000000000005, 8, 8) ∧
    ((ran (start 0 0 0) (.loopp m0 10 63 0x010)).map (fun t => t.pc)) = some 0x28 := by decide +kernel

/-- R133: a branch of −1 granule, and CALLR to an odd address raises ALIGN (0x24) at level 2. -/
theorem test_branches : ((ran (start 0 0 0) (.br m0 0x3FFFF)).map (fun t => t.pc)) = some 0xFFFFFFFFFFFFFFFE ∧
    ((ran (start 3 0 0) (.callr m0 10)).map (fun t => (t.level, (t.trapRegs 2).cause, (t.trapRegs 2).addr))) = some (2, 0x24, 3) := by
  decide +kernel

/-- R144: SRD of CNTPOL at level 0 raises PRIV (0x03), SRD of LEASECTL reads its reset value. -/
theorem test_special : ((ran (start 0 0 0) (.srd m0 9 0x060)).map (fun t => (t.trapRegs 2).cause)) = some 0x03 ∧
    s9 (start 0 0 0) (.srd m0 9 0x051) = some 0x0000_1000_0100_0040 := by decide +kernel

/-- R78 and R90: TPICK 2 on the list a b c, and TSWAP of a single reference with LIMIT 0, DEPTH 1 and NEED 2. -/
theorem test_stack : ((ran ((start 0 0 0).modStrand 0 (fun t => { t with image := [1, 2, 3] })) (.tpick m0 2)).map (·.image)) = some [1, 2, 3, 1] ∧
    ((ran ((start 0 0 0).modStrand 0 (fun t => { t with image := [1] })) (.tswap m0)).map (fun t => ((t.trapRegs 2).cause, (t.trapRegs 2).info))) =
      some (0x08, 0x402) := by decide +kernel

/-- R112, step 7: MMA without a matrix array raises ENGINE_NOT_OWNED (0x04); with one it needs two references (STACK_UNDERFLOW). -/
theorem test_matrix_dispatch :
    ((ran { start 0 0 0 with mgmt := { (start 0 0 0).mgmt with layout := { (start 0 0 0).mgmt.layout with mats := List.replicate 64 0xFF } } }
      (.mma m0)).map (fun t => (t.trapRegs 2).cause)) = some 0x04 ∧
    ((ran (start 0 0 0) (.mma m0)).map (fun t => (t.trapRegs 2).cause)) = some 0x08 := by decide +kernel

/-- R221, R244: a doubleword stored and loaded through the class queue is bound from the strand's own view; R220: a misaligned one
raises ALIGN. -/
theorem test_memory : ((ran (start 0x104 0 0) (.ldd m0 ⟨0, 0⟩ 9 10 0 0)).map (fun t => ((t.trapRegs 2).cause, (t.trapRegs 2).addr))) =
      some (0x24, 0x104) ∧
    ((ran (start 0x100 0 0x1234) (.sth m0 ⟨3, 0⟩ 9 10 0 0xFFE)).map (fun t => t.cq.map (fun e => (e.classes, e.kind)))) =
      some [(8, .store (.glob 0x400000FE) [0x34, 0x12] none)] := by decide +kernel

/-- Chapter 9's AFADD: 1 + 1.5 · 2^−23 rounds to 0x3F80_0002. -/
theorem test_afadd : Claims.atomicLeaves 1 32 0x3F800000 0x34400000 0 = some 0x3F800002 := by decide +kernel

/-- R163, R58: a wrapped and a clamped INT8 sum of 127 and 1. -/
theorem test_vadd : ∃ t : Strand, t = { Strand.reset with v := (Strand.reset.v.set 1 127).set 2 1 } ∧
    ((vectorOp t (fun _ => 0) (.vadd m0 a0 3 1 2 .int8 0)).map (fun r => r.2.1.map (fun
      | .v r x => (r, x.toNat % 256)
      | _ => (0, 0)))) = some [(3, 128)] ∧
    ((vectorOp t (fun _ => 0) (.vadd m0 ⟨.rne, true, 0⟩ 3 1 2 .int8 0)).map (fun r => r.2.1.map (fun
      | .v r x => (r, x.toNat % 256)
      | _ => (0, 0)))) = some [(3, 127)] := ⟨_, rfl, by decide +kernel⟩

/-- decodeTableWord and withFetchWord: the first step after reset runs the placed instruction. -/
theorem test_fetch_and_step : (match step (State.reset.withFetchWord 64 0x0370_0000_0900_0005) with
    | .next t => ((t.strand 0).getS 9, (t.strand 0).pc)
    | _ => (0, 0)) = (5, 8) := by decide +kernel

/-! ### The state of the witnesses -/


/-- Strand 0 executes an instruction at virtual address 0 in context 1 of partition 0. -/
def base : State := { State.reset.withFetchWord 64 0 with cur := ⟨0, 8⟩ }

/-- `base` with strand 0's registers changed. -/
def acting (f : Strand → Strand) : State := base.modStrand 0 f

/-- `base` with its context changed. -/
def inContext (f : Ctx → Ctx) : State := { base with ctxs := [f fetchCtx] }

/-- `base` with its management core changed. -/
def managed (f : Mgmt → Mgmt) : State := { base with mgmt := f base.mgmt }

/-- Bytes at a physical address. -/
def poke (s : State) (a : Nat) (bs : List Byte) : State := { s with mem := Memory.writeN s.mem a bs }

/-- A strand with one entry in a queue. -/
def queued (q : Fin 4) (e : QEntry) (t : Strand) : Strand := { t with queues := t.queues.set q [e] }

/-- A launch record of 256 bytes from its words. -/
def recordOf (f : Nat → Nat) : List Byte := ((List.range 32).map (fun i => natBytes 8 (f (8 * i)))).flatten

/-- A running launch with one temporal level of extent 4 and one spatial level of extent 2, at virtual address 0x1000. -/
def aLaunch : Launch :=
  { (default : Launch) with
    addr := 0x1000, ctx := 1, state := 2, nextUnit := [2, 0, 0, 0],
    record := recordOf (fun o => if o = 0x30 then 2 else if o = 0x40 then 1 <<< 32 ||| 2 else if o = 0x48 then 4 else 0),
    assigns := [⟨0, 0, 0, false, false, false, none, [], 0, 0, none⟩] }

/-- Strand 0 in slot 0 of a launch. -/
def launched (l : Launch) (f : Strand → Strand) : State :=
  (acting (fun t => f { t with launch := some (0, 0) })).setSlot 0 0 (some l)

/-- An answer of success of which `f` holds. -/
def okAnd {ε α : Type} (x : Except ε α) (f : α → Bool) : Bool :=
  match x with
  | .ok a => f a
  | .error _ => false

/-- Four facts that are found together stand before the rest. -/
theorem four {a b c d e : Prop} (h : a ∧ b ∧ c ∧ d) (k : e) : a ∧ b ∧ c ∧ d ∧ e := ⟨h.1, h.2.1, h.2.2.1, h.2.2.2, k⟩

theorem ok_of {ε α : Type} {x : Except ε α} (f : α → Bool) (h : okAnd x f = true) : ∃ a, x = .ok a ∧ f a = true := by
  cases x with
  | ok a => exact ⟨a, rfl, h⟩
  | error e => cases h

/-- An answer of failure of which `f` holds. -/
def errorAnd {ε α : Type} (x : Except ε α) (f : ε → Bool) : Bool :=
  match x with
  | .ok _ => false
  | .error e => f e

theorem error_of {ε α : Type} {x : Except ε α} (f : ε → Bool) (h : errorAnd x f = true) : ∃ e, x = .error e ∧ f e = true := by
  cases x with
  | ok a => cases h
  | error e => exact ⟨e, rfl, h⟩

/-- A STATE that is logged, and of the state after which `f` holds. -/
def loggedAnd (x : Logged) (f : State → Bool) : Bool :=
  match x with
  | .ok s => f s
  | _ => false

theorem logged_of {x : Logged} (f : State → Bool) (h : loggedAnd x f = true) : ∃ s, x = .ok s ∧ f s = true := by
  cases x with
  | ok s => exact ⟨s, rfl, h⟩
  | _ => cases h

/-- An instruction without guards dispatches where no register waits. -/
theorem dispatches {s : State} (uses : List SReg) (hg : (mine s).holds m0 = true) (h : ∀ r, (mine s).busy r = false) :
    Dispatches m0 uses s := ⟨decide_eq_true (Nat.zero_le _), hg, fun r _ => h r⟩

/-- A log that is not enabled has room. -/
theorem room_off {r : LogRegs} (h : r.en = false) : HasRoom r := fun e => by rw [h] at e; cases e

theorem base_dispatches (uses : List SReg) : Dispatches m0 uses base :=
  dispatches uses (by decide +kernel) (by decide +kernel)

theorem base_settled : Settled base := by unfold Settled; decide +kernel

/-- An optional value that is there, and of which `f` holds. -/
def someAnd {α : Type} (x : Option α) (f : α → Bool) : Bool :=
  match x with
  | some a => f a
  | none => false

theorem some_of {α : Type} {x : Option α} (f : α → Bool) (h : someAnd x f = true) : ∃ a, x = some a ∧ f a = true := by
  cases x with
  | some a => exact ⟨a, rfl, h⟩
  | none => cases h

/-! ### Witnesses: control -/

theorem witness_RegisterFormsWriteTheirResult : ∃ s i m d uses x,
    registerForm (mine s) i = some (m, d, uses, x) ∧ Dispatches m uses s :=
  ⟨base, .add m0 9 10 11, m0, 9, [9, 10, 11], _, rfl, base_dispatches _⟩

theorem witness_ImmediateFormsWriteTheirResult : ∃ s i m d uses x,
    WellFormed i ∧ immediateForm (s.curCtx (me s)) (mine s) i = some (m, d, uses, x) ∧ Dispatches m uses s :=
  ⟨base, .shli m0 9 10 63, m0, 9, [9, 10], _, by unfold WellFormed; decide, rfl, base_dispatches _⟩

theorem witness_PredicateFormsWriteTheirTruth : ∃ s i m d uses x,
    predicateForm (mine s) i = some (m, d, uses, x) ∧ Dispatches m uses s :=
  ⟨base, .cmplt m0 0 10 11, m0, 0, [10, 11], _, rfl, base_dispatches _⟩

/-- Both answers of APCV, at the window's last offset and past it. -/
theorem witness_ApcvConvertsOrRaisesBounds :
    (WellFormed (.apcv m0 9 10 0) ∧ Dispatches m0 [9, 10] (acting (fun t => t.setS 10 0xFFFF)) ∧
      apcvResult ((acting (fun t => t.setS 10 0xFFFF)).curCtx 0) 0 0xFFFF = some 0xFFFF00000000FFFF) ∧
    apcvResult ((acting (fun t => t.setS 10 0x10000)).curCtx 0) 0 0x10000 = none ∧
    apcvResult (base.curCtx 0) 5 0xFFFDFFFFFFFFFFFF = some 0xFFFFFFFFFFFF ∧ apcvResult (base.curCtx 0) 5 0xFFFE000000000000 = none :=
  ⟨⟨by unfold WellFormed; decide, dispatches _ (by decide +kernel) (by decide +kernel), by decide +kernel⟩,
    by decide +kernel⟩

/-- A context with a handle table of one slot at virtual address 0x8000. -/
def withTable : State := inContext (fun c => { c with htlen := 1, htbase := 0x8000 })

/-- The same with a current handle in s10: generation 5, slot 0. -/
def withSlot : State := poke (withTable.modStrand 0 (fun t => t.setS 10 5)) 0x40008008 (leBytes 16 (1 <<< 64 ||| 1 <<< 32 ||| 5))

/-- The same with an uncorrectable error of memory in the slot's line. -/
def withError : State := { withSlot with mgmt := { withSlot.mgmt with errHbm := [(0x40008000, true)] } }

/-- The loads of a handle whose slot's line has an error wait for it. -/
theorem witness_handles_wait : ∃ e, Dispatches m0 [9, 10] withError ∧ (mine withError).class0Clear = true ∧
    ((mine withError).getS 10).toNat / 4096 % 2 ^ 20 < (withError.curCtx 0).htlen ∧
    (withError.dispatched 0 m0).loadWords 0 0x8000 32 = .error e ∧ e.cause = cHeld := by
  obtain ⟨e, h, hc⟩ := error_of (x := (withError.dispatched 0 m0).loadWords 0 0x8000 32) (fun e => e.cause == cHeld) (by decide +kernel)
  exact ⟨e, dispatches _ (by decide +kernel) (by decide +kernel), by decide +kernel, by decide +kernel, h, by simpa using hc⟩

/-- A slot beyond the table, a handle that is current and one that is not. -/
theorem witness_HandlesReadTheShapeRecord :
    (Dispatches m0 [9, 10] base ∧ (mine base).class0Clear = true ∧ (base.curCtx 0).htlen ≤ ((mine base).getS 10).toNat / 4096 % 2 ^ 20) ∧
    (∃ s w s', Dispatches m0 [9, 10] s ∧ (mine s).class0Clear = true ∧
      ((mine s).getS 10).toNat / 4096 % 2 ^ 20 < (s.curCtx 0).htlen ∧
      (s.dispatched (me s) m0).loadWords (me s) ((s.curCtx (me s)).htbase +
        BitVec.ofNat 64 (256 * (((mine s).getS 10).toNat / 4096 % 2 ^ 20))) 32 = .ok (w, s') ∧
      Shape.current w ((mine s).getS 10) = true) ∧
    ∃ s w s', Dispatches m0 [9, 10] s ∧ (mine s).class0Clear = true ∧
      ((mine s).getS 10).toNat / 4096 % 2 ^ 20 < (s.curCtx 0).htlen ∧
      (s.dispatched (me s) m0).loadWords (me s) ((s.curCtx (me s)).htbase +
        BitVec.ofNat 64 (256 * (((mine s).getS 10).toNat / 4096 % 2 ^ 20))) 32 = .ok (w, s') ∧
      Shape.current w ((mine s).getS 10) = false := by
  refine ⟨⟨base_dispatches _, by decide +kernel⟩, ?_, ?_⟩
  · obtain ⟨⟨w, s'⟩, hw, hc⟩ := ok_of (x := (withSlot.dispatched 0 m0).loadWords 0 0x8000 32)
        (fun x => Shape.current x.1 ((mine withSlot).getS 10)) (by decide +kernel)
    exact ⟨withSlot, w, s', dispatches _ (by decide +kernel) (by decide +kernel), by decide +kernel, by decide +kernel, hw, hc⟩
  · obtain ⟨⟨w, s'⟩, hw, hc⟩ := ok_of (x := (withTable.dispatched 0 m0).loadWords 0 0x8000 32)
        (fun x => !Shape.current x.1 ((mine withTable).getS 10)) (by decide +kernel)
    exact ⟨withTable, w, s', dispatches _ (by decide +kernel) (by decide +kernel), by decide +kernel, by decide +kernel, hw,
      by simpa using hc⟩

/-- A relative branch, an even target and an odd one. -/
theorem witness_BranchesGoToTheirTarget :
    (∃ x, branchForm (mine base) 8 (.call m0 0x3FFFF) = some (m0, [62], x, some 8)) ∧ isRelative (.call m0 0x3FFFF) = true ∧
    Dispatches m0 [10] (acting (fun t => t.setS 10 6)) ∧
    branchForm (mine (acting (fun t => t.setS 10 6))) 8 (.jmp m0 10) = some (m0, [10], 6, none) ∧
    branchForm (mine (acting (fun t => t.setS 10 7))) 8 (.jmp m0 10) = some (m0, [10], 7, none) :=
  ⟨⟨_, rfl⟩, rfl, dispatches _ (by decide +kernel) (by decide +kernel), by decide +kernel⟩

theorem witness_LoopsBeginAndCountDown :
    Dispatches m0 [10, 60, 61] base ∧ Dispatches m0 [60, 61] base ∧ (mine base).stop ≠ .drain ∧
    ∀ la : Word, la = 7 ∨ la = 8 → ∃ s, s = acting (fun t => (t.setS 61 2).setS 60 la) ∧
      2 ≤ ((mine s).getS 61).toNat % 2 ^ 48 ∧ ((mine s).getS 60).getLsbD 0 = la.getLsbD 0 :=
  ⟨base_dispatches _, base_dispatches _, by decide +kernel, fun la h => by
    rcases h with rfl | rfl
    · exact ⟨_, rfl, by decide +kernel⟩
    · exact ⟨_, rfl, by decide +kernel⟩⟩

/-! ### Witnesses: the walker, launches and traps -/

/-- NEXT in a handler, and where it falls through again, moves on, takes a granted unit, finds none and asks for one. -/
theorem witness_NextMovesOnAsksOrFallsThrough :
    (Dispatches m0 [] (acting (fun t => { t with level := 1 })) ∧ Settled (acting (fun t => { t with level := 1 })) ∧
      (mine (acting (fun t => { t with level := 1 }))).level ≠ 0) ∧
    (∀ f : Bool, NextRuns m0 (launched aLaunch (fun t => { t with fell := f, ordinal := 3 })) ∧
      (mine (launched aLaunch (fun t => { t with fell := f }))).launch = some (0, 0) ∧
      (launched aLaunch (fun t => { t with fell := f })).slot 0 0 = some aLaunch) ∧
    aLaunch.nextInUnit 0 = .ordinal 1 ∧ aLaunch.nextInUnit 3 = .unitEnd ∧ aLaunch.firstOfUnit 1 = .ordinal 4 ∧
    (aLaunch.modAssign 0 (fun a => { a with granted := some 1 })).assigns.map (·.granted) = [some 1] ∧
    (launched aLaunch id).nextUnitFor 0 aLaunch 0 = none ∧
    (launched { aLaunch with nextUnit := [1, 0, 0, 0] } id).nextUnitFor 0 { aLaunch with nextUnit := [1, 0, 0, 0] } 0 = some 1 := by
  refine ⟨⟨dispatches _ (by decide +kernel) (by decide +kernel), by unfold Settled; decide +kernel, by decide +kernel⟩, fun f => ?_,
    by decide +kernel⟩
  cases f <;>
  exact ⟨⟨dispatches _ (by decide +kernel) (by decide +kernel), by unfold Settled; decide +kernel, by decide +kernel,
    by decide +kernel, ⟨room_off (by decide +kernel), by decide +kernel⟩⟩, by decide +kernel⟩

/-- LNCH of a misaligned record, of one in a window, of one that finds the queue full or stores behind, and of one that is
taken. -/
theorem witness_LnchHandsTheRecordOver :
    (Dispatches m0 [10] base ∧ Settled base) ∧
    (acting (fun t => t.setS 10 0x1020)).curCtx 0 = fetchCtx ∧ ((mine (acting (fun t => t.setS 10 0x1020))).getS 10).toNat % 64 ≠ 0 ∧
    fetchCtx.region 0xFFFF000000000000 ≠ .none ∧ fetchCtx.region 0x1000 = .none ∧ inBacking 0x1000 = false ∧
    (∃ pa, (base.dispatched 0 m0).translate (mine base).tlb (base.curCtx 0) .read 0x1000 = .ok pa) ∧
    base.storesPerformed 0 = true ∧ (base.part (base.curCtx 0).part).queue.length < 16 ∧
    ((base.modPart 0 (fun x => { x with queue := List.replicate 16 aLaunch })).part 0).queue.length = 16 ∧
    ∃ copy, (base.dispatched 0 m0).loadBytesVa (base.curCtx 0) 0x1000 256 = .ok copy := by
  refine ⟨⟨base_dispatches _, base_settled⟩, four (by decide +kernel) ⟨by decide +kernel, ?_, by decide +kernel, by decide +kernel,
    by decide +kernel, ?_⟩⟩
  · obtain ⟨r, h, _⟩ := ok_of (x := (base.dispatched 0 m0).translate (mine base).tlb (base.curCtx 0) .read 0x1000)
      (fun _ => true) (by decide +kernel)
    exact ⟨r, h⟩
  · obtain ⟨r, h, _⟩ := ok_of (x := (base.dispatched 0 m0).loadBytesVa (base.curCtx 0) 0x1000 256)
      (fun _ => true) (by decide +kernel)
    exact ⟨r, h⟩

/-- A word that differs (s11 is 1) and one that does not. -/
theorem witness_WaitEndsWhenTheWordDiffers :
    (∃ l e, Dispatches m0 [9, 10, 11] (acting (fun t => (t.setS 10 0x1000).setS 11 1)) ∧
      Settled (acting (fun t => (t.setS 10 0x1000).setS 11 1)) ∧ MoFree (acting (fun t => (t.setS 10 0x1000).setS 11 1)) ∧
      ((acting (fun t => (t.setS 10 0x1000).setS 11 1)).curCtx 0).region 0x1000 ≠ .core ∧
      ((acting (fun t => (t.setS 10 0x1000).setS 11 1)).dispatched 0 m0).access 0 .read 8 0x1000 = .ok (l, e) ∧
      ((acting (fun t => (t.setS 10 0x1000).setS 11 1)).dispatched 0 m0).readChecks 0 8 0x1000 l e = none ∧
      (acting (fun t => (t.setS 10 0x1000).setS 11 1)).syncBusy l = false ∧
      (acting (fun t => (t.setS 10 0x1000).setS 11 1)).loadFirst 0 l = true ∧
      ((acting (fun t => (t.setS 10 0x1000).setS 11 1)).dispatched 0 m0).blocked l = false) ∧
    word (bytesNat ((base.dispatched 0 m0).bindLoad 0 0 false (.glob 0x40001000) 8).1) = 0 := by
  refine ⟨?_, by decide +kernel⟩
  obtain ⟨⟨l, e⟩, h, hc⟩ := ok_of (x := ((acting (fun t => (t.setS 10 0x1000).setS 11 1)).dispatched 0 m0).access 0 .read 8 0x1000)
    (fun x => (acting (fun t => (t.setS 10 0x1000).setS 11 1)).loadFirst 0 x.1 &&
      (((acting (fun t => (t.setS 10 0x1000).setS 11 1)).dispatched 0 m0).readChecks 0 8 0x1000 x.1 x.2).isNone &&
      !(acting (fun t => (t.setS 10 0x1000).setS 11 1)).syncBusy x.1 && !((acting (fun t => (t.setS 10 0x1000).setS 11 1)).dispatched 0 m0).blocked x.1) (by decide +kernel)
  simp only [Bool.and_eq_true, Bool.not_eq_true', Option.isNone_iff_eq_none] at hc
  exact ⟨l, e, dispatches _ (by decide +kernel) (by decide +kernel), by unfold Settled; decide +kernel,
    ⟨room_off (by decide +kernel), by decide +kernel⟩, by decide +kernel, h, hc.1.1.2, hc.1.2, hc.1.1.1, hc.2⟩

/-- A delegated TRAP and one that is not, and a strand with TLOCK set and one at level 2. -/
theorem witness_TrapsEnterTheirLevel :
    (Dispatches m0 [] base ∧ (mine base).idle = true ∧ base.ctxOf (me base) = some fetchCtx ∧ (mine base).tlock = false ∧
      (mine base).level.val ≤ 1 ∧ ¬ Delegated fetchCtx (mine base) 0x39) ∧
    Delegated { fetchCtx with tdeleg := 0x8000 } (mine base) 0x39 ∧
    (∃ b : Strand, b = { mine base with tlock := true } ∧ b.idle = true ∧ b.tlock = true) ∧
    ∃ b : Strand, b = { mine base with level := 2 } ∧ b.idle = true ∧ b.tlock = false ∧ b.level = 2 := by
  refine ⟨⟨base_dispatches _, by decide +kernel, by decide +kernel, by decide +kernel, by decide +kernel, fun h => ?_⟩,
    ⟨by decide +kernel, 15, by decide, by decide⟩, ⟨_, rfl, by decide +kernel, rfl⟩, ⟨_, rfl, by decide +kernel, by decide +kernel, rfl⟩⟩
  obtain ⟨_, b, _, hb⟩ := h
  rw [show fetchCtx.tdeleg = 0#64 from rfl] at hb
  simp at hb

theorem witness_TrapAndBrkEnterTheirHandler :
    (Dispatches m0 [] base ∧ (mine base).idle = true ∧ base.ctxOf (me base) = some fetchCtx ∧ (mine base).tlock = false ∧
      (mine base).level.val ≤ 1) ∧
    Delegated { fetchCtx with tdeleg := 0x8000 } (mine base) 0x39 ∧ Delegated { fetchCtx with tdeleg := 0x4000 } (mine base) 0x38 :=
  ⟨⟨base_dispatches _, by decide +kernel⟩,
    ⟨by decide +kernel, 15, by decide, by decide⟩, ⟨by decide +kernel, 14, by decide, by decide⟩⟩

theorem witness_TackAndEretLeaveTheHandler :
    (Dispatches m0 [] base ∧ Settled base ∧ (mine base).level = 0) ∧
    (∃ s : State, s = acting (fun t => { t with level := 2, pend := [⟨1, 0, [], 0, true⟩] }) ∧ Dispatches m0 [] s ∧ Settled s ∧
      (mine s).level ≠ 0 ∧ ((mine s).trapRegs (mine s).level.val).cause.toNat / 256 % 4 < (mine s).level.val ∧ (mine s).pend ≠ []) ∧
    ∃ s : State, s = acting (fun t => { t with level := 2 }) ∧ Dispatches m0 [] s ∧ Settled s ∧ (mine s).level ≠ 0 ∧
      ((mine s).trapRegs (mine s).level.val).cause.toNat / 256 % 4 < (mine s).level.val ∧ (mine s).idle = true ∧
      (mine s).pend = [] :=
  ⟨⟨base_dispatches _, base_settled, by decide +kernel⟩, ⟨_, rfl, dispatches _ (by decide +kernel) (by decide +kernel),
    by unfold Settled; decide +kernel, by decide +kernel⟩,
    _, rfl, dispatches _ (by decide +kernel) (by decide +kernel),
    by unfold Settled; decide +kernel, by decide +kernel⟩

/-- A strand with a tile open, and one whose last NEXT did not fall through, in the last iteration of its unit. -/
theorem witness_HaltFreesTheStrand :
    (∃ s o, s = acting (fun t => { queued 3 { (default : QEntry) with holds := true } t with nseq := 1, openId := some 7, openTile := some default }) ∧
      Dispatches m0 [] s ∧ (mine s).run = .running ∧ (mine s).passedBefore (mine s).nseq = false ∧
      (mine s).openId.isSome = true ∧ (mine s).openTile = some o ∧ ∀ e ∈ (mine s).queue .V, e.stage = .done) ∧
    ∃ s : State, s = launched aLaunch (fun t => { t with ordinal := 3 }) ∧
    Dispatches m0 [] s ∧ (mine s).run = .running ∧ (mine s).openId = none ∧ (mine s).idle = true ∧ (mine s).pend = [] ∧ (mine s).valuesIn = true ∧
    (mine s).cmoWaits = false ∧ (mine s).launch = some (0, 0) ∧ s.slot 0 0 = some aLaunch ∧
    aLaunch.assign? 0 = some ⟨0, 0, 0, false, false, false, none, [], 0, 0, none⟩ :=
  ⟨⟨_, default, rfl, dispatches _ (by decide +kernel) (by decide +kernel), by decide +kernel⟩,
    _, rfl, dispatches _ (by decide +kernel) (by decide +kernel), by decide +kernel⟩

/-! ### Witnesses: special registers, locks and user records -/

theorem witness_SrdReturnsTheRegister :
    Dispatches m0 [9] base ∧ levelNeeded (.srd m0 9 0x08D) ≤ (mine base).level.val ∧ srdValue base 0x08D = some 1 ∧
    (mine base).flagsIn = true ∧ (mine (acting (queued 2 default))).flagsIn = false ∧
    (∃ e ∈ (mine (acting (queued 0 default))).queue .L, e.stage = .waiting) ∧ ∀ e ∈ (mine base).queue .L, e.stage ≠ .waiting :=
  ⟨base_dispatches _, by decide +kernel⟩

/-- CNTPOL read at level 0, and the read-only FVER written at level 3. -/
theorem witness_SpecialRegistersCheckTheLevel :
    (mine base).spaced 0 (Instr.mods (.srd m0 9 0x060)) = true ∧ (mine base).level.val < levelNeeded (.srd m0 9 0x060) ∧
    ∃ s, s = acting (fun t => { t with level := 3 }) ∧ swrSource (.swr m0 0x000 9) = some 9 ∧
      (mine s).level.val < levelNeeded (.swr m0 0x000 9) :=
  ⟨by decide +kernel, by decide +kernel, _, rfl, rfl, by decide +kernel⟩

theorem witness_SwrWritesTheStrandsRegister : ∃ s b, s = acting (fun t => { t with level := 2 }) ∧
    swrStrand (mine s) (.swrLeasectl m0 9) = some (m0, 9, 2, b) ∧ Dispatches m0 [9] s ∧ Settled s ∧ 2 ≤ (mine s).level.val ∧
    (mine s).flagsIn = true ∧ (∀ e ∈ (mine s).queue .L, e.stage ≠ .waiting) ∧ b.leasectl = 0x0000_0800_0001_0001 :=
  ⟨_, _, rfl, rfl, dispatches _ (by decide +kernel) (by decide +kernel), by unfold Settled; decide +kernel, by decide +kernel⟩

/-- ROLE 2 and 3; a QCAP that the pool accepts, all caps 1,023, and one it does not, a cap of 15 below the minimum of 16. -/
theorem witness_SwrOfRoleAndPoolChecks :
    (Dispatches m0 [9] base ∧ Settled base ∧ ((mine base).getS 9).toNat % 4 ≠ 3) ∧
    ((mine (acting (fun t => t.setS 9 3))).getS 9).toNat % 4 = 3 ∧
    (2 ≤ (mine (acting (fun t => { t with level := 2 }))).level.val) ∧
    (∀ q < 4, poolOf qminReset q ≤ poolOf (poolWritten true 0xFFFFFFFFFFF) q) ∧
    ¬ ∀ q < 4, poolOf qminReset q ≤ poolOf (poolWritten true 0xF) q :=
  ⟨⟨base_dispatches _, base_settled, by decide +kernel⟩, by decide +kernel⟩

theorem witness_SwrWritesContextAndPolicy :
    (∃ s b, s = acting (fun t => { t with level := 2 }) ∧ s.ctxOf (me s) = some fetchCtx ∧ swrSource (.swrOrdmode m0 9) = some 9 ∧
      swrContext ((mine s).getS 9) fetchCtx (.swrOrdmode m0 9) = some (m0, 9, 2, b) ∧ Dispatches m0 [9] s ∧ Settled s ∧
      2 ≤ (mine s).level.val) ∧
    ∃ s, s = acting (fun t => { t with level := 3 }) ∧ Dispatches m0 [9] s ∧ Settled s ∧ (mine s).level = 3 :=
  ⟨⟨_, _, rfl, by decide +kernel, rfl, rfl, dispatches _ (by decide +kernel) (by decide +kernel),
      by unfold Settled; decide +kernel, by decide +kernel⟩,
    _, rfl, dispatches _ (by decide +kernel) (by decide +kernel), by unfold Settled; decide +kernel, by decide +kernel⟩

/-- The level at which a log moves, and the first and the last of the registers that move none. -/
theorem witness_LogsMoveOnlyWhenFull : ∃ s, s = acting (fun t => { t with level := 2 }) ∧ Dispatches m0 [9] s ∧ Settled s ∧
    2 ≤ (mine s).level.val ∧ (0x031 : BitVec 12) ∈ ([0x031, 0x032, 0x035, 0x036] : List (BitVec 12)) ∧
    (0x036 : BitVec 12) ∈ ([0x031, 0x032, 0x035, 0x036] : List (BitVec 12)) :=
  ⟨_, rfl, dispatches _ (by decide +kernel) (by decide +kernel), by unfold Settled; decide +kernel, by decide +kernel⟩

/-- An empty range, the last byte of the address space, and a range that passes it by one byte; every line of a range may be
fetched. -/
theorem witness_LocksCountTheRangesLines :
    (Dispatches m0 [9, 10, 11] base ∧ Settled base ∧ (mine base).getS 11 = 0) ∧
    (∃ x y : Word, y ≠ 0 ∧ x.toNat + y.toNat = 2 ^ 64) ∧ (∃ x y : Word, y ≠ 0 ∧ 2 ^ 64 < x.toNat + y.toNat) ∧
    inBacking (BitVec.ofNat 64 ((0x80000000000000 : Word).toNat / 128 * 128)) = true ∧
    ∀ l ∈ linesOf 0x7F 2, inBacking (BitVec.ofNat 64 l) = false ∧ ∃ pa e,
      base.translate (mine base).tlb (base.curCtx (me base)) .exec (BitVec.ofNat 64 l) = .ok (pa, e) ∧ base.lineDue pa = false := by
  refine ⟨⟨base_dispatches _, base_settled, by decide +kernel⟩, ⟨0xFFFFFFFFFFFFFFFF, 1, by decide, by decide⟩,
    ⟨0xFFFFFFFFFFFFFFFF, 2, by decide, by decide⟩, by decide +kernel, fun l hl => ?_⟩
  rw [show linesOf 0x7F 2 = [0, 128] from rfl] at hl
  have h : ∀ l ∈ [0, 128], okAnd (base.translate (mine base).tlb (base.curCtx (me base)) .exec (BitVec.ofNat 64 l))
      (fun r => !base.lineDue r.1) = true ∧ inBacking (BitVec.ofNat 64 l) = false := by decide +kernel
  obtain ⟨⟨pa, e⟩, hr, hb⟩ := ok_of _ (h l hl).1
  exact ⟨(h l hl).2, pa, e, hr, by simpa using hb⟩

/-- A log that is off, one with room for exactly one more record, and one with none. -/
theorem witness_LogwAppendsAUserRecord :
    (Dispatches m0 [9, 10] base ∧ Settled base ∧ (base.part 0).sched.rpl = false ∧ (base.part 0).sched.en = false) ∧
    (∃ r : LogRegs, r = ⟨true, false, 0x10000, 0, 0x10FE0, false, 0x11000⟩ ∧ r.en = true ∧ r.full = false ∧
      r.ptr.toNat + 32 = r.lim) ∧
    ∃ r : LogRegs, r = ⟨true, false, 0x10000, 0, 0x11000, false, 0x11000⟩ ∧ r.en = true ∧ r.lim < r.ptr.toNat + 32 :=
  ⟨⟨base_dispatches _, base_settled, by decide +kernel⟩, ⟨_, rfl, rfl, rfl, by decide⟩, _, rfl, rfl, by decide⟩

/-- A word with spacing 3 that has not passed, and a guard that fails. -/
theorem witness_GuardFalseInstructionsAndNopPass : (∃ m : Mods, m = { m0 with ga := ⟨true, 0⟩ } ∧
    guardedFields (.halt m) = some m ∧ m.sc.toNat ≤ (mine base).gaps[0] ∧ Unrefused base (.halt m) ∧ (mine base).holds m = false) ∧
    (∃ m : Mods, m = { m0 with ga := ⟨true, 0⟩ } ∧ Unrefused base (.hget m 9 10 15) ∧ Unrefused base (.bar m 1)) ∧
    ∃ m : Mods, m = { m0 with sc := 3 } ∧ guardedFields (.nop m) = some m ∧
      (mine (acting (fun t => { t with gaps := Vector.replicate 4 2 }))).gaps[0] < m.sc.toNat :=
  ⟨⟨_, rfl, rfl, by decide +kernel, ⟨by decide +kernel, (by intro _ _ _ _ h; cases h), (by intro _ _ h; cases h)⟩, by decide +kernel⟩,
    ⟨_, rfl, ⟨by decide +kernel, (by intro _ _ _ _ h; cases h; decide), (by intro _ _ h; cases h)⟩,
      ⟨by decide +kernel, (by intro _ _ _ _ h; cases h), (by intro _ _ h; cases h; decide +kernel)⟩⟩, _, rfl, rfl, by decide +kernel⟩

/-! ### Witnesses: memory instructions and the ordering machine -/

theorem witness_MisalignedAccessesRaiseAlign : ∃ s i m uses a n c, accessForm (mine s) i = some (m, uses, a, n) ∧
    Dispatches m uses s ∧ s.ctxOf (me s) = some c ∧ a.toNat % n ≠ 0 :=
  ⟨base, .ldd m0 ⟨0, 0⟩ 9 10 0 7, m0, [9, 10, 0], _, 8, fetchCtx, rfl, base_dispatches _, by decide +kernel⟩

/-- The last doubleword of a page, loaded and stored. -/
theorem witness_LoadsAndStoresEnterTheirClass :
    (∃ l e, loadForm (.ldd m0 ⟨15, 0⟩ 9 10 0 0x7F8) = some (m0, 15, 9, 10, 0, 0x7F8, 8, true) ∧ Dispatches m0 [9, 10, 0] base ∧
      (counted base m0).access (me base) .read 8 (scaled ((mine base).getS 10) ((mine base).getS 0) 8 0x7F8) = .ok (l, e) ∧
      readFault (mine base).permit (scaled ((mine base).getS 10) ((mine base).getS 0) 8 0x7F8) 8 = none ∧
      (counted base m0).entryBad l e = false ∧ (mine base).logFull = false) ∧
    ∃ l e x, storeForm (.stb m0 ⟨0, 0⟩ 9 10 0 0x7FF) = some (m0, 0, 9, 10, 0, 0x7FF, 1) ∧ Dispatches m0 [9, 10, 0] base ∧
      x = scaled ((mine base).getS 10) ((mine base).getS 0) 1 0x7FF ∧
      (counted base m0).access (me base) .write 1 x = .ok (l, e) ∧ writeFault (mine base).permit x 1 = none ∧
      (counted base m0).wantsEntry l e = none ∧
      ∀ k < 1, writeVerdict (mine base).permit (x + BitVec.ofNat 64 k) = .write := by
  constructor
  · obtain ⟨⟨l, e⟩, h, hc⟩ := ok_of (x := (counted base m0).access (me base) .read 8
      (scaled ((mine base).getS 10) ((mine base).getS 0) 8 0x7F8)) (fun x => !(counted base m0).entryBad x.1 x.2) (by decide +kernel)
    exact ⟨l, e, rfl, base_dispatches _, h, by decide +kernel, by simpa using hc, by decide +kernel⟩
  · obtain ⟨⟨l, e⟩, h, hc⟩ := ok_of (x := (counted base m0).access (me base) .write 1
      (scaled ((mine base).getS 10) ((mine base).getS 0) 1 0x7FF)) (fun x => (counted base m0).wantsEntry x.1 x.2 == none)
      (by decide +kernel)
    exact ⟨l, e, _, rfl, base_dispatches _, rfl, h, by decide +kernel, by simpa using hc, by decide +kernel⟩

theorem base_moFree : MoFree base := ⟨room_off (by decide +kernel), by decide +kernel⟩

theorem witness_AcquiresAndReleasesEnterTheirClass :
    (∃ l e, syncForm (.ldaqd m0 0 9 10 .package) = some (false, m0, 0, 9, 10, .package, 8) ∧ Dispatches m0 [9, 10] base ∧
      MoFree base ∧ (mine base).logFull = false ∧ readFault (mine base).permit ((mine base).getS 10) 8 = none ∧
      (counted base m0).access (me base) .read 8 ((mine base).getS 10) = .ok (l, e) ∧ (counted base m0).entryBad l e = false) ∧
    ∃ l e, syncForm (.strlw m0 0 9 10 .pod) = some (true, m0, 0, 9, 10, .pod, 4) ∧
      (counted base m0).access (me base) .write 4 ((mine base).getS 10) = .ok (l, e) ∧ (counted base m0).wantsEntry l e = none ∧
      ∀ k < 4, writeVerdict (mine base).permit ((mine base).getS 10 + BitVec.ofNat 64 k) = .write := by
  constructor
  · obtain ⟨⟨l, e⟩, h, hc⟩ := ok_of (x := (counted base m0).access (me base) .read 8 ((mine base).getS 10))
      (fun x => !(counted base m0).entryBad x.1 x.2) (by decide +kernel)
    exact ⟨l, e, rfl, base_dispatches _, base_moFree, by decide +kernel, by decide +kernel, h, by simpa using hc⟩
  · obtain ⟨⟨l, e⟩, h, hc⟩ := ok_of (x := (counted base m0).access (me base) .write 4 ((mine base).getS 10))
      (fun x => (counted base m0).wantsEntry x.1 x.2 == none) (by decide +kernel)
    exact ⟨l, e, rfl, h, by simpa using hc, by decide +kernel⟩

/-- Fixed-order mode with an ordered page at virtual address 0. -/
def ordered : State := poke (inContext (fun c => { c with ordmode := true })) 0x3000 (leBytes 8 0x4000005F)

/-- An unordered atomic, and an ordered one with the last number of its iteration and with none left. -/
theorem witness_AtomicsEnterTheirClass :
    (∃ l e, atomicForm (.aadd m0 ⟨0, .acqrel⟩ 9 10 11 true .die) = some (0, m0, ⟨0, .acqrel⟩, 9, 10, 11, 0, true, .die) ∧
      Dispatches m0 [9, 10, 11, 0] base ∧ MoFree base ∧ (mine base).logFull = false ∧
      (counted base m0).access (me base) .write 8 ((mine base).getS 10) = .ok (l, e) ∧
      atomFault (mine base).permit ((mine base).getS 10) 8 = none ∧ (counted base m0).wantsEntry l e = none ∧
      (base.curCtx (me base)).ordmode = false) ∧
    (∃ pa e, (ordered.curCtx 0).ordmode = true ∧
      (counted ordered m0).access 0 .write 8 ((mine ordered).getS 10) = .ok (.glob pa, some e) ∧ e.ord = true) ∧
    (mine (ordered.modStrand 0 (fun t => { t with atomJ := 2 ^ 32 - 1 }))).atomJ < 2 ^ 32 ∧
    2 ^ 32 ≤ (mine (ordered.modStrand 0 (fun t => { t with atomJ := 2 ^ 32 }))).atomJ := by
  refine ⟨?_, ?_, by decide +kernel⟩
  · obtain ⟨⟨l, e⟩, h, hc⟩ := ok_of (x := (counted base m0).access (me base) .write 8 ((mine base).getS 10))
      (fun x => (counted base m0).wantsEntry x.1 x.2 == none) (by decide +kernel)
    exact ⟨l, e, rfl, base_dispatches _, base_moFree, by decide +kernel, h, by decide +kernel, by simpa using hc, by decide +kernel⟩
  · obtain ⟨⟨l, e⟩, h, hc⟩ := ok_of (x := (counted ordered m0).access 0 .write 8 ((mine ordered).getS 10))
      (fun x => match x with
        | (.glob _, some e) => e.ord
        | _ => false) (by decide +kernel)
    cases l with
    | glob pa => cases e with
      | some e => exact ⟨pa, e, by decide +kernel, h, hc⟩
      | none => cases hc
    | fab _ _ => cases hc
    | scratch _ _ => cases hc
    | loc _ => cases hc

/-- A MEMB that omits core 0, one that names it alone, and CMO ranges: empty, in a window, in memory, and one byte too long. -/
theorem witness_FenceCmoAndBarTakeTheirPlace :
    (Dispatches m0 [] base ∧ MoFree base) ∧ Dispatches m0 [10, 11] base ∧
    fetchCtx.rangeRegion 0xFFFF000000000000 128 = .ok .core ∧ fetchCtx.rangeRegion 0x80 1 = .ok .none ∧
    (counted base m0).cmoFault 0 fetchCtx .write 0x80 1 = none ∧ (2 ^ 30 < (0x40000001 : Word).toNat) ∧
    (2 : BitVec 12).getLsbD ((me base).val % 4) = false ∧ base.barOk (me base) 1 = true ∧ (mine base).spaced 0 m0 = true ∧
    (mine base).barLog = none ∧ (mine base).barReady true = true ∧
    ∃ t, t = mine (acting (fun t => { t with cq := [default], barLog := some none })) ∧ t.barLog ≠ none ∧ t.barReady false = false :=
  ⟨⟨base_dispatches _, base_moFree⟩, base_dispatches _, rfl, rfl, by decide +kernel, by decide, by decide, by decide +kernel, rfl, rfl,
    by decide +kernel, _, rfl, by decide +kernel⟩

/-- The load, store and atomic at the head of class 0. -/
def entry (k : CqKind) : CqEntry := ⟨5, 0, 1, k, none, 0, 0, false, none⟩

theorem witness_BindDeliversTheLoadsValue : ∃ s, s = acting (fun t => { t with cq := [entry (.load (.glob 0x40000000) 8 true 9 (some .pod))] }) ∧
    (s.strand 0).head? 0 = some (entry (.load (.glob 0x40000000) 8 true 9 (some .pod))) ∧ s.acquireBefore 0 5 = false ∧
    (s.strand 0).atomBefore 5 (.glob 0x40000000) 8 = false ∧ s.syncBusy (.glob 0x40000000) = false ∧
    s.blocked (.glob 0x40000000) = false :=
  ⟨_, rfl, by decide +kernel⟩

/-- A write of eight bytes at the start of a line, and a release. -/
def aWrite : Write := ⟨0, 5, 0, 0, .glob 0x40000000, List.replicate 8 1, none, true⟩

/-- The same write to another place. -/
def writeAt (l : Loc) : Write := { aWrite with loc := l }

/-- A release in its queue, one that suppresses a byte of its launch's, and a write of each space in the issue buffer. -/
theorem witness_LeaveAndPushMoveAStore :
    (∃ s, s = acting (fun t => { t with cq := [entry (.store (.glob 0x40000000) [1] (some .package))] }) ∧
      (s.strand 0).head? 0 = some (entry (.store (.glob 0x40000000) [1] (some .package))) ∧
      s.performed 0 5 (BitVec.allOnes 16) .package = true ∧ s.acquireBefore 0 5 = false ∧ (s.strand 0).passedBefore 5 = true) ∧
    (∃ s e, e = { entry (.store (.glob 0x40000000) [] none) with supp := some ((0, 0), 1) } ∧
      s = launched aLaunch (fun t => { t with cq := [e] }) ∧ (s.strand 0).head? 0 = some e ∧ s.acquireBefore 0 5 = false ∧
      (s.strand 0).passedBefore 5 = true ∧ s.slot 0 0 = some aLaunch) ∧
    (∀ l ∈ [Loc.glob 0x40000000, .fab 0x1000 none, .scratch 0 0xFFF8, .loc 1 0], ∃ s, s = acting (fun t => { t with ib := [writeAt l] }) ∧
      (s.strand 0).ib.find? (fun x => x.cls == 0) = some (writeAt l)) ∧
    Takeable base 0 (.scratch 0 0xFFF8) 8 ∧ Takeable base 0 (.loc 1 0) 8 := by
  refine ⟨⟨_, rfl, by decide +kernel⟩, ⟨_, _, rfl, rfl, by decide +kernel⟩, fun l hl => ⟨_, rfl, ?_⟩, ?_, ?_⟩
  · revert l; decide +kernel
  · unfold Takeable; decide +kernel
  · unfold Takeable; decide +kernel

/-- A release to the line of global memory, and a write of each other space, in the transit or the buffer. -/
theorem witness_CommitMakesTheBytesCoherent :
    (∃ s, s = base.modPod 0 (fun p => { p with pb := [aWrite] }) ∧ s.commitNext 0 0 = some aWrite ∧ s.syncBusy aWrite.loc = false ∧
      s.blocked aWrite.loc = false ∧ Takeable s 0 aWrite.loc 8) ∧
    (∃ s : State, s = { base with ft := [writeAt (.fab 0x1000 none)] } ∧ s.commitNext 0 0 = some (writeAt (.fab 0x1000 none)) ∧
      s.blocked (.fab 0x1000 none) = false ∧ Takeable s 0 (.fab 0x1000 none) 8) ∧
    ∃ s : State, s = { base with ft := [writeAt (.fab 0x1000 (some 0x40000000))] } ∧
      s.commitNext 0 0 = some (writeAt (.fab 0x1000 (some 0x40000000))) ∧ s.syncBusy (.fab 0x1000 (some 0x40000000)) = false ∧
      s.blocked (.fab 0x1000 (some 0x40000000)) = false ∧ Takeable s 0 (.fab 0x1000 (some 0x40000000)) 8 :=
  ⟨⟨_, rfl, by decide +kernel, by decide +kernel, by decide +kernel, by decide, .inr (by decide +kernel)⟩,
    ⟨_, rfl, by decide +kernel, by decide +kernel, by unfold Takeable; decide +kernel⟩,
    _, rfl, by decide +kernel, by decide +kernel, by decide +kernel, by decide, .inr (by decide +kernel)⟩

/-- An ordered entry of a launch's first iteration, a release. -/
def anOrdered : OEntry := ⟨0, 0, 0, 0, 0, 0, 0, 0, true, 0x40000000, 1, none, some .pod, none⟩

/-- An atomic of a global place at a line's end, one of each other space, and an ordered entry. -/
theorem witness_AtomicsReadAndWriteInOneStep :
    (∀ l ∈ [Loc.glob 0x4000007C, .fab 0x1000 none, .scratch 0 0xFFFC, .loc 1 0], ∃ s,
      s = acting (fun t => { t with cq := [entry (.atom 7 l false 1 0 9 none (some .pod) false)] }) ∧
      (s.strand 0).head? 0 = some (entry (.atom 7 l false 1 0 9 none (some .pod) false)) ∧
      s.performed 0 5 (BitVec.allOnes 16) .pod = true ∧ s.syncBusy l = false ∧ (s.strand 0).passedBefore 5 = true ∧
      s.acquireBefore 0 5 = false ∧ s.atomClear 0 5 0 = true ∧ s.blocked l = false) ∧
    (Takeable base 0 (.glob 0x4000007C) 4 ∧ Takeable base 0 (.fab 0x1000 none) 4 ∧ Takeable base 0 (.scratch 0 0xFFFC) 4 ∧
      Takeable base 0 (.loc 1 0) 4) ∧
    ∃ s, s = { launched aLaunch id with orbuf := [anOrdered] } ∧ s.applicable 0x40000000 = some anOrdered ∧
      s.performed 0 0 (BitVec.allOnes 16) .pod = true ∧ s.syncBusy (.glob 0x40000000) = false ∧
      s.blocked (.glob 0x40000000) = false ∧ Held s 0x40000000 := by
  refine ⟨fun l hl => ⟨_, rfl, ?_⟩, ⟨⟨by decide, .inr (by decide +kernel)⟩, ?_⟩,
    _, rfl, by decide +kernel, by decide +kernel, by decide +kernel, by decide +kernel, .inr (by decide +kernel)⟩
  · revert l; decide +kernel
  · unfold Takeable; decide +kernel

/-- A dirty line of the shared cache. -/
def aLine : ScLine := ⟨0x40000000, 0, 0, true, List.replicate 128 1, false, false⟩

theorem witness_FillDropAndEvictKeepMemory :
    (LineRef.exists? base 0 (.phys 0x40000000) = true ∧ base.ownWriteAway 0 (.phys 0x40000000) = false ∧ base.blocked (LineRef.loc (.phys 0x40000000)) = false) ∧
    ∃ s, s = { base with sc := [aLine] } ∧ s.scLine? 0x40000000 = some aLine ∧ s.tagBad aLine.pa = false ∧ Memory.wf s.mem = true ∧
      s.mgmt.poisonedBlocks = [] ∧ ∀ x ∈ s.sc, s.scLine? x.pa = some x ∧ x.data.length = 128 :=
  ⟨by decide +kernel, _, rfl, by decide +kernel⟩

/-- A lone FENCE behind a finished store of its class, and the one participant of a barrier at its BAR. -/
theorem witness_FencesAndBarriersComplete :
    (∃ s, s = acting (fun t => { queued 3 { (default : QEntry) with seq := 4, stage := .done } t with
        cq := [entry (.fence .domain true)], nseq := 6 }) ∧
      (s.strand 0).cq.find? (fun x => x.seq == 5) = some (entry (.fence .domain true)) ∧
      (∀ x ∈ (s.strand 0).cq, x.seq < 5 → x.classes &&& 1 = 0) ∧
      (∀ q ∈ (s.strand 0).entries, QEntry.accessed q = true) ∧ s.performed 0 5 1 .domain = true) ∧
    (∃ s, s = acting (fun t => { queued 0 { (default : QEntry) with seq := 4, holds := true, instr := .tld m0 ⟨1, 0⟩ 9 } t with
        cq := [entry (.fence .domain true)], nseq := 6 }) ∧
      (∀ q ∈ (s.strand 0).entries, QEntry.accessed q = false ∧ s.entryClass 0 q = some 1) ∧ s.performed 0 5 1 .domain = true) ∧
    ∃ s, s = (State.reset.withFetchWord 64 0x11A0_0000_0000_0001).modStrand 0 (fun t => { t with arrived := some 1, barLog := some none }) ∧
      ∀ c : Fin 4, (1 : BitVec 4).getLsbD c.val = true → (s.arrivedAt (strandOf 0 c) 1).isSome = true :=
  ⟨⟨_, rfl, by decide +kernel⟩, ⟨_, rfl, by decide +kernel⟩, _, rfl, by decide +kernel⟩

/-! ### Witnesses: the stack, and instructions of the queues -/

/-- Two references and a floor of 1; a full image. -/
theorem witness_StackInstructionsReorderTheImage :
    (∃ f, stackForm (.trot m0 1) = some (m0, 2, 0, f)) ∧ Dispatches m0 [] (acting (fun t => { t with image := [3, 4], tfloor := 1 })) ∧
    (mine (acting (fun t => { t with image := [3, 4], tfloor := 1 }))).image.length < 1 + 2 ∧
    (mine (acting (fun t => { t with image := [3, 4] }))).tfloor + 2 ≤ (mine (acting (fun t => { t with image := [3, 4] }))).image.length ∧
    (∃ f, stackForm (.tdup m0) = some (m0, 1, 1, f)) ∧
    (mine (acting (fun t => { t with image := [3], stklim := 1 }))).stklim < [3].length + 1 :=
  ⟨⟨_, rfl⟩, dispatches _ (by decide +kernel) (by decide +kernel), by decide +kernel, by decide +kernel, ⟨_, rfl⟩, by decide +kernel⟩

/-- TMARK of as many references as there are, and of one more; a saved floor at the depth and past it. -/
theorem witness_FramesAndBundlesOpen : ∃ s, s = acting (fun t => { t with image := [3, 4] }.setS 10 2) ∧
    Dispatches m0 [9] s ∧ Dispatches m0 [10] s ∧ (mine s).tfloor + (2 : BitVec 12).toNat ≤ (mine s).image.length ∧
    (mine s).image.length < (mine s).tfloor + (3 : BitVec 12).toNat ∧ ((mine s).getS 10).toNat ≤ (mine s).image.length ∧
    (mine s).image.length < ((mine (s.modStrand 0 (fun t => t.setS 10 3))).getS 10).toNat :=
  ⟨_, rfl, dispatches _ (by decide +kernel) (by decide +kernel), dispatches _ (by decide +kernel) (by decide +kernel),
    by decide +kernel⟩

/-- A strand that names no tile may queue wherever nothing waits and the pool has room. -/
theorem base_mayQueue {f : QueueForm} (hm : f.m = m0) (hn : f.names = 0) (hp : f.pops = 0) (hq : base.poolRoom 0 f.q = true) :
    MayQueue base f where
  dispatches := hm ▸ base_dispatches _
  depth := by rw [hn]; decide +kernel
  limit := fun _ => by
    have h1 : (mine base).image.length = 0 := by decide +kernel
    have h2 : (mine base).stklim = 768 := by decide +kernel
    rw [hp, h1, h2]
    cases f.pushes <;> decide
  pool := hq
  identity := fun _ => by decide +kernel
  stamp := fun _ => room_off (by decide +kernel)
  notKept := by decide +kernel


theorem witness_VectorInstructionsQueue :
    vectorForm (.vadd m0 a0 1 2 3 .fp32 0) = some ⟨m0, .V, [], 0, 0, false⟩ ∧ MayQueue base ⟨m0, .V, [], 0, 0, false⟩ :=
  ⟨rfl, base_mayQueue rfl rfl rfl (by decide +kernel)⟩

/-- The layout in which nothing is owned. -/
def unowned : State := { base with mgmt := { base.mgmt with layout := Layout.reset } }

/-- A matrix instruction with no operand, one with two full operands, and a strand whose partition has no array. -/
theorem witness_MatrixInstructionsQueue :
    (matrixForm (.mzero m0 .int32 9 0) = some ⟨m0, .M, [9], 0, 0, true⟩ ∧ base.owns (me base) .matrix = true ∧
      MayQueue base ⟨m0, .M, [9], 0, 0, true⟩) ∧
    (∃ s, s = acting (fun t => { t with image := [3, 4] }) ∧ matrixForm (.mma m0) = some ⟨m0, .M, [], 2, 2, true⟩ ∧
      MayQueue s ⟨m0, .M, [], 2, 2, true⟩) ∧
    unowned.owns (me unowned) .matrix = false :=
  ⟨⟨rfl, by decide +kernel, base_mayQueue rfl rfl rfl (by decide +kernel)⟩,
    ⟨_, rfl, rfl, ⟨dispatches _ (by decide +kernel) (by decide +kernel), by decide +kernel, by decide +kernel, by decide +kernel,
      fun _ => by decide +kernel, fun _ => room_off (by decide +kernel), by decide +kernel⟩⟩, by decide +kernel⟩

theorem witness_TransferInstructionsQueue :
    (∀ k : EngineKind, unowned.owns (me unowned) k = false) ∧
    (transferForm (.tld m0 ⟨0, 0⟩ 9) = some (⟨m0, .L, [9], 0, 0, true⟩, .load) ∧ base.owns (me base) .load = true ∧
      MayQueue base ⟨m0, .L, [9], 0, 0, true⟩) ∧
    transferForm (.cpyd m0 ⟨0, 0⟩ 3 9 10) = some (⟨m0, .L, [9, 10], 0, 0, false⟩, .copy) ∧ base.owns (me base) .copy = true ∧
    MayQueue base ⟨m0, .L, [9, 10], 0, 0, false⟩ :=
  ⟨by intro k; cases k <;> decide +kernel, ⟨rfl, by decide +kernel, base_mayQueue rfl rfl rfl (by decide +kernel)⟩, rfl,
    by decide +kernel, base_mayQueue rfl rfl rfl (by decide +kernel)⟩

/-- TBEG with the builder closed, TEND with it closed and open, and VDEC at the last declared vector and past it. -/
theorem witness_BuilderInstructionsQueue :
    (∃ ok, builderForm (mine base) (.tbeg m0 .fp32 9) = some (⟨m0, .V, [9], 0, 0, true⟩, ok) ∧ ok ∧
      MayQueue base ⟨m0, .V, [9], 0, 0, true⟩) ∧
    (∃ ok, builderForm (mine base) (.tend m0) = some (⟨m0, .V, [], 0, 0, false⟩, ok) ∧ ¬ ok ∧ Dispatches m0 [] base) ∧
    (∃ s ok, s = acting (fun t => { t with openId := some 3, image := [3] }) ∧
      builderForm (mine s) (.tend m0) = some (⟨m0, .V, [], 0, 0, false⟩, ok) ∧ ok) ∧
    (∃ s ok, s = acting (fun t => { t with declared := 1 }) ∧
      builderForm (mine s) (.vdec m0 1) = some (⟨m0, .V, [], 0, 0, false⟩, ok) ∧ ok) ∧
    ∃ ok, builderForm (mine base) (.vdec m0 1) = some (⟨m0, .V, [], 0, 0, false⟩, ok) ∧ ¬ ok :=
  ⟨⟨_, rfl, by decide +kernel, base_mayQueue rfl rfl rfl (by decide +kernel)⟩, ⟨_, rfl, by decide +kernel, base_dispatches _⟩,
    ⟨_, _, rfl, rfl, by decide +kernel⟩, ⟨_, _, rfl, rfl, by decide +kernel⟩, _, rfl, by decide +kernel⟩

theorem witness_GuardFalseQueuedInstructionsKeepTheirTokens : ∃ m : Mods, m = { m0 with gb := ⟨true, 0⟩ } ∧
    transferForm (.tst m ⟨0, 0⟩ 9) = some (⟨m, .S, [9], 1, 1, false⟩, .store) ∧ base.owns (me base) .store = true ∧
    (mine base).holds m = false ∧ base.poolRoom (me base) .S = true ∧ (mine base).kept = none :=
  ⟨_, rfl, rfl, by decide +kernel⟩

/-- The head of a queue of strand 0 that may start. -/
def mayHead (s : State) (q : QName) (e : QEntry) : Bool :=
  (s.strand 0).qhead? q == some e && decide ((s.strand 0).startBlock q e = .free) && e.holds && !s.fenced 0 e && !s.tileErrorDue 0 e &&
  (s.strand 0).entries.all (fun x => x.seq != e.seq || x == e)

theorem headStarts {s : State} {q : QName} {e : QEntry} (h : mayHead s q e = true) : HeadStarts s 0 q e := by
  simp only [mayHead, Bool.and_eq_true, decide_eq_true_eq, beq_iff_eq, Bool.not_eq_true', List.all_eq_true, Bool.or_eq_true, bne_iff_ne]
    at h
  obtain ⟨⟨⟨⟨⟨a, b⟩, c⟩, d⟩, e⟩, f⟩ := h
  exact ⟨a, b, c, d, e, fun x hx hs => (f x hx).resolve_left (fun h => h hs)⟩

/-- A started instruction of strand 0, the fifth in program order. -/
def runsNow (s : State) (q : QName) (e : QEntry) : Bool :=
  ((s.strand 0).queue q).find? (fun x => x.seq == 5) == some e && e.stage == .started && e.holds && e.fault.isNone

theorem running {s : State} {q : QName} {e : QEntry} (h : runsNow s q e = true) : Running s 0 q 5 e := by
  simp only [runsNow, Bool.and_eq_true, beq_iff_eq, Option.isNone_iff_eq_none] at h
  exact ⟨h.1.1.1, h.1.1.2, h.1.2, h.2⟩

/-- The last accesses of a started instruction of strand 0, in one step. -/
theorem allMade {s : State} {q : QName} {e : QEntry} {portion : Nat} (h : (runsNow s q e &&
      ((s.accesses 0 (q == .V) e portion).2.work.reads.isEmpty && (s.accesses 0 (q == .V) e portion).2.work.writes.isEmpty)) = true) :
    AllMade s 0 q 5 portion e (s.accesses 0 (q == .V) e portion).1 (s.accesses 0 (q == .V) e portion).2 := by
  simp only [Bool.and_eq_true, List.isEmpty_iff] at h
  exact ⟨running h.1, rfl, h.2.1, h.2.2⟩

/-- A VADD at the head of the V queue. -/
def aVadd : QEntry := { (default : QEntry) with seq := 5, instr := .vadd m0 a0 4 1 2 .int32 0, holds := true }

theorem witness_VectorResultsLaneByLane :
    (∃ s lat r, s = acting (queued 2 aVadd) ∧ HeadStarts s 0 .V aVadd ∧
      Instr.spacing aVadd.instr ≤ (s.strand 0).vgap ∧ (s.strand 0).countBlocked 1 = false ∧
      vectorOp (s.strand 0) aVadd.scalar aVadd.instr = some (lat, r) ∧ 1 < lat) ∧
    (∃ d a b k zm f, integerLane 8 (.vxor m0 ⟨.rne, false, 1⟩ 3 1 2 .int8 7) = some (d, a, b, .int8, k, zm, f)) := by
  refine ⟨?_, ⟨_, _, _, _, _, _, rfl⟩⟩
  obtain ⟨⟨lat, r⟩, h, hc⟩ := some_of (x := vectorOp ((acting (queued 2 aVadd)).strand 0) aVadd.scalar aVadd.instr)
    (fun x => decide (1 < x.1)) (by decide +kernel)
  exact ⟨_, lat, r, rfl, headStarts (by decide +kernel), by decide +kernel, by decide +kernel, h, by simpa using hc⟩

/-- A VST of lane 0 alone at the last word of a page's first line, and a VLD of lane 1 whose one access is left. -/
def aVst : QEntry :=
  { (default : QEntry) with seq := 5, instr := .vst m0 ⟨0, 0⟩ 4 10 1 .fp32 1, holds := true, scalars := [0x1000] }

def aVld : QEntry :=
  { (default : QEntry) with
    seq := 5, instr := .vld m0 ⟨0, 0⟩ 4 10 0 .fp32 1, holds := true, stage := .started, scalars := [0x1000]
    work := { (default : Work) with reads := [(.glob 0x40001004, 4)], nums := [1] } }

def storing : State := acting (fun t => { queued 2 aVst t with k := t.k.set 1 1, nseq := 6 })

def loading : State := acting (fun t => { queued 2 aVld t with pend := [⟨1, 5, [.v 4 0], 0, false⟩], nseq := 6 })

theorem witness_vector_memory_moves :
    (∃ x rs, HeadStarts storing 0 .V aVst ∧ Instr.spacing aVst.instr ≤ (storing.strand 0).vgap ∧
      (storing.strand 0).countBlocked 1 = false ∧ (storing.strand 0).logFull = false ∧ (∀ p ∈ (storing.strand 0).pend, p.seq ≠ 5) ∧
      aVst.permit = none ∧ vectorAccesses storing 0 aVst = some x ∧ x.1 = true ∧
      storing.laneChecks 0 .write none x.2.2.2.2.2.1 x.2.2.2.2.2.2 x.2.2.2.2.1 = .ok rs ∧ rs ≠ []) ∧
    ∃ s1 e1, AllMade loading 0 .V 5 1 aVld s1 e1 ∧ aVld.work.nums.Nodup ∧ (∀ i ∈ aVld.work.nums, i < 4096 / Ty.fp32.width) ∧
      e1.work.got.length = 4 ∧ ⟨1, 5, [.v 4 0], 0, false⟩ ∈ (loading.strand 0).pend := by
  refine ⟨?_, _, _, allMade (by decide +kernel), by decide +kernel⟩
  obtain ⟨x, hx, hc⟩ := some_of (x := vectorAccesses storing 0 aVst) (fun x => x.1 &&
    okAnd (storing.laneChecks 0 .write none x.2.2.2.2.2.1 x.2.2.2.2.2.2 x.2.2.2.2.1) (fun rs => !rs.isEmpty)) (by decide +kernel)
  simp only [Bool.and_eq_true] at hc
  obtain ⟨rs, hr, hn⟩ := ok_of _ hc.2
  exact ⟨x, rs, headStarts (by decide +kernel), by decide +kernel, by decide +kernel, by decide +kernel, by decide +kernel, rfl, hx,
    hc.1, hr, by simpa using hn⟩

/-! ### Witnesses: engines, tiles and the sequencer -/

/-- A started MZERO that has nothing left to access. -/
def aZero : QEntry :=
  { (default : QEntry) with
    seq := 5, instr := .mzero m0 .int32 9 0, holds := true, stage := .started, results := [7],
    work := { (default : Work) with tile := some default } }

def anEmptyTile : TileRec := ⟨7, false, false, none, none, none, none⟩

/-- A CPYD stream of two vectors at virtual address 0x8000 whose first block is stored plain. -/
def aStream : CpydStream := ⟨5, 3, 0x8000, 0x8410, 2, 2, 0, 2, 2, ⟨0, 0⟩⟩

def aCpyd : QEntry := { (default : QEntry) with seq := 5, instr := .cpyd m0 ⟨0, 0⟩ 3 9 10, holds := true, stage := .started }

/-- The tiles' slots at the page of virtual address 0, device-only: strand 0's backing region begins at 2^55. -/
def withSlots (f : Strand → Strand) : State :=
  poke (poke (poke (acting (fun t => f { t with stkbase := 0x80000000000000, image := [7] })) 0x1400 (tableEntry 0x5000))
    0x5000 (tableEntry 0x6000)) 0x6000 (leBytes 8 0x4000002F)

/-- A full tile, in the store and sunk. -/
def aFull : TileRec := { anEmptyTile with full := true, hdr := some default, tile := some default }
def aSunk : TileRec := { anEmptyTile with full := true, sunk := true, hdr := some default }

def sinking : State := withSlots (fun t => { t with tiles := [aFull], tsquota := 0 })
def raising : State := withSlots (fun t => { t with tiles := [aSunk] })

/-- A tile sinks to a page that takes it and one without the context's page tables for it; a sunk one is read back. -/
theorem witness_tiles_sink_and_rise :
    ((sinking.strand 0).tile? 7 = some aFull ∧ sinking.needsSpace 0 = true ∧ TileRec.sinkable (sinking.strand 0) aFull = true ∧
      sinking.mgmt.errTiles = [] ∧ (∀ x ∈ (sinking.strand 0).tiles, keyLess ((sinking.strand 0).sinkKey x.id)
        ((sinking.strand 0).sinkKey 7) = false) ∧ sinking.ctxOf 0 = some fetchCtx ∧
      (∃ s', sinking.slotWrite 0 fetchCtx ((sinking.strand 0).stkbase + BitVec.ofNat 64 (7 * 2 ^ 18))
        (chunks 128 (ceilDiv (default : Tile).image.length 128) (default : Tile).image) = .ok s') ∧
      ∃ tr s', (poke sinking 0x6000 (leBytes 8 0)).slotWrite 0 fetchCtx ((sinking.strand 0).stkbase + BitVec.ofNat 64 (7 * 2 ^ 18))
        (chunks 128 (ceilDiv (default : Tile).image.length 128) (default : Tile).image) = .error (tr, s') ∧ tr.cause = 0x20) ∧
    ((raising.strand 0).tile? 7 = some aSunk ∧ (raising.strand 0).toRise aSunk = true ∧ raising.hasSpace 0 aSunk.space = true ∧
      (raising.strand 0).run = .running ∧ (∀ x ∈ (raising.strand 0).tiles, keyLess ((raising.strand 0).raiseKey x.id)
        ((raising.strand 0).raiseKey 7) = false) ∧ raising.ctxOf 0 = some fetchCtx ∧
      ∃ bs, raising.slotRead 0 fetchCtx ((raising.strand 0).stkbase + BitVec.ofNat 64 (7 * 2 ^ 18))
        (ceilDiv (default : Header).imageSize 128) = .ok bs) := by
  refine ⟨four (by decide +kernel) ⟨by decide +kernel, by decide +kernel, ?_, ?_⟩,
    four (by decide +kernel) ⟨by decide +kernel, by decide +kernel, ?_⟩⟩
  · obtain ⟨s', h, _⟩ := ok_of (x := sinking.slotWrite 0 fetchCtx ((sinking.strand 0).stkbase + BitVec.ofNat 64 (7 * 2 ^ 18))
      (chunks 128 (ceilDiv (default : Tile).image.length 128) (default : Tile).image)) (fun _ => true) (by decide +kernel)
    exact ⟨s', h⟩
  · obtain ⟨⟨tr, s'⟩, h, hc⟩ := error_of (x := (poke sinking 0x6000 (leBytes 8 0)).slotWrite 0 fetchCtx
      ((sinking.strand 0).stkbase + BitVec.ofNat 64 (7 * 2 ^ 18))
      (chunks 128 (ceilDiv (default : Tile).image.length 128) (default : Tile).image)) (fun x => x.1.cause == 0x20) (by decide +kernel)
    exact ⟨tr, s', h, by simpa using hc⟩
  · obtain ⟨bs, h, _⟩ := ok_of (x := raising.slotRead 0 fetchCtx ((raising.strand 0).stkbase + BitVec.ofNat 64 (7 * 2 ^ 18))
      (ceilDiv (default : Header).imageSize 128)) (fun _ => true) (by decide +kernel)
    exact ⟨bs, h⟩

def streaming : State :=
  poke ((acting (fun t => { queued 0 aCpyd t with streams := [aStream], nseq := 6 })).modPod 0
    (fun p => { p with engines := p.engines.set 4 (some (0, 5)) })) 0x40008000 (leBytes 8 (520 * 65536))

/-- A COLL that has waited for its rendezvous from the start. -/
def aColl : QEntry :=
  { (default : QEntry) with
    seq := 5, instr := .coll m0 ⟨0, 0⟩ 3 9, holds := true, stage := .started,
    work := { (default : Work) with phase := 2, nums := [3, 0, 0, 1, 0, 9, 0] } }

def aGroup : CollGroup := ⟨3, [0, 1], 0, 10, 0, false, []⟩

/-- A unit of eight bytes at a physical address of memory. -/
def aUnit (a : Nat) : Unit8 := ⟨0, .glob a, 8, none⟩

/-- A started instruction with its work. -/
def doing (i : Instr) (w : Work) (f : QEntry → QEntry := id) : QEntry :=
  f { (default : QEntry) with seq := 5, instr := i, holds := true, stage := .started, work := w }

/-- Its queue holds it alone. -/
def working (q : Fin 4) (e : QEntry) : State := acting (fun t => { queued q e t with nseq := 6 })

/-- The first of two reads of a TLD, and the last write of a TST. -/
theorem witness_accesses_move :
    (∃ s e, e = doing (.tld m0 ⟨0, 0⟩ 9) { (default : Work) with reads := [(.glob 0x40000000, 8), (.glob 0x40000008, 8)] } ∧
      s = working 0 e ∧ Running s 0 .L 5 e ∧ s.mayAccess 0 e = true ∧ s.blocked (.glob 0x40000000) = false) ∧
    ∃ s e, e = doing (.tst m0 ⟨0, 0⟩ 9) { (default : Work) with writes := [⟨.glob 0x40000078, List.replicate 8 1, 0xFF⟩] } ∧
      s = working 3 e ∧ Running s 0 .S 5 e ∧ s.mayAccess 0 e = true ∧ (s.strand 0).passedBefore 5 = true ∧
      (s.strand 0).run = .running ∧ writesLast e ∧ s.blocked (.glob 0x40000078) = false ∧ Takeable s 0 (.glob 0x40000078) 8 :=
  ⟨⟨_, _, rfl, rfl, running (by decide +kernel), by decide +kernel⟩,
    ⟨_, _, rfl, rfl, running (by decide +kernel), by decide +kernel, by decide +kernel, by decide +kernel, trivial, by decide +kernel,
      by decide, .inr (by decide +kernel)⟩⟩

/-- A CPYG about to read the one number of its list. -/
def aList : QEntry :=
  doing (.cpyg m0 ⟨0, 0⟩ 3 1 2 3 3) { (default : Work) with phase := 1, reads := [(.glob 0x40000000, 4)], nums := [1] }
    (fun e => { e with scalars := [0x100, 0x200] })

/-- A CPY and a CPYG that have read eight bytes, and one that has read the one number of its list; a CPYE of an empty source, whose
stream is its header. -/
theorem witness_copies_write :
    (∀ i, i = Instr.cpy m0 ⟨0, 0⟩ 3 1 2 3 ∨ i = Instr.cpyg m0 ⟨0, 0⟩ 3 1 2 3 3 → ∃ s e s1 e1, e = doing i { (default : Work) with
          phase := (match i with
            | .cpy _ _ _ _ _ _ => 0
            | _ => 2), reads := [(.glob 0x40000000, 8)], dst := [aUnit 0x40000100] } ∧
        s = working 0 e ∧ AllMade s 0 .L 5 1 e s1 e1 ∧ e.permit = none ∧ (e.work.dst.map (·.len)).sum = e1.work.got.length) ∧
    (∃ s e s1 e1 us vs, e = aList ∧
      s = working 0 e ∧ AllMade s 0 .L 5 1 e s1 e1 ∧
      (s1.putEntry 0 e1).unitsOf 0 none .read ((chunks 4 1 e1.work.got).map (fun i =>
        ((0x200 : Word) + BitVec.ofNat 64 (bytesNat i * 2 ^ 3), 2 ^ 3))) = .ok us ∧
      (s1.putEntry 0 e1).units 0 none .write 0x100 8 = .ok vs) ∧
    ∃ s e s1 e1, e = doing (.cpye m0 ⟨0, 0⟩ 3 1 2 3 2) { (default : Work) with dst := [aUnit 0x40000100, aUnit 0x40000108] } ∧
      s = working 0 e ∧ AllMade s 0 .L 5 1 e s1 e1 ∧ (∀ u ∈ e.work.dst, 0 < u.len) ∧
      (encodeStream 2 e1.work.got).length ≤ (e.work.dst.map (·.len)).sum := by
  refine ⟨fun i hi => ?_, ?_, _, _, _, _, rfl, rfl, allMade (by decide +kernel), by decide +kernel⟩
  · rcases hi with rfl | rfl <;> exact ⟨_, _, _, _, rfl, rfl, allMade (by decide +kernel), by decide +kernel⟩
  · obtain ⟨us, hu, hc⟩ := ok_of (x := ((working 0 aList).accesses 0 false aList 1).1.putEntry 0 ((working 0 aList).accesses 0 false aList 1).2
      |>.unitsOf 0 none .read ((chunks 4 1 ((working 0 aList).accesses 0 false aList 1).2.work.got).map (fun i =>
        ((0x200 : Word) + BitVec.ofNat 64 (bytesNat i * 2 ^ 3), 2 ^ 3)))) (fun _ => true) (by decide +kernel)
    obtain ⟨vs, hv, _⟩ := ok_of (x := ((working 0 aList).accesses 0 false aList 1).1.putEntry 0 ((working 0 aList).accesses 0 false aList 1).2
      |>.units 0 none .write 0x100 8) (fun _ => true) (by decide +kernel)
    exact ⟨_, aList, _, _, us, vs, rfl, rfl, allMade (by decide +kernel), hu, hv⟩

/-- A COLL of one INT32 element with another member's SRC there. -/
theorem witness_coll_writes : ∃ s e s1 e1 recs, e = doing (.coll m0 ⟨0, 0⟩ 3 9) { (default : Work) with
        phase := 3, reads := [(.glob 0x40000000, 4)], nums := [3, 0, 7, 1, 0, 9, 0], dst := [⟨0, .glob 0x40000100, 4, none⟩] } ∧
      s = (working 0 e).modPart 0 (fun x => { x with groups := [aGroup], rdvs := [⟨1, 3, 0, 9, [1, 0, 0, 0]⟩] }) ∧
      AllMade s 0 .L 5 1 e s1 e1 ∧ (s1.putEntry 0 e1).collGroup? 0 3 = some aGroup ∧ collTy 7 = some .int32 ∧
      (s1.putEntry 0 e1).rendezvous 0 aGroup 9 = some recs ∧
      (collResult 0 .int32 1 0 0 (recs.mapIdx (fun i r => if i = 0 then e1.work.got else (r.map (·.src)).getD []))).length = 4 :=
  ⟨_, _, _, _, [none, some ⟨1, 3, 0, 9, [1, 0, 0, 0]⟩], rfl, rfl, allMade (by decide +kernel), by decide +kernel⟩

/-- The header of an INT8 tile of two rows and four columns. -/
def twoRows : Header := { (default : Header) with fmt := .int8, rows := 2, cols := 4, scl := .none, spn := .dense }

/-- A TLD about to read the first of its two rows. -/
def aRow : QEntry :=
  doing (.tld m0 ⟨0, 0⟩ 9) { (default : Work) with
    phase := 1, reads := [(.glob 0x40000020, 4)], hdr := some twoRows, offs := some ⟨32, 0, 0, 0⟩ } (fun e => { e with scalars := [0] })

/-- The first of two rows of a TLD has been read; and both have, with no area after them. -/
theorem witness_loads_fill :
    (∃ s e s1 e1 us, e = aRow ∧
      s = working 0 e ∧ AllMade s 0 .L 5 1 e s1 e1 ∧ e.work.rows.length + 1 < twoRows.rows ∧ rowAddress e 1 e.instr = some 64 ∧
      (s1.putEntry 0 e1).unitsOf 0 none .read [(64, twoRows.rowBytes)] = .ok us) ∧
    ∃ s e s1 e1, e = doing (.tld m0 ⟨0, 0⟩ 9) { (default : Work) with phase := 2, hdr := some twoRows, rows := [[1, 2, 3, 4], [5, 6, 7, 8]] }
        (fun e => { e with results := [7] }) ∧
      s = acting (fun t => { queued 0 e t with image := [7], tiles := [anEmptyTile], nseq := 6 }) ∧ AllMade s 0 .L 5 1 e s1 e1 ∧
      (s.strand 0).tile? 7 = some anEmptyTile ∧ 7 ∈ (s.strand 0).image ∧ (s.strand 0).run = .running := by
  refine ⟨?_, _, _, _, _, rfl, rfl, allMade (by decide +kernel), by decide +kernel⟩
  obtain ⟨us, hu, _⟩ := ok_of (x := ((working 0 aRow).accesses 0 false aRow 1).1.putEntry 0 ((working 0 aRow).accesses 0 false aRow 1).2
    |>.unitsOf 0 none .read [(64, twoRows.rowBytes)]) (fun _ => true) (by decide +kernel)
  exact ⟨_, aRow, _, _, us, rfl, rfl, allMade (by decide +kernel), by decide +kernel, by decide +kernel, hu⟩

/-- A dense, unscaled tile of one row. -/
def oneRow (f : Fmt) (cells : List Nat) : Tile :=
  { (default : Tile) with
    hdr := { (default : Header) with fmt := f, rows := 1, cols := cells.length, scl := .none, spn := .dense }, cells := [cells] }

theorem oneRow_plain (f : Fmt) (cells : List Nat) : Plain (oneRow f cells) f :=
  ⟨rfl, rfl, rfl, rfl, fun r hr => by rw [List.mem_singleton.mp hr]; rfl⟩

/-- A TST of a full tile at an aligned address. -/
def aTst : QEntry :=
  { (default : QEntry) with seq := 5, instr := .tst m0 ⟨0, 0⟩ 9, holds := true, granted := true, scalars := [0x20], tiles := [7] }

def imaging : State :=
  acting (fun t => { queued 3 aTst t with
    image := [7], tiles := [{ aFull with hdr := some (oneRow .int8 [1, 2]).hdr, tile := some (oneRow .int8 [1, 2]) }], nseq := 6 })

/-- Such a TST, and an MADD of two full tiles under its lease. -/
theorem witness_images_and_commands_start :
    (∃ us, HeadStarts imaging 0 .S aTst ∧ (imaging.strand 0).spaced 3 (Instr.mods aTst.instr) = true ∧ (imaging.strand 0).logFull = false ∧
      (imaging.strand 0).operands aTst = .ok [oneRow .int8 [1, 2]] ∧
      imaging.units 0 none .write 0x20 (oneRow .int8 [1, 2]).image.length = .ok us ∧
      (us.map (·.len)).sum = (oneRow .int8 [1, 2]).image.length) ∧
    ∃ s e o x, e = { (default : QEntry) with seq := 5, instr := .madd m0 a0, holds := true, tiles := [7, 8], results := [9] } ∧
      s = (acting (fun t => { queued 1 e t with
        image := [9], nseq := 6
        tiles := [{ aFull with hdr := some (oneRow .fp32 [0x3F800000]).hdr, tile := some (oneRow .fp32 [0x3F800000]) },
          { aFull with id := 8, hdr := some (oneRow .fp32 [0x40000000]).hdr, tile := some (oneRow .fp32 [0x40000000]) },
          { anEmptyTile with id := 9 }] })).modPod 0 (fun p => { p with lease := ⟨some 0, 64, 0, 0, none⟩ }) ∧
      HeadStarts s 0 .M e ∧ (s.strand 0).spaced 2 (Instr.mods e.instr) = true ∧ s.runOpen 0 = true ∧ (s.strand 0).matrixBusy = false ∧
      (s.strand 0).operands e = .ok [oneRow .fp32 [0x3F800000], oneRow .fp32 [0x40000000]] ∧
      matrixOp e [oneRow .fp32 [0x3F800000], oneRow .fp32 [0x40000000]] = .ok o ∧ o.result = some x ∧ o.fixed = [] ∧ o.repairs = 0 ∧
      s.hasSpace 0 x.hdr.space = true := by
  refine ⟨?_, ?_⟩
  · obtain ⟨us, hu, hl⟩ := ok_of (x := imaging.units 0 none .write 0x20 (oneRow .int8 [1, 2]).image.length)
      (fun us => (us.map (·.len)).sum == (oneRow .int8 [1, 2]).image.length) (by decide +kernel)
    exact ⟨us, headStarts (by decide +kernel), by decide +kernel, by decide +kernel, by decide +kernel, hu, eq_of_beq hl⟩
  · obtain ⟨o, ho, hc⟩ := ok_of (x := matrixOp { (default : QEntry) with
        seq := 5, instr := .madd m0 a0, holds := true, tiles := [7, 8], results := [9] }
        [oneRow .fp32 [0x3F800000], oneRow .fp32 [0x40000000]])
      (fun o => o.fixed.isEmpty && o.repairs == 0 && someAnd o.result (fun x => x.hdr.space == (oneRow .fp32 [0]).hdr.space))
      (by decide +kernel)
    simp only [Bool.and_eq_true, List.isEmpty_iff, beq_iff_eq] at hc
    obtain ⟨x, hx, hs⟩ := some_of _ hc.2
    exact ⟨_, _, o, x, rfl, rfl, headStarts (by decide +kernel), by decide +kernel, by decide +kernel, by decide +kernel, by decide +kernel,
      ho, hx, hc.1.1, hc.1.2, by rw [eq_of_beq hs]; decide +kernel⟩

/-- Tiles of which the rules of the commands speak. -/
theorem witness_commands_compute :
    Plain (oneRow .int8 (List.replicate 128 0x80)) .int8 ∧ (oneRow .int8 (List.replicate 128 0x80)).hdr.cols = 128 ∧
    Plain (oneRow .bf16 [0x3F80]) .bf16 ∧ Plain (oneRow .fp16 [0x3C00]) .fp16 ∧ Plain (oneRow .e4m3 [0x38]) .e4m3 :=
  ⟨oneRow_plain _ _, List.length_replicate, oneRow_plain _ _, oneRow_plain _ _, oneRow_plain _ _⟩

theorem witness_EnginesAndTilesGoOn :
    (∃ s, s = State.reset.withFetchWord 64 0x4010_0000_0304_2038 ∧ s.stalledOn 0 = some (.V, false) ∧ s.poolRoom 0 .V = true) ∧
    (∃ s, s = acting (fun t => { queued 1 aZero t with image := [7], tiles := [anEmptyTile] }) ∧
      ((s.strand 0).queue .M).find? (fun e => e.seq == 5) = some aZero ∧ matrixForm aZero.instr = some ⟨m0, .M, [9], 0, 0, true⟩ ∧
      aZero.fault = none ∧ aZero.work.reads = [] ∧ aZero.work.writes = [] ∧ (s.strand 0).tile? 7 = some anEmptyTile ∧
      7 ∈ (s.strand 0).image ∧ (s.strand 0).run = .running) ∧
    (∃ s, s = (State.reset.withFetchWord 64 0x0730_0000_0000_0000).modStrand 0
        (fun t => { t with pend := [⟨1, 5, [.v 3 9], 0, true⟩] }) ∧
      (s.strand 0).run = .running ∧ (s.strand 0).qhead? .V = none ∧ s.coreWaits 0 = true ∧ (s.strand 0).countBlocked 1 = false) ∧
    ∃ hb pay s1 s2, (streaming.strand 0).decodable = some (aStream, aCpyd) ∧ (streaming.strand 0).fifo.length < 16 ∧
      aStream.blocksLeft ≠ 0 ∧ (streaming.strand 0).passedBefore aCpyd.seq = true ∧ 2 ≤ aStream.vecsLeft ∧ 8 ≤ (aStream.endAddr - aStream.next).toNat ∧ streaming.readRange 0 aCpyd aStream.next 8 = some (hb, s1) ∧
      bytesNat hb = 520 * 65536 ∧ blockBad 32 2 0 0 520 0 1040 = none ∧
      s1.readRange 0 aCpyd (aStream.next + 8) 512 = some (pay, s2) := by
  refine ⟨⟨_, rfl, by decide +kernel⟩, ⟨_, rfl, by decide +kernel, rfl, rfl, rfl, rfl, by decide +kernel⟩,
    ⟨_, rfl, by decide +kernel⟩, ?_⟩
  obtain ⟨⟨hb, s1⟩, h, hc⟩ := some_of (x := streaming.readRange 0 aCpyd aStream.next 8)
    (fun x => bytesNat x.1 == 520 * 65536 && someAnd (x.2.readRange 0 aCpyd (aStream.next + 8) 512) (fun _ => true))
    (by decide +kernel)
  simp only [Bool.and_eq_true] at hc
  obtain ⟨⟨pay, s2⟩, h2, _⟩ := some_of _ hc.2
  exact ⟨hb, pay, s1, s2, by decide +kernel, by decide +kernel, by decide, by decide +kernel, by decide, by decide +kernel, h, by simpa using hc.1, by decide +kernel, h2⟩

/-- The launch in the queue of partition 0. -/
def waitingLaunch (l : Launch) : State := base.modPart 0 (fun x => { x with queue := [l] })

/-- A launch that starts in a state. -/
def startedAs (s : State) (l : Launch) : Launch := { l with state := 2, started := s.ticks, runSince := s.gts }

/-- A launch of no iteration. -/
def noIterations : Launch := { aLaunch with state := 1, record := recordOf (fun o => if o = 0x30 then 1 else 0), assigns := [] }

/-- A running launch of one level of extent 2 that overwrites an output of two cells; its cover map is at 0x9000. -/
def overwriter : Launch :=
  { aLaunch with
    assigns := []
    record := recordOf (fun o => if o = 0x30 then 0x21 else if o = 0x40 then 2 else if o = 0xB0 then 0x9000
      else if o = 0xC8 then 1 <<< 32 ||| 2 else if o = 0xD8 then 0x101 else if o = 0xE8 then 1 <<< 32 else 0) }

theorem base_decides : Decides base 0 := ⟨by decide +kernel, by decide +kernel⟩

theorem witness_SequencerStartsHandsOutAndEnds :
    (∃ l l1 s1 s3, l = { aLaunch with state := 1, assigns := [] } ∧ Decides (waitingLaunch l) 0 ∧
      (waitingLaunch l).headLaunch 0 = some l ∧ (waitingLaunch l).freeSlot 0 = some 0 ∧ (waitingLaunch l).vaHeld l.ctx l.addr = false ∧
      l.count ≠ 0 ∧ (waitingLaunch l).logDecision 0 0x06 0 l.addr = some s1 ∧
      l1 = { l with state := 2, started := (waitingLaunch l).ticks, runSince := (waitingLaunch l).gts } ∧
      ((s1.unqueue 0 l).setSlot 0 0 (some l1)).writeStatus l1 2 0 = .ok s3) ∧
    (∃ s1 s3, (waitingLaunch noIterations).headLaunch 0 = some noIterations ∧ noIterations.count = 0 ∧
      (waitingLaunch noIterations).logState 0 noIterations 3 = .ok s1 ∧
      ((s1.unqueue 0 noIterations).askEval 0).writeStatus noIterations 3 0 = .ok s3) ∧
    (∃ s l, l = { aLaunch with assigns := [], nextUnit := [1, 0, 0, 0] } ∧
      s = (acting (fun t => { t with run := .free })).setSlot 0 0 (some l) ∧ Decides s 0 ∧ HasRoom (s.part 0).sched ∧
      s.handsOut 0 0 = some l ∧ s.unitReady 0 l 0 = some (1, 4) ∧ s.takers 0 0 l 0 = [0] ∧ s.ctx? l.ctx = some fetchCtx) ∧
    (∃ s l, l = { aLaunch with nextUnit := [1, 0, 0, 0], assigns := [⟨0, 0, 3, false, false, true, none, [], 0, 0, none⟩] } ∧
      s = launched l id ∧ s.unitReady 0 l 0 = some (1, 4) ∧ s.takers 0 0 l 0 = [0] ∧ (s.strand 0).run ≠ .free) ∧
    (∃ s, s = base.setSlot 0 0 (some overwriter) ∧ overwriter.overwriting = true ∧ overwriter.cursor < overwriter.count ∧
      s.ctx? overwriter.ctx = some fetchCtx ∧ overwriter.footprint 0 = [1] ∧ overwriter.footprint 1 = [0] ∧
      s.vaHeld 1 (overwriter.coverAddr 1) = false ∧ ∃ b, s.coverBit fetchCtx overwriter 1 = .ok b) ∧
    (∃ l, l = { overwriter with permits := [(0, [])] } ∧ Decides (base.setSlot 0 0 (some l)) 0 ∧ l.nextSkip = some 0) ∧
    ∃ s l s0 s1 s2, l = { aLaunch with assigns := [] } ∧ s = base.setSlot 0 0 (some l) ∧ s.doneReady 0 0 l = true ∧
      s.writeCover l = .ok s0 ∧ s0.logState 0 l 3 = .ok s1 ∧ s1.writeStatus l 3 0 = .ok s2 := by
  refine ⟨?_, ?_, ⟨_, _, rfl, rfl, ⟨by decide +kernel, by decide +kernel⟩, room_off (by decide +kernel), by decide +kernel⟩, ⟨_, _, rfl, rfl, by decide +kernel⟩,
    ⟨_, rfl, four (by decide +kernel) ⟨by decide +kernel, by decide +kernel, ?_⟩⟩,
    ⟨_, rfl, ⟨by decide +kernel, by decide +kernel⟩, by decide +kernel⟩, ?_⟩
  · obtain ⟨s1, h1, hc⟩ := some_of (x := (waitingLaunch { aLaunch with state := 1, assigns := [] }).logDecision 0 0x06 0 aLaunch.addr)
      (fun s1 => okAnd (((s1.unqueue 0 { aLaunch with state := 1, assigns := [] }).setSlot 0 0
        (some (startedAs base { aLaunch with assigns := [] }))).writeStatus (startedAs base { aLaunch with assigns := [] }) 2 0)
        (fun _ => true)) (by decide +kernel)
    obtain ⟨s3, h3, _⟩ := ok_of _ hc
    exact ⟨_, _, s1, s3, rfl, ⟨by decide +kernel, by decide +kernel⟩, by decide +kernel, by decide +kernel, by decide +kernel,
      by decide +kernel, h1, rfl, h3⟩
  · obtain ⟨s1, h1, hc⟩ := logged_of (x := (waitingLaunch noIterations).logState 0 noIterations 3)
      (fun s1 => okAnd (((s1.unqueue 0 noIterations).askEval 0).writeStatus noIterations 3 0) (fun _ => true)) (by decide +kernel)
    obtain ⟨s3, h3, _⟩ := ok_of _ hc
    exact ⟨s1, s3, by decide +kernel, by decide +kernel, h1, h3⟩
  · obtain ⟨b, h, _⟩ := ok_of (x := (base.setSlot 0 0 (some overwriter)).coverBit fetchCtx overwriter 1) (fun _ => true)
      (by decide +kernel)
    exact ⟨b, h⟩
  · obtain ⟨s0, h0, hc⟩ := ok_of (x := (base.setSlot 0 0 (some { aLaunch with assigns := [] })).writeCover { aLaunch with assigns := [] })
      (fun s0 => loggedAnd (s0.logState 0 { aLaunch with assigns := [] } 3)
        (fun s1 => okAnd (s1.writeStatus { aLaunch with assigns := [] } 3 0) (fun _ => true))) (by decide +kernel)
    obtain ⟨s1, h1, hd⟩ := logged_of _ hc
    obtain ⟨s2, h2, _⟩ := ok_of _ hd
    exact ⟨_, _, s0, s1, s2, rfl, rfl, by decide +kernel, h0, h1, h2⟩

/-! ### Witnesses: pre-emption, the lease and the shared engines -/

/-- A record like `aLaunch`'s with PRIO and POLD or POLK. -/
def withPolicy (prio ctl : Nat) (l : Launch) : Launch :=
  { l with record := recordOf (fun o => if o = 0x30 then 2 ||| ctl else if o = 0x38 then prio <<< 32
      else if o = 0x40 then 1 <<< 32 ||| 2 else if o = 0x48 then 4 else 0) }

/-- Four running launches with POLD and a waiting one of a higher PRIO. -/
def contended : State :=
  (([0, 1, 2, 3] : List (Fin 4)).foldl (fun s k => s.setSlot 0 k (some (withPolicy 0 0x4000 aLaunch)))
    (acting (fun t => { t with launch := some (0, 0) }))).modPart 0
    (fun x => { x with evalDue := true, queue := [withPolicy 1 0 { aLaunch with addr := 0x2000, state := 1, assigns := [] }] })

theorem contended_chooses : ∃ u s1 r k v, u = contended.trySuspendAll 0 ∧ (u.part 0).evalDue = true ∧ (u.part 0).preempt = none ∧
    (u.part 0).switching = false ∧ Decides u 0 ∧ u.requester 0 = some r ∧ u.victim 0 r = some (k, v) ∧
    (4, 1) = preemptRow v (v.remaining u.gts) (r.prio - v.prio) ∧
    u.logDecision 0 0x08 (r.addr ||| BitVec.ofNat 64 (8 * 4 + 1)) v.addr = some s1 := by
  obtain ⟨r, hr, hc⟩ := some_of (x := (contended.trySuspendAll 0).requester 0) (fun r =>
    someAnd ((contended.trySuspendAll 0).victim 0 r) (fun x =>
      decide ((4, 1) = preemptRow x.2 (x.2.remaining (contended.trySuspendAll 0).gts) (r.prio - x.2.prio)) &&
      someAnd ((contended.trySuspendAll 0).logDecision 0 0x08 (r.addr ||| BitVec.ofNat 64 (8 * 4 + 1)) x.2.addr) (fun _ => true)))
    (by decide +kernel)
  obtain ⟨⟨k, v⟩, hv, hd⟩ := some_of _ hc
  simp only [Bool.and_eq_true, decide_eq_true_eq] at hd
  obtain ⟨s1, h1, _⟩ := some_of _ hd.2
  exact ⟨_, s1, r, k, v, rfl, by decide +kernel, by decide +kernel, by decide +kernel, ⟨by decide +kernel, by decide +kernel⟩, hr, hv,
    hd.1, h1⟩

/-- A strand with a stop asked for, at an instruction word. -/
def stopping (k : StopKind) (w : Nat) (f : Strand → Strand) : State :=
  (({ State.reset.withFetchWord 64 w with cur := ⟨0, 8⟩ }).modStrand 0
    (fun t => f { t with launch := some (0, 0), stop := k })).setSlot 0 0 (some { aLaunch with safe := [(0, List.replicate 32 0)] })

/-- A suspended launch with one saved strand. -/
def suspended : State :=
  poke ((acting (fun t => { t with run := .free })).modPart 0
    (fun x => { x with queue := [{ aLaunch with state := 6, assigns := [], walkAddr := 0x50000000 }] })) 0x50000130 (leBytes 8 1)

/-- A LACQ that waits at the head of the M queue. -/
def aLacq : QEntry := { (default : QEntry) with seq := 5, instr := .lacq m0, holds := true }

theorem witness_PreemptionChoosesStopsAndResumes :
    (∃ u s1 r k v, u = contended.trySuspendAll 0 ∧ Decides u 0 ∧ u.requester 0 = some r ∧ u.victim 0 r = some (k, v) ∧
      u.logDecision 0 0x08 (r.addr ||| BitVec.ofNat 64 (8 * 4 + 1)) v.addr = some s1) ∧
    (∀ k : StopKind, ∃ s i, s = stopping k 0x07F0_0800_0000_0000 (fun t => { t with safeChecked := true }) ∧ StandsAt s 0 i ∧
      (s.strand 0).level = 0 ∧ (s.strand 0).drained = true ∧ s.lacqAt 0 = none ∧ s.peek 0 = some i ∧ (liveHere s 0 i).isSome = true) ∧
    (∃ s i, s = stopping .drain 0x06A0_0000_0000_0000 (fun t => { t with waiting := true }) ∧ (s.strand 0).level = 0 ∧
      (s.strand 0).drained = true ∧ s.lacqAt 0 = none ∧ s.drains 0 = true ∧ s.peek 0 = some i ∧ (s.strand 0).run = .running ∧ (s.strand 0).draining = none ∧
      Instr.isNext i = true ∧ (s.strand 0).holds (Instr.mods i) = true ∧ s.unitGranted 0 = false) ∧
    (∃ s, s = (launched aLaunch id).modPart 0 (fun x => { x with preempt := some ⟨0, 0, 5, 3, 0⟩ }) ∧
      s.slot 0 0 = some aLaunch ∧ (s.part 0).dying = [] ∧ s.vaHeld aLaunch.ctx aLaunch.addr = false ∧ ∃ s0 s1 s2, s.writeCover aLaunch = .ok s0 ∧
        s0.logState 0 aLaunch 5 = .ok s1 ∧ s1.writeStatus aLaunch 5 0 = .ok s2) ∧
    (∃ s e, s = acting (fun t => { queued 1 aLacq t with stop := .switch, nseq := 6 }) ∧ s.lacqAt 0 = some e ∧
      (s.strand 0).stop = .switch) ∧
    (∀ ctl, ctl = 0x4000 ∨ ctl = 0x1000 → ∃ s l, l = withPolicy 0 ctl aLaunch ∧
      s = { (launched l id).modPart 0 (fun x => { x with preempt := some ⟨0, 0, 3, 2, 0⟩ }) with gts := 1000000 } ∧
      s.slot 0 0 = some l ∧ (∃ a ∈ l.assigns, a.halted = false ∧ (s.strand a.strand).run = .running)) ∧
    (withPolicy 0 0x4000 aLaunch).pold = true := by
  refine ⟨?_, fun k => ?_, ?_, ⟨_, rfl, by decide +kernel, by decide +kernel, by decide +kernel, ?_⟩, ⟨_, aLacq, rfl, by decide +kernel, rfl⟩, ?_,
    by decide +kernel⟩
  · obtain ⟨u, s1, r, k, v, hu, _, _, _, hd, hr, hv, _, h1⟩ := contended_chooses
    exact ⟨u, s1, r, k, v, hu, hd, hr, hv, h1⟩
  · cases k <;>
    exact ⟨_, .nop ⟨⟨false, 0⟩, ⟨false, 0⟩, true, 0, 0⟩, rfl, ⟨by decide +kernel, .inl rfl, by decide +kernel⟩, by decide +kernel⟩
  · exact ⟨_, .next m0, rfl, by decide +kernel⟩
  · obtain ⟨s0, h0, hc⟩ := ok_of (x := ((launched aLaunch id).modPart 0 (fun x => { x with preempt := some ⟨0, 0, 5, 3, 0⟩ })).writeCover
      aLaunch) (fun s0 => loggedAnd (s0.logState 0 aLaunch 5) (fun s1 => okAnd (s1.writeStatus aLaunch 5 0) (fun _ => true)))
      (by decide +kernel)
    obtain ⟨s1, h1, hd⟩ := logged_of _ hc
    obtain ⟨s2, h2, _⟩ := ok_of _ hd
    exact ⟨s0, s1, s2, h0, h1, h2⟩
  · rintro ctl (rfl | rfl)
    · exact ⟨_, _, rfl, rfl, by decide +kernel⟩
    · exact ⟨_, _, rfl, rfl, by decide +kernel⟩

/-- The suspended launch as strand 0 joins it again, and the state in which it has its slot. -/
def resumedAs (l1 : Launch) : Launch :=
  { suspended.resumeAssigns l1 [0] with
    saved := [], savedEntries := [], state := 2, started := suspended.ticks, runSince := suspended.gts }

def resumedState (s1 : State) (l l1 l3 : Launch) (k : Fin 4) : State :=
  let s2 := (s1.unqueue 0 l).setSlot 0 k (some l3)
  { s2 with orbuf := s2.orbuf ++ l1.savedEntries.map (fun e => { e with slot := k }) }

/-- The suspended launch takes the one free strand. -/
theorem witness_launch_resumes : ∃ l l1 l3 k s1 s4, suspended.headLaunch 0 = some l ∧ suspended.freeSlot 0 = some k ∧ l.state = 6 ∧
    suspended.vaHeld l.ctx l.addr = false ∧ suspended.walkRecordDue l = none ∧ l1 = suspended.readWalk l ∧ l1.saved.length = 1 ∧
    (suspended.freeStrands 0 l).take 1 = [0] ∧ suspended.logDecision 0 0x06 0 l.addr = some s1 ∧ suspended.walkerFree 0 = true ∧
    l3 = resumedAs l1 ∧ (resumedState s1 l l1 l3 k).writeStatus l3 2 0 = .ok s4 := by
  obtain ⟨l, hl, hc⟩ := some_of (x := suspended.headLaunch 0) (fun l => l.state == 6 && !suspended.vaHeld l.ctx l.addr && (suspended.walkRecordDue l).isNone &&
    (suspended.readWalk l).saved.length == 1 && (suspended.freeStrands 0 l).take 1 == [0] &&
    someAnd (suspended.logDecision 0 0x06 0 l.addr) (fun s1 => okAnd ((resumedState s1 l (suspended.readWalk l)
      (resumedAs (suspended.readWalk l)) 0).writeStatus (resumedAs (suspended.readWalk l)) 2 0) (fun _ => true))) (by decide +kernel)
  simp only [Bool.and_eq_true, Bool.not_eq_true', beq_iff_eq, Option.isNone_iff_eq_none] at hc
  obtain ⟨s1, h1, hd⟩ := some_of _ hc.2
  obtain ⟨s4, h4, _⟩ := ok_of _ hd
  exact ⟨l, _, _, 0, s1, s4, hl, by decide +kernel, hc.1.1.1.1.1, hc.1.1.1.1.2, hc.1.1.1.2, rfl, hc.1.1.2, hc.1.2, h1, by decide +kernel, rfl, h4⟩

/-- An MZERO that waits at the head of the M queue, and a load that waits for its engine. -/
def aWaiting : QEntry :=
  { (default : QEntry) with seq := 5, instr := .mzero m0 .int32 9 0, holds := true, leasectl := leasectlReset, asked := 1, pc := 0 }

def aLoad : QEntry :=
  { (default : QEntry) with seq := 5, instr := .tld m0 ⟨0, 0⟩ 9, holds := true, leasectl := leasectlReset, asked := 1 }

/-- A strand that holds the lease of Pod 0. -/
def leased (done idle : Nat) (f : Strand → Strand) : State :=
  (acting f).modPod 0 (fun p => { p with lease := ⟨some 0, 64, done, idle, none⟩ })

theorem witness_LeaseAndEnginesArbitrate :
    (∃ s, s = acting (queued 1 aWaiting) ∧ (s.pod 0).lease.holder = none ∧ (s.pod 0).lease.owed = none ∧
      s.arrayBusy 0 = false ∧ s.leasePart 0 = some 0 ∧
      (s.part 0).sched.rpl = false ∧ HasRoom (s.part 0).sched ∧ s.leaseRequests 0 ≠ []) ∧
    (∃ s, s = leased 64 0 id ∧ (s.pod 0).lease.holder = some 0 ∧ (s.pod 0).lease.owed = none ∧ (s.strand 0).matrixBusy = false ∧
      s.leaseReplays 0 = false ∧ HasRoom (s.part ((s.leasePart 0).getD (s.tagOf 0))).sched ∧
      (s.pod 0).lease.done ≠ 0 ∧ (s.pod 0).lease.run ≤ (s.pod 0).lease.done) ∧
    (∃ s, s = (leased 64 0 id).modPart 0 (fun x => { x with sched := ⟨true, false, 0x10000, 0, 0x11000, false, 0x11000⟩ }) ∧
      s.leaseReplays 0 = false ∧ ¬ HasRoom (s.part ((s.leasePart 0).getD (s.tagOf 0))).sched) ∧
    (∃ s, s = { leased 1 1 (queued 1 { aWaiting with tiles := [9] }) with ticks := 256 } ∧
      (s.strand 0).qhead? .M = some { aWaiting with tiles := [9] } ∧ (s.strand 0).matrixBusy = false ∧
      (s.strand 0).matrixBlocked = true ∧ s.leaseReplays 0 = false ∧ (s.pod 0).lease.idleSince ≠ 0 ∧
      (s.pod 0).lease.idleSince + aWaiting.leasectl.toNat / 2 ^ 16 % 2 ^ 16 ≤ s.ticks + 1) ∧
    (∃ s, s = { acting (queued 1 aWaiting) with ticks := 2560 } ∧ (s.strand 0).qhead? .M = some aWaiting ∧ aWaiting.asked ≠ 0 ∧
      aWaiting.asked + (aWaiting.leasectl.toNat / 2 ^ 32 % 2 ^ 16 - 1536) ≤ s.ticks + 1) ∧
    ∃ s, s = acting (queued 0 aLoad) ∧ engineSlot .load 0 = some 0 ∧ s.engineBusy 0 0 = false ∧
      ∃ n ∈ podStrands 0, (s.engineRequest 0 .load 0 n .L).isSome = true :=
  ⟨⟨_, rfl, by decide +kernel, by decide +kernel, by decide +kernel, by decide +kernel, by decide +kernel, room_off (by decide +kernel),
      by decide +kernel⟩,
    ⟨_, rfl, by decide +kernel, by decide +kernel, by decide +kernel, by decide +kernel, room_off (by decide +kernel), by decide +kernel⟩,
    ⟨_, rfl, by decide +kernel, fun h => absurd (h (by decide +kernel)).2 (by decide +kernel)⟩,
    ⟨_, rfl, by decide +kernel⟩, ⟨_, rfl, by decide +kernel⟩,
    ⟨_, rfl, rfl, by decide +kernel⟩⟩

/-! ### Witnesses: traps of the engines, switches, walks and safe points -/

/-- TRANSLATION at an address. -/
def aFault : TrapInfo := ⟨0x20, 0x7000, 0⟩

theorem witness_EngineFaultsAndAsyncTrapsEnter :
    (∃ s e, e = { aLoad with fault := some aFault } ∧ s = acting (fun t => { queued 0 e t with nseq := 6 }) ∧
      (s.strand 0).run = .running ∧ s.ctxOf 0 = some fetchCtx ∧ (s.strand 0).tlock = false ∧ (s.strand 0).level.val ≤ 1 ∧
      (s.strand 0).oldestFault = some (e, aFault) ∧ (s.strand 0).settledBefore e.seq = true ∧
      ∀ x ∈ (s.strand 0).queue .M, e.seq ≤ x.seq) ∧
    (∃ s, s = acting (fun t => { t with fault := some aFault }) ∧ (s.strand 0).oldestFault = none ∧
      (s.strand 0).fault = some aFault ∧ (s.strand 0).settledBefore (s.strand 0).nseq = true ∧ (s.strand 0).queue .M = []) ∧
    (∃ s i, s = stopping .none 0x07F0_0800_0000_0000 (fun t => { t with async := [aFault], safeChecked := true }) ∧
      (s.strand 0).async = [aFault] ∧ s.lacqAt 0 = none ∧ s.peek 0 = some i ∧ (s.strand 0).level = 0 ∧ (s.strand 0).drained = true ∧
      s.atSafePoint 0 i = true ∧ (s.strand 0).safeChecked = true) ∧
    (∃ s, s = acting (fun t => { queued 1 aLacq t with async := [aFault], nseq := 6 }) ∧ s.lacqAt 0 = some aLacq) ∧
    ∃ s, s = acting (fun t => { t with late := [0x40000000] }) ∧ (s.strand 0).late[0]? = some 0x40000000 ∧
      s.memError 0x40000000 ≠ some true ∧
      ({ s with mgmt := { s.mgmt with errHbm := [(0x40000000, true)] } } : State).memError 0x40000000 = some true :=
  ⟨⟨_, _, rfl, rfl, by decide +kernel⟩,
    ⟨_, rfl, by decide +kernel⟩,
    ⟨_, .nop ⟨⟨false, 0⟩, ⟨false, 0⟩, true, 0, 0⟩, rfl, by decide +kernel⟩, ⟨_, rfl, by decide +kernel⟩,
    _, rfl, by decide +kernel⟩

/-- A launch of two strands, and one whose strand waits for its record. -/
def twoStrands : Launch := { aLaunch with assigns := aLaunch.assigns ++ [⟨1, 1, 4, false, false, false, none, [], 0, 0, none⟩] }

def awaiting : Launch := { aLaunch with assigns := [⟨0, 0, 3, false, false, false, none, [], 0, 0, some 0x50000000⟩] }

/-- Two virtual functions of partition 0, the first resident and the second with a launch that could run. -/
def twoVfs : State :=
  { base.modPart 0 (fun x => { x with resident := some 0, queue := [{ aLaunch with ctx := 2, state := 1, assigns := [] }] }) with
    ctxs := [fetchCtx, { fetchCtx with num := 2, vf := 1 }]
    mgmt := { base.mgmt with vfs := [⟨0, 0, 0, 100, none⟩, ⟨1, 0, 0, 100, none⟩] }, gts := 100000 }

theorem witness_SwitchesWalksAndSafePointEvents :
    (∃ s, s = launched twoStrands (fun t => { t with run := .stopped, stop := .switch }) ∧ s.slot 0 0 = some twoStrands ∧
      s.ctxOf 0 = some fetchCtx ∧ (s.strand 0).run = .stopped ∧ s.machineEmpty 0 = true ∧
      (∀ e ∈ (s.strand 0).entries, (s.strand 0).heldCpyd e = true) ∧ twoStrands.awaits 0 = false ∧
      ∃ s1, (s.sinkAll 0).saveOpen 0 fetchCtx = (s1, true) ∧ s1.allSunk 0 = true ∧ s1.slot 0 0 = some twoStrands ∧
        s1.blockedIn (s1.saveArea 0 fetchCtx) saveAreaBytes = none ∧ ∃ x ∈ twoStrands.assigns, x.strand ≠ 0 ∧ x.halted = false) ∧
    (∃ s, s = poke (launched awaiting (fun t => { t with run := .stopped })) 0x50000000 (leBytes 8 (2 ^ 48)) ∧
      s.slot 0 0 = some awaiting ∧ (s.strand 0).run = .stopped ∧ (awaiting.assign? 0).bind (·.record) = some 0x50000000 ∧
      cohNumber s 0x50000000 8 / 2 ^ 48 = 1 ∧ s.dueIn 0x50000000 saveAreaBytes = none ∧
      s.relockDue fetchCtx (lockAddrs (s.cohN 0x50000000 65536)) = none) ∧
    ((twoVfs.part 0).resident = some 0 ∧ (twoVfs.part 0).switching = false ∧
      twoVfs.quiescedPart 0 = false ∧ (twoVfs.nextVf 0 0).isSome = true ∧ (twoVfs.part 0).sliceStart + 100 * 1000 ≤ twoVfs.gts) ∧
    (∃ s u, s = twoVfs.modPart 0 (fun x => { x with switching := true }) ∧ u = s.trySuspendAll 0 ∧ u.partEmpty 0 = true) ∧
    (∃ s e, s = launched aLaunch id ∧ s.walk fetchCtx 0x3FFFFFFF = some e ∧ s.walkDue fetchCtx 0x3FFFFFFF = none ∧
      s.holdsContext 0 = true ∧ (∀ x ∈ (s.strand 0).tlb, x.covers 1 0x3FFFFFFF = false) ∧
      ∀ x ∈ (s.pod 0).tlb, x.covers 1 0x3FFFFFFF = false) ∧
    (∃ s, s = stopping .none 0x07F0_0800_0000_0000 (fun t => { t with debugReq := true }) ∧ s.standsSafe 0 = true) ∧
    ∃ s i l o, s = stopping .none 0x07F0_0800_0000_0000 (fun t => { t with traceReq := true }) ∧ s.standsSafe 0 = true ∧
      s.peek 0 = some i ∧ s.launchOf 0 = some l ∧ l.safeOrdinal (Instr.stopBit i) (s.strand 0).pc = some o := by
  refine ⟨⟨_, rfl, by decide +kernel, by decide +kernel, by decide +kernel, by decide +kernel, by decide +kernel, by decide +kernel,
      _, Prod.ext rfl (by decide +kernel), by decide +kernel⟩, ⟨_, rfl, by decide +kernel⟩, by decide +kernel,
    ⟨_, _, rfl, rfl, by decide +kernel⟩, ?_, ⟨_, rfl, by decide +kernel⟩,
    ⟨_, .nop ⟨⟨false, 0⟩, ⟨false, 0⟩, true, 0, 0⟩, { aLaunch with safe := [(0, List.replicate 32 0)] }, 0, rfl, by decide +kernel⟩⟩
  obtain ⟨e, h, _⟩ := some_of (x := (launched aLaunch id).walk fetchCtx 0x3FFFFFFF) (fun _ => true) (by decide +kernel)
  exact ⟨_, e, rfl, h, by decide +kernel⟩

/-! ### Witnesses: firmware commands -/

/-- A command of the operator, and one of a node that is not the operator's. -/
def opCmd : Cmd := ⟨Config.operatorNode, 0, 1⟩
def otherCmd : Cmd := ⟨Config.operatorNode + 1, 0, 1⟩

theorem opCmd_accepts {s : State} (he : s.mgmt.executing = none) (hf : s.mgmt.failedStart = false) (hc : s.mgmt.committing = false)
    (vf : Bool) : Accepts s opCmd vf := ⟨by simp [State.otherCommand, he], hf, hc, by simp [State.mayIssue, Cmd.operator, opCmd]⟩

theorem base_accepts (vf : Bool) : Accepts base opCmd vf := opCmd_accepts (by decide +kernel) (by decide +kernel) (by decide +kernel) vf

/-- A denied command, one after a failed start; a layout to prepare, to quiesce for, to swap in and to clean up after; frames to
grant; an address to inject an error at. -/
theorem witness_OperatorCommandsAct :
    (operatorCommand (.counterPolicy otherCmd 0) = some otherCmd ∧ base.otherCommand otherCmd = false ∧ base.mgmt.failedStart = false ∧
      base.mayIssue otherCmd false = false) ∧
    (managed (fun m => { m with executing := some (Config.operatorNode + 1, 2) })).otherCommand opCmd = true ∧
    ((managed (fun m => { m with failedStart := true })).mgmt.failedStart = true ∧ ∀ im, Instr.pageGrant opCmd 0 1 0 ≠ .fwUpdate opCmd im) ∧
    (Accepts base opCmd false ∧ base.mgmt.journal ≠ .prepared ∧ layoutGood (List.replicate 1120 0xFF) = true) ∧
    (∃ s, s = managed (fun m => { m with journal := .prepared, shadow := some Layout.reset }) ∧ Accepts s opCmd false ∧
      s.mgmt.journal = .prepared ∧ s.affected 0 = true) ∧
    (∃ s u l, s = { managed (fun m => { m with
          journal := .prepared, shadow := some Layout.reset, committing := true, commitSeq := 1 }) with
          ctxs := [], strands := State.reset.strands } ∧
      s.mayIssue opCmd false = true ∧ s.mgmt.commitSeq = opCmd.seq ∧ u = allParts.foldl State.trySuspendAll s ∧
      u.mgmt.journal = .prepared ∧ u.mgmt.shadow = some l ∧ u.quiesceDone = true) ∧
    (base.vfContexts 1).isEmpty = true ∧
    (∃ s, s = managed (fun m => { m with owners := [], layout := { m.layout with masks := List.replicate 48 (BitVec.allOnes 64) } }) ∧
      Accepts s opCmd false ∧ ∀ f, 32768 ≤ f → f < 32768 + 2 → s.grantable 0 f = true) ∧
    (homeDie (0x40000000 : Word).toNat).isSome = true := by
  refine ⟨⟨rfl, ?_, by decide +kernel, ?_⟩, ?_, ⟨rfl, fun _ => by simp⟩, ⟨base_accepts _, by decide +kernel⟩,
    ⟨_, rfl, opCmd_accepts (by decide +kernel) (by decide +kernel) (by decide +kernel) _, rfl, by decide +kernel⟩,
    ⟨_, _, Layout.reset, rfl, by simp [State.mayIssue, Cmd.operator, opCmd], by decide +kernel, rfl, by decide +kernel⟩,
    by decide +kernel, ⟨_, rfl, opCmd_accepts (by decide +kernel) (by decide +kernel) (by decide +kernel) _, fun f h1 h2 => ?_⟩, by decide +kernel⟩
  · have he : base.mgmt.executing = none := by decide +kernel
    simp [State.otherCommand, he]
  · simp [State.mayIssue, Cmd.operator, otherCmd]
  · simp [State.otherCommand, managed, Cmd.key, opCmd]
  · obtain rfl | rfl : f = 32768 ∨ f = 32769 := by omega
    · decide +kernel
    · decide +kernel

/-- An object that holds the revision note alone. -/
def anObject : List Byte :=
  [0x7F, 0x45, 0x4C, 0x46, 2, 1, 0, 0] ++ List.replicate 8 0 ++ leBytes 2 2 ++ leBytes 2 0x0CF7 ++ List.replicate 20 0 ++
  leBytes 8 64 ++ List.replicate 10 0 ++ leBytes 2 64 ++ leBytes 2 1 ++ List.replicate 2 0 ++
  List.replicate 4 0 ++ leBytes 4 7 ++ List.replicate 16 0 ++ leBytes 8 128 ++ leBytes 8 24 ++ List.replicate 24 0 ++
  leBytes 4 7 ++ leBytes 4 4 ++ leBytes 4 0x80000001 ++ [0x43, 0x61, 0x6D, 0x78, 0x69, 0x61, 0, 0] ++ leBytes 4 2

/-- Virtual function 0 bound to partition 0, and no strand of the context. -/
def bound : State := { managed (fun m => { m with vfs := [⟨0, 0, 0, 100, none⟩] }) with strands := State.reset.strands }

theorem bound_acceptsFor : AcceptsFor bound opCmd 1 fetchCtx :=
  ⟨opCmd_accepts (by decide +kernel) (by decide +kernel) (by decide +kernel) _, by decide +kernel, .inl (by simp [Cmd.operator, opCmd])⟩

/-- Frames of one grant above the context area and the root table are all spare. -/
theorem spare_frames {s : State} {area root f k : Nat} (ho : s.mgmt.owners = [⟨f, k, 0, none⟩]) (hp : s.mgmt.poisoned = [])
    (ha : f + k ≤ area / 65536) (hr : root / 65536 < f) : (s.spareFrames 0 area root).length = k := by
  unfold State.spareFrames
  rw [ho, hp, List.length_reverse, List.filter_eq_self.2]
  · simp
  · intro x hx
    simp only [List.filter_cons, List.filter_nil, List.map_cons, List.map_nil, beq_self_eq_true, Bool.and_self, if_true,
      List.flatten_cons, List.flatten_nil, List.append_nil, List.mem_map, List.mem_range] at hx
    obtain ⟨i, hi, rfl⟩ := hx
    simp
    omega

theorem witness_ContextCommandsAct :
    (contextCommand (.stop opCmd 2) = some (opCmd, 2) ∧ Accepts base opCmd true ∧ base.liveCtx 2 = none) ∧
    (∃ s c, s = managed (fun m => { m with vfs := [⟨0, 0, 0, 100, none⟩, ⟨1, 0, Config.operatorNode + 1, 100, none⟩] }) ∧
      c = { otherCmd with vf := 1 } ∧ Accepts s c true ∧ s.liveCtx 1 = some fetchCtx ∧ Cmd.operator c = false ∧ fetchCtx.vf ≠ c.vf) ∧
    (∃ s b, s = managed (fun m => { m with vfs := [⟨0, 0, 0, 100, none⟩], owners := [⟨0x2000, 5000, 0, none⟩] }) ∧
      s.mgmt.vfs.find? (fun b => b.vf == opCmd.vf) = some b ∧ CreateGood s b 0x50000000 0x1000 0x8000 0x100000 0 0 0) ∧
    AcceptsFor bound opCmd 1 fetchCtx ∧ bound.ctxBusy fetchCtx = false ∧ (launched aLaunch id).ctxBusy fetchCtx = true ∧ fetchCtx.quiesced = false ∧
    fetchCtx.stopped = false ∧ bound.ctxQuiet fetchCtx.num = true ∧ bound.ctxEmpty fetchCtx = true ∧
    bound.logConfigGood fetchCtx 1 0x10000 0 0 0 0 = true ∧ (bound.part 0).ready = [] ∧
    (fetchCtx.quiesced = false ∧ (bound.part 0).queue = [] ∧ bound.poisonedOf fetchCtx = []) ∧
    (bound.destroyable opCmd 1 = some fetchCtx ∧
      (bound.modCtx 1 (fun k => { k with live := false, terminating := some 0 })).destroyable opCmd 1 = none ∧
      ∃ u, u = ((bound.terminate fetchCtx.num 0 false).retryDying fetchCtx.part).endDying fetchCtx ∧
        ∀ d ∈ (u.part fetchCtx.part).dying, d.1.ctx ≠ fetchCtx.num) ∧
    (∃ bs, bound.loadBytesVa fetchCtx 0x1000 256 = .ok bs) ∧
    bound.logDue fetchCtx 1 0x10000 0 0 0 0 = none ∧
    (∃ u m, (poke bound 0x40001000 anObject).loadObject fetchCtx 0x1000 0x100000 = .ok u m) ∧
    (∃ u, (bound.modPart 0 (fun x => { x with queue := List.replicate 16 aLaunch })).acceptLaunch 0 fetchCtx 0x1000 = .refused u) ∧
    (∃ s, s = poke (poke (poke bound 0x50000000 (leBytes 8 2)) 0x50000008 (leBytes 8 65535)) 0x50000010 (leBytes 2 1) ∧
      cohNumber s 0x50000000 8 = 0 * 2 ^ 32 + 2 ∧ cohNumber s 0x50000008 8 = 65535 ∧
      (∀ x ∈ [0x50000000, 0x50000000 + 15, 0x50000000 + 15 + 2 * 2], (homeDie x).isSome = true ∧ x / 65536 ∉ s.mgmt.poisoned ∧
        ∃ e, s.ownerOf? (x / 65536) = some e ∧ e.part = 0) ∧
      s.dueIn 0x50000000 16 = none ∧ s.dueIn 0x50000000 (16 + 2 * 2) = none) ∧
    bound.mgmt.leaf < 2 ^ 40 ∧ (∃ bs, bound.loadBytesVa fetchCtx 0x2000 32 = .ok bs) := by
  have ok1 := ok_of (x := bound.loadBytesVa fetchCtx 0x1000 256) (fun _ => true) (by decide +kernel)
  have ok2 := ok_of (x := bound.loadBytesVa fetchCtx 0x2000 32) (fun _ => true) (by decide +kernel)
  refine ⟨⟨rfl, base_accepts _, by decide +kernel⟩, ⟨_, _, rfl, rfl, ⟨?_, by decide +kernel, by decide +kernel, ?_⟩, by decide +kernel, ?_,
    by decide +kernel⟩, ⟨_, ⟨0, 0, 0, 100, none⟩, rfl, by decide +kernel, ⟨?_, by decide +kernel, by decide +kernel, by decide,
      by decide +kernel, .inl rfl, by decide +kernel⟩⟩,
    bound_acceptsFor, four (by decide +kernel) (four (by decide +kernel) ⟨by decide +kernel,
      ⟨by decide +kernel, by decide +kernel, _, rfl, by decide +kernel⟩, ?_, by decide +kernel, ?_,
      ?_, ⟨_, rfl, by decide +kernel, by decide +kernel, fun x hx => ?_, by decide +kernel⟩, by decide +kernel, ?_⟩)⟩
  · have he : base.mgmt.executing = none := by decide +kernel
    simp [State.otherCommand, managed, he]
  · simp [State.mayIssue, State.issuerVf, Cmd.operator, otherCmd, managed]
  · simp [Cmd.operator, otherCmd]
  · rw [spare_frames (f := 0x2000) (k := 5000) rfl (by decide +kernel) (by decide) (by decide)]
    decide +kernel
  · obtain ⟨x, h, _⟩ := ok1; exact ⟨x, h⟩
  · have h : (match (poke bound 0x40001000 anObject).loadObject fetchCtx 0x1000 0x100000 with
        | .ok _ _ => true
        | _ => false) = true := by decide +kernel
    cases hv : (poke bound 0x40001000 anObject).loadObject fetchCtx 0x1000 0x100000 with
    | ok u m => exact ⟨u, m, rfl⟩
    | failed k => rw [hv] at h; cases h
    | waits t => rw [hv] at h; cases h
  · have h : (match (bound.modPart 0 (fun x => { x with queue := List.replicate 16 aLaunch })).acceptLaunch 0 fetchCtx 0x1000 with
        | .refused _ => true
        | _ => false) = true := by decide +kernel
    cases hv : (bound.modPart 0 (fun x => { x with queue := List.replicate 16 aLaunch })).acceptLaunch 0 fetchCtx 0x1000 with
    | refused u => exact ⟨u, rfl⟩
    | queued u => rw [hv] at h; cases h
    | failed k => rw [hv] at h; cases h
  · obtain ⟨e, h, hc⟩ := some_of (x := (poke (poke (poke bound 0x50000000 (leBytes 8 2)) 0x50000008 (leBytes 8 65535)) 0x50000010
        (leBytes 2 1)).ownerOf? (0x50000000 / 65536)) (fun e => e.part == 0) (by decide +kernel)
    obtain rfl | rfl | rfl : x = 0x50000000 ∨ x = 0x50000000 + 15 ∨ x = 0x50000000 + 15 + 2 * 2 := by simpa using hx
    all_goals exact ⟨by decide +kernel, by decide +kernel, e, h, by simpa using hc⟩
  · obtain ⟨x, h, _⟩ := ok2; exact ⟨x, h⟩

/-! ### Witnesses: messages, replays, counters and records -/

/-- Context 1 exports the page at 0x4000_0000, and node 0 is a virtual function's host. -/
def exporting : State :=
  poke ({ base.modPart 0 (fun x => { x with exportCtx := some 1 }) with
    mgmt := { base.mgmt with vfs := [⟨0, 0, 0, 100, none⟩] } }) 0x1800 (tableEntry 0x2000)

theorem exporting_reaches : ∃ e, Reaches exporting 0 fetchCtx 120 (.read 8) 0x40000078 e ∧
    Reaches exporting 0 fetchCtx 0 (.write (List.replicate 128 7)) 0x40000000 e := by
  obtain ⟨⟨pa, e⟩, h, hc⟩ := some_of (x := exporting.exportByte fetchCtx (.read 8) 120) (fun x =>
    x.1 == 0x40000078 && !exporting.entryBad (.glob 0x40000078) (some x.2) && !exporting.entryBad (.glob 0x40000000) (some x.2) &&
    exporting.exportByte fetchCtx (.write (List.replicate 128 7)) 0 == some (0x40000000, x.2) &&
    exporting.exportDue fetchCtx 120 == none && exporting.exportDue fetchCtx 0 == none) (by decide +kernel)
  simp only [Bool.and_eq_true, beq_iff_eq, Bool.not_eq_true'] at hc
  obtain ⟨⟨⟨⟨⟨rfl, h1⟩, h2⟩, h3⟩, h4⟩, h5⟩ := hc
  exact ⟨e, { exporter := by decide +kernel, unheld := h4, place := h, good := h1, readable := by decide +kernel,
                  free := by decide +kernel, sound := by decide +kernel, held := .inr (by decide +kernel), within := by decide },
    { exporter := by decide +kernel, unheld := h5, place := h3, good := h2, readable := by decide +kernel,
      free := by decide +kernel, sound := by decide +kernel, held := .inr (by decide +kernel), within := by decide +kernel }⟩

def colliding : State :=
  { (acting (fun t => { queued 0 aColl t with stop := .switch })).modPart 0 (fun x => { x with groups := [aGroup] }) with
    gts := 10000000 }

theorem witness_MessagesAct :
    (exporting.tenantPart 1 = none ∧ exporting.tenantPart 0 = some 0 ∧ exporting.hostAllowed 0 0 = true ∧
      base.hostAllowed (Config.operatorNode + 1) 0 = false ∧ base.exporter? 0 = none) ∧
    (∃ e, Reaches exporting 0 fetchCtx 120 (.read 8) 0x40000078 e ∧ OneItem 120 8 ∧
      Reaches exporting 0 fetchCtx 0 (.write (List.replicate 128 7)) 0x40000000 e ∧ OneItem 0 (List.replicate 128 (7 : Byte)).length) ∧
    (4096 ≤ 4096 ∧ 4095 < 4096 ∧ ¬ OneItem 0 (MsgOp.bytes (.read 4)) ∧ ¬ OneItem 4 (MsgOp.bytes (.read 8)) ∧
      exporting.syncBusy (.glob 0x40000078) = false) ∧
    ((∀ x ∈ linePieces 0x7F 2, exporting.exportDue fetchCtx x.1 = none) ∧
      (∀ data, data = .inl 2 ∨ data = .inr [7, 8] → exporting.bulkPlaces fetchCtx (bulkOp data) (linePieces 0x7F (opBytes (bulkOp data))) =
        some [(0x4000007F, 1), (0x40000080, 1)]) ∧
      exporting.bulkPlaces fetchCtx (.write [7]) (linePieces 0x7F 1) = some [(0x4000007F, 1)] ∧
      exporting.exportByte fetchCtx (.read 2) (2 ^ 36) = none ∧ Memory.wf exporting.mem = true ∧
      (∀ x ∈ [(0x4000007F, 1), (0x40000080, 1)], exporting.lineBlocked x.1 = false ∧
        exporting.memUnreadable (x.1 / 128 * 128) = false) ∧
      ∃ s, s = managed (fun m => { m with errHbm := [(0x40000080, true)] }) ∧ s.memUnreadable 0x40000080 = true) ∧
    (∃ e, (colliding.strand 0).entry? 5 = some e ∧ e.atRendezvous = true ∧ e.work.nums[0]? = some 3 ∧ e.work.nums[5]? = some 9 ∧
      e.work.nums[6]? = some 0 ∧ colliding.collGroup? 0 3 = some aGroup ∧ 0 + aGroup.trdv * 1000000 ≤ colliding.gts ∧
      colliding.rendezvous 0 aGroup 9 = none) ∧
    (colliding.strand 0).ctx = some 1 ∧ (colliding.strand 0).stop ≠ .none ∧ (colliding.strand 0).stop ≠ .debug ∧
    (colliding.strand 0).stopAt + 10000000 ≤ colliding.gts ∧ (colliding.strand 0).inRendezvous = true := by
  obtain ⟨e, h1, h2⟩ := exporting_reaches
  have h0 : base.hostAllowed (Config.operatorNode + 1) 0 = false := by
    have hv : base.mgmt.vfs = [] := by decide +kernel
    simp [State.hostAllowed, hv]
  have h3 : exporting.hostAllowed 0 0 = true := by
    have hv : exporting.mgmt.vfs = [⟨0, 0, 0, 100, none⟩] := by decide +kernel
    simp [State.hostAllowed, hv]
  exact ⟨⟨by decide +kernel, by decide +kernel, h3, h0, by decide +kernel⟩, ⟨e, h1, .inl (by decide), h2, .inr ⟨List.length_replicate, by decide⟩⟩,
    ⟨by decide, by decide, by simp [OneItem, MsgOp.bytes], by simp [OneItem, MsgOp.bytes], by decide +kernel⟩,
    ⟨by decide +kernel, fun d hd => by rcases hd with rfl | rfl <;> decide +kernel, by decide +kernel, by decide +kernel,
      by decide +kernel, by decide +kernel, _, rfl, by decide +kernel⟩,
    ⟨aColl, by decide +kernel⟩, by decide +kernel⟩

/-- A sequencer's recorded decision of partition 0. -/
def decision (type w2 : Nat) : Record := ⟨0x10000, [0, BitVec.ofNat 64 (256 <<< 55 + type <<< 49), BitVec.ofNat 64 w2, 0x1000], false⟩

/-- Partition 0 replays a log of one record. -/
def replaying (r : Record) (l : Launch) : State :=
  (base.modPart 0 (fun x => { x with
    sched := { x.sched with rpl := true }, mo := { x.mo with rpl := true }, recSched := [r], rwin := 1, logCtx := 1 })).setSlot 0 0 (some l)

/-- A recorded synchronising access of a strand to line 1, its strand's first. -/
def heldRecord (n : Nat) : Record := ⟨0x20000, [0, BitVec.ofNat 64 (n <<< 55 + 0x21 <<< 49), BitVec.ofNat 64 (1 <<< 14), 0], false⟩

theorem witness_ReplaysCountersAndRecordsAct :
    (∃ s u, s = (replaying (decision 0x01 (4 <<< 16)) { aLaunch with nextUnit := [1, 0, 0, 0], assigns := [] }).modStrand 0
        (fun t => { t with run := .free }) ∧
      (s.part 0).sched.rpl = true ∧ s.walkerFree 0 = true ∧ s.nextDecision 0 = some (0, decision 0x01 (4 <<< 16)) ∧
      s.redo 0 (decision 0x01 (4 <<< 16)) = .made u ∧ (u.part 0).stalled = false) ∧
    (∃ s l, l = { overwriter with permits := [(0, [])] } ∧ s = replaying (decision 0x02 0) l ∧ (decision 0x02 0).type = 0x02 ∧
      s.slotAt 0 ((decision 0x02 0).words.getD 3 0) = some (0, l) ∧ l.nextSkip = some 0 ∧ HasRoom (s.part 0).sched) ∧
    (∃ s, s = replaying (decision 0x01 5) aLaunch ∧ (decision 0x01 5).type = 0x01 ∧ (decision 0x01 5).strand = some 5 ∧
      s.partOf 5 ≠ some 0 ∧ s.ctx? (s.divergeCtx 0 (some (decision 0x01 5))) = some fetchCtx) ∧
    (∃ s, s = { (replaying (decision 0x01 5) aLaunch).modPart 0 (fun x => { x with
        holdSince := [(0, 0)], recMo := [heldRecord 1, heldRecord 0] }) with gts := 1000 } ∧
      (s.part 0).holdSince.find? (fun h => h.1 == 0) = some (0, 0) ∧ (s.part 0).mo.rpl = true ∧ s.tagOf 0 = 0 ∧
      s.recordedNext 0 = some (1, heldRecord 0) ∧ firstOfLine (s.part 0) 1 (heldRecord 0) = false ∧
      (s.strand 0).run = .running ∧ 0 + (s.part 0).rwin * 1000 ≤ s.gts ∧ s.ctxOf 0 = some fetchCtx ∧ (s.strand 0).idle = true ∧
      (s.strand 0).tlock = false ∧ (s.strand 0).level.val ≤ 1) ∧
    (∃ s, s = { (replaying (decision 0x01 5) aLaunch).modPart 0 (fun x => { x with repPos := 1 }) with gts := 1000 } ∧
      s.nextDecision 0 = none ∧ s.decisionWanted 0 = true ∧ s.ctx? (s.part 0).logCtx = some fetchCtx ∧ s.walkerFree 0 = true ∧
      (s.part 0).repSince + (s.part 0).rwin * 1000 ≤ s.gts) ∧
    (∃ s, s = { replaying (decision 0x04 5) aLaunch with gts := 1000 } ∧
      s.nextDecision 0 = some (0, decision 0x04 5) ∧ s.decisionWanted 0 = true) ∧
    (∃ s, s = managed (fun m => { m with wraps := [(0, some 0, 0, some 0, 0)] }) ∧
      s.mgmt.wraps.find? (fun w => w.1 == 0 && w.2.1 == some 0 && w.2.2.1 == 0) = some (0, some 0, 0, some 0, 0) ∧ isStall 0 = false) ∧
    (∃ s c, s = { managed (fun m => { m with wraps := [(0, some 0, c, none, 1024000), (0, some 0, c, none, 1024001)] }) with
        gts := 1024001 } ∧ isStall c = true ∧
      (s.part 0).lastRefresh / (2 ^ (s.mgmt.cntpol.toNat / 2 ^ 8 % 2 ^ 5) * 1000) <
        s.gts / (2 ^ (s.mgmt.cntpol.toNat / 2 ^ 8 % 2 ^ 5) * 1000) ∧
      1024000 ≤ s.gts / (2 ^ (s.mgmt.cntpol.toNat / 2 ^ 8 % 2 ^ 5) * 1000) * (2 ^ (s.mgmt.cntpol.toNat / 2 ^ 8 % 2 ^ 5) * 1000) ∧
      s.gts / (2 ^ (s.mgmt.cntpol.toNat / 2 ^ 8 % 2 ^ 5) * 1000) * (2 ^ (s.mgmt.cntpol.toNat / 2 ^ 8 % 2 ^ 5) * 1000) < 1024001 ∧
      (s.part 0).snapshots = none) ∧
    (∃ s u, s = base.modPart 0 (fun x => { x with ready := [decision 0x01 5], logCtx := 1 }) ∧
      (s.part 0).ready[0]? = some (decision 0x01 5) ∧ s.ctx? (s.part 0).logCtx = some fetchCtx ∧
      (s.modPart 0 (fun x => { x with ready := x.ready.eraseIdx 0 })).storeBytesVa fetchCtx 0x10000
        (((decision 0x01 5).words.map (fun w => natBytes 8 w.toNat)).flatten) = .ok u) ∧
    ∃ s, s = acting (fun t => { t with want := [(0x40000000, 2)] }) ∧
      (s.strand 0).want.find? (fun w => w.2 == 2) = some (0x40000000, 2) ∧ s.dedupError 0x40000000 ≠ some true ∧
      Held s 0x40000000 := by
  refine ⟨?_, ⟨_, _, rfl, rfl, by decide +kernel, by decide +kernel, by decide +kernel, room_off (by decide +kernel)⟩,
    ⟨replaying (decision 0x01 5) aLaunch, rfl, by decide +kernel⟩, ⟨_, rfl, by decide +kernel⟩, ⟨_, rfl, by decide +kernel⟩,
    ⟨{ replaying (decision 0x04 5) aLaunch with gts := 1000 }, rfl, by decide +kernel⟩, ⟨_, rfl, by decide⟩,
    ⟨_, 1, rfl, by decide +kernel⟩, ?_,
    ⟨_, rfl, by decide +kernel, by decide +kernel, .inr (by decide +kernel)⟩⟩
  · have h : (match ((replaying (decision 0x01 (4 <<< 16)) { aLaunch with nextUnit := [1, 0, 0, 0], assigns := [] }).modStrand 0
        (fun t => { t with run := .free })).redo 0 (decision 0x01 (4 <<< 16)) with
        | .made u => !(u.part 0).stalled
        | _ => false) = true := by decide +kernel
    cases hv : ((replaying (decision 0x01 (4 <<< 16)) { aLaunch with nextUnit := [1, 0, 0, 0], assigns := [] }).modStrand 0
        (fun t => { t with run := .free })).redo 0 (decision 0x01 (4 <<< 16)) with
    | made u =>
      rw [hv] at h
      exact ⟨_, u, rfl, by decide +kernel, by decide +kernel, by decide +kernel, hv, by simpa using h⟩
    | later => rw [hv] at h; cases h
    | notOwned => rw [hv] at h; cases h
  · obtain ⟨u, h, _⟩ := ok_of (x := ((base.modPart 0 (fun x => { x with ready := [decision 0x01 5], logCtx := 1 })).modPart 0
      (fun x => { x with ready := x.ready.eraseIdx 0 })).storeBytesVa fetchCtx 0x10000
        (((decision 0x01 5).words.map (fun w => natBytes 8 w.toNat)).flatten)) (fun _ => true) (by decide +kernel)
    exact ⟨_, u, rfl, by decide +kernel, by decide +kernel, h⟩

/-! ### Witnesses: errors, starts, records, steps -/

/-- The error registers show a report of a dirty line; page 0x4000 is context 1's, and page 0x4001 is partition 0's alone. -/
def reported (f : Mgmt → Mgmt) : State :=
  managed (fun m => f { m with
    owners := [⟨0x4000, 1, 0, some 1⟩, ⟨0x4001, 1, 0, none⟩], scepa := 0x40000000, sceinfo := 0xC000000000000000 })

theorem witness_ReleasesAndOwnersRead :
    (∃ s r, s = reported (fun m => { m with sceinfo := 0x8000000000000000, reports := [r] }) ∧ s.mgmt.sceinfo.getLsbD 63 = true ∧
      s.mgmt.sceinfo.getLsbD 62 = false ∧ s.mgmt.reports = [r] ∧ r = ⟨0x40000080, true, 0, 0, 0, 1⟩) ∧
    (∃ s l, s = { reported id with sc := [l] } ∧ l = { aLine with held := true } ∧ s.mgmt.sceinfo.getLsbD 63 = true ∧
      s.mgmt.sceinfo.getLsbD 62 = true ∧ s.scLine? s.mgmt.scepa.toNat = some l ∧ l.held = true) ∧
    (reported id).scLine? (reported id).mgmt.scepa.toNat = none ∧
    (reported id).ownerOf? 0x3FFF = none ∧ (∃ e, (reported id).ownerOf? 0x4001 = some e ∧ e.ctx = none) ∧
    ∃ e, (reported id).ownerOf? 0x4000 = some e ∧ e.ctx = some 1 ∧ 0x4000 = (reported id).mgmt.scepa.toNat / 65536 % 2 ^ 36 ∧
      e.part.val = field (reported id).mgmt.sceinfo 54 6 := by
  obtain ⟨e, h, hc⟩ := some_of (x := (reported id).ownerOf? 0x4001) (fun e => e.ctx == none) (by decide +kernel)
  obtain ⟨e', h', hc'⟩ := some_of (x := (reported id).ownerOf? 0x4000) (fun e => e.ctx == some 1 && e.part == 0) (by decide +kernel)
  simp only [Bool.and_eq_true, beq_iff_eq] at hc hc'
  refine ⟨⟨_, _, rfl, by decide +kernel, by decide +kernel, rfl, rfl⟩, ⟨_, _, rfl, rfl, by decide +kernel⟩, by decide +kernel,
    by decide +kernel, ⟨e, h, hc⟩, e', h', hc'.1, by decide +kernel, ?_⟩
  rw [hc'.2]
  decide +kernel

theorem witness_ErrorsAreReportedAndHandled :
    (∃ s, s = { base with sc := [aLine] } ∧ s.scLine? 0x40000000 = some aLine ∧ (homeDie aLine.pa).isSome = true ∧
      aLine.held = false ∧ s.mgmt.errTags.any (fun e => e.1 == aLine.pa) = false ∧ aLine.bad = false ∧ aLine.pa % 128 = 0 ∧
      (s.setLines 0 (setOf 0x40000000)).find? (fun l => l.way == 0) = some aLine ∧
      s.mgmt.errTags.find? (fun e => e.1 == aLine.pa) = none ∧ s.quarantinedWays 0 (setOf 0x40000000) < 8 ∧
      ∃ k, s.ctx? k.num = some k ∧ k.part ∈ s.presence 0 (setOf 0x40000000)) ∧
    (∀ dirty : Bool, ∃ s l, l = { aLine with bad := true, dirty := dirty } ∧ s = { base with sc := [l] } ∧
      s.scLine? 0x40000000 = some l ∧ l.held = false ∧ s.mgmt.sceinfo.getLsbD 63 = false ∧ s.memError l.pa ≠ some true) ∧
    (base.mgmt.reports = [] ∧ ∀ dirty : Bool, ∃ w : Word, w.getLsbD 63 = true ∧ w.getLsbD 62 = dirty) ∧
    (managed (fun m => { m with ports := 1 })).mgmt.ports.getLsbD 0 = true ∧
    ((∀ e, e = false → (managed (fun m => { m with errTiles := [(0, 7, e)] })).mgmt.errTiles.find?
      (fun x => x.1 == 0 && x.2.1 == 7) = some (0, 7, e)) ∧
      ∃ s r, r = { anEmptyTile with full := true, hdr := some default } ∧ s = acting (fun t => { t with tiles := [r] }) ∧
        (s.strand 0).tile? 7 = some r ∧ r.hdr = some default ∧ r.failed = none ∧ (default : Header).fmt ≠ .acc56) :=
  ⟨⟨_, rfl, four (by decide +kernel) (four (by decide +kernel) ⟨by decide +kernel, fetchCtx, by decide +kernel⟩)⟩,
    fun dirty => by cases dirty <;> exact ⟨_, _, rfl, rfl, by decide +kernel⟩,
    ⟨by decide +kernel, fun dirty => by cases dirty <;> [exact ⟨0x8000000000000000, by decide, by decide⟩;
      exact ⟨0xC000000000000000, by decide, by decide⟩]⟩, by decide +kernel,
    fun e he => by subst he; decide +kernel, _, _, rfl, rfl, by decide +kernel⟩

/-- The outcome of a cold start's steps is one of the two the statement tells apart, and a warm start, a time limit and a watchdog
reset have states that meet their premises (whether ROM accepts an image or a step succeeds is left open). -/
theorem witness_StartsLeaveWhatTheSpecKeeps :
    ((∀ k, 1 ≤ k → k ≤ 7 → coldStepOk base.mgmt.image k = true) ∨
      ∃ k, 1 ≤ k ∧ k ≤ 7 ∧ coldStepOk base.mgmt.image k = false ∧ ∀ j, 1 ≤ j → j < k → coldStepOk base.mgmt.image j = true) ∧
    (∃ s, s = { base with ctxs := [{ fetchCtx with live := false }] } ∧ (∀ k ∈ s.ctxs, k.live = false) ∧ s.sc = [] ∧
      s.mgmt.journal ≠ .prepared ∧ s.mgmt.journal ≠ .swapped) ∧
    (∃ s, s = { managed (fun m => { m with startedAt := some 0 }) with gts := 2000000000 } ∧ s.mgmt.startedAt = some 0 ∧
      0 + 2000000000 ≤ s.gts ∧ s.mgmt.warmFails < 2) ∧
    ∃ s, s = managed (fun m => { m with watchdogStopped := true, journal := .swapped, shadow := some Layout.reset }) ∧
      s.mgmt.watchdogStopped = true ∧ s.mgmt.journal = .swapped ∧ s.mgmt.shadow = some Layout.reset := by
  refine ⟨?_, ⟨_, rfl, by decide +kernel⟩,
    ⟨_, rfl, rfl, by decide +kernel⟩, ⟨_, rfl, rfl, rfl, rfl⟩⟩
  by_cases h : ∀ k, 1 ≤ k → k ≤ 7 → coldStepOk base.mgmt.image k = true
  · exact .inl h
  · refine .inr ?_
    have : ∃ k, 1 ≤ k ∧ k ≤ 7 ∧ coldStepOk base.mgmt.image k = false := by
      simp only [not_forall] at h
      obtain ⟨k, h1, h2, h3⟩ := h
      exact ⟨k, h1, h2, by simpa using h3⟩
    obtain ⟨h1, h2, h3⟩ := Nat.find_spec this
    refine ⟨Nat.find this, h1, h2, h3, fun j hj hlt => ?_⟩
    have := Nat.find_min this hlt
    simp only [not_and] at this
    simpa using this hj (by omega)

theorem witness_StrandRecordsGiveTheStrandBack : ∃ t : Strand, t = { mine base with image := [3, 4], tfloor := 1 } ∧
    t.pend = [] ∧ t.image.length ≤ 768 ∧ (∀ x ∈ t.image, x < 2 ^ 16) ∧ t.locks.length ≤ 128 ∧ t.fifo.length ≤ 16 ∧
    (∀ i : Fin 8, t.token i < 16) ∧ t.tfloor < 2 ^ 10 ∧ t.stkbase.toNat % 2 ^ 18 = 0 ∧ t.role < 3 ∧
    stklimStored (BitVec.ofNat 64 t.stklim) = t.stklim ∧ tsquotaStored (BitVec.ofNat 64 t.tsquota) = t.tsquota ∧
    leasectlStored t.leasectl = t.leasectl ∧ poolStored false t.qmin = t.qmin ∧ poolStored true t.qcap = t.qcap ∧
    (∀ r ∈ t.traps.toList, r.pc.toNat % 2 = 0 ∧ r.cause.toNat < 2 ^ 10) ∧ t.ordinal < 2 ^ 64 ∧ t.declared < 2 ^ 64 ∧ t.vdecs < 2 ^ 64 :=
  ⟨_, rfl, by decide +kernel⟩

theorem witness_DecodeOfEncodeGivesTheInstructionBack : ∃ i, WellFormed i ∧ encode i ≠ [] :=
  ⟨.movl m0 63 0xFFFFFFFFFFFFFFFF, by unfold WellFormed; decide, by decide⟩

/-- A strand's turn at a short word and at a long form, and an event's turn. -/
theorem witness_StepRunsTheDecodedInstruction :
    (∃ s i pa e bs, s = State.reset.withFetchWord 64 0x0010_0000_0924_B000 ∧ s.nextTurn = .strand 0 ∧
      (s.strand 0).run = .running ∧ (s.strand 0).faulted = false ∧ inBacking (s.strand 0).pc = false ∧ (s.strand 0).resultWait = false ∧
      (s.strand 0).drainArrived = false ∧ (s.strand 0).slot0 = false ∧ (s.strand 0).pc.toNat % 8 = 0 ∧
      s.ctxOf 0 = some fetchCtx ∧ s.translate (s.strand 0).tlb fetchCtx .exec (s.strand 0).pc = .ok (pa, e) ∧
      s.lineDue pa = false ∧ bs = s.codeBytes 0 (s.strand 0).pc pa ∧ bs.length = 8 ∧ s.holdsBefore 0 i = false ∧
      decode bs = .ok (i, [])) ∧
    (∃ s i pa e, s = State.reset.withFetchWord 128 0x0123_4567_89AB_CDEF_03C0_0000_0700_0000 ∧
      s.translate (s.strand 0).tlb fetchCtx .exec ((s.strand 0).pc + 8) = .ok (pa, e) ∧ s.lineDue pa = false ∧
      (s.codeBytes 0 ((s.strand 0).pc + 8) pa).length = 8 ∧
      decode (s.codeBytes 0 0 0x40000000 ++ s.codeBytes 0 ((s.strand 0).pc + 8) pa) = .ok (i, [])) ∧
    (({ base with agenda := [.event (.drop 0 (.phys 0))] } : State).nextTurn = .event (.drop 0 (.phys 0)) ∧
      encode (.drop 0 (.phys 0)) = [] ∧ base.romWrite (.pgpois 0) = none ∧ encode (.pgpois 0) = [] ∧
      ((reported id).romWrite (.pgpois 0x40000000)).isSome = true) ∧
    ∃ s, s = { State.reset.withFetchWord 64 0x0010_0000_0924_B000 with
        mgmt := { (State.reset.withFetchWord 64 0x0010_0000_0924_B000).mgmt with errHbm := [(0x40000000, false)] } } ∧
      s.lineDue 0x40000000 = true ∧ ∃ pa, s.nextOf 0 = .due pa := by
  refine ⟨?_, ?_, ⟨rfl, by decide, by decide +kernel⟩, _, rfl, by decide +kernel, ?_⟩
  · obtain ⟨⟨pa, e⟩, h, hc⟩ := ok_of (x := (State.reset.withFetchWord 64 0x0010_0000_0924_B000).translate
        ((State.reset.withFetchWord 64 0x0010_0000_0924_B000).strand 0).tlb fetchCtx .exec
        ((State.reset.withFetchWord 64 0x0010_0000_0924_B000).strand 0).pc) (fun x => x.1 == 0x40000000) (by decide +kernel)
    obtain rfl : pa = 0x40000000 := by simpa using hc
    exact ⟨_, .add m0 9 9 11, _, e, _, rfl, rfl, four (by decide +kernel) (four (by decide +kernel) ⟨h, by decide +kernel, rfl, by decide +kernel⟩)⟩
  · obtain ⟨⟨pa, e⟩, h, hc⟩ := ok_of (x := (State.reset.withFetchWord 128 0x0123_4567_89AB_CDEF_03C0_0000_0700_0000).translate
        ((State.reset.withFetchWord 128 0x0123_4567_89AB_CDEF_03C0_0000_0700_0000).strand 0).tlb fetchCtx .exec
        (((State.reset.withFetchWord 128 0x0123_4567_89AB_CDEF_03C0_0000_0700_0000).strand 0).pc + 8))
        (fun x => x.1 == 0x40000008) (by decide +kernel)
    obtain rfl : pa = 0x40000008 := by simpa using hc
    exact ⟨_, .movl m0 7 0x0123456789ABCDEF, _, e, rfl, h, by decide +kernel⟩
  · generalize hs : ({ State.reset.withFetchWord 64 0x0010_0000_0924_B000 with
        mgmt := { (State.reset.withFetchWord 64 0x0010_0000_0924_B000).mgmt with errHbm := [(0x40000000, false)] } } : State) = s
    have h : (match s.nextOf 0 with
        | .due _ => true
        | _ => false) = true := by
      rw [← hs]
      decide +kernel
    cases hv : s.nextOf 0 with
    | due pa => exact ⟨pa, rfl⟩
    | _ => rw [hv] at h; cases h

theorem test_fetch_memory_canonical : Memory.wf (fetchMemory [] 64 0x0010_0000_0924_B000) = true := by decide +kernel

/-- A state whose memories are canonical and that steps on. -/
theorem witness_EveryStepKeepsMemoryCanonical : ∃ s t : State, s = State.reset.withFetchWord 64 0x0010_0000_0924_B000 ∧
    Canonical s ∧ step s = .next t := by
  have h : (match step (State.reset.withFetchWord 64 0x0010_0000_0924_B000) with
      | .next _ => true
      | _ => false) = true := by decide +kernel
  cases hv : step (State.reset.withFetchWord 64 0x0010_0000_0924_B000) with
  | next t =>
    refine ⟨_, t, rfl, ⟨by decide +kernel, by decide +kernel, by decide +kernel, ?_⟩, hv⟩
    intro c hc l hl
    obtain rfl := List.mem_singleton.1 (show c ∈ [fetchCtx] from hc)
    exact absurd (show l ∈ [] from hl) (by simp)
  | fault f => rw [hv] at h; cases h
  | refused r => rw [hv] at h; cases h

end Sys2Proof.Tests
end

section
/-! SUPPORT. Control instructions that write one register (R118 to R129): the value each operation gives in the numbers of the
spec, the words of the layouts, and the statements about register, immediate and predicate forms. -/

namespace Sys2Proof.Machine

open Sys2Proof.Safety Sys2Proof.Claims

/-! ### What an operation gives, in the numbers of the spec (R120, R121) -/

theorem mul_eq_ofNat (a b : Word) : a * b = BitVec.ofNat 64 (a.toNat * b.toNat) := by
  simp [BitVec.ofNat_mul]

theorem divS_eq (a b : Word) :
    divS a b = if b = 0 then BitVec.ofInt 64 (-1) else BitVec.ofInt 64 (a.toInt.tdiv b.toInt) := by
  unfold divS
  split
  · rfl
  · exact BitVec.eq_of_toInt_eq (by rw [BitVec.toInt_sdiv, BitVec.toInt_ofInt])

theorem divU_eq (a b : Word) :
    divU a b = if b = 0 then BitVec.ofNat 64 (2 ^ 64 - 1) else BitVec.ofNat 64 (a.toNat / b.toNat) := by
  unfold divU
  split
  · rfl
  · exact BitVec.udiv_def

theorem remS_eq (a b : Word) :
    remS a b = if b = 0 then a else BitVec.ofInt 64 (a.toInt - b.toInt * a.toInt.tdiv b.toInt) := by
  unfold remS
  rw [← Int.tmod_def, ← BitVec.toInt_srem, BitVec.ofInt_toInt]

theorem remU_eq (a b : Word) : remU a b = if b = 0 then a else BitVec.ofNat 64 (a.toNat % b.toNat) := by
  unfold remU
  split
  · rfl
  · exact BitVec.umod_def

theorem shiftLeft_eq_ofNat (a : Word) (k : Nat) : a <<< k = BitVec.ofNat 64 (a.toNat * 2 ^ k) :=
  BitVec.eq_of_toNat_eq (by rw [BitVec.toNat_shiftLeft, BitVec.toNat_ofNat, Nat.shiftLeft_eq])

theorem shiftRight_eq_ofNat (a : Word) (k : Nat) : a >>> k = BitVec.ofNat 64 (a.toNat / 2 ^ k) := by
  rw [← Nat.shiftRight_eq_div_pow, ← BitVec.toNat_ushiftRight, BitVec.ofNat_toNat, BitVec.setWidth_eq]

theorem sshiftRight_eq_ofInt (a : Word) (k : Nat) : a.sshiftRight k = BitVec.ofInt 64 (a.toInt / 2 ^ k) := by
  rw [← BitVec.ofInt_toInt (x := a.sshiftRight k), BitVec.toInt_sshiftRight, Int.shiftRight_eq_div_pow, Nat.cast_pow,
    Nat.cast_ofNat]

theorem lea_eq (a b : Word) (k : Nat) : a + b <<< k = BitVec.ofNat 64 (a.toNat + b.toNat * 2 ^ k) := by
  rw [shiftLeft_eq_ofNat, BitVec.ofNat_add, BitVec.ofNat_toNat, BitVec.setWidth_eq]

/-- The two parts of a rotated word share no bit, and so their union is their sum. -/
theorem shiftLeft_or_shiftRight (a : Word) {j k : Nat} (h : j + k = 64) :
    a <<< j ||| a >>> k = BitVec.ofNat 64 (a.toNat * 2 ^ j + a.toNat / 2 ^ k) := by
  have disjoint : a <<< j &&& a >>> k = 0#64 := by
    ext i hi
    have high : j ≤ i → a.getLsbD (k + i) = false := fun hj => BitVec.getLsbD_of_ge _ _ (by omega)
    by_cases hj : i < j
    · simp [hj]
    · simp [high (by omega)]
  rw [← BitVec.add_eq_or_of_and_eq_zero _ _ disjoint, BitVec.ofNat_add, shiftLeft_eq_ofNat, shiftRight_eq_ofNat]

theorem rol_eq (a b : Word) :
    rol a b = BitVec.ofNat 64 (a.toNat * 2 ^ (b.toNat % 64) + a.toNat / 2 ^ (64 - b.toNat % 64)) := by
  rw [rol, BitVec.rotateLeft_def, shiftCount, Nat.mod_mod]
  exact shiftLeft_or_shiftRight a (by omega)

theorem ror_eq (a b : Word) :
    ror a b = BitVec.ofNat 64 (a.toNat / 2 ^ (b.toNat % 64) + a.toNat * 2 ^ (64 - b.toNat % 64)) := by
  rw [ror, BitVec.rotateRight_def, shiftCount, Nat.mod_mod, BitVec.or_comm, Nat.add_comm]
  exact shiftLeft_or_shiftRight a (by omega)

/-- A choice by `<` is one by `≤` where equals make no difference. -/
theorem ite_lt_eq_ite_le {α β : Type} [LinearOrder β] {p q : β} {x y : α} (h : p = q → x = y) :
    (if p < q then x else y) = if p ≤ q then x else y := by
  rcases lt_trichotomy p q with hlt | heq | hgt
  · rw [if_pos hlt, if_pos hlt.le]
  · rw [h heq, ite_self, ite_self]
  · rw [if_neg hgt.not_gt, if_neg hgt.not_ge]

theorem minS_eq (a b : Word) : minS a b = if a.toInt ≤ b.toInt then a else b := by
  simp only [minS, BitVec.slt_iff_toInt_lt]
  exact ite_lt_eq_ite_le BitVec.eq_of_toInt_eq

theorem maxS_eq (a b : Word) : maxS a b = if a.toInt ≤ b.toInt then b else a := by
  simp only [maxS, BitVec.slt_iff_toInt_lt]
  exact ite_lt_eq_ite_le (fun h => (BitVec.eq_of_toInt_eq h).symm)

theorem minU_eq (a b : Word) : minU a b = if a.toNat ≤ b.toNat then a else b := by
  simp only [minU, BitVec.ult_iff_lt, BitVec.lt_def]
  exact ite_lt_eq_ite_le BitVec.eq_of_toNat_eq

theorem maxU_eq (a b : Word) : maxU a b = if a.toNat ≤ b.toNat then b else a := by
  simp only [maxU, BitVec.ult_iff_lt, BitVec.lt_def]
  exact ite_lt_eq_ite_le (fun h => (BitVec.eq_of_toNat_eq h).symm)

/-! ### Counts (R122) -/

/-- The elements of 0, 1, … up to the first that fails. -/
theorem length_takeWhile_range {p : Nat → Bool} {n k : Nat} (hk : k ≤ n) (h : ∀ i < k, p i = true)
    (hend : k < n → p k = false) : ((List.range n).takeWhile p).length = k := by
  have idx : (List.range n).findIdx (fun i => !p i) = k := by
    rcases hk.lt_or_eq with hlt | rfl
    · rw [List.findIdx_eq (by simpa using hlt)]
      simp only [List.getElem_range, hend hlt]
      exact ⟨rfl, fun j hj => by rw [h j hj]; rfl⟩
    · conv_rhs => rw [← List.length_range (n := k)]
      rw [List.findIdx_eq_length]
      exact fun i hi => by rw [h i (List.mem_range.1 hi)]; rfl
  rw [List.takeWhile_eq_take_findIdx_not, idx, List.length_take, List.length_range, min_eq_left hk]

theorem clz_eq (a : Word) :
    clz a = BitVec.ofNat 64 ((List.range 64).takeWhile (fun i => !a.getLsbD (63 - i))).length := by
  unfold clz
  split
  case isTrue h =>
    rw [length_takeWhile_range (k := 64) (le_refl _) (fun i _ => by simp [h]) (by simp)]
    rfl
  case isFalse h =>
    have hne : a.toNat ≠ 0 := fun e => h (BitVec.eq_of_toNat_eq e)
    have hlog : a.toNat.log2 < 64 := (Nat.log2_lt hne).2 a.isLt
    have top : a.getLsbD a.toNat.log2 = true := Nat.testBit_log2 hne
    have above : ∀ i < 63 - a.toNat.log2, a.getLsbD (63 - i) = false := fun i hi =>
      Nat.testBit_lt_two_pow (Nat.lt_log2_self.trans_le (Nat.pow_le_pow_right (by omega) (by omega)))
    rw [length_takeWhile_range (k := 63 - a.toNat.log2) (by omega) (fun i hi => by rw [above i hi]; rfl)]
    intro _
    rw [show 63 - (63 - a.toNat.log2) = a.toNat.log2 by omega, top]
    rfl

theorem ctz_eq (a : Word) : ctz a = BitVec.ofNat 64 ((List.range 64).takeWhile (fun i => !a.getLsbD i)).length := by
  unfold ctz
  cases h : (List.range 64).find? (fun i => a.getLsbD i) with
  | none =>
    rw [length_takeWhile_range (k := 64) (le_refl _) (List.find?_range_eq_none.1 h) (by simp)]
    rfl
  | some k =>
    obtain ⟨set, mem, clear⟩ := List.find?_range_eq_some.1 h
    rw [length_takeWhile_range (List.mem_range.1 mem).le clear (fun _ => by rw [set]; rfl)]
    rfl

theorem popc_eq (a : Word) : popc a = BitVec.ofNat 64 ((List.range 64).filter (fun i => a.getLsbD i)).length := by
  rw [popc, List.countP_eq_length_filter]

/-! ### Immediates (R123) -/

theorem toInt_simm12 (imm : BitVec 12) : (simm12 imm).toInt = imm.toInt := BitVec.toInt_signExtend_of_le (by decide)

theorem simm12_eq_ofInt (imm : BitVec 12) : simm12 imm = BitVec.ofInt 64 imm.toInt := rfl

theorem add_simm12 (a : Word) (imm : BitVec 12) : a + simm12 imm = BitVec.ofInt 64 (a.toInt + imm.toInt) := by
  rw [BitVec.ofInt_add, BitVec.ofInt_toInt, simm12_eq_ofInt]

/-- A shift immediate within the limit of R123 is the count itself. -/
theorem shiftCount_simm12 {imm : BitVec 12} (h : imm.toNat < 64) : shiftCount (simm12 imm) = imm.toNat := by
  have hmsb : imm.msb = false := BitVec.msb_eq_false_iff_two_mul_lt.2 (by omega)
  rw [shiftCount, simm12, BitVec.signExtend_eq_setWidth_of_msb_false hmsb, BitVec.toNat_setWidth]
  omega

theorem shl_simm12 (a : Word) {imm : BitVec 12} (h : imm.toNat < 64) :
    shl a (simm12 imm) = BitVec.ofNat 64 (a.toNat * 2 ^ imm.toNat) := by
  rw [shl, shiftCount_simm12 h, shiftLeft_eq_ofNat]

theorem shr_simm12 (a : Word) {imm : BitVec 12} (h : imm.toNat < 64) :
    shr a (simm12 imm) = BitVec.ofNat 64 (a.toNat / 2 ^ imm.toNat) := by
  rw [shr, shiftCount_simm12 h, shiftRight_eq_ofNat]

theorem sar_simm12 (a : Word) {imm : BitVec 12} (h : imm.toNat < 64) :
    sar a (simm12 imm) = BitVec.ofInt 64 (a.toInt / 2 ^ imm.toNat) := by
  rw [sar, shiftCount_simm12 h, sshiftRight_eq_ofInt]

/-! ### Bitfields (R124) -/

theorem fieldU_eq (a : Word) (pos w : Nat) : fieldU a pos w = BitVec.ofNat 64 (fieldAt a pos w) := by
  rw [fieldU, fieldAt, ← Nat.shiftRight_eq_div_pow, ← BitVec.extractLsb'_toNat, BitVec.ofNat_toNat]

theorem fieldS_eq (a : Word) (pos w : Nat) : fieldS a pos w = BitVec.ofInt 64 (Int.bmod (fieldAt a pos w) (2 ^ w)) := by
  rw [fieldS, BitVec.signExtend, BitVec.toInt_eq_toNat_bmod, BitVec.extractLsb'_toNat, Nat.shiftRight_eq_div_pow, fieldAt]

theorem fieldAt_mul_le (a : Word) (pos w : Nat) : fieldAt a pos w * 2 ^ pos ≤ a.toNat :=
  (Nat.mul_le_mul_right _ (Nat.mod_le _ _)).trans (Nat.div_mul_le_self _ _)

theorem getLsbD_fieldMask {pos w : Nat} (h : pos + w ≤ 64) (i : Nat) :
    (fieldMask pos w).getLsbD i = (decide (pos ≤ i) && decide (i < pos + w)) := by
  simp only [fieldMask, BitVec.getLsbD_shiftLeft, BitVec.getLsbD_setWidth, BitVec.getLsbD_allOnes]
  by_cases hp : pos ≤ i
  · have hw : i < pos + w ↔ i - pos < w := by omega
    by_cases hi : i - pos < w
    · simp [hp, hw, hi, show i < 64 by omega, show i - pos < 64 by omega]
    · simp [hw, hi]
  · simp [hp, show i < pos by omega]

/-- The mask of a field cuts its bits out of a word, where they stand. -/
theorem and_fieldMask (a : Word) {pos w : Nat} (h : pos + w ≤ 64) :
    a &&& fieldMask pos w = BitVec.ofNat 64 (fieldAt a pos w * 2 ^ pos) := by
  refine BitVec.eq_of_getLsbD_eq fun i hi => ?_
  rw [BitVec.getLsbD_and, getLsbD_fieldMask h, BitVec.getLsbD_ofNat, fieldAt, Nat.testBit_mul_two_pow,
    Nat.testBit_mod_two_pow, Nat.testBit_div_two_pow]
  by_cases hp : pos ≤ i
  · have hw : i < pos + w ↔ i - pos < w := by omega
    simp [hp, hi, hw, Nat.sub_add_cancel hp, BitVec.getLsbD, Bool.and_comm]
  · simp [hp]

/-- Moved to a field's place, the low bits of a word are that field. -/
theorem fieldAt_shiftLeft (b : Word) {pos w : Nat} (h : pos + w ≤ 64) : fieldAt (b <<< pos) pos w = fieldAt b 0 w := by
  have cut : b.toNat * 2 ^ pos % 2 ^ 64 = b.toNat % 2 ^ (64 - pos) * 2 ^ pos := by
    rw [← Nat.mul_mod_mul_right, ← Nat.pow_add, Nat.sub_add_cancel (by omega)]
  rw [fieldAt, fieldAt, BitVec.toNat_shiftLeft, Nat.shiftLeft_eq, cut, Nat.mul_div_cancel _ (Nat.two_pow_pos pos),
    Nat.mod_mod_of_dvd _ (Nat.pow_dvd_pow 2 (by omega)), Nat.pow_zero, Nat.div_one]

/-- What a mask leaves out and what it keeps share no bit. -/
theorem and_not_and_and (a b m : Word) : (a &&& ~~~m) &&& (b &&& m) = 0#64 := by
  ext i hi
  simp only [BitVec.getElem_and, BitVec.getElem_not, BitVec.getElem_zero]
  cases m[i] <;> simp

/-- A word without a field is the word less the field's bits. -/
theorem and_not_eq_sub (a m : Word) : a &&& ~~~m = a - (a &&& m) := by
  rw [eq_comm, BitVec.sub_eq_iff_eq_add, BitVec.add_eq_or_of_and_eq_zero _ _ (and_not_and_and a a m)]
  ext i hi
  simp only [BitVec.getElem_or, BitVec.getElem_and, BitVec.getElem_not]
  cases m[i] <;> simp

/-- BFI replaces the field's bits alone (R124). -/
theorem insertField_eq (a b : Word) {pos w : Nat} (h : pos + w ≤ 64) : insertField a b pos w =
    BitVec.ofNat 64 (a.toNat - fieldAt a pos w * 2 ^ pos + fieldAt b 0 w * 2 ^ pos) := by
  have hle := fieldAt_mul_le a pos w
  rw [insertField, ← BitVec.add_eq_or_of_and_eq_zero _ _ (and_not_and_and _ _ _), and_not_eq_sub, and_fieldMask a h,
    and_fieldMask _ h, fieldAt_shiftLeft b h, BitVec.ofNat_add, ← BitVec.ofNat_sub_ofNat_of_le _ _ (hle.trans_lt a.isLt) hle,
    BitVec.ofNat_toNat, BitVec.setWidth_eq]

/-! ### The words of the forms (R95, R105) -/

theorem toNat_append_eq_add {m n : Nat} (x : BitVec m) (y : BitVec n) : (x ++ y).toNat = x.toNat * 2 ^ n + y.toNat := by
  rw [BitVec.toNat_append, ← Nat.shiftLeft_add_eq_or_of_lt y.isLt, Nat.shiftLeft_eq]

/-- The ruler of R95 for a control instruction with no guard, no token, no STOP and no spacing. -/
theorem toWord_hd_plain (op : BitVec 10) (fa fb fc fd fe : BitVec 6) :
    (hd 0 op plainMods 0 fa fb fc fd fe).toWord =
      BitVec.ofNat 64 (op.toNat * 2 ^ 52 + fa.toNat * 2 ^ 24 + fb.toNat * 2 ^ 18 +
        (fc.toNat * 2 ^ 12 + fd.toNat * 2 ^ 6 + fe.toNat)) := by
  have noGuard : (plainMods.ga.code).toNat = 0 ∧ (plainMods.gb.code).toNat = 0 := by decide
  obtain ⟨hga, hgb⟩ := noGuard
  refine BitVec.eq_of_toNat_eq ?_
  simp only [hd, Fields.toWord, toNat_append_eq_add, BitVec.toNat_ofNat, hga, hgb]
  simp [plainMods]
  omega

theorem encode_of_fields {i : Instr} {f : Fields} (hf : i.fields = some f) (hl : i.literal = none) :
    encode i = [f.toWord] := by
  unfold encode
  split
  · cases hf
  · rw [hf, hl]; rfl

/-- A control form without a literal has the word of its opcode and its operand fields. -/
theorem encode_plain {i : Instr} {op : BitVec 10} {fa fb fc fd fe : BitVec 6} {low : Nat}
    (hf : i.fields = some (hd 0 op plainMods 0 fa fb fc fd fe)) (hl : i.literal = none)
    (hlow : fc.toNat * 2 ^ 12 + fd.toNat * 2 ^ 6 + fe.toNat = low) :
    encode i = controlWord op.toNat fa.toNat fb.toNat low := by
  rw [encode_of_fields hf hl, toWord_hd_plain, hlow, controlWord]

theorem toNat_encS (r : SReg) : (encS r).toNat = r.val := by
  rw [encS, BitVec.toNat_ofNat, Nat.mod_eq_of_lt r.isLt]

theorem toNat_enc8 (r : Fin 8) : (enc8 r).toNat = r.val := by
  rw [enc8, BitVec.toNat_ofNat, Nat.mod_eq_of_lt (by omega)]

/-- The two fields of a 12-bit immediate, FD and FE, hold it whole (R104). -/
theorem hi6_lo6 (imm : BitVec 12) : (hi6 imm).toNat * 2 ^ 6 + (lo6 imm).toNat = imm.toNat := by
  simp only [hi6, lo6, BitVec.extractLsb'_toNat, Nat.shiftRight_eq_div_pow]
  omega

/-- Layout H with the shift in FD (LEA, R128). -/
theorem encode_lea (d a b : SReg) (sh : BitVec 6) :
    encode (.lea plainMods d a b sh) = controlWord 0x058 d.val a.val (b.val * 2 ^ 12 + sh.toNat * 2 ^ 6) := by
  have word := encode_plain (i := .lea plainMods d a b sh) (op := 0x058) (fc := encS b) (fd := sh) (fe := 0) rfl rfl rfl
  rw [word, toNat_encS, toNat_encS, toNat_encS]
  simp

/-- Layout U: a destination and one source. -/
theorem encode_layoutU {i : Instr} {op : BitVec 10} {d a : SReg}
    (hf : i.fields = some (hd 0 op plainMods 0 (encS d) (encS a) 0 0 0)) (hl : i.literal = none) :
    encode i = controlWord op.toNat d.val a.val 0 := by
  rw [encode_plain hf hl rfl, toNat_encS, toNat_encS]
  rfl

/-- Layout P: a predicate and two sources. -/
theorem encode_layoutP {i : Instr} {op : BitVec 10} {d : PReg} {a b : SReg}
    (hf : i.fields = some (hd 0 op plainMods 0 (enc8 d) (encS a) (encS b) 0 0)) (hl : i.literal = none) :
    encode i = controlWord op.toNat d.val a.val (b.val * 2 ^ 12) := by
  rw [encode_plain hf hl rfl, toNat_enc8, toNat_encS, toNat_encS]
  simp

/-- Layout Q: a predicate, a source and an immediate. -/
theorem encode_layoutQ {i : Instr} {op : BitVec 10} {d : PReg} {a : SReg} {imm : BitVec 12}
    (hf : i.fields = some (hd 0 op plainMods 0 (enc8 d) (encS a) 0 (hi6 imm) (lo6 imm))) (hl : i.literal = none) :
    encode i = controlWord op.toNat d.val a.val imm.toNat := by
  rw [encode_plain hf hl (low := imm.toNat) (by rw [← hi6_lo6 imm]; simp), toNat_enc8, toNat_encS]

/-! ### The forms that write one register (R118) -/

/-- The instruction goes on to the next address, its scalar destination holds `x`, and nothing else has changed. -/
def WritesScalar (i : Instr) (s : State) (d : SReg) (x : Word) : Prop :=
  ∃ t, exec i s = .next t ∧ Takes s t s.cur.next ∧ (after s t).getS d = (if d = 0 then 0 else x) ∧
    ScalarsBut d (mine s) (after s t) ∧ (after s t).p = (mine s).p

/-- The instruction goes on to the next address, its predicate holds the truth of `x`, and nothing else has changed. -/
def WritesPredicate (i : Instr) (s : State) (d : PReg) (x : Prop) : Prop :=
  ∃ t, exec i s = .next t ∧ Takes s t s.cur.next ∧ ((after s t).getP d = true ↔ d = 0 ∨ x) ∧
    PredicatesBut d (mine s) (after s t) ∧ (after s t).s = (mine s).s

section Forms

variable {i : Instr} {s : State} {m : Mods}

section Scalar

variable {d a b : SReg} {x : Word}

theorem writeS_writesScalar {uses : List SReg} {f : Strand → Word} (hd : Dispatches m (d :: uses) s)
    (he : exec i s = writeS m uses d f s)
    (hf : ∀ c v g spo, f { mine s with counters := c, views := v, gaps := g, spo := spo } = f (mine s))
    (hx : f (mine s) = x) : WritesScalar i s d x := by
  subst hx
  exact writeS_takes he hd hf

theorem aluA_writesScalar {g : Word → Word → Word} (hd : Dispatches m [d, a, b] s)
    (he : exec i s = aluA g m d a b s) (hx : g ((mine s).getS a) ((mine s).getS b) = x) : WritesScalar i s d x :=
  writeS_writesScalar hd he (fun _ _ _ _ => rfl) hx

theorem aluU_writesScalar {g : Word → Word} (hd : Dispatches m [d, a] s)
    (he : exec i s = aluU g m d a s) (hx : g ((mine s).getS a) = x) : WritesScalar i s d x :=
  writeS_writesScalar hd he (fun _ _ _ _ => rfl) hx

theorem aluI_writesScalar {g : Word → Word → Word} {imm : BitVec 12} (hd : Dispatches m [d, a] s)
    (he : exec i s = aluI g m d a imm s) (hx : g ((mine s).getS a) (simm12 imm) = x) : WritesScalar i s d x :=
  writeS_writesScalar hd he (fun _ _ _ _ => rfl) hx

end Scalar

section Predicate

variable {d : PReg} {a b : SReg} {x : Prop}

theorem writeP_writesPredicate {uses : List SReg} {f : Strand → Bool} (hd : Dispatches m uses s)
    (he : exec i s = writeP m uses d f s)
    (hf : ∀ c v g spo, f { mine s with counters := c, views := v, gaps := g, spo := spo } = f (mine s))
    (hx : f (mine s) = true ↔ x) : WritesPredicate i s d x := by
  obtain ⟨t, next, takes, value, others, scalars⟩ := writeP_takes he hd hf
  refine ⟨t, next, takes, ?_, others, scalars⟩
  rw [value, ← hx]
  by_cases h0 : d = 0 <;> simp [h0]

theorem cmpA_writesPredicate {g : Word → Word → Bool} (hd : Dispatches m [a, b] s)
    (he : exec i s = cmpA g m d a b s) (hx : g ((mine s).getS a) ((mine s).getS b) = true ↔ x) : WritesPredicate i s d x :=
  writeP_writesPredicate hd he (fun _ _ _ _ => rfl) hx

theorem cmpI_writesPredicate {g : Word → Word → Bool} {imm : BitVec 12} (hd : Dispatches m [a] s)
    (he : exec i s = cmpI g m d a imm s) (hx : g ((mine s).getS a) (simm12 imm) = true ↔ x) : WritesPredicate i s d x :=
  writeP_writesPredicate hd he (fun _ _ _ _ => rfl) hx

theorem predA_writesPredicate {g : Bool → Bool → Bool} {p q : PReg} (hd : Dispatches m [] s)
    (he : exec i s = predA g m d p q s) (hx : g ((mine s).getP p) ((mine s).getP q) = true ↔ x) : WritesPredicate i s d x :=
  writeP_writesPredicate hd he (fun _ _ _ _ => rfl) hx

end Predicate

end Forms

/-- R120, R121, R128: every register form writes its value. -/
theorem registerForm_writesScalar {i : Instr} {s : State} {m : Mods} {d : SReg} {uses : List SReg} {x : Word}
    (h : registerForm (mine s) i = some (m, d, uses, x)) (hd : Dispatches m uses s) : WritesScalar i s d x := by
  cases i with
  | add => cases h; exact aluA_writesScalar hd (g := (· + ·)) rfl rfl
  | sub => cases h; exact aluA_writesScalar hd (g := (· - ·)) rfl rfl
  | mul => cases h; exact aluA_writesScalar hd (g := (· * ·)) rfl (mul_eq_ofNat _ _)
  | mulh => cases h; exact aluA_writesScalar hd (g := mulHigh) rfl rfl
  | mulhu => cases h; exact aluA_writesScalar hd (g := mulHighU) rfl rfl
  | div => cases h; exact aluA_writesScalar hd (g := divS) rfl (divS_eq _ _)
  | divu => cases h; exact aluA_writesScalar hd (g := divU) rfl (divU_eq _ _)
  | rem => cases h; exact aluA_writesScalar hd (g := remS) rfl (remS_eq _ _)
  | remu => cases h; exact aluA_writesScalar hd (g := remU) rfl (remU_eq _ _)
  | and => cases h; exact aluA_writesScalar hd (g := (· &&& ·)) rfl rfl
  | or => cases h; exact aluA_writesScalar hd (g := (· ||| ·)) rfl rfl
  | xor => cases h; exact aluA_writesScalar hd (g := (· ^^^ ·)) rfl rfl
  | andn => cases h; exact aluA_writesScalar hd (g := fun a b => a &&& ~~~b) rfl rfl
  | shl => cases h; exact aluA_writesScalar hd (g := shl) rfl (shiftLeft_eq_ofNat _ _)
  | shr => cases h; exact aluA_writesScalar hd (g := shr) rfl (shiftRight_eq_ofNat _ _)
  | sar => cases h; exact aluA_writesScalar hd (g := sar) rfl (sshiftRight_eq_ofInt _ _)
  | rol => cases h; exact aluA_writesScalar hd (g := rol) rfl (rol_eq _ _)
  | ror => cases h; exact aluA_writesScalar hd (g := ror) rfl (ror_eq _ _)
  | min => cases h; exact aluA_writesScalar hd (g := minS) rfl (minS_eq _ _)
  | max => cases h; exact aluA_writesScalar hd (g := maxS) rfl (maxS_eq _ _)
  | minu => cases h; exact aluA_writesScalar hd (g := minU) rfl (minU_eq _ _)
  | maxu => cases h; exact aluA_writesScalar hd (g := maxU) rfl (maxU_eq _ _)
  | lea _ _ _ _ sh => cases h; exact aluA_writesScalar hd (g := fun a b => a + b <<< sh.toNat) rfl (lea_eq _ _ _)
  | _ => cases h

/-- Settles O1: each register form writes the value R120, R121 and R128 give, and LEA's word is that of layout H. -/
theorem registerFormsWriteTheirResult : Obligations.RegisterFormsWriteTheirResult := by
  unfold Obligations.RegisterFormsWriteTheirResult
  exact ⟨fun _ _ _ _ _ _ h hd => registerForm_writesScalar h hd, encode_lea⟩

/-! ### Immediate forms -/

theorem limits_of_wellFormed {i : Instr} (h : WellFormed i) : i.limitsOk = true := by
  unfold WellFormed Instr.wf at h
  exact (Bool.and_eq_true_iff.1 h).2

/-- APTS's code of the region of an address (R129). -/
theorem region_code (c : Ctx) (a : Word) : Region.code (c.region a) =
    if c.aploc.toNat ≤ a.toNat ∧ a.toNat < c.aploc.toNat + 2 ^ 16 then 1
    else if c.appod.toNat ≤ a.toNat ∧ a.toNat < c.appod.toNat + 2 ^ 20 then 2
    else if c.apfab.toNat ≤ a.toNat ∧ a.toNat < c.apfab.toNat + 2 ^ 48 then 3 else 0 := by
  simp only [Ctx.region, inWindow, Bool.and_eq_true, decide_eq_true_eq, apply_ite Region.code]
  rfl

/-- R122 to R125, R127, R129: every count, immediate form, bitfield and constant, PGET and APTS write their value. -/
theorem immediateForm_writesScalar {i : Instr} {s : State} {m : Mods} {d : SReg} {uses : List SReg} {x : Word}
    (hw : WellFormed i) (h : immediateForm (s.curCtx (me s)) (mine s) i = some (m, d, uses, x))
    (hd : Dispatches m uses s) : WritesScalar i s d x := by
  have limits := limits_of_wellFormed hw
  cases i with
  | clz => cases h; exact aluU_writesScalar hd (g := clz) rfl (clz_eq _)
  | ctz => cases h; exact aluU_writesScalar hd (g := ctz) rfl (ctz_eq _)
  | popc => cases h; exact aluU_writesScalar hd (g := popc) rfl (popc_eq _)
  | addi => cases h; exact aluI_writesScalar hd (g := (· + ·)) rfl (add_simm12 _ _)
  | andi => cases h; exact aluI_writesScalar hd (g := (· &&& ·)) rfl rfl
  | ori => cases h; exact aluI_writesScalar hd (g := (· ||| ·)) rfl rfl
  | xori => cases h; exact aluI_writesScalar hd (g := (· ^^^ ·)) rfl rfl
  | shli => cases h; exact aluI_writesScalar hd (g := shl) rfl (shl_simm12 _ (of_decide_eq_true limits))
  | shri => cases h; exact aluI_writesScalar hd (g := shr) rfl (shr_simm12 _ (of_decide_eq_true limits))
  | sari => cases h; exact aluI_writesScalar hd (g := sar) rfl (sar_simm12 _ (of_decide_eq_true limits))
  | bfx _ _ _ pos w => cases h; exact aluU_writesScalar hd (g := fun a => fieldS a pos.toNat (w.toNat + 1)) rfl (fieldS_eq _ _ _)
  | bfxu _ _ _ pos w => cases h; exact aluU_writesScalar hd (g := fun a => fieldU a pos.toNat (w.toNat + 1)) rfl (fieldU_eq _ _ _)
  | bfi _ _ _ _ pos w =>
    cases h
    exact aluA_writesScalar hd (g := fun a b => insertField a b pos.toNat (w.toNat + 1)) rfl
      (insertField_eq _ _ (of_decide_eq_true limits))
  | movi _ _ imm => cases h; exact writeS_writesScalar hd (f := fun _ => simm18 imm) rfl (fun _ _ _ _ => rfl) rfl
  | movl => cases h; exact writeS_writesScalar hd (f := fun _ => x) rfl (fun _ _ _ _ => rfl) rfl
  | addl _ _ _ lit => cases h; exact aluU_writesScalar hd (g := (· + lit)) rfl rfl
  | pget _ _ p =>
    cases h
    exact writeS_writesScalar hd (f := fun t => if t.getP p then 1 else 0) rfl (fun _ _ _ _ => rfl) rfl
  | apts _ _ a =>
    cases h
    exact writeS_writesScalar hd (f := fun t => Region.code ((s.curCtx s.cur.strand).region (t.getS a))) rfl
      (fun _ _ _ _ => rfl) (region_code _ _)
  | _ => cases h

/-- Settles O2: each of these forms writes the value its rule gives, and the counts and APTS have the words of layout U. -/
theorem immediateFormsWriteTheirResult : Obligations.ImmediateFormsWriteTheirResult := by
  unfold Obligations.ImmediateFormsWriteTheirResult
  exact ⟨fun _ _ _ _ _ _ hw h hd => immediateForm_writesScalar hw h hd, fun _ _ =>
    ⟨encode_layoutU (op := 0x018) rfl rfl, encode_layoutU (op := 0x019) rfl rfl,
      encode_layoutU (op := 0x01A) rfl rfl, encode_layoutU (op := 0x05B) rfl rfl⟩⟩

/-! ### Compares and predicates -/

theorem beq_iff_toNat_eq (a b : Word) : (a == b) = true ↔ a.toNat = b.toNat := by
  rw [beq_iff_eq, BitVec.toNat_inj]

theorem bne_iff_toNat_ne (a b : Word) : (a != b) = true ↔ a.toNat ≠ b.toNat := by
  rw [bne_iff_ne, BitVec.toNat_ne]

theorem beq_simm12_iff (a : Word) (imm : BitVec 12) : (a == simm12 imm) = true ↔ a.toInt = imm.toInt := by
  rw [beq_iff_eq, ← BitVec.toInt_inj, toInt_simm12]

theorem bne_simm12_iff (a : Word) (imm : BitVec 12) : (a != simm12 imm) = true ↔ a.toInt ≠ imm.toInt := by
  rw [bne_iff_ne, ne_eq, ← BitVec.toInt_inj, toInt_simm12]

theorem slt_simm12_iff (a : Word) (imm : BitVec 12) : a.slt (simm12 imm) = true ↔ a.toInt < imm.toInt := by
  rw [BitVec.slt_iff_toInt_lt, toInt_simm12]

theorem sle_simm12_iff (a : Word) (imm : BitVec 12) : a.sle (simm12 imm) = true ↔ a.toInt ≤ imm.toInt := by
  rw [BitVec.sle_iff_toInt_le, toInt_simm12]

theorem and_not_iff (a b : Bool) : (a && !b) = true ↔ a = true ∧ b = false := by
  rw [Bool.and_eq_true_iff, Bool.not_eq_true']

/-- R126, R127: every compare and predicate instruction writes the truth of its relation. -/
theorem predicateForm_writesPredicate {i : Instr} {s : State} {m : Mods} {d : PReg} {uses : List SReg} {x : Prop}
    (h : predicateForm (mine s) i = some (m, d, uses, x)) (hd : Dispatches m uses s) : WritesPredicate i s d x := by
  cases i with
  | cmpeq => cases h; exact cmpA_writesPredicate hd (g := (· == ·)) rfl (beq_iff_toNat_eq _ _)
  | cmpne => cases h; exact cmpA_writesPredicate hd (g := (· != ·)) rfl (bne_iff_toNat_ne _ _)
  | cmplt => cases h; exact cmpA_writesPredicate hd (g := BitVec.slt) rfl BitVec.slt_iff_toInt_lt
  | cmple => cases h; exact cmpA_writesPredicate hd (g := BitVec.sle) rfl BitVec.sle_iff_toInt_le
  | cmpltu => cases h; exact cmpA_writesPredicate hd (g := BitVec.ult) rfl BitVec.ult_iff_lt
  | cmpleu => cases h; exact cmpA_writesPredicate hd (g := BitVec.ule) rfl BitVec.ule_iff_le
  | cmpeqi => cases h; exact cmpI_writesPredicate hd (g := (· == ·)) rfl (beq_simm12_iff _ _)
  | cmpnei => cases h; exact cmpI_writesPredicate hd (g := (· != ·)) rfl (bne_simm12_iff _ _)
  | cmplti => cases h; exact cmpI_writesPredicate hd (g := BitVec.slt) rfl (slt_simm12_iff _ _)
  | cmplei => cases h; exact cmpI_writesPredicate hd (g := BitVec.sle) rfl (sle_simm12_iff _ _)
  | cmpltui => cases h; exact cmpI_writesPredicate hd (g := BitVec.ult) rfl BitVec.ult_iff_lt
  | cmpleui => cases h; exact cmpI_writesPredicate hd (g := BitVec.ule) rfl BitVec.ule_iff_le
  | pand => cases h; exact predA_writesPredicate hd (g := (· && ·)) rfl Bool.and_eq_true_iff
  | por => cases h; exact predA_writesPredicate hd (g := (· || ·)) rfl Bool.or_eq_true_iff
  | pxor => cases h; exact predA_writesPredicate hd (g := (· != ·)) rfl bne_iff_ne
  | pandn => cases h; exact predA_writesPredicate hd (g := fun p q => p && !q) rfl (and_not_iff _ _)
  | pset _ _ a =>
    cases h
    exact writeP_writesPredicate hd (f := fun t => t.getS a != 0) rfl (fun _ _ _ _ => rfl) (bne_iff_toNat_ne _ 0)
  | _ => cases h

/-- Settles O3: each compare and predicate instruction writes the truth of its relation, and the compares have the words of
layouts P and Q. -/
theorem predicateFormsWriteTheirTruth : Obligations.PredicateFormsWriteTheirTruth := by
  unfold Obligations.PredicateFormsWriteTheirTruth
  refine ⟨fun _ _ _ _ _ _ h hd => predicateForm_writesPredicate h hd, fun _ _ _ => ?_, fun _ _ _ => ?_⟩
  · exact ⟨encode_layoutP (op := 0x040) rfl rfl, encode_layoutP (op := 0x041) rfl rfl,
      encode_layoutP (op := 0x042) rfl rfl, encode_layoutP (op := 0x043) rfl rfl,
      encode_layoutP (op := 0x044) rfl rfl, encode_layoutP (op := 0x045) rfl rfl⟩
  · exact ⟨encode_layoutQ (op := 0x048) rfl rfl, encode_layoutQ (op := 0x049) rfl rfl,
      encode_layoutQ (op := 0x04A) rfl rfl, encode_layoutQ (op := 0x04B) rfl rfl,
      encode_layoutQ (op := 0x04C) rfl rfl, encode_layoutQ (op := 0x04D) rfl rfl⟩

end Sys2Proof.Machine
end

section
/-! SUPPORT. TACK and ERET (R140, R324): what each makes of the strand, when ERET raises PRIV and when it waits, and the statement
about leaving a handler. -/

namespace Sys2Proof.Machine

open Sys2Proof.Safety Sys2Proof.Claims

/-! ### What dispatching leaves of the strand -/

section Dispatched

variable (s : State) (n : StrandId) (m : Mods)

@[simp] theorem State.dispatched_level : ((s.dispatched n m).strand n).level = (s.strand n).level := by
  obtain ⟨spo, vs, h⟩ := s.dispatched_strand n m
  rw [h]

@[simp] theorem State.dispatched_trapRegs (L : Nat) :
    ((s.dispatched n m).strand n).trapRegs L = (s.strand n).trapRegs L := by
  obtain ⟨spo, vs, h⟩ := s.dispatched_strand n m
  rw [h]
  rfl

@[simp] theorem State.dispatched_idle : ((s.dispatched n m).strand n).idle = (s.strand n).idle := by
  obtain ⟨spo, vs, h⟩ := s.dispatched_strand n m
  rw [h]
  rfl

@[simp] theorem State.dispatched_pend : ((s.dispatched n m).strand n).pend = (s.strand n).pend := by
  obtain ⟨spo, vs, h⟩ := s.dispatched_strand n m
  rw [h]

end Dispatched

/-- A control instruction that may dispatch and whose rule holds dispatch: nothing changes where its wait is not marked. -/
theorem controlWith_wait {m : Mods} {uses : List SReg} {settled : Bool} {body : State → StrandId → Effect} {s : State}
    (hd : Dispatches m uses s) (hs : settled = true → Settled s)
    (hb : body (s.dispatched (me s) m) (me s) = .wait) :
    controlWith m none uses settled false body s = .next s := by
  have ready : uses.any (mine s).busy = false := by simpa [List.any_eq_false] using hd.loaded
  have older : (settled && !(mine s).passedBefore (mine s).nseq) = false := by
    cases settled with
    | false => rfl
    | true => rw [show (mine s).passedBefore (mine s).nseq = true from hs rfl]; rfl
  simp [controlWith, hd.spaced, hd.guards, ready, older, hb]

/-! ### TACK -/

theorem exec_tack (m : Mods) (s : State) : exec (.tack m) s = execTack m s := rfl

/-- TACK's change of the strand: TLOCK is clear. -/
def Strand.acknowledged (t : Strand) : Strand := { t with tlock := false }

theorem tack_next {s : State} {m : Mods} (hd : Dispatches m [] s) (hs : Settled s) :
    exec (.tack m) s = .next (s.took m Strand.acknowledged) := by
  rw [exec_tack]
  exact controlWith_go hd (fun _ => hs) rfl

/-- A cycle that clears TLOCK counts, goes on to the next address and leaves everything else of the strand. -/
theorem took_acknowledged (s : State) (m : Mods) :
    OnlyMe s (s.took m Strand.acknowledged) ∧
    Counted { mine s with tlock := false } (after s (s.took m Strand.acknowledged)) ∧
    SameScalars (mine s) (after s (s.took m Strand.acknowledged)) ∧
    (after s (s.took m Strand.acknowledged)).pc = s.cur.next := by
  obtain ⟨spo, w, vs, h⟩ := s.took_eq m Strand.acknowledged
  refine ⟨OnlyMe.intro h, ?_⟩
  rw [after_of h]
  refine ⟨⟨?_, fun c hc => ?_, rfl⟩, ⟨rfl, rfl⟩, rfl⟩
  · exact Vector.getElem_set_self _
  · exact Vector.getElem_set_ne (by decide) c.isLt (fun e => hc (Fin.ext e.symm))

/-! ### ERET -/

theorem exec_eret (m : Mods) (s : State) : exec (.eret m) s = execEret m s := rfl

/-- TCAUSE's PLV, bits 9:8 (R322), in the numbers of the spec. -/
theorem bits_plv (n : Nat) : bits n 8 2 = n / 256 % 4 := by
  rw [bits, Nat.shiftRight_eq_div_pow]
  rfl

/-- The state after an ERET that returns: it has counted, and its strand has left the handler. -/
def State.returned (s : State) (m : Mods) : State :=
  (s.dispatched (me s) m).modStrand (me s) (fun t => { t.returnFrom with waiting := false })

/-- What an ERET that returns changes of the state: the acting strand alone. -/
theorem State.returned_eq (s : State) (m : Mods) :
    ∃ spo w vs, s.returned m = { s.setStrand (me s) { Strand.returnFrom { mine s with
        counters := (mine s).counters.set 0 ((mine s).counters[0] + 1), views := vs,
        gaps := (mine s).gaps.set 0 0, spo := spo } with waiting := false } with
      mgmt := { s.mgmt with wraps := w } } := by
  obtain ⟨spo, w, vs, h⟩ := s.dispatched_eq (me s) m
  refine ⟨spo, w, vs, ?_⟩
  rw [State.returned, h]
  simp [State.modStrand, State.setStrand, State.strand]

section Eret

variable {s : State} {m : Mods}

/-- R140: outside a handler, or to a level not below its own, ERET raises PRIV. -/
theorem eret_raises_priv (hd : Dispatches m [] s) (hs : Settled s)
    (h : (mine s).level = 0 ∨ (mine s).level.val ≤ ((mine s).trapRegs (mine s).level.val).cause.toNat / 256 % 4) :
    Raises (.eret m) s m ⟨0x03, 0, 0⟩ := by
  rw [Raises, exec_eret]
  refine controlWith_trap hd (fun _ => hs) (by decide) ?_
  simp [bits_plv, h, plainTrap, cPriv]

variable (hd : Dispatches m [] s) (hs : Settled s) (hl : (mine s).level ≠ 0)
  (hp : ((mine s).trapRegs (mine s).level.val).cause.toNat / 256 % 4 < (mine s).level.val)

include hd hs hl hp

/-- R324: ERET waits for every older instruction and for what they still write. -/
theorem eret_waits (h : (mine s).idle = false ∨ (mine s).pend ≠ []) : exec (.eret m) s = .next s := by
  rw [exec_eret]
  refine controlWith_wait hd (fun _ => hs) ?_
  simp [bits_plv, hl, hp, h]

/-- R324: with nothing outstanding, the strand returns from its handler. -/
theorem eret_next (hi : (mine s).idle = true) (he : (mine s).pend = []) :
    exec (.eret m) s = .next (s.returned m) := by
  rw [exec_eret]
  refine (controlWith_go (s' := (s.dispatched (me s) m).modStrand (me s) Strand.returnFrom) hd (fun _ => hs) ?_).trans ?_
  · simp [bits_plv, hl, hp, hi, he, State.modStrand]
  · rw [State.modStrand_modStrand]
    rfl

end Eret

/-! ### The return from a handler (R324) -/

theorem Strand.returnFrom_level (t : Strand) :
    t.returnFrom.level.val = (t.trapRegs t.level.val).cause.toNat / 256 % 4 := by
  rw [← bits_plv]
  exact Nat.mod_eq_of_lt (Nat.mod_lt _ (by decide))

/-- Levels 1 to 3 each have their own set of trap registers and their own place for held records. -/
theorem trapIndex_val {L : Fin 4} (h : L ≠ 0) : (trapIndex L.val).val = L.val - 1 := by
  revert L; decide

/-- The vector writes that come back are those which the entry to this level held. -/
theorem Strand.returnFrom_pend {t : Strand} (h : t.level ≠ 0) : t.held.toList[t.level.val - 1]? = some t.returnFrom.pend := by
  rw [← trapIndex_val h, Vector.getElem?_toList]
  exact Vector.getElem?_eq_getElem _

/-- The acting strand has left its handler (R324): TLOCK is clear, level, program counter and held records are those of the entry, and
the registers, the tiles and the queues are as the handler left them. -/
structure Returned (a b : Strand) : Prop where
  lock : b.tlock = false
  level : b.level.val = (a.trapRegs a.level.val).cause.toNat / 256 % 4
  pc : b.pc = (a.trapRegs a.level.val).pc
  held : a.held.toList[a.level.val - 1]? = some b.pend
  traps : b.traps = a.traps
  scalars : SameScalars a b
  vectors : b.v = a.v
  masks : b.k = a.k
  tiles : SameTiles a b

theorem State.returned_leaves_handler (s : State) (m : Mods) (hl : (mine s).level ≠ 0) :
    OnlyMe s (s.returned m) ∧ Returned (mine s) (after s (s.returned m)) := by
  obtain ⟨spo, w, vs, h⟩ := s.returned_eq m
  refine ⟨OnlyMe.intro h, ?_⟩
  rw [after_of h]
  exact ⟨rfl, (mine s).returnFrom_level, rfl, Strand.returnFrom_pend hl, rfl, ⟨rfl, rfl⟩, rfl, rfl,
    ⟨rfl, rfl, rfl, rfl, rfl, rfl⟩⟩

/-- Settles O13: TACK takes a cycle that clears TLOCK; ERET raises PRIV, waits, or returns from the handler, as the level, TCAUSE's
PLV and the older work decide. -/
theorem tackAndEretLeaveTheHandler : Obligations.TackAndEretLeaveTheHandler := by
  unfold Obligations.TackAndEretLeaveTheHandler
  intro s m hd hs
  refine ⟨⟨_, tack_next hd hs, took_acknowledged s m⟩, eret_raises_priv hd hs, eret_waits hd hs, fun hl hp hi he => ?_⟩
  obtain ⟨only, ret⟩ := s.returned_leaves_handler m hl
  exact ⟨_, eret_next hd hs hl hp hi he, only, ret.lock, ret.level, ret.pc, ret.held, ret.traps, ret.scalars, ret.vectors,
    ret.masks, ret.tiles⟩

end Sys2Proof.Machine
end
